-- ==== Sys2Proof/Word.lean ====
section
/-! DEFINITION. The word and the address: the two bit-vector types everything is made of. -/

namespace Sys2Proof

/-- The machine word, 18 bits (R12). The spec numbers its bits from the most significant one (R14), which is
`BitVec.getMsbD`: the spec's `w<i>` is `w.getMsbD i`. -/
abbrev Word := BitVec 18

/-- A word address, wide enough for the widest variant (17 bits on VD, R11). On a narrower variant an address held
in a register stays within that variant's `AMASK` (R13, R82). -/
abbrev Addr := BitVec 17

end Sys2Proof
end

