-- ==== Sys2Proof/Config.lean ====
section
/-! DEFINITION. What an implementation fixes: the configuration record of R11, the configuration the model's reset
state carries, and the values the spec leaves free (R401, R366), which are constants with no body. -/

namespace Sys2Proof

/-- The four upward-compatible variants (R2). -/
inductive Variant where
  | VA | VB | VC | VD
deriving DecidableEq, Repr

/-- The memory-protection scheme that is installed, at most one (R4, R11). -/
inductive ProtScheme where
  | none | bounds | reloc | xvm
deriving DecidableEq, Repr

/-- Where the auto-index window lies (R11, R89). -/
inductive AutoIndexScope where
  | perField | fieldZero
deriving DecidableEq, Repr

/-- What a malformed word does (R11, R145). -/
inductive UnimplPolicy where
  | stop | nop
deriving DecidableEq, Repr

/-- One entry of `XvmWindowTable` (R11, R95). -/
structure XvmWindow where
  vstart : Nat := 0
  length : Nat := 0
  pbase : Nat := 0
deriving DecidableEq, Repr

/-- `XvmWindowTable`, four entries indexed by a 2-bit field of MMR (R49, R95). -/
structure XvmTable where
  w0 : XvmWindow := {}
  w1 : XvmWindow := {}
  w2 : XvmWindow := {}
  w3 : XvmWindow := {}
deriving DecidableEq, Repr

/-- One valid entry of `ApiVecTable`: hardware level, device line, vector address (R11, R369). A pair of level and
line with no entry is `invalid`. -/
structure ApiVector where
  level : Nat
  line : Nat
  addr : Addr
deriving DecidableEq, Repr

/-- `FpExcOffset`: the FP15 exception kinds' offsets from the base (R11, R345). -/
structure FpExcOffsets where
  ovf : Addr := 1
  unf : Addr := 2
  div : Addr := 3
  mm : Addr := 4
deriving DecidableEq, Repr

/-- The configuration record `Cfg` (R11). The fields that the table of R11 fixes by the variant (`AddrWidth`, `hasPageMode`,
`hasIndex`) are functions of it, below. A field's default is the value of the table of R11 where it gives one; `unimplPolicy`
and, on VD, `MemmInit` are "param" there, with no value: their defaults here are a DESIGN CHOICE (log entry 2). -/
structure Cfg where
  variant : Variant
  /-- Installed words (R11, R56). -/
  memSize : Nat
  hasEAE : Bool
  hasAPI : Bool
  protScheme : ProtScheme
  hasFP15 : Bool
  autoIndexScope : AutoIndexScope
  /-- The nested XCT limit `XctMax` (R178). -/
  xctMax : Nat := 16
  unimplPolicy : UnimplPolicy := .stop
  /-- The addressing-mode flag at reset, `MemmInit` (R400). -/
  memmInit : Bool := false
  /-- The addressing-mode flag forced on entry, `EntryMemm` (R374). -/
  entryMemm : Bool := false
  execNxmTraps : Bool := false
  /-- What a read of non-existent memory returns when it does not trap (R98). -/
  faultReadValue : Word := 0
  apiVecTable : List ApiVector := []
  xvmTable : XvmTable := {}
  /-- `ProtGranule`, the granule of BR and RR (R11, R93, R94, I21). -/
  protGranule : Word := 256
  stopOnSelfLoop : Bool := true
  fpExcOffset : FpExcOffsets := {}
  pcqDepth : Nat := 8
deriving DecidableEq, Repr

/-- `AddrWidth` (R11). -/
def Variant.addrWidth : Variant → Nat
  | .VA => 13
  | .VB => 15
  | .VC => 15
  | .VD => 17

/-- `hasIndex` (R11): XR, LR and the index operates exist on VD alone. -/
def Cfg.hasIndex (c : Cfg) : Bool := c.variant == .VD

/-- `hasPageMode` (R11): page addressing exists on VD alone. -/
def Cfg.hasPageMode (c : Cfg) : Bool := c.variant == .VD

/-- `autoIndexScope` of a variant (R11, D11, C3). -/
def Variant.autoIndexScope : Variant → AutoIndexScope
  | .VA => .fieldZero
  | .VB => .perField
  | .VC => .fieldZero
  | .VD => .fieldZero

/-- The configurations the matrix of R11 allows (R4, R405). A cell that is "param" or "option", and one that the spec calls a
parameter with a default (`XctMax`, `ExecNxmTraps`, `FaultReadValue`, `ProtGranule`, `StopOnSelfLoop`, `FpExcOffset`; D18, D35,
D36, I11, I21, I24), may differ from machine to machine; every other cell is fixed (log entry 25). That the granule is a
power of two, not zero, is the model's DESIGN CHOICE (log entry 25): the spec gives the mask `ProtGranule - 1` and the value
256, and does not say which other values the parameter may take. -/
def Cfg.valid (c : Cfg) : Bool :=
  decide (1 ≤ c.memSize) && decide (c.memSize ≤ 2 ^ c.variant.addrWidth)
  && (!c.hasEAE || c.variant != .VA)
  && (!c.hasAPI || c.variant == .VC || c.variant == .VD)
  && (match c.variant, c.protScheme with
      | _, .none => true
      | .VC, .bounds => true
      | .VD, .reloc => true
      | .VD, .xvm => true
      | _, _ => false)
  && (!c.hasFP15 || c.variant == .VD)
  && (c.autoIndexScope == c.variant.autoIndexScope)
  && (!c.memmInit || c.variant == .VD)
  && !c.entryMemm
  && (c.protGranule != 0) && (c.protGranule &&& (c.protGranule - 1)) == 0
  && c.pcqDepth == 8

/-- The configuration `State.reset` carries: VD with every option, so that every row of the opcode table decodes to
its own instruction, and all of memory installed. DESIGN CHOICE (log entry 2), unsafe where a claim rests on it: the spec
fixes no one configuration. So are the two parameters that R11 gives no value: `unimplPolicy` is stop, and `MemmInit` is 0,
page addressing at reset. -/
def Cfg.full : Cfg where
  variant := .VD
  memSize := 131072
  hasEAE := true
  hasAPI := true
  protScheme := .xvm
  hasFP15 := true
  autoIndexScope := .fieldZero
  unimplPolicy := .stop
  memmInit := false

/-- The interrupt request vectors a move of the device agent names (R39). -/
inductive ReqLevel where
  | api0 | api1 | api2 | api3 | pi
deriving DecidableEq, Repr

/-- One step of the device agent on a request line: `setRequest` or `clearRequest` (R365). -/
structure ReqMove where
  level : ReqLevel
  line : BitVec 5
  asserted : Bool
deriving DecidableEq, Repr

/-- The device agent's answer to one `ioTransfer` (R231, R366): the word `r`, at least 19 bits wide, and the request
lines it changes in the same step. -/
structure IoAnswer where
  word : Nat
  moves : List ReqMove
deriving DecidableEq, Repr, Inhabited

/-- FREE VALUE (log entry 5). What the word at a physical address holds at power-on: "memory contents unspecified (each word a
free value)" (R401, R56). -/
opaque Config.powerOnWord : Nat → Word

/-- FREE VALUE (log entry 6). The device agent's answer to `ioTransfer(code, AC, dev)` (R231, R366), for the n-th draw. -/
opaque Config.ioAnswer : (draw : Nat) → (code : BitVec 6) → (ac : Word) → (dev : BitVec 6) → IoAnswer

/-- FREE VALUE (log entry 6). The device agent's answer to `statusPoll()` (R244, R366), for the n-th draw. -/
opaque Config.statusPoll : (draw : Nat) → Word

end Sys2Proof
end

