-- ==== Sys2Proof/Syntax.lean ====
section
/-! DEFINITION. The instructions: one constructor for each row of the opcode table, with the operand fields of its
format. A field that the spec says is ignored is kept as data, so that no bit of a word is lost (R144, R222). -/

namespace Sys2Proof

/-- The operand of a memory-reference word (R131): the indirect bit IR<4> and IR<5:17>. In page mode the top bit of `y` is
the index bit X (R87); which mode applies is known only when the instruction runs. -/
structure MemOperand where
  ind : Bool
  y : BitVec 13
deriving DecidableEq, Repr

/-- The micro-operation bits of an operate word, IR<5> to IR<17> in order (R134). -/
structure OperateOps where
  cla : Bool := false
  cll : Bool := false
  rtwo : Bool := false
  skp : Bool := false
  snl : Bool := false
  sza : Bool := false
  sma : Bool := false
  hlt : Bool := false
  rar : Bool := false
  ral : Bool := false
  oas : Bool := false
  cml : Bool := false
  cma : Bool := false
deriving DecidableEq, Repr

/-- An IOT word (R136): the two ignored bits IR<4:5>, the device, the subdevice, the clear bit IR<14> and the pulses. -/
structure IotWord where
  ign : BitVec 2
  dev : BitVec 6
  sdev : BitVec 2
  cla : Bool
  pulse : BitVec 3
deriving DecidableEq, Repr

/-- What varies in an IOT word whose device and code a rule claims: the ignored bits and the clear bit (R144, R230). -/
structure IotForm where
  ign : BitVec 2 := 0
  cla : Bool := false
deriving DecidableEq, Repr

/-- The pre-step bits of an EAE word, IR<4> to IR<8> in order (R140). -/
structure EaePre where
  sgnl : Bool := false
  clq : Bool := false
  sign : Bool := false
  acmq : Bool := false
  cla : Bool := false
deriving DecidableEq, Repr

/-- The EAE commands (R140); command 2 is reserved (R292) and has no constructor. -/
inductive EaeCmd where
  | setup | multiply | divide | normalize | lrs | lls | als
deriving DecidableEq, Repr

/-- The modifier bits of an FP15 word (R138): IR<10> to IR<14> and the sign modifier IR<16:17>. -/
structure FpMods where
  noload : Bool := false
  dp : Bool := false
  fp : Bool := false
  nonorm : Bool := false
  nornd : Bool := false
  sgn : BitVec 2 := 0
deriving DecidableEq, Repr

/-- The condition bits of an FP15 BR word (R335): the ignored IR<10:11>, then IR<12>, IR<13>, IR<14>, IR<16>, IR<17>. -/
structure BrConds where
  ign : BitVec 2 := 0
  zero : Bool := false
  positive : Bool := false
  negative : Bool := false
  grd : Bool := false
  reverse : Bool := false
deriving DecidableEq, Repr

/-- The instructions, in the order of `spec/opcode_table.json`. -/
inductive Instr where
  -- memory reference (R170 to R182)
  | cal (ign : BitVec 14)
  | dac (m : MemOperand)
  | jms (m : MemOperand)
  | dzm (m : MemOperand)
  | lac (m : MemOperand)
  | xor (m : MemOperand)
  | add (m : MemOperand)
  | tad (m : MemOperand)
  | xct (m : MemOperand)
  | isz (m : MemOperand)
  | and (m : MemOperand)
  | sad (m : MemOperand)
  | jmp (m : MemOperand)
  -- operate: any word of the group that is none of the named combinations, then those (R206, R207)
  | opr (o : OperateOps)
  | nop
  | cma
  | cml
  | oas
  | ral
  | rar
  | iac
  | hlt
  | sma
  | sza
  | smaSza
  | snl
  | skp
  | spa
  | sna
  | spaSna
  | szl
  | rtl
  | rtr
  | bsw
  | cll
  | stl
  | rcl
  | rcr
  | cla
  | clc
  | las
  | glk
  -- load immediate (R209)
  | law (n : BitVec 13)
  -- index operate (R210 to R222)
  | pax (imm : BitVec 9)
  | pal (imm : BitVec 9)
  | aac (imm : BitVec 9)
  | pxa (imm : BitVec 9)
  | axs (imm : BitVec 9)
  | pxl (imm : BitVec 9)
  | pla (imm : BitVec 9)
  | plx (imm : BitVec 9)
  | clac (imm : BitVec 9)
  | clx (imm : BitVec 9)
  | cllr (imm : BitVec 9)
  | axr (imm : BitVec 9)
  -- I/O transfer: any word of the class that no rule claims, then the processor's own words (R230 to R264)
  | iot (w : IotWord)
  | iof (f : IotForm)
  | ion (f : IotForm)
  | iors (f : IotForm)
  | caf (f : IotForm)
  | dbk (f : IotForm)
  | dbr (f : IotForm)
  | mpsk (f : IotForm)
  | mpcne (f : IotForm)
  | mpcv (ign : BitVec 2)
  | mpld (f : IotForm)
  | mplr (f : IotForm)
  | mplmr (f : IotForm)
  | mprmr (ign : BitVec 2)
  | mpsne (f : IotForm)
  | mpeu (f : IotForm)
  | semSba (f : IotForm)
  | eem (f : IotForm)
  | lem (f : IotForm)
  | eba (f : IotForm)
  | dba (f : IotForm)
  | emirRes (f : IotForm)
  | spi (f : IotForm)
  | isa (f : IotForm)
  | rpl (f : IotForm)
  -- EAE: any word of the class that is none of the named ones, then those (R280 to R291)
  | eae (pre : EaePre) (cmd : EaeCmd) (n : BitVec 6)
  | osc
  | omq
  | cmq
  | lacs
  | lacq
  | abs
  | clq
  | lmq
  | gsm
  | mul
  | muls
  | div
  | divs
  | idiv
  | idivs
  | frdiv
  | frdivs
  | norm
  | norms
  | lrs (n : BitVec 6)
  | lrss (n : BitVec 6)
  | lls (n : BitVec 6)
  | llss (n : BitVec 6)
  | als (n : BitVec 6)
  | alss (n : BitVec 6)
  -- FP15 (R321 to R335)
  | fpSub (m : FpMods)
  | fpRsub (m : FpMods)
  | fpMul (m : FpMods)
  | fpDiv (m : FpMods)
  | fpRdiv (m : FpMods)
  | ld (m : FpMods)
  | st (m : FpMods)
  | flt (m : FpMods)
  | fix (m : FpMods)
  | lfmq (m : FpMods)
  | jea (m : FpMods)
  | fpAdd (m : FpMods)
  | br (c : BrConds)
deriving DecidableEq, Repr

end Sys2Proof
end

