-- ==== Sys2Proof/Decode.lean ====
section
/-! DEFINITION. The decoder (R130 to R145), total on any word, rejecting malformed words by name; then the encoder,
written from the same tables; then `decodeTableWord`. An instruction is read from its first word alone (R130): the second
word of an EAE multiply or divide and of an FP15 instruction is read by the meaning, from the place the rules give
(R178, R284, R311). -/

namespace Sys2Proof

/-- Why a word is malformed (R145). The machine then follows `unimplPolicy`. -/
inductive Reject where
  /-- an EAE word on a machine without EAE -/
  | eaeAbsent
  /-- EAE command 2 (R292) -/
  | eaeCmdReserved
  /-- index-operate sub-codes 0o00, 0o07, 0o12, 0o13 (R222) -/
  | indexSubReserved
  /-- FP15 subops 0o00, 0o16, 0o17 (R139) -/
  | fpSubopReserved
  /-- FP15 bit 15 is 1 (R138) -/
  | fpBit15
  /-- rotate codes 3 and 7 on VA, VB, VC (R143) -/
  | rotateReserved
deriving DecidableEq, Repr

/-! ## Fields of a word -/

/-- The operand of a memory-reference word (R131). -/
def memOperandOf (w : Word) : MemOperand := ⟨w.getMsbD 4, w.extractLsb' 0 13⟩

/-- The micro-operation bits of an operate word (R134). -/
def operateOpsOf (w : Word) : OperateOps where
  cla := w.getMsbD 5
  cll := w.getMsbD 6
  rtwo := w.getMsbD 7
  skp := w.getMsbD 8
  snl := w.getMsbD 9
  sza := w.getMsbD 10
  sma := w.getMsbD 11
  hlt := w.getMsbD 12
  rar := w.getMsbD 13
  ral := w.getMsbD 14
  oas := w.getMsbD 15
  cml := w.getMsbD 16
  cma := w.getMsbD 17

/-- The fields of an IOT word (R136). -/
def iotWordOf (w : Word) : IotWord where
  ign := w.extractLsb' 12 2
  dev := w.extractLsb' 6 6
  sdev := w.extractLsb' 4 2
  cla := w.getMsbD 14
  pulse := w.extractLsb' 0 3

/-- The pulse code passed to a device, `IR & 0o67` (R136). -/
def IotWord.code (w : IotWord) : BitVec 6 := w.sdev ++ 0#1 ++ w.pulse

/-- The pre-step bits of an EAE word (R140). -/
def eaePreOf (w : Word) : EaePre where
  sgnl := w.getMsbD 4
  clq := w.getMsbD 5
  sign := w.getMsbD 6
  acmq := w.getMsbD 7
  cla := w.getMsbD 8

/-- The modifier bits of an FP15 word (R138). -/
def fpModsOf (w : Word) : FpMods where
  noload := w.getMsbD 10
  dp := w.getMsbD 11
  fp := w.getMsbD 12
  nonorm := w.getMsbD 13
  nornd := w.getMsbD 14
  sgn := w.extractLsb' 0 2

/-- The condition bits of an FP15 BR word (R335). -/
def brCondsOf (w : Word) : BrConds where
  ign := w.extractLsb' 6 2
  zero := w.getMsbD 12
  positive := w.getMsbD 13
  negative := w.getMsbD 14
  grd := w.getMsbD 16
  reverse := w.getMsbD 17

/-! ## The named words -/

/-- The rotate group `rot = 4*IR<7> + 2*IR<13> + IR<14>` (R134). -/
def OperateOps.rot (o : OperateOps) : Nat := 4 * o.rtwo.toNat + 2 * o.rar.toNat + o.ral.toNat

/-- The rotate codes 3 and 7 (R134), which exist on VD alone (R143, R204). -/
def OperateOps.rotExtra (o : OperateOps) : Bool := o.rar && o.ral

/-- The named operate combinations (R207). -/
def operateRows : List (OperateOps × Instr) := [
  ({}, .nop),
  ({ cma := true }, .cma),
  ({ cml := true }, .cml),
  ({ oas := true }, .oas),
  ({ ral := true }, .ral),
  ({ rar := true }, .rar),
  ({ rar := true, ral := true }, .iac),
  ({ hlt := true }, .hlt),
  ({ sma := true }, .sma),
  ({ sza := true }, .sza),
  ({ sza := true, sma := true }, .smaSza),
  ({ snl := true }, .snl),
  ({ skp := true }, .skp),
  ({ skp := true, sma := true }, .spa),
  ({ skp := true, sza := true }, .sna),
  ({ skp := true, sza := true, sma := true }, .spaSna),
  ({ skp := true, snl := true }, .szl),
  ({ rtwo := true, ral := true }, .rtl),
  ({ rtwo := true, rar := true }, .rtr),
  ({ rtwo := true, rar := true, ral := true }, .bsw),
  ({ cll := true }, .cll),
  ({ cll := true, cml := true }, .stl),
  ({ cll := true, ral := true }, .rcl),
  ({ cll := true, rar := true }, .rcr),
  ({ cla := true }, .cla),
  ({ cla := true, cma := true }, .clc),
  ({ cla := true, oas := true }, .las),
  ({ cla := true, ral := true }, .glk)]

/-- The instruction of an operate word: its named combination, or the general one (R206, R207). -/
def nameOperate (o : OperateOps) : Instr := (operateRows.lookup o).getD (.opr o)

/-- The named EAE words with a fixed step count (R291). -/
def eaeRows : List ((EaePre × EaeCmd × BitVec 6) × Instr) := [
  (({}, .setup, 0o01), .osc),
  (({}, .setup, 0o02), .omq),
  (({}, .setup, 0o04), .cmq),
  (({ cla := true }, .setup, 0o01), .lacs),
  (({ cla := true }, .setup, 0o02), .lacq),
  (({ sign := true }, .setup, 0o00), .abs),
  (({ clq := true }, .setup, 0o00), .clq),
  (({ clq := true, acmq := true }, .setup, 0o00), .lmq),
  (({ sgnl := true, sign := true }, .setup, 0o00), .gsm),
  (({ clq := true, acmq := true, cla := true }, .multiply, 0o22), .mul),
  (({ clq := true, sign := true, acmq := true, cla := true }, .multiply, 0o22), .muls),
  (({}, .divide, 0o23), .div),
  (({ sign := true }, .divide, 0o23), .divs),
  (({ clq := true, acmq := true, cla := true }, .divide, 0o23), .idiv),
  (({ clq := true, sign := true, acmq := true, cla := true }, .divide, 0o23), .idivs),
  (({ clq := true }, .divide, 0o23), .frdiv),
  (({ clq := true, sign := true }, .divide, 0o23), .frdivs),
  (({}, .normalize, 0o44), .norm),
  (({ sgnl := true }, .normalize, 0o44), .norms)]

/-- The instruction of an EAE word: its named word (R291), where the shifts are named for every count, or the general
one (R280). -/
def nameEae (pre : EaePre) (cmd : EaeCmd) (n : BitVec 6) : Instr :=
  if pre = {} ∧ cmd = .lrs then .lrs n
  else if pre = { sgnl := true } ∧ cmd = .lrs then .lrss n
  else if pre = {} ∧ cmd = .lls then .lls n
  else if pre = { sgnl := true } ∧ cmd = .lls then .llss n
  else if pre = {} ∧ cmd = .als then .als n
  else if pre = { sgnl := true } ∧ cmd = .als then .alss n
  else (eaeRows.lookup (pre, cmd, n)).getD (.eae pre cmd n)

/-- The instruction of an IOT word: the processor's own, by device and code (R137, R230, R240 to R264), or the general
one. Device 0o17 code 0o02 is MPCV, and with the clear bit MPRMR (R251, R255). -/
def nameIot (w : IotWord) : Instr :=
  match w.dev.toNat, w.code.toNat with
  | 0o00, 0o02 => .iof ⟨w.ign, w.cla⟩
  | 0o00, 0o42 => .ion ⟨w.ign, w.cla⟩
  | 0o03, 0o04 => .iors ⟨w.ign, w.cla⟩
  | 0o33, 0o02 => .caf ⟨w.ign, w.cla⟩
  | 0o33, 0o04 => .dbk ⟨w.ign, w.cla⟩
  | 0o33, 0o44 => .dbr ⟨w.ign, w.cla⟩
  | 0o17, 0o01 => .mpsk ⟨w.ign, w.cla⟩
  | 0o17, 0o44 => .mpcne ⟨w.ign, w.cla⟩
  | 0o17, 0o04 => .mpld ⟨w.ign, w.cla⟩
  | 0o17, 0o24 => .mplr ⟨w.ign, w.cla⟩
  | 0o17, 0o22 => .mplmr ⟨w.ign, w.cla⟩
  | 0o17, 0o41 => .mpsne ⟨w.ign, w.cla⟩
  | 0o17, 0o42 => .mpeu ⟨w.ign, w.cla⟩
  | 0o77, 0o01 => .semSba ⟨w.ign, w.cla⟩
  | 0o77, 0o02 => .eem ⟨w.ign, w.cla⟩
  | 0o77, 0o04 => .lem ⟨w.ign, w.cla⟩
  | 0o77, 0o24 => .eba ⟨w.ign, w.cla⟩
  | 0o77, 0o22 => .dba ⟨w.ign, w.cla⟩
  | 0o77, 0o42 => .emirRes ⟨w.ign, w.cla⟩
  | 0o55, 0o01 => .spi ⟨w.ign, w.cla⟩
  | 0o55, 0o04 => .isa ⟨w.ign, w.cla⟩
  | 0o55, 0o02 => .rpl ⟨w.ign, w.cla⟩
  | 0o17, 0o02 => if w.cla then .mprmr w.ign else .mpcv w.ign
  | _, _ => .iot w

/-! ## The decoder -/

/-- Opcode 15 with IR<4> = 0: the operate group (R133, R134, R143). DESIGN CHOICE (log entry 28): a word with a reserved rotate
code is malformed in either mode, also where it has the HLT bit, which in user mode would trap (R205); the spec does not
order the two. -/
def decodeOperate (c : Cfg) (o : OperateOps) : Except Reject Instr :=
  if o.rotExtra && c.variant != .VD then .error .rotateReserved else .ok (nameOperate o)

/-- The EAE command field (R140, R292). -/
def decodeEae (w : Word) : Except Reject Instr :=
  let named (cmd : EaeCmd) : Except Reject Instr := .ok (nameEae (eaePreOf w) cmd (w.extractLsb' 0 6))
  match (w.extractLsb' 6 3).toNat with
  | 0 => named .setup
  | 1 => named .multiply
  | 2 => .error .eaeCmdReserved
  | 3 => named .divide
  | 4 => named .normalize
  | 5 => named .lrs
  | 6 => named .lls
  | _ => named .als

/-- The FP15 subop field (R139, R311). -/
def decodeFp15 (w : Word) : Except Reject Instr :=
  if w.getMsbD 15 then .error .fpBit15
  else
    let m := fpModsOf w
    match (w.extractLsb' 8 4).toNat with
    | 0o01 => .ok (.fpSub m)
    | 0o02 => .ok (.fpRsub m)
    | 0o03 => .ok (.fpMul m)
    | 0o04 => .ok (.fpDiv m)
    | 0o05 => .ok (.fpRdiv m)
    | 0o06 => .ok (.ld m)
    | 0o07 => .ok (.st m)
    | 0o10 => .ok (.flt m)
    | 0o11 => .ok (.fix m)
    | 0o12 => .ok (.lfmq m)
    | 0o13 => .ok (.jea m)
    | 0o14 => .ok (.fpAdd m)
    | 0o15 => .ok (.br (brCondsOf w))
    | _ => .error .fpSubopReserved

/-- The index-operate sub-code field (R135, R222). -/
def decodeIndex (w : Word) : Except Reject Instr :=
  let imm := w.extractLsb' 0 9
  match (w.extractLsb' 9 4).toNat with
  | 0o01 => .ok (.pax imm)
  | 0o02 => .ok (.pal imm)
  | 0o03 => .ok (.aac imm)
  | 0o04 => .ok (.pxa imm)
  | 0o05 => .ok (.axs imm)
  | 0o06 => .ok (.pxl imm)
  | 0o10 => .ok (.pla imm)
  | 0o11 => .ok (.plx imm)
  | 0o14 => .ok (.clac imm)
  | 0o15 => .ok (.clx imm)
  | 0o16 => .ok (.cllr imm)
  | 0o17 => .ok (.axr imm)
  | _ => .error .indexSubReserved

/-- The decoder, in the order of R142. An absent option's words fall to the IOT or the malformed branch as R142 says. -/
def decode (c : Cfg) (w : Word) : Except Reject Instr :=
  match (w.extractLsb' 14 4).toNat with
  | 0 => .ok (.cal (w.extractLsb' 0 14))
  | 1 => .ok (.dac (memOperandOf w))
  | 2 => .ok (.jms (memOperandOf w))
  | 3 => .ok (.dzm (memOperandOf w))
  | 4 => .ok (.lac (memOperandOf w))
  | 5 => .ok (.xor (memOperandOf w))
  | 6 => .ok (.add (memOperandOf w))
  | 7 => .ok (.tad (memOperandOf w))
  | 8 => .ok (.xct (memOperandOf w))
  | 9 => .ok (.isz (memOperandOf w))
  | 10 => .ok (.and (memOperandOf w))
  | 11 => .ok (.sad (memOperandOf w))
  | 12 => .ok (.jmp (memOperandOf w))
  | 13 => if c.hasEAE then decodeEae w else .error .eaeAbsent
  | 14 =>
    if c.hasFP15 && w.extractLsb' 12 2 == 0b01#2 then decodeFp15 w
    else if c.hasIndex && w.getMsbD 4 then decodeIndex w
    else .ok (nameIot (iotWordOf w))
  | _ =>
    if w.getMsbD 4 then .ok (.law (w.extractLsb' 0 13))
    else decodeOperate c (operateOpsOf w)

/-! ## The encoder -/

/-- A memory-reference word (R131, R132). -/
def memWord (op : BitVec 4) (m : MemOperand) : Word := op ++ BitVec.ofBool m.ind ++ m.y

/-- An operate word (R134). -/
def operateWord (o : OperateOps) : Word :=
  0b11110#5 ++ BitVec.ofBool o.cla ++ BitVec.ofBool o.cll ++ BitVec.ofBool o.rtwo ++ BitVec.ofBool o.skp
    ++ BitVec.ofBool o.snl ++ BitVec.ofBool o.sza ++ BitVec.ofBool o.sma ++ BitVec.ofBool o.hlt ++ BitVec.ofBool o.rar
    ++ BitVec.ofBool o.ral ++ BitVec.ofBool o.oas ++ BitVec.ofBool o.cml ++ BitVec.ofBool o.cma

/-- An index-operate word (R135). -/
def indexWord (sub : BitVec 4) (imm : BitVec 9) : Word := 0b11101#5 ++ sub ++ imm

/-- An IOT word (R136). -/
def iotWord (w : IotWord) : Word := 0b1110#4 ++ w.ign ++ w.dev ++ w.sdev ++ BitVec.ofBool w.cla ++ w.pulse

/-- The word of a processor IOT: its device, subdevice and pulses, with the form's ignored and clear bits. -/
def iotFormWord (dev : BitVec 6) (sdev : BitVec 2) (pulse : BitVec 3) (f : IotForm) : Word :=
  iotWord ⟨f.ign, dev, sdev, f.cla, pulse⟩

/-- The EAE command's field value (R140). -/
def EaeCmd.bits : EaeCmd → BitVec 3
  | .setup => 0
  | .multiply => 1
  | .divide => 3
  | .normalize => 4
  | .lrs => 5
  | .lls => 6
  | .als => 7

/-- An EAE word (R140). -/
def eaeWord (p : EaePre) (cmd : EaeCmd) (n : BitVec 6) : Word :=
  0b1101#4 ++ BitVec.ofBool p.sgnl ++ BitVec.ofBool p.clq ++ BitVec.ofBool p.sign ++ BitVec.ofBool p.acmq
    ++ BitVec.ofBool p.cla ++ cmd.bits ++ n

/-- An FP15 word (R138). -/
def fpWord (subop : BitVec 4) (m : FpMods) : Word :=
  0b111001#6 ++ subop ++ BitVec.ofBool m.noload ++ BitVec.ofBool m.dp ++ BitVec.ofBool m.fp
    ++ BitVec.ofBool m.nonorm ++ BitVec.ofBool m.nornd ++ 0#1 ++ m.sgn

/-- An FP15 BR word (R335). -/
def brWord (b : BrConds) : Word :=
  0b111001#6 ++ 0o15#4 ++ b.ign ++ BitVec.ofBool b.zero ++ BitVec.ofBool b.positive ++ BitVec.ofBool b.negative
    ++ 0#1 ++ BitVec.ofBool b.grd ++ BitVec.ofBool b.reverse

/-- The instruction's first word (R131 to R140; the named words are those of R207 and R291). -/
def encode : Instr → Word
  | .cal ign => 0#4 ++ ign
  | .dac m => memWord 1 m
  | .jms m => memWord 2 m
  | .dzm m => memWord 3 m
  | .lac m => memWord 4 m
  | .xor m => memWord 5 m
  | .add m => memWord 6 m
  | .tad m => memWord 7 m
  | .xct m => memWord 8 m
  | .isz m => memWord 9 m
  | .and m => memWord 10 m
  | .sad m => memWord 11 m
  | .jmp m => memWord 12 m
  | .opr o => operateWord o
  | .nop => 0o740000
  | .cma => 0o740001
  | .cml => 0o740002
  | .oas => 0o740004
  | .ral => 0o740010
  | .rar => 0o740020
  | .iac => 0o740030
  | .hlt => 0o740040
  | .sma => 0o740100
  | .sza => 0o740200
  | .smaSza => 0o740300
  | .snl => 0o740400
  | .skp => 0o741000
  | .spa => 0o741100
  | .sna => 0o741200
  | .spaSna => 0o741300
  | .szl => 0o741400
  | .rtl => 0o742010
  | .rtr => 0o742020
  | .bsw => 0o742030
  | .cll => 0o744000
  | .stl => 0o744002
  | .rcl => 0o744010
  | .rcr => 0o744020
  | .cla => 0o750000
  | .clc => 0o750001
  | .las => 0o750004
  | .glk => 0o750010
  | .law n => 0b11111#5 ++ n
  | .pax imm => indexWord 0o01 imm
  | .pal imm => indexWord 0o02 imm
  | .aac imm => indexWord 0o03 imm
  | .pxa imm => indexWord 0o04 imm
  | .axs imm => indexWord 0o05 imm
  | .pxl imm => indexWord 0o06 imm
  | .pla imm => indexWord 0o10 imm
  | .plx imm => indexWord 0o11 imm
  | .clac imm => indexWord 0o14 imm
  | .clx imm => indexWord 0o15 imm
  | .cllr imm => indexWord 0o16 imm
  | .axr imm => indexWord 0o17 imm
  | .iot w => iotWord w
  | .iof f => iotFormWord 0o00 0 2 f
  | .ion f => iotFormWord 0o00 2 2 f
  | .iors f => iotFormWord 0o03 0 4 f
  | .caf f => iotFormWord 0o33 0 2 f
  | .dbk f => iotFormWord 0o33 0 4 f
  | .dbr f => iotFormWord 0o33 2 4 f
  | .mpsk f => iotFormWord 0o17 0 1 f
  | .mpcne f => iotFormWord 0o17 2 4 f
  | .mpcv ign => iotFormWord 0o17 0 2 ⟨ign, false⟩
  | .mpld f => iotFormWord 0o17 0 4 f
  | .mplr f => iotFormWord 0o17 1 4 f
  | .mplmr f => iotFormWord 0o17 1 2 f
  | .mprmr ign => iotFormWord 0o17 0 2 ⟨ign, true⟩
  | .mpsne f => iotFormWord 0o17 2 1 f
  | .mpeu f => iotFormWord 0o17 2 2 f
  | .semSba f => iotFormWord 0o77 0 1 f
  | .eem f => iotFormWord 0o77 0 2 f
  | .lem f => iotFormWord 0o77 0 4 f
  | .eba f => iotFormWord 0o77 1 4 f
  | .dba f => iotFormWord 0o77 1 2 f
  | .emirRes f => iotFormWord 0o77 2 2 f
  | .spi f => iotFormWord 0o55 0 1 f
  | .isa f => iotFormWord 0o55 0 4 f
  | .rpl f => iotFormWord 0o55 0 2 f
  | .eae pre cmd n => eaeWord pre cmd n
  | .osc => 0o640001
  | .omq => 0o640002
  | .cmq => 0o640004
  | .lacs => 0o641001
  | .lacq => 0o641002
  | .abs => 0o644000
  | .clq => 0o650000
  | .lmq => 0o652000
  | .gsm => 0o664000
  | .mul => 0o653122
  | .muls => 0o657122
  | .div => 0o640323
  | .divs => 0o644323
  | .idiv => 0o653323
  | .idivs => 0o657323
  | .frdiv => 0o650323
  | .frdivs => 0o654323
  | .norm => 0o640444
  | .norms => 0o660444
  | .lrs n => eaeWord {} .lrs n
  | .lrss n => eaeWord { sgnl := true } .lrs n
  | .lls n => eaeWord {} .lls n
  | .llss n => eaeWord { sgnl := true } .lls n
  | .als n => eaeWord {} .als n
  | .alss n => eaeWord { sgnl := true } .als n
  | .fpSub m => fpWord 0o01 m
  | .fpRsub m => fpWord 0o02 m
  | .fpMul m => fpWord 0o03 m
  | .fpDiv m => fpWord 0o04 m
  | .fpRdiv m => fpWord 0o05 m
  | .ld m => fpWord 0o06 m
  | .st m => fpWord 0o07 m
  | .flt m => fpWord 0o10 m
  | .fix m => fpWord 0o11 m
  | .lfmq m => fpWord 0o12 m
  | .jea m => fpWord 0o13 m
  | .fpAdd m => fpWord 0o14 m
  | .br b => brWord b

/-- How many words the instruction has (R130): the word after it is the operand of an EAE multiply or divide, or the
address word of an FP15 instruction. -/
def instrLength : Instr → Nat
  | .eae _ cmd _ => if cmd = .multiply ∨ cmd = .divide then 2 else 1
  | .mul | .muls | .div | .divs | .idiv | .idivs | .frdiv | .frdivs => 2
  | .fpSub _ | .fpRsub _ | .fpMul _ | .fpDiv _ | .fpRdiv _ | .ld _ | .st _ | .flt _ | .fix _ | .lfmq _ | .jea _
  | .fpAdd _ | .br _ => 2
  | _ => 1

/-! ## The opcode table's numbering -/

/-- Word `k` of an instruction whose bits are `w`, the bits from `nbits` on being zero. -/
def tableWord (nbits w k : Nat) : Word := BitVec.ofNat 18 ((w % 2 ^ nbits) >>> (18 * k))

/-- The instruction the decoder reads from a word of the opcode table, on a machine with every option. The words of an
instruction are stored one a cell, the first at the lowest address (R81), so the decoder is given word 0. -/
def decodeTableWord (nbits w : Nat) : Option Instr := (decode Cfg.full (tableWord nbits w 0)).toOption

end Sys2Proof
end

