-- ==== Sys2Proof/Machine/State.lean ====
section
/-! DEFINITION. The machine's state as plain data (R30 to R56), the reasons a step can stop, and the state at power-on. -/

namespace Sys2Proof.Machine

/-- Why a step faults. -/
inductive Fault where
  /-- Raised by the host's `run` on a configuration that the matrix of R11 does not allow: "fatal configuration errors
  (device-slot conflicts - abort before execution)" (R405). Safe: nothing runs. -/
  | invalidConfiguration
  /-- Raised by the host's registration of a device at a slot that is taken or that does not exist: "duplicate-slot
  registration is a fatal, build-time-detected error" (R366, R405). Safe: nothing is registered and nothing runs. -/
  | deviceSlotConflict
deriving DecidableEq, Repr

/-- Why a step is refused. -/
inductive Refusal where
  /-- Raised by `exec` for an instruction that has no meaning yet; no instruction is left so. Safe. -/
  | notModelled (mnemonic : String)
  /-- Raised by a host action other than a stop while the run is on (R406, "only while the run is stopped"). Safe: the state
  is not touched. -/
  | hostAccessWhileRunning
deriving DecidableEq, Repr

/-- The stop reasons (R55, R404). -/
inductive StopReason where
  | halt
  | breakpoint
  | unimplemented
  | xctLimit
  | invalidVector
  | selfLoop
  | ioStop (code : Nat)
  | hostStop
deriving DecidableEq, Repr

/-- Whether the run is on (R55). -/
inductive RunState where
  | running
  | stopped (reason : StopReason)
deriving DecidableEq, Repr

/-- The request vectors `intReq[0..4]` (R39): four API hardware levels and the PI vector, 32 lines each. -/
structure RequestLines where
  api0 : BitVec 32 := 0
  api1 : BitVec 32 := 0
  api2 : BitVec 32 := 0
  api3 : BitVec 32 := 0
  pi : BitVec 32 := 0
deriving DecidableEq, Repr

/-- An FP15 operand register (R51): sign, 18-bit two's-complement exponent, 17-bit high and 18-bit low mantissa. -/
structure FpReg where
  s : Bool := false
  e : BitVec 18 := 0
  hi : BitVec 17 := 0
  lo : BitVec 18 := 0
deriving DecidableEq, Repr

/-- Physical memory (R56): the words that have been written, as pairs of address and word with addresses strictly
rising (`Memory.wf`). An address with no pair holds its power-on word, which is free (R401, log entry 5). -/
abbrev Memory := List (Nat × Word)

/-- The registers of 10_state.md, which the host can examine and deposit (R57, R406), but for IR and `xctDepth`, on which the
host cannot rely (R38). -/
inductive RegName where
  | ac | l | mq | sc | eaeAcSign | pc | sr | xr | lr
  | intReq (level : ReqLevel)
  | ion | ionDefer | apiEnb | apiReq | apiAct
  | memm | usmd | memmBuf | usmdBuf | modeDefer | restPending | br | rr | mmr | nexm | prvn | trapPending
  | fmaS | fmaE | fmaHi | fmaLo | fmbS | fmbE | fmbHi | fmbLo | fmq | fguard | jeaBase
  | pcq (i : Nat)
  | runState
deriving DecidableEq, Repr

/-- What the host can do (R366, R375, R400, R402, R404, R406). -/
inductive HostAction where
  | run
  | stop
  | reset
  | setPC (a : Nat)
  | loadWord (pa : Nat) (v : Nat)
  | deposit (r : RegName) (v : Nat)
  | examine (r : RegName)
  | examineWord (pa : Nat)
  | setBreakpoint (a : Addr)
  | clearBreakpoint (a : Addr)
  | registerDevice (base count : Nat)
  | removeDevice (base count : Nat)
  | setIoAnswers (answers : List IoAnswer)
  | setStatusPolls (words : List Word)
deriving DecidableEq, Repr

/-- Who moves next (R365, R370, R375, R393): the processor by one cycle, the device agent by one request line, or the host. -/
inductive Move where
  | cycle
  | agent (m : ReqMove)
  | host (a : HostAction)
deriving DecidableEq, Repr

/-- The machine's state. The field names are the spec's. -/
structure State where
  /-- The configuration (R11), which no move changes. -/
  cfg : Cfg
  -- Processor registers
  /-- accumulator (R30) -/
  ac : Word
  /-- link (R31) -/
  l : Bool
  /-- multiplier-quotient register (R32) -/
  mq : Word
  /-- program counter (R33) -/
  pc : Addr
  /-- step counter (R34) -/
  sc : BitVec 6
  /-- EAE AC-sign latch (R35) -/
  eaeAcSign : Bool
  /-- switch register (R36) -/
  sr : Word
  /-- index register (R37) -/
  xr : Word
  /-- limit register (R37) -/
  lr : Word
  /-- instruction register, transient (R38) -/
  ir : Word
  /-- XCT nesting depth, transient (R38) -/
  xctDepth : Nat
  /-- the address the current instruction was fetched from, transient (R372, R182) -/
  instrAddr : Addr
  -- Interrupt state
  /-- request vectors (R39) -/
  intReq : RequestLines
  /-- PI enable (R40) -/
  ion : Bool
  /-- one-instruction deferral (R41) -/
  ionDefer : Bool
  /-- API enable (R42) -/
  apiEnb : Bool
  /-- API software requests (R42) -/
  apiReq : BitVec 8
  /-- API active levels (R42) -/
  apiAct : BitVec 8
  -- Memory management
  /-- addressing mode: extend (VB, VC) or bank (VD) (R43) -/
  memm : Bool
  /-- user mode (R44) -/
  usmd : Bool
  /-- buffered copy of memm (R45) -/
  memmBuf : Bool
  /-- buffered copy of usmd (R45) -/
  usmdBuf : Bool
  /-- cycles until the buffers commit (R45) -/
  modeDefer : BitVec 2
  /-- the next indirect JMP restores L and the modes (R46) -/
  restPending : Bool
  /-- bounds register (R47) -/
  br : Word
  /-- relocation register (R48) -/
  rr : Word
  /-- extended-MM control register (R49) -/
  mmr : Word
  /-- non-existent memory, sticky (R50) -/
  nexm : Bool
  /-- privilege violation, sticky (R50) -/
  prvn : Bool
  /-- a trap is pending (R50) -/
  trapPending : Bool
  -- FP15
  /-- accumulator operand (R51) -/
  fma : FpReg
  /-- memory operand (R51) -/
  fmb : FpReg
  /-- mantissa extension (R52) -/
  fmq : BitVec 35
  /-- guard bit (R52) -/
  fguard : Bool
  /-- exception base (R53) -/
  jeaBase : BitVec 15
  -- History, run state, memory
  /-- PC history, most recent first (R54) -/
  pcq : List Addr
  /-- running or stopped (R55) -/
  runState : RunState
  /-- physical memory (R56) -/
  mem : Memory
  -- The host and the device agent
  /-- host breakpoints (R370, R406) -/
  breakpoints : List Addr
  /-- this is the first cycle of the run (R370 step 4, R404) -/
  firstCycle : Bool
  /-- bit n is 1 when a device is registered at slot n of the dispatch table (R80, R230, R366, log entry 26) -/
  devices : BitVec 64
  /-- the model's own: the moves to come, in order; when there is none the processor moves (log entry 4) -/
  moves : List Move
  /-- the model's own: the device agent's next answers to `ioTransfer`; when there is none the answer is free (log entry 6) -/
  ioAnswers : List IoAnswer
  /-- the model's own: the device agent's next answers to `statusPoll`; when there is none the answer is free (log entry 6) -/
  statusPolls : List Word
  /-- the model's own: how many free answers have been drawn (log entry 6) -/
  draws : Nat
  /-- the model's own: what the host examined last (R406, log entry 26) -/
  hostData : Nat
deriving DecidableEq, Repr

/-- Power-on (R401): the reset state of R400 with PC, SR and PCQ zero, no word of memory known, and no device registered yet
(log entry 26). -/
def State.powerOn (c : Cfg) : State where
  cfg := c
  ac := 0
  l := false
  mq := 0
  pc := 0
  sc := 0
  eaeAcSign := false
  sr := 0
  xr := 0
  lr := 0
  ir := 0
  xctDepth := 0
  instrAddr := 0
  intReq := {}
  ion := false
  ionDefer := false
  apiEnb := false
  apiReq := 0
  apiAct := 0
  memm := c.memmInit
  usmd := false
  memmBuf := c.memmInit
  usmdBuf := false
  modeDefer := 0
  restPending := false
  br := 0
  rr := 0
  mmr := 0
  nexm := false
  prvn := false
  trapPending := false
  fma := {}
  fmb := {}
  fmq := 0
  fguard := false
  jeaBase := 0
  pcq := List.replicate c.pcqDepth 0
  runState := .stopped .hostStop
  mem := []
  breakpoints := []
  firstCycle := true
  devices := 0
  moves := []
  ioAnswers := []
  statusPolls := []
  draws := 0
  hostData := 0

/-- The machine right after reset: power-on (R400, R401) of the configuration with every option, with a device at every slot
(log entry 2). -/
def State.reset : State := { State.powerOn Cfg.full with devices := BitVec.allOnes 64 }

end Sys2Proof.Machine
end

