-- ==== Sys2Proof/Machine/Ops.lean ====
section
/-! DEFINITION. The shared operations over addresses, memory and registers: address masks (R13, R83), memory (R56), translation
and its faults (R90 to R98), the physical accesses, the return word (R183), the PC history (R390), taking a trap or an
interrupt (R362, R368, R374) and what a return restores (R182, R373), stops (R404) and the request lines (R365). -/

namespace Sys2Proof.Machine

/-! ## Addresses -/

/-- `AMASK = 2^AddrWidth - 1` (R13). -/
def amask (c : Cfg) : Addr :=
  match c.variant with
  | .VA => 0o17777
  | .VB => 0o77777
  | .VC => 0o77777
  | .VD => 0o377777

/-- `BLK`, the block within which the PC wraps (R13). -/
def blkMask (c : Cfg) : Addr :=
  match c.variant with
  | .VA => 0o17777
  | .VB => 0o77777
  | .VC => 0o77777
  | .VD => 0o77777

/-- `FLD`, the 8K-word field of bank addressing (R13). -/
def fldMask : Addr := 0o17777

/-- `PAGE`, the 4K-word page of page addressing (R13). -/
def pageMask : Addr := 0o7777

/-- The PC increment that wraps within the block (R15, R83). -/
def incPC (c : Cfg) (a : Addr) : Addr := (a &&& ~~~blkMask c &&& amask c) ||| ((a + 1) &&& blkMask c)

/-- A word used as a full address: `w & AMASK` (R82). -/
def wordAddr (c : Cfg) (w : Word) : Addr := w.setWidth 17 &&& amask c

/-- An address read back as a word. -/
def addrWord (a : Addr) : Word := a.setWidth 18

/-- `PC <- incPC(PC)`: the advance of a fetch, a skip or an in-line operand (R83, R206). -/
def State.advance (s : State) : State := { s with pc := incPC s.cfg s.pc }

/-- A skip: the PC advances when the condition holds (R206). -/
def State.skipIf (b : Bool) (s : State) : State := { s with pc := if b then incPC s.cfg s.pc else s.pc }

/-- The 19-bit concatenation `L:AC` (R18, R31). -/
def State.lac (s : State) : BitVec 19 := BitVec.ofBool s.l ++ s.ac

/-! ## Memory -/

/-- The word at a physical address: the last one written, or the free power-on word (R56, R103, R401). -/
def Memory.read (m : Memory) (a : Nat) : Word := (m.lookup a).getD (Config.powerOnWord a)

/-- Writing a word at a physical address keeps the pairs sorted by address, one a written word (R100). -/
def Memory.write : Memory → Nat → Word → Memory
  | [], a, v => [(a, v)]
  | (b, u) :: m, a, v =>
    if a < b then (a, v) :: (b, u) :: m
    else if a = b then (a, v) :: m
    else (b, u) :: Memory.write m a v

/-- The canonical form: addresses strictly rising, so at most one pair an address. -/
abbrev Memory.wf (m : Memory) : Prop := (m.map Prod.fst).Pairwise (· < ·)

/-- The canonical form inside the installed memory: no pair lies at or beyond `MemSize` (R56). -/
abbrev State.memoryOk (s : State) : Prop := s.mem.wf ∧ ∀ p ∈ s.mem, p.1 < s.cfg.memSize

/-- A free read by hand and by proof: the word at a physical address. -/
def State.wordAt (s : State) (a : Nat) : Word := s.mem.read a

/-! ## Translation -/

/-- The kind of an access (R15, R90). -/
inductive AccessKind where
  | fetch | read | write
deriving DecidableEq, Repr

/-- What `translate` answers (R90): a physical address, or one of the two Faults. -/
inductive Translation where
  | ok (pa : Addr)
  | violation
  | nonExistent
deriving DecidableEq, Repr

/-- `BRlim = (BR & ~(ProtGranule-1)) | (ProtGranule-1)` (R93). -/
def State.brLimit (s : State) : Word :=
  (s.br &&& ~~~(s.cfg.protGranule - 1)) ||| (s.cfg.protGranule - 1)

/-- Base and length relocation (R94). -/
def State.relocate (s : State) (va : Addr) : Option Addr :=
  if s.brLimit.toNat < va.toNat then none
  else some ((va + (s.rr &&& ~~~(s.cfg.protGranule - 1)).setWidth 17) &&& amask s.cfg)

/-- MMR<0>, relocation bypass (R49). -/
def State.rdis (s : State) : Bool := s.mmr.getMsbD 0

/-- MMR<6>, shared window enable (R49). -/
def State.windowOn (s : State) : Bool := s.mmr.getMsbD 6

/-- MMR<9>, shared window write-protect (R49). -/
def State.windowProtected (s : State) : Bool := s.mmr.getMsbD 9

/-- `XvmWindowTable[MMR<7:8>]` (R49, R95). -/
def State.window (s : State) : XvmWindow :=
  match (s.mmr.extractLsb' 9 2).toNat with
  | 0 => s.cfg.xvmTable.w0
  | 1 => s.cfg.xvmTable.w1
  | 2 => s.cfg.xvmTable.w2
  | _ => s.cfg.xvmTable.w3

/-- The address lies in the enabled shared window (R95). -/
def State.inWindow (s : State) (va : Addr) : Bool :=
  s.windowOn && decide (s.window.vstart ≤ va.toNat) && decide (va.toNat < s.window.vstart + s.window.length)

/-- The XVM scheme (R95, R96). -/
def State.xvm (s : State) (va : Addr) (k : AccessKind) : Option Addr :=
  if s.rdis then some va
  else if s.inWindow va then
    if k = .write ∧ s.windowProtected then none
    else some (BitVec.ofNat 17 (s.window.pbase + (va.toNat - s.window.vstart)) &&& amask s.cfg)
  else s.relocate va

/-- The address the mode and the installed scheme give, or a violation: pass-through in executive mode or with no scheme
(R91), exactly one scheme in user mode (R92 to R95). -/
def State.schemeAddr (s : State) (va : Addr) (k : AccessKind) : Option Addr :=
  if s.usmd then
    match s.cfg.protScheme with
    | .none => some (va &&& amask s.cfg)
    | .bounds => if s.brLimit.toNat < va.toNat then none else some va
    | .reloc => s.relocate va
    | .xvm => s.xvm va k
  else some (va &&& amask s.cfg)

/-- `translate(va, kind)` (R90), the non-existent-memory check last (R97). It changes nothing. -/
def State.translate (s : State) (va : Addr) (k : AccessKind) : Translation :=
  match s.schemeAddr va k with
  | none => .violation
  | some pa => if pa.toNat < s.cfg.memSize then .ok pa else .nonExistent

/-! ## Accesses -/

/-- The end of an access, or of a sequence of them: done with a value, or abandoned at a Fault (R98, R346). -/
inductive Access (α : Type) where
  | done (v : α) (s : State)
  | abandoned (s : State)
deriving DecidableEq, Repr

/-- One access after another: the rest is not done once one is abandoned (R98, R415). -/
def Access.andThen {α β : Type} (x : Access α) (f : α → State → Access β) : Access β :=
  match x with
  | .done v s => f v s
  | .abandoned s => .abandoned s

/-- The state an instruction leaves: `f` where its accesses are done, `onFault` where one is abandoned. -/
def Access.settle {α : Type} (x : Access α) (onFault : State → State) (f : α → State → State) : State :=
  match x with
  | .done v s => f v s
  | .abandoned s => onFault s

/-- An abandoned instruction of the processor keeps what it had already changed (R98). -/
def Access.finish {α : Type} (x : Access α) (f : α → State → State) : State := x.settle id f

/-- A violation of the scheme: `prvn <- 1; trapPending <- 1` (R93 to R95, R205, R230). -/
def State.violation (s : State) : State := { s with prvn := true, trapPending := true }

/-- Whether non-existent memory traps here: in user mode, or when `ExecNxmTraps` (R97). -/
def State.nxmTraps (s : State) : Bool := s.usmd || s.cfg.execNxmTraps

/-- Non-existent memory: `nexm <- 1`, and `trapPending <- 1` where it traps (R97). -/
def State.nonExistent (s : State) : State :=
  { s with nexm := true, trapPending := s.trapPending || s.nxmTraps }

/-- `MemRead(va, kind)` for the processor, with the effect of a Fault (R97, R98). -/
def State.cpuRead (s : State) (va : Addr) (k : AccessKind) : Access Word :=
  match s.translate va k with
  | .ok pa => .done (s.mem.read pa.toNat) s
  | .violation => .abandoned s.violation
  | .nonExistent =>
    if s.nxmTraps then .abandoned s.nonExistent else .done s.cfg.faultReadValue s.nonExistent

/-- `MemWrite(va, v)` for the processor, with the effect of a Fault (R97, R98). -/
def State.cpuWrite (s : State) (va : Addr) (v : Word) : Access Unit :=
  match s.translate va .write with
  | .ok pa => .done () { s with mem := s.mem.write pa.toNat v }
  | .violation => .abandoned s.violation
  | .nonExistent => if s.nxmTraps then .abandoned s.nonExistent else .done () s.nonExistent

/-- The flags of a Fault of the FP15: the sticky flag stays set, `trapPending` is cleared (R346). -/
def State.fpFault (s : State) (t : Translation) : State :=
  match t with
  | .ok _ => s
  | .violation => { s with prvn := true, trapPending := false }
  | .nonExistent => { s with nexm := true, trapPending := false }

/-- `MemRead(va, read)` with `src = fp15` (R99, R346): a Fault of either kind abandons the access. -/
def State.fpRead (s : State) (va : Addr) : Access Word :=
  match s.translate va .read with
  | .ok pa => .done (s.mem.read pa.toNat) s
  | .violation => .abandoned (s.fpFault .violation)
  | .nonExistent => .abandoned (s.fpFault .nonExistent)

/-- `MemWrite(va, v)` with `src = fp15` (R99, R346). -/
def State.fpWrite (s : State) (va : Addr) (v : Word) : Access Unit :=
  match s.translate va .write with
  | .ok pa => .done () { s with mem := s.mem.write pa.toNat v }
  | .violation => .abandoned (s.fpFault .violation)
  | .nonExistent => .abandoned (s.fpFault .nonExistent)

/-- `PhysRead(pa)` (R15), the value alone; beyond `MemSize` it is `FaultReadValue` (log entry 12). -/
def State.physRead (s : State) (pa : Nat) : Word :=
  if pa < s.cfg.memSize then s.mem.read pa else s.cfg.faultReadValue

/-- `PhysWrite(pa, v)` (R15): beyond `MemSize` the write is discarded and `nexm <- 1` (R170). -/
def State.physWrite (s : State) (pa : Nat) (v : Word) : State :=
  if pa < s.cfg.memSize then { s with mem := s.mem.write pa v } else { s with nexm := true }

/-! ## Stops -/

/-- `stop(reason)` (R15, R375, R404). -/
def State.stop (s : State) (r : StopReason) : State := { s with runState := .stopped r }

/-- A malformed word (R145): `unimplPolicy` stops the run, or does nothing. DEDUCED (log entry 27): doing nothing leaves the PC
after the malformed word itself, also where R130 counts the word as the first of two, since R311 tests for it before the PC
passes the second. -/
def State.unimplemented (s : State) : State :=
  match s.cfg.unimplPolicy with
  | .stop => s.stop .unimplemented
  | .nop => s

/-! ## Taking a trap or an interrupt, and returning -/

/-- The return word (R183): link, addressing mode, user mode, low 15 bits of PC. -/
def State.retWord (s : State) : Word :=
  BitVec.ofBool s.l ++ BitVec.ofBool s.memm ++ BitVec.ofBool s.usmd ++ s.pc.setWidth 15

/-- `pcqPush()` (R54, R390). -/
def State.pcqPush (s : State) : State := { s with pcq := s.pc :: s.pcq.take (s.cfg.pcqDepth - 1) }

/-- Entry mode forcing (R374). -/
def State.forceEntryModes (s : State) : State :=
  { s with usmd := false, usmdBuf := false, memm := s.cfg.entryMemm, memmBuf := s.cfg.entryMemm, modeDefer := 0 }

/-- What trap entry, PI delivery and CAL have in common (R170, R362, R368): the return word of the interrupted state is saved at
a fixed physical location, the PC goes into the history, the entry modes are forced, the PC goes to the handler. -/
def State.enter (s : State) (save : Nat) (target : Addr) : State :=
  { s.pcqPush.forceEntryModes.physWrite save s.retWord with pc := target }

/-- Trap entry (R362): saved at 0, handler at 2, the PI enable cleared. -/
def State.trapEntry (s : State) : State := { s with trapPending := false, ion := false }.enter 0 2

/-- PI delivery (R368): saved at 0, handler at 1, the PI enable cleared. -/
def State.piDelivery (s : State) : State := { s with ion := false }.enter 0 1

/-- What a JMS does once its address is known (R172), with a given return word (R369): the word is written before the PC
changes, and a trapping Fault of that write leaves the PC as it is. -/
def State.jumpSubroutine (s : State) (ea : Addr) (ret : Word) : State :=
  (s.cpuWrite ea ret).finish fun _ t => { t.pcqPush with pc := incPC t.cfg ea }

/-- What the restoring indirect JMP takes from its pointer word (R182, R364): L at once, the modes into their buffers, to
commit at the next cycle. -/
def State.restoreFrom (s : State) (ptr : Word) : State :=
  { s with
    l := ptr.getMsbD 0
    memmBuf := s.cfg.variant != .VA && ptr.getMsbD 1
    usmdBuf := s.cfg.protScheme != .none && ptr.getMsbD 2
    modeDefer := 1
    restPending := false }

/-- The mode commit at the start of a cycle (R373). -/
def State.commitModes (s : State) : State :=
  if s.modeDefer = 0 then s
  else if s.modeDefer = 1 then { s with modeDefer := 0, memm := s.memmBuf, usmd := s.usmdBuf }
  else { s with modeDefer := s.modeDefer - 1 }

/-! ## Request lines -/

/-- One line of a 32-bit request vector set or cleared (R365). -/
def setLine (v : BitVec 32) (line : BitVec 5) (b : Bool) : BitVec 32 :=
  if b then v ||| (1#32 <<< line.toNat) else v &&& ~~~(1#32 <<< line.toNat)

/-- `setRequest(level, bit)` and `clearRequest(level, bit)` (R365). -/
def RequestLines.apply (q : RequestLines) (m : ReqMove) : RequestLines :=
  match m.level with
  | .api0 => { q with api0 := setLine q.api0 m.line m.asserted }
  | .api1 => { q with api1 := setLine q.api1 m.line m.asserted }
  | .api2 => { q with api2 := setLine q.api2 m.line m.asserted }
  | .api3 => { q with api3 := setLine q.api3 m.line m.asserted }
  | .pi => { q with pi := setLine q.pi m.line m.asserted }

/-- The vector of a hardware level (R39). -/
def RequestLines.level (q : RequestLines) (k : Nat) : BitVec 32 :=
  match k with
  | 0 => q.api0
  | 1 => q.api1
  | 2 => q.api2
  | 3 => q.api3
  | _ => q.pi

end Sys2Proof.Machine
end

