-- ==== Sys2Proof/Machine/Operands.lean ====
section
/-! DEFINITION. Operand forms: the effective address of a memory reference in every addressing mode (R84 to R89), the in-line
operand of EAE multiply and divide (R284), the immediate of an index operate (R135, R141), and the FP15's address word and
memory formats (R311, R312, R328). -/

namespace Sys2Proof.Machine

/-! ## Memory reference -/

/-- Bank addressing is in force: VA, VB, VC, and VD with memm = 1 (R85, R87). -/
def State.bankMode (s : State) : Bool := !s.cfg.hasPageMode || s.memm

/-- An indirect pointer reaches beyond the field: memm = 1, and never on VA (R86). -/
def State.extendActive (s : State) : Bool := s.cfg.variant != .VA && s.memm

/-- The direct address, from the PC `base` whose field or page it lies in (R84, R85, R87). -/
def State.directAddr (s : State) (base : Addr) (m : MemOperand) : Addr :=
  if s.bankMode then (base &&& ~~~fldMask &&& amask s.cfg) ||| m.y.setWidth 17
  else (base &&& ~~~pageMask &&& amask s.cfg) ||| (m.y.extractLsb' 0 12).setWidth 17

/-- The auto-index condition on a direct address (R89). -/
def State.autoIndex (s : State) (d : Addr) : Bool :=
  let off := (if s.bankMode then d &&& fldMask else d &&& pageMask).toNat
  decide (0o10 ≤ off) && decide (off ≤ 0o17)

/-- Where the auto-indexed pointer lies (R89). -/
def State.autoLoc (s : State) (d : Addr) : Addr :=
  match s.cfg.autoIndexScope with
  | .fieldZero => d &&& 0o17
  | .perField => d

/-- The pointer word of an indirect reference: pre-incremented in memory through the auto-index window, else as it stands
(R86, R88, R89). -/
def State.pointer (s : State) (d : Addr) : Access Word :=
  if s.autoIndex d then
    (s.cpuRead (s.autoLoc d) .read).andThen fun v s1 =>
      (s1.cpuWrite (s.autoLoc d) (v + 1)).andThen fun _ s2 => .done (v + 1) s2
  else s.cpuRead d .read

/-- The address an indirect reference takes from its pointer (R86, R88). -/
def State.indirectAddr (s : State) (base d : Addr) (ptr : Word) : Addr :=
  if s.bankMode then
    if s.extendActive then (base &&& ~~~blkMask s.cfg &&& amask s.cfg) ||| (ptr.setWidth 17 &&& 0o77777)
    else (base &&& ~~~fldMask &&& amask s.cfg) ||| (ptr.setWidth 17 &&& fldMask)
  else if s.autoIndex d then wordAddr s.cfg ptr
  else (base &&& ~~~blkMask s.cfg &&& amask s.cfg) ||| (ptr.setWidth 17 &&& 0o77777)

/-- Indexing: in page mode, IR<5> adds XR after indirection (R88). -/
def State.indexed (s : State) (m : MemOperand) (a : Addr) : Addr :=
  if !s.bankMode && m.y.getMsbD 0 then (a + s.xr.setWidth 17) &&& amask s.cfg else a

/-- An effective address, and the pointer word it came through (0 on a direct reference, where nothing reads it). -/
structure Resolved where
  ea : Addr
  ptr : Word
deriving DecidableEq, Repr

/-- The resolve-address stage from a given PC (R84 to R89, R369): at most one level of indirection. -/
def State.resolveFrom (s : State) (base : Addr) (m : MemOperand) : Access Resolved :=
  let d := s.directAddr base m
  if m.ind then
    (s.pointer d).andThen fun ptr s1 => .done ⟨s.indexed m (s.indirectAddr base d ptr), ptr⟩ s1
  else .done ⟨s.indexed m d, 0⟩ s

/-- The resolve-address stage of an executing instruction, from the advanced PC (R84). -/
def State.resolve (s : State) (m : MemOperand) : Access Resolved := s.resolveFrom s.pc m

/-- Resolve, then read the operand: the two stages of a reading memory reference (R84). -/
def State.loadOperand (s : State) (m : MemOperand) : Access Word :=
  (s.resolve m).andThen fun r s1 => s1.cpuRead r.ea .read

/-- Resolve, then write: the two stages of a storing memory reference (R84). -/
def State.storeOperand (s : State) (m : MemOperand) (v : Word) : Access Unit :=
  (s.resolve m).andThen fun r s1 => s1.cpuWrite r.ea v

/-! ## Immediates and in-line operands -/

/-- The index-operate immediate as an 18-bit word (R135, R141). -/
def immWord (imm : BitVec 9) : Word := imm.signExtend 18

/-- The word after the instruction, read as data, the PC having moved past it first (R284). -/
def State.inlineOperand (s : State) : Access Word := s.advance.cpuRead s.pc .read

/-! ## FP15 -/

/-- The effective address of an FP15 instruction: the address word at the PC, and one level of indirection (R311). -/
def State.fpAddress (s : State) : Access Addr :=
  (s.advance.fpRead s.pc).andThen fun aw s1 =>
    if aw.getMsbD 0 then (s1.fpRead (wordAddr s1.cfg aw)).andThen fun p s2 => .done (wordAddr s2.cfg p) s2
    else .done (wordAddr s1.cfg aw) s1

/-- An unpacked operand `{s, e, M}` (44_fp15.md, notation): value `(-1)^s * M * 2^(e-35)`, the exponent unbounded. -/
structure Unpacked where
  s : Bool
  e : Int
  m : Nat
deriving DecidableEq, Repr

/-- The FP15 exception kinds (R345). -/
inductive FpExc where
  | ovf | unf | div | mm
deriving DecidableEq, Repr

/-- `F = 2^35`. -/
def fpF : Nat := 34359738368

/-- A register read as an unpacked operand (R51). -/
def FpReg.unpack (r : FpReg) : Unpacked := ⟨r.s, r.e.toInt, r.hi.toNat * 262144 + r.lo.toNat⟩

/-- An operand written to a register, each field truncated to its width (R15, R51). -/
def Unpacked.pack (u : Unpacked) : FpReg :=
  ⟨u.s, BitVec.ofInt 18 u.e, BitVec.ofNat 17 (u.m / 262144), BitVec.ofNat 18 u.m⟩

/-- The true zero (R317). -/
def Unpacked.zero : Unpacked := ⟨false, 0, 0⟩

/-- The integer value of an operand (R314). -/
def Unpacked.int (u : Unpacked) : Int := if u.s then -(u.m : Int) else u.m

/-- An integer as an operand: sign, magnitude, exponent 35 (R314). -/
def Unpacked.ofInt (v : Int) : Unpacked := ⟨decide (v < 0), 35, v.natAbs⟩

/-- The FP15 format of an operand (R312). -/
inductive FpFormat where
  | singleInt | doubleInt | singleFloat | doubleFloat
deriving DecidableEq, Repr

/-- The format the FP and DP bits choose (R312). -/
def fpFormat (m : FpMods) : FpFormat :=
  match m.fp, m.dp with
  | false, false => .singleInt
  | false, true => .doubleInt
  | true, false => .singleFloat
  | true, true => .doubleFloat

/-- The next word of a multi-word operand (R101, R312). -/
def nextAddr (c : Cfg) (a : Addr) : Addr := (a + 1) &&& amask c

/-- One word of a single integer (R312). -/
def unpackSingleInt (w0 : Word) : Unpacked := Unpacked.ofInt w0.toInt

/-- Two words of a double integer (R312): -2^35 does not fit and overflows. -/
def unpackDoubleInt (w0 w1 : Word) : Except FpExc Unpacked :=
  let v := (w0 ++ w1).toInt
  if v.natAbs < fpF then .ok (Unpacked.ofInt v) else .error .ovf

/-- Two words of a single float (R312). -/
def unpackSingleFloat (w0 w1 : Word) : Unpacked :=
  FpReg.unpack ⟨w1.getMsbD 0, (w0.extractLsb' 0 9).signExtend 18, w1.extractLsb' 0 17, w0.extractLsb' 9 9 ++ 0#9⟩

/-- Three words of a double float (R312). -/
def unpackDoubleFloat (w0 w1 w2 : Word) : Unpacked := FpReg.unpack ⟨w1.getMsbD 0, w0, w1.extractLsb' 0 17, w2⟩

/-- Words W0, W1 of an operand, in order (R101, R312). -/
def State.fpRead2 (s : State) (ea : Addr) : Access (Word × Word) :=
  (s.fpRead ea).andThen fun w0 s1 =>
    (s1.fpRead (nextAddr s.cfg ea)).andThen fun w1 s2 => .done (w0, w1) s2

/-- The memory operand, read and unpacked (R312): a Fault, an exception of the unpacking, or the value. -/
def State.fpLoad (s : State) (fmt : FpFormat) (ea : Addr) : Access (Except FpExc Unpacked) :=
  match fmt with
  | .singleInt => (s.fpRead ea).andThen fun w0 s1 => .done (.ok (unpackSingleInt w0)) s1
  | .doubleInt => (s.fpRead2 ea).andThen fun w s1 => .done (unpackDoubleInt w.1 w.2) s1
  | .singleFloat => (s.fpRead2 ea).andThen fun w s1 => .done (.ok (unpackSingleFloat w.1 w.2)) s1
  | .doubleFloat =>
    (s.fpRead2 ea).andThen fun w s1 =>
      (s1.fpRead (nextAddr s.cfg (nextAddr s.cfg ea))).andThen fun w2 s2 =>
        .done (.ok (unpackDoubleFloat w.1 w.2 w2)) s2

/-- The words a store writes, or the exception raised before any is written (R328). -/
def packWords (fmt : FpFormat) (u : Unpacked) : Except FpExc (List Word) :=
  let r := u.pack
  match fmt with
  | .singleInt => if 131072 ≤ u.m then .error .ovf else .ok [BitVec.ofInt 18 u.int]
  | .doubleInt =>
    let v := BitVec.ofInt 36 u.int
    .ok [v.extractLsb' 18 18, v.extractLsb' 0 18]
  | .singleFloat =>
    if u.m ≠ 0 ∧ 255 < u.e then .error .ovf
    else if u.m ≠ 0 ∧ u.e < -256 then .error .unf
    else .ok [r.lo.extractLsb' 9 9 ++ r.e.extractLsb' 0 9, BitVec.ofBool r.s ++ r.hi]
  | .doubleFloat => .ok [r.e, BitVec.ofBool r.s ++ r.hi, r.lo]

/-- Words written in order at consecutive addresses; a Fault leaves the earlier ones written (R101, R328, R346). -/
def State.fpStore (s : State) (ea : Addr) : List Word → Access Unit
  | [] => .done () s
  | w :: ws => (s.fpWrite ea w).andThen fun _ s1 => s1.fpStore (nextAddr s.cfg ea) ws

end Sys2Proof.Machine
end

