-- ==== Sys2Proof/Machine/Eae.lean ====
section
/-! DEFINITION. The extended-arithmetic element (R280 to R292): the pre-steps, the setup micro-operations, and the multiply,
divide, normalize and shift loops as the rules write them. Every word of the class is one shared operation over its
fields; a named word is that operation at its fields (R291). -/

namespace Sys2Proof.Machine

/-- The pre-steps (R281): the link takes the sign, MQ is cleared, the AC-sign latch is written, MQ takes AC or AC its
magnitude, AC is cleared. -/
def State.eaePre (s : State) (p : EaePre) : State :=
  let l := if p.sgnl then s.ac.getMsbD 0 else s.l
  let mq1 := if p.clq then 0 else s.mq
  let acsign := p.sign && s.ac.getMsbD 0
  let mq2 := if p.acmq then mq1 ||| s.ac else mq1
  let ac1 := if !p.acmq && acsign then ~~~s.ac else s.ac
  { s with l := l, mq := mq2, eaeAcSign := acsign, ac := if p.cla then 0 else ac1 }

/-- Setup (R282): CMQ, OMQ, OSC in the low three bits of the count field. -/
def State.eaeSetup (s : State) (n : BitVec 6) : State :=
  let mq := if n.getLsbD 2 then ~~~s.mq else s.mq
  let ac1 := if n.getLsbD 1 then s.ac ||| mq else s.ac
  { s with mq := mq, ac := if n.getLsbD 0 then ac1 ||| s.sc.setWidth 18 else ac1 }

/-- One shift-and-add step of a multiply on AC and MQ (R285). -/
def mulStep (mb ac mq : Word) : Word × Word :=
  let t := ac.toNat + (if mq.getMsbD 17 then mb.toNat else 0)
  (BitVec.ofNat 18 (t / 2), BitVec.ofBool (t % 2 == 1) ++ mq.extractLsb' 1 17)

/-- The multiply loop (R285). -/
def mulLoop (mb : Word) : Nat → Word → Word → Word × Word
  | 0, ac, mq => (ac, mq)
  | n + 1, ac, mq => mulLoop mb n (mulStep mb ac mq).1 (mulStep mb ac mq).2

/-- Multiply, once the pre-steps are done and the operand `mb` is read (R285). -/
def State.eaeMultiply (s : State) (signed : Bool) (n : BitVec 6) (mb : Word) : State :=
  let mq := if s.eaeAcSign then ~~~s.mq else s.mq
  let mbsign := signed && mb.getMsbD 0
  let r := mulLoop (if mbsign then ~~~mb else mb) n.toNat s.ac mq
  let psign := signed && (s.eaeAcSign != mbsign)
  { s with
    ac := if psign then ~~~r.1 else r.1
    mq := if psign then ~~~r.2 else r.2
    l := psign
    sc := 0 }

/-- One quotient step of a divide: the remainder, as wide as it gets, and the quotient (R287). -/
def divStep (mb : Nat) (r : Nat) (q : Word) : Nat × Word :=
  let r1 := 2 * r + (q.getMsbD 0).toNat
  let q1 := q <<< 1
  if mb ≤ r1 then (r1 - mb, q1 ||| 1) else (r1, q1)

/-- The divide loop (R287). -/
def divLoop (mb : Nat) : Nat → Nat → Word → Nat × Word
  | 0, r, q => (r, q)
  | n + 1, r, q => divLoop mb n (divStep mb r q).1 (divStep mb r q).2

/-- Divide, once the pre-steps are done and the operand `mb` is read (R287): the overflow check, the zero dividend, or the
loop with the signs put back. -/
def State.eaeDivide (s : State) (signed : Bool) (n : BitVec 6) (mb : Word) : State :=
  let mq := if s.eaeAcSign then ~~~s.mq else s.mq
  let dsign := signed && mb.getMsbD 0
  let d := if dsign then ~~~mb else mb
  if d.toNat ≤ s.ac.toNat then { s with mq := mq, l := true }
  else if s.ac = 0 ∧ mq = 0 then { s with mq := mq, l := false, sc := 0 }
  else
    let r := divLoop d.toNat (n.toNat - 1) s.ac.toNat mq
    let rem := BitVec.ofNat 18 r.1
    { s with
      mq := if signed && (s.eaeAcSign != dsign) then ~~~r.2 else r.2
      ac := if s.eaeAcSign then ~~~rem else rem
      l := false
      sc := 0 }

/-- One long left shift, filled from the link (R289, R290). -/
def shiftLeftStep (l : Bool) (ac mq : Word) : Word × Word :=
  (ac.extractLsb' 0 17 ++ BitVec.ofBool (mq.getMsbD 0), mq.extractLsb' 0 17 ++ BitVec.ofBool l)

/-- One long right shift, filled from the link (R290). -/
def shiftRightStep (l : Bool) (ac mq : Word) : Word × Word :=
  (BitVec.ofBool l ++ ac.extractLsb' 1 17, BitVec.ofBool (ac.getMsbD 17) ++ mq.extractLsb' 1 17)

/-- One AC left shift, filled from the link (R290). -/
def shiftAcStep (l : Bool) (ac mq : Word) : Word × Word := (ac.extractLsb' 0 17 ++ BitVec.ofBool l, mq)

/-- A shift step repeated n times (R290). -/
def shiftLoop (step : Word → Word → Word × Word) : Nat → Word → Word → Word × Word
  | 0, ac, mq => (ac, mq)
  | n + 1, ac, mq => shiftLoop step n (step ac mq).1 (step ac mq).2

/-- A shift (R290): the pair shifted n times, SC at 0. -/
def State.eaeShift (s : State) (step : Bool → Word → Word → Word × Word) (n : BitVec 6) : State :=
  let r := shiftLoop (step s.l) n.toNat s.ac s.mq
  { s with ac := r.1, mq := r.2, sc := 0 }

/-- The normalize loop (R289): the pair, and the steps left. -/
def normLoop (l : Bool) : Nat → Word → Word → Nat × Word × Word
  | 0, ac, mq => (0, ac, mq)
  | n + 1, ac, mq =>
    if ac.getMsbD 0 = ac.getMsbD 1 then normLoop l n (shiftLeftStep l ac mq).1 (shiftLeftStep l ac mq).2
    else (n + 1, ac, mq)

/-- Normalize (R289): SC ends at the count less the shifts made. -/
def State.eaeNormalize (s : State) (n : BitVec 6) : State :=
  let r := normLoop s.l n.toNat s.ac s.mq
  { s with ac := r.2.1, mq := r.2.2, sc := BitVec.ofNat 6 r.1 }

/-- Every EAE word (R280): the pre-steps, the operand fetch where the command has one, the command. -/
def State.eae (s : State) (p : EaePre) (cmd : EaeCmd) (n : BitVec 6) : State :=
  let t := s.eaePre p
  match cmd with
  | .setup => t.eaeSetup n
  | .multiply => t.inlineOperand.finish fun mb u => u.eaeMultiply p.sign n mb
  | .divide => t.inlineOperand.finish fun mb u => u.eaeDivide p.sign n mb
  | .normalize => t.eaeNormalize n
  | .lrs => t.eaeShift shiftRightStep n
  | .lls => t.eaeShift shiftLeftStep n
  | .als => t.eaeShift shiftAcStep n

/-- EAE, any word of the class (R280). -/
def execEae (pre : EaePre) (cmd : EaeCmd) (n : BitVec 6) (s : State) : Host.Outcome State Fault Refusal :=
  .next (s.eae pre cmd n)

/-- OSC, 640001 (R282, R291). -/
def execOsc (s : State) : Host.Outcome State Fault Refusal := .next (s.eae {} .setup 0o01)

/-- OMQ, 640002 (R282, R291). -/
def execOmq (s : State) : Host.Outcome State Fault Refusal := .next (s.eae {} .setup 0o02)

/-- CMQ, 640004 (R282, R291). -/
def execCmq (s : State) : Host.Outcome State Fault Refusal := .next (s.eae {} .setup 0o04)

/-- LACS, 641001 (R282, R291). -/
def execLacs (s : State) : Host.Outcome State Fault Refusal := .next (s.eae { cla := true } .setup 0o01)

/-- LACQ, 641002 (R282, R291). -/
def execLacq (s : State) : Host.Outcome State Fault Refusal := .next (s.eae { cla := true } .setup 0o02)

/-- ABS, 644000 (R282, R291). -/
def execAbs (s : State) : Host.Outcome State Fault Refusal := .next (s.eae { sign := true } .setup 0o00)

/-- CLQ, 650000 (R282, R291). -/
def execClq (s : State) : Host.Outcome State Fault Refusal := .next (s.eae { clq := true } .setup 0o00)

/-- LMQ, 652000 (R282, R291). -/
def execLmq (s : State) : Host.Outcome State Fault Refusal := .next (s.eae { clq := true, acmq := true } .setup 0o00)

/-- GSM, 664000 (R282, R291). -/
def execGsm (s : State) : Host.Outcome State Fault Refusal := .next (s.eae { sgnl := true, sign := true } .setup 0o00)

/-- MUL, 653122 (R285, R291). -/
def execMul (s : State) : Host.Outcome State Fault Refusal := .next (s.eae { clq := true, acmq := true, cla := true } .multiply 0o22)

/-- MULS, 657122 (R285, R291). -/
def execMuls (s : State) : Host.Outcome State Fault Refusal := .next (s.eae { clq := true, sign := true, acmq := true, cla := true } .multiply 0o22)

/-- DIV, 640323 (R287, R291). -/
def execDiv (s : State) : Host.Outcome State Fault Refusal := .next (s.eae {} .divide 0o23)

/-- DIVS, 644323 (R287, R291). -/
def execDivs (s : State) : Host.Outcome State Fault Refusal := .next (s.eae { sign := true } .divide 0o23)

/-- IDIV, 653323 (R287, R291). -/
def execIdiv (s : State) : Host.Outcome State Fault Refusal := .next (s.eae { clq := true, acmq := true, cla := true } .divide 0o23)

/-- IDIVS, 657323 (R287, R291). -/
def execIdivs (s : State) : Host.Outcome State Fault Refusal := .next (s.eae { clq := true, sign := true, acmq := true, cla := true } .divide 0o23)

/-- FRDIV, 650323 (R287, R291). -/
def execFrdiv (s : State) : Host.Outcome State Fault Refusal := .next (s.eae { clq := true } .divide 0o23)

/-- FRDIVS, 654323 (R287, R291). -/
def execFrdivs (s : State) : Host.Outcome State Fault Refusal := .next (s.eae { clq := true, sign := true } .divide 0o23)

/-- NORM, 640444 (R289, R291). -/
def execNorm (s : State) : Host.Outcome State Fault Refusal := .next (s.eae {} .normalize 0o44)

/-- NORMS, 660444 (R289, R291). -/
def execNorms (s : State) : Host.Outcome State Fault Refusal := .next (s.eae { sgnl := true } .normalize 0o44)

/-- LRS n, 640500 with the count (R290, R291). -/
def execLrs (n : BitVec 6) (s : State) : Host.Outcome State Fault Refusal := .next (s.eae {} .lrs n)

/-- LRSS n, 660500 with the count (R290, R291). -/
def execLrss (n : BitVec 6) (s : State) : Host.Outcome State Fault Refusal := .next (s.eae { sgnl := true } .lrs n)

/-- LLS n, 640600 with the count (R290, R291). -/
def execLls (n : BitVec 6) (s : State) : Host.Outcome State Fault Refusal := .next (s.eae {} .lls n)

/-- LLSS n, 660600 with the count (R290, R291). -/
def execLlss (n : BitVec 6) (s : State) : Host.Outcome State Fault Refusal := .next (s.eae { sgnl := true } .lls n)

/-- ALS n, 640700 with the count (R290, R291). -/
def execAls (n : BitVec 6) (s : State) : Host.Outcome State Fault Refusal := .next (s.eae {} .als n)

/-- ALSS n, 660700 with the count (R290, R291). -/
def execAlss (n : BitVec 6) (s : State) : Host.Outcome State Fault Refusal := .next (s.eae { sgnl := true } .als n)

end Sys2Proof.Machine
end

