-- ==== Sys2Proof/Machine/Flags.lean ====
section
/-! DEFINITION. Results with their flags: the link of ADD and TAD (R176, R177), the rotates and IAC on L:AC (R203, R204), the
operate skip test (R200), the FP15's normalise and round with its guard bit and exponent range (R317, R318), its sign
modifier (R316) and its branch conditions (R335). -/

namespace Sys2Proof.Machine

/-- Split a 19-bit L:AC (R18). -/
def lacLink (x : BitVec 19) : Bool := x.getMsbD 0

/-- The low 18 bits of L:AC. -/
def lacWord (x : BitVec 19) : Word := x.extractLsb' 0 18

/-- The ones-complement sum with end-around carry applied once (R176). -/
def onesSum (a m : Word) : Word :=
  let t := a.toNat + m.toNat
  BitVec.ofNat 18 (if 0o777777 < t then t + 1 else t)

/-- The signed ones-complement overflow of ADD: operands of one sign, a result of the other (R176). -/
def onesOverflow (a m : Word) : Bool :=
  a.getMsbD 0 == m.getMsbD 0 && (onesSum a m).getMsbD 0 != a.getMsbD 0

/-- `(L * 2^18 + AC + m) mod 2^19` (R177). -/
def tadSum (lac : BitVec 19) (m : Word) : BitVec 19 := lac + m.setWidth 19

/-- RAL: L:AC rotated left by one (R203). -/
def ral1 (x : BitVec 19) : BitVec 19 := x.rotateLeft 1

/-- RAR: L:AC rotated right by one (R203). -/
def rar1 (x : BitVec 19) : BitVec 19 := x.rotateRight 1

/-- BSW: the two 9-bit halves of AC swapped, L unchanged (R204). -/
def swapHalves (x : BitVec 19) : BitVec 19 := x.extractLsb' 18 1 ++ x.extractLsb' 0 9 ++ x.extractLsb' 9 9

/-- The rotate group on L:AC (R203, R204). -/
def rotateGroup (rot : Nat) (x : BitVec 19) : BitVec 19 :=
  match rot with
  | 1 => ral1 x
  | 2 => rar1 x
  | 3 => x + 1
  | 5 => ral1 (ral1 x)
  | 6 => rar1 (rar1 x)
  | 7 => swapHalves x
  | _ => x

/-- The operate skip test on AC and L (R200). -/
def skipTest (o : OperateOps) (ac : Word) (l : Bool) : Bool :=
  let cond := (o.sma && ac.getMsbD 0) || (o.sza && ac == 0) || (o.snl && l)
  if o.skp then !cond else cond

/-- L:AC after the clears, the complements, OAS and the rotate of an operate word, in that order (R201 to R204, R206). -/
def operateLac (o : OperateOps) (l : Bool) (ac sr : Word) : BitVec 19 :=
  let ac1 := if o.cla then 0 else ac
  let l1 := if o.cll then false else l
  let ac2 := if o.cma then ~~~ac1 else ac1
  let l2 := if o.cml then !l1 else l1
  let ac3 := if o.oas then ac2 ||| sr else ac2
  rotateGroup o.rot (BitVec.ofBool l2 ++ ac3)

/-! ## FP15 -/

/-- The left-normalising loop of R317, the guard bit shifted in first. At most 34 shifts are needed. -/
def leftNormalize : Nat → Int → Nat → Bool → Int × Nat × Bool
  | 0, e, m, g => (e, m, g)
  | n + 1, e, m, g =>
    if m ≠ 0 ∧ m < 17179869184 then leftNormalize n (e - 1) (2 * m + g.toNat) false else (e, m, g)

/-- The exponent range of a float result (R318). -/
def rangeCheck (u : Unpacked) : Except FpExc Unpacked :=
  if u.m ≠ 0 ∧ 131071 < u.e then .error .ovf
  else if u.m ≠ 0 ∧ u.e < -131072 then .error .unf
  else .ok u

/-- Rounding by the guard bit, with one more step on a carry-out (R317). -/
def roundUp (e : Int) (m : Nat) (g : Bool) : Int × Nat :=
  if g then if m + 1 = fpF then (e + 1, fpF / 2) else (e, m + 1) else (e, m)

/-- The shared routine `normalize(s, e, M, g)` (R317, R318): the value for FMA and the guard for fguard. -/
def normalize (md : FpMods) (s : Bool) (e : Int) (m : Nat) (g : Bool) : Except FpExc (Unpacked × Bool) :=
  let n := if md.nonorm then (e, m, g) else leftNormalize 34 e m g
  let zero := n.2.1 = 0 ∧ n.2.2 = false
  let s' := if zero then false else s
  let e' := if zero then 0 else n.1
  let r := if md.nornd then (e', n.2.1) else roundUp e' n.2.1 n.2.2
  (rangeCheck ⟨s', r.1, r.2⟩).map fun u => (u, n.2.2)

/-- The result sign modifier SGN (R316): a zero mantissa keeps the sign 0. -/
def applySgn (sgn : BitVec 2) (u : Unpacked) : Unpacked :=
  if u.m = 0 then { u with s := false }
  else
    match sgn.toNat with
    | 0 => u
    | 1 => { u with s := false }
    | 2 => { u with s := true }
    | _ => { u with s := !u.s }

/-- The branch condition of BR on FMA and fguard (R335). -/
def brTest (c : BrConds) (a : Unpacked) (guard : Bool) : Bool :=
  let cond :=
    (c.zero && a.m == 0) || (c.positive && a.m != 0 && !a.s) || (c.negative && a.m != 0 && a.s) || (c.grd && guard)
  if c.reverse then !cond else cond

end Sys2Proof.Machine
end

