-- ==== Sys2Proof/Machine/Fp15.lean ====
section
/-! DEFINITION. The floating-point unit (R310 to R347): exception delivery, the arithmetic on unpacked operands as pure
functions, and the instructions. -/

namespace Sys2Proof.Machine

/-! ## Exceptions -/

/-- `FpExcOffset(kind)` (R345). -/
def fpExcOffset (c : Cfg) : FpExc → Addr
  | .ovf => c.fpExcOffset.ovf
  | .unf => c.fpExcOffset.unf
  | .div => c.fpExcOffset.div
  | .mm => c.fpExcOffset.mm

/-- The exception base in the current block (R345). -/
def State.fpBase (s : State) : Addr := (s.pc &&& ~~~blkMask s.cfg &&& amask s.cfg) ||| s.jeaBase.setWidth 17

/-- FP15 exception delivery (R345): the return word at the base by a processor access, then the PC at the base plus the kind's
offset. -/
def State.fpException (s : State) (k : FpExc) : State :=
  (s.cpuWrite s.fpBase s.retWord).finish fun _ t =>
    { t.pcqPush with pc := (s.fpBase + fpExcOffset s.cfg k) &&& amask s.cfg }

/-- An FP15 instruction whose access Faults ends in the memory-fault exception (R346). -/
def fpSettle {α : Type} (x : Access α) (f : α → State → State) : State := x.settle (fun t => t.fpException .mm) f

/-! ## Results -/

/-- What an operation leaves when no exception is raised: the value for FMA, the guard, and FMQ where it writes it. -/
structure FpResult where
  value : Unpacked
  grd : Bool
  fmq : Option (BitVec 35)
deriving DecidableEq, Repr

/-- The end of an operation (R316, R318, R345): the signed result to FMA, or the exception with FMA, FMQ and fguard as they
were. -/
def State.fpFinish (s : State) (sgn : BitVec 2) (r : Except FpExc FpResult) : State :=
  match r with
  | .ok x => { s with fma := (applySgn sgn x.value).pack, fguard := x.grd, fmq := x.fmq.getD s.fmq }
  | .error k => s.fpException k

/-- A float result through `normalize` (R317). -/
def normalized (md : FpMods) (u : Unpacked) (g : Bool) (fmq : Option (BitVec 35)) : Except FpExc FpResult :=
  (normalize md u.s u.e u.m g).map fun r => ⟨r.1, r.2, fmq⟩

/-- An integer result (R314, R318, R332). -/
def integerResult (v : Int) (fmq : Option (BitVec 35)) : Except FpExc FpResult :=
  if fpF ≤ v.natAbs then .error .ovf else .ok ⟨Unpacked.ofInt v, false, fmq⟩

/-! ## Arithmetic -/

/-- An operand with its sign complemented (R322, R323). -/
def Unpacked.neg (u : Unpacked) : Unpacked := { u with s := !u.s }

/-- The aligned sum of two operands that are not zero, before `normalize`: sign, exponent, mantissa, guard (R320). -/
def alignedSum (x y : Unpacked) : Unpacked × Bool :=
  let big := if y.e ≤ x.e then x else y
  let small := if y.e ≤ x.e then y else x
  let d := (big.e - small.e).toNat
  let bx := big.m * 2
  let sx := if d ≤ 35 then (small.m * 2) >>> d else 0
  let sr : Bool × Nat :=
    if big.s = small.s then (big.s, bx + sx)
    else if sx ≤ bx then (big.s, bx - sx)
    else (small.s, sx - bx)
  let c : Int × Nat := if 2 * fpF ≤ sr.2 then (big.e + 1, sr.2 / 2) else (big.e, sr.2)
  (⟨sr.1, c.1, c.2 / 2⟩, c.2 % 2 == 1)

/-- Float add (R320). -/
def floatAdd (md : FpMods) (x y : Unpacked) : Except FpExc FpResult :=
  if y.m = 0 then normalized md x false none
  else if x.m = 0 then normalized md y false none
  else normalized md (alignedSum x y).1 (alignedSum x y).2 none

/-- Float multiply (R324). -/
def floatMul (md : FpMods) (a b : Unpacked) : Except FpExc FpResult :=
  if a.m = 0 ∨ b.m = 0 then .ok ⟨Unpacked.zero, false, some 0⟩
  else
    let p := a.m * b.m
    normalized md ⟨a.s != b.s, a.e + b.e, p / fpF⟩ ((p / 17179869184) % 2 == 1) (some (BitVec.ofNat 35 p))

/-- `while Q >= 2 * F: Q <- Q >> 1; e <- e + 1` (R325). At most 36 shifts are needed. -/
def quotientShift : Nat → Int → Nat → Int × Nat
  | 0, e, q => (e, q)
  | n + 1, e, q => if 2 * fpF ≤ q then quotientShift n (e + 1) (q / 2) else (e, q)

/-- Float divide, x by y (R325, R326). -/
def floatDiv (md : FpMods) (x y : Unpacked) : Except FpExc FpResult :=
  if y.m = 0 then .error .div
  else if x.m = 0 then .ok ⟨Unpacked.zero, false, none⟩
  else
    let r := quotientShift 36 (x.e - y.e) (x.m * 68719476736 / y.m)
    normalized md ⟨x.s != y.s, r.1, r.2 / 2⟩ (r.2 % 2 == 1) none

/-- Integer divide, x by y, toward zero, the remainder's magnitude to FMQ (R332). -/
def integerDiv (x y : Int) : Except FpExc FpResult :=
  if y = 0 then .error .div
  else if x = 0 then integerResult 0 none
  else integerResult (x.tdiv y) (some (BitVec.ofNat 35 (x - x.tdiv y * y).natAbs))

/-- ADD: A + B (R321). -/
def fpAddOp (md : FpMods) (a b : Unpacked) : Except FpExc FpResult :=
  if md.fp then floatAdd md a b else integerResult (a.int + b.int) none

/-- SUB: A - B (R322). -/
def fpSubOp (md : FpMods) (a b : Unpacked) : Except FpExc FpResult :=
  if md.fp then floatAdd md a b.neg else integerResult (a.int - b.int) none

/-- RSUB: B - A (R323). -/
def fpRsubOp (md : FpMods) (a b : Unpacked) : Except FpExc FpResult :=
  if md.fp then floatAdd md b a.neg else integerResult (b.int - a.int) none

/-- MUL: A * B (R324). -/
def fpMulOp (md : FpMods) (a b : Unpacked) : Except FpExc FpResult :=
  if md.fp then floatMul md a b else integerResult (a.int * b.int) none

/-- DIV: A / B (R325). -/
def fpDivOp (md : FpMods) (a b : Unpacked) : Except FpExc FpResult :=
  if md.fp then floatDiv md a b else integerDiv a.int b.int

/-- RDIV: B / A (R326). -/
def fpRdivOp (md : FpMods) (a b : Unpacked) : Except FpExc FpResult :=
  if md.fp then floatDiv md b a else integerDiv b.int a.int

/-- LD: B itself (R327), normalised in float mode, with exponent 35 in integer mode (R314). -/
def fpLoadOp (md : FpMods) (_a b : Unpacked) : Except FpExc FpResult :=
  if md.fp then normalized md b false none else .ok ⟨{ b with e := 35 }, false, none⟩

/-- FLT: the integer of FMA as a float, whatever the FP bit (R329). -/
def fpFloatOp (md : FpMods) (a : Unpacked) : Except FpExc FpResult := normalized md { a with e := 35 } false none

/-- FIX: the float of FMA toward zero (R330). -/
def fpFixOp (a : Unpacked) : Except FpExc FpResult :=
  let r := if a.e ≤ 35 then a.m >>> (35 - a.e).toNat else a.m <<< (a.e - 35).toNat
  if fpF ≤ r then .error .ovf else .ok ⟨⟨r != 0 && a.s, 35, r⟩, false, none⟩

/-! ## Instruction shapes -/

/-- Operand B (R313): FMB itself under NOLOAD, else the memory operand, which FMB takes. -/
def State.fpOperand (s : State) (md : FpMods) (ea : Addr) : Access (Except FpExc Unpacked) :=
  if md.noload then .done (.ok s.fmb.unpack) s
  else
    (s.fpLoad (fpFormat md) ea).andThen fun b t =>
      match b with
      | .ok u => .done b { t with fmb := u.pack }
      | .error _ => .done b t

/-- An instruction that takes A and B to FMA (R311, R313, R318): the address word, operand B, the operation. -/
def State.fpArith (s : State) (md : FpMods) (op : FpMods → Unpacked → Unpacked → Except FpExc FpResult) : State :=
  fpSettle (s.fpAddress.andThen fun ea t => t.fpOperand md ea) fun b t =>
    t.fpFinish md.sgn (b.bind fun u => op md t.fma.unpack u)

/-- An instruction on FMA alone (R329, R330): its address word is read and resolved, and not used (R311). -/
def State.fpUnary (s : State) (md : FpMods) (op : Unpacked → Except FpExc FpResult) : State :=
  fpSettle s.fpAddress fun _ t => t.fpFinish md.sgn (op t.fma.unpack)

/-! ## Instructions -/

/-- SUB (R322). -/
def execFpSub (m : FpMods) (s : State) : Host.Outcome State Fault Refusal := .next (s.fpArith m fpSubOp)

/-- RSUB (R323). -/
def execFpRsub (m : FpMods) (s : State) : Host.Outcome State Fault Refusal := .next (s.fpArith m fpRsubOp)

/-- MUL (R324). -/
def execFpMul (m : FpMods) (s : State) : Host.Outcome State Fault Refusal := .next (s.fpArith m fpMulOp)

/-- DIV (R325). -/
def execFpDiv (m : FpMods) (s : State) : Host.Outcome State Fault Refusal := .next (s.fpArith m fpDivOp)

/-- RDIV (R326). -/
def execFpRdiv (m : FpMods) (s : State) : Host.Outcome State Fault Refusal := .next (s.fpArith m fpRdivOp)

/-- LD (R327). -/
def execLd (m : FpMods) (s : State) : Host.Outcome State Fault Refusal := .next (s.fpArith m fpLoadOp)

/-- What ST stores: FMA with the sign modifier, FMA itself unchanged (R316, R328). -/
def State.storedValue (s : State) (m : FpMods) : Unpacked := applySgn m.sgn s.fma.unpack

/-- ST (R328): to FMB under NOLOAD, else packed to memory, an exception of the packing coming before any write. -/
def execSt (m : FpMods) (s : State) : Host.Outcome State Fault Refusal :=
  .next (fpSettle s.fpAddress fun ea t =>
    if m.noload then { t with fmb := (t.storedValue m).pack }
    else
      match packWords (fpFormat m) (t.storedValue m) with
      | .error k => t.fpException k
      | .ok ws => fpSettle (t.fpStore ea ws) fun _ u => u)

/-- FLT (R329). -/
def execFlt (m : FpMods) (s : State) : Host.Outcome State Fault Refusal := .next (s.fpUnary m (fpFloatOp m))

/-- FIX (R330). -/
def execFix (m : FpMods) (s : State) : Host.Outcome State Fault Refusal := .next (s.fpUnary m fpFixOp)

/-- LFMQ (R331): FMQ becomes FMA's mantissa. -/
def execLfmq (_m : FpMods) (s : State) : Host.Outcome State Fault Refusal :=
  .next (fpSettle s.fpAddress fun _ t =>
    { t with fma := { t.fma with hi := t.fmq.extractLsb' 18 17, lo := t.fmq.extractLsb' 0 18 } })

/-- The word form of the control register (R53, R333). -/
def State.jeaWord (s : State) : Word := BitVec.ofBool s.fma.s ++ BitVec.ofBool s.fguard ++ 0#1 ++ s.jeaBase

/-- What a control-register load takes from its word (R53, R333). -/
def State.jeaLoad (s : State) (w : Word) : State :=
  { s with jeaBase := w.extractLsb' 0 15, fma := { s.fma with s := w.getMsbD 0 }, fguard := w.getMsbD 1 }

/-- JEA (R333): load with DP = 0, store with DP = 1. -/
def execJea (m : FpMods) (s : State) : Host.Outcome State Fault Refusal :=
  .next (fpSettle s.fpAddress fun ea t =>
    if m.dp then fpSettle (t.fpWrite ea t.jeaWord) fun _ u => u
    else fpSettle (t.fpRead ea) fun w u => u.jeaLoad w)

/-- ADD (R321). -/
def execFpAdd (m : FpMods) (s : State) : Host.Outcome State Fault Refusal := .next (s.fpArith m fpAddOp)

/-- BR (R335). -/
def execBr (c : BrConds) (s : State) : Host.Outcome State Fault Refusal :=
  .next (fpSettle s.fpAddress fun ea t =>
    if brTest c t.fma.unpack t.fguard then { t.pcqPush with pc := ea } else t)

end Sys2Proof.Machine
end

