-- ==== Sys2Proof/Machine/IndexOp.lean ====
section
/-! DEFINITION. The index operates (R210 to R222). L is never changed, no memory is touched, nothing is privileged. -/

namespace Sys2Proof.Machine

/-- PAX (R210). -/
def execPax (_imm : BitVec 9) (s : State) : Host.Outcome State Fault Refusal := .next { s with xr := s.ac }

/-- PAL (R211). -/
def execPal (_imm : BitVec 9) (s : State) : Host.Outcome State Fault Refusal := .next { s with lr := s.ac }

/-- AAC (R212). -/
def execAac (imm : BitVec 9) (s : State) : Host.Outcome State Fault Refusal := .next { s with ac := s.ac + immWord imm }

/-- PXA (R213). -/
def execPxa (_imm : BitVec 9) (s : State) : Host.Outcome State Fault Refusal := .next { s with ac := s.xr }

/-- AXS (R214): the comparison is signed. -/
def execAxs (imm : BitVec 9) (s : State) : Host.Outcome State Fault Refusal :=
  let x := s.xr + immWord imm
  .next ({ s with xr := x }.skipIf (decide (s.lr.toInt ≤ x.toInt)))

/-- PXL (R215). -/
def execPxl (_imm : BitVec 9) (s : State) : Host.Outcome State Fault Refusal := .next { s with lr := s.xr }

/-- PLA (R216). -/
def execPla (_imm : BitVec 9) (s : State) : Host.Outcome State Fault Refusal := .next { s with ac := s.lr }

/-- PLX (R217). -/
def execPlx (_imm : BitVec 9) (s : State) : Host.Outcome State Fault Refusal := .next { s with xr := s.lr }

/-- CLAC (R218). -/
def execClac (_imm : BitVec 9) (s : State) : Host.Outcome State Fault Refusal := .next { s with ac := 0 }

/-- CLX (R219). -/
def execClx (_imm : BitVec 9) (s : State) : Host.Outcome State Fault Refusal := .next { s with xr := 0 }

/-- CLLR (R220). -/
def execCllr (_imm : BitVec 9) (s : State) : Host.Outcome State Fault Refusal := .next { s with lr := 0 }

/-- AXR (R221). -/
def execAxr (imm : BitVec 9) (s : State) : Host.Outcome State Fault Refusal := .next { s with xr := s.xr + immWord imm }

end Sys2Proof.Machine
end

