-- ==== Sys2Proof/Machine/Arbiter.lean ====
section
/-! DEFINITION. The interrupt arbiter (R367), the API's delivery (R369) and dismiss (R247). -/

namespace Sys2Proof.Machine

/-- `bit(k) = 1 << (7 - k)`, level k in the 8-bit masks (R42, R367); zero from level 8 on. -/
def levelBit (k : Nat) : BitVec 8 := 0b10000000#8 >>> k

/-- The numerically lowest level of a mask, or 8 (R247, R367). -/
def topLevel (m : BitVec 8) : Nat := ((List.range 8).find? fun k => m.getMsbD k).getD 8

/-- The pending levels (R367): hardware levels with a line asserted, software levels requested. -/
def State.pendingMask (s : State) : BitVec 8 :=
  BitVec.ofBool (s.intReq.api0 != 0) ++ BitVec.ofBool (s.intReq.api1 != 0) ++ BitVec.ofBool (s.intReq.api2 != 0)
    ++ BitVec.ofBool (s.intReq.api3 != 0) ++ s.apiReq.extractLsb' 0 4

/-- `apiOn` (R367). -/
def State.apiOn (s : State) : Bool := s.cfg.hasAPI && s.apiEnb

/-- `apiCand` (R367): the lowest pending level strictly above every active one. -/
def State.apiCandidate (s : State) : Option Nat :=
  if s.apiOn then (List.range (topLevel s.apiAct)).find? fun k => s.pendingMask.getMsbD k else none

/-- `piMask` (R367): on VC any active level masks PI, on VD an active hardware level. -/
def State.piMasked (s : State) : Bool :=
  match s.cfg.variant with
  | .VA => false
  | .VB => false
  | .VC => s.apiAct != 0
  | .VD => s.apiAct &&& 0o360 != 0

/-- `piReady` (R367). -/
def State.piReady (s : State) : Bool := s.ion && s.intReq.pi != 0 && !s.piMasked

/-- What the arbiter selects (R367). -/
inductive Arbitration where
  | none
  | api (k : Nat)
  | pi
deriving DecidableEq, Repr

/-- `arbitrate()`, a function of the state (R367): API levels 0 to 3, then PI, then API levels 4 to 7. -/
def State.arbitrate (s : State) : Arbitration :=
  match s.apiCandidate with
  | some k => if k < 4 then .api k else if s.piReady then .pi else .api k
  | .none => if s.piReady then .pi else .none

/-- The highest asserted line of a level's vector, "scanned high-to-low" (R369). -/
def highestLine (v : BitVec 32) : Nat := 31 - ((List.range 32).find? fun n => v.getMsbD n).getD 31

/-- The vector address of level k, or `invalid` (R369). -/
def State.apiVector (s : State) (k : Nat) : Option Addr :=
  if k < 4 then
    (s.cfg.apiVecTable.find? fun v => v.level == k && v.line == highestLine (s.intReq.level k)).map fun v =>
      v.addr &&& amask s.cfg
  else some (BitVec.ofNat 17 (0o40 + (k - 4)))

/-- API delivery of level k (R369). `s0` is the state at the start of the cycle, which an invalid vector stops in (R404). The
vector word is executed in place of a fetch: its address is resolved in the forced modes, from its own location. -/
def State.apiDelivery (s0 s : State) (k : Nat) : State :=
  match s.apiVector k with
  | none => s0.stop .invalidVector
  | some vec =>
    let w := s.physRead vec.toNat
    if w.extractLsb' 14 4 ≠ 0b0010#4 then s0.stop .invalidVector
    else
      let act := s.apiAct ||| levelBit k
      let req := if 4 ≤ k then s.apiReq &&& ~~~levelBit k else s.apiReq
      let s1 := { s.forceEntryModes with apiAct := act, apiReq := req, ir := w }
      (s1.resolveFrom (incPC s.cfg vec) (memOperandOf w)).finish fun r t => t.jumpSubroutine r.ea s.retWord

/-- DBK's dismiss (R247): the highest active level, if any, is no longer active. -/
def State.dismiss (s : State) : State := { s with apiAct := s.apiAct &&& ~~~levelBit (topLevel s.apiAct) }

end Sys2Proof.Machine
end

