-- ==== Sys2Proof/Machine/Iot.lean ====
section
/-! DEFINITION. The I/O transfers (R230 to R264): what every IOT-class word does, the device callback, and the words the
processor claims for itself. -/

namespace Sys2Proof.Machine

/-! ## The device agent's answers -/

/-- The agent's answer to `ioTransfer(code, AC, dev)` (R231, R366): the next one it has ready, else a free one. -/
def State.ioAnswer (s : State) (dev code : BitVec 6) : IoAnswer :=
  s.ioAnswers.head?.getD (Config.ioAnswer s.draws code s.ac dev)

/-- The agent's answer to `statusPoll()` (R244, R366): the next one it has ready, else a free one. -/
def State.statusPoll (s : State) : Word := s.statusPolls.head?.getD (Config.statusPoll s.draws)

/-- The device callback (R230, R231, R366): data into AC, then the skip, then a stop code. The agent may change request lines
in the same step. -/
def State.ioTransfer (s : State) (dev code : BitVec 6) : State :=
  let r := s.ioAnswer dev code
  { s with
    ac := s.ac ||| BitVec.ofNat 18 r.word
    pc := if r.word.testBit 18 then incPC s.cfg s.pc else s.pc
    intReq := r.moves.foldl RequestLines.apply s.intReq
    runState := if r.word >>> 19 = 0 then s.runState else .stopped (.ioStop (r.word >>> 19))
    ioAnswers := s.ioAnswers.tail
    draws := s.draws + 1 }

/-! ## Every IOT-class word -/

/-- The start of an IOT that executes (R230): the clear bit before the transfer, and the one-instruction deferral (R371). -/
def State.iotStart (s : State) (cla : Bool) : State := { s with ac := if cla then 0 else s.ac, ionDefer := true }

/-- An IOT-class word (R230): in user mode it traps and does nothing else; a word no rule claims and no device owns is
unimplemented; else the clear bit, the deferral, and the claiming rule's effect or the device callback. -/
def State.iot (s : State) (claimed : Bool) (dev code : BitVec 6) (cla : Bool) (effect : State → State) : State :=
  if s.usmd then s.violation
  else if !claimed && !s.devices.getLsbD dev.toNat then s.unimplemented
  else if claimed then effect (s.iotStart cla)
  else (s.iotStart cla).ioTransfer dev code

/-- A protection scheme is installed: device 0o17 belongs to the processor (R137, R249 to R257). -/
def hasMM (c : Cfg) : Bool := c.protScheme != .none

/-- RR exists (R48, R253). -/
def hasReloc (c : Cfg) : Bool := c.protScheme == .reloc || c.protScheme == .xvm

/-- MMR exists (R49, R254, R255). -/
def hasXvm (c : Cfg) : Bool := c.protScheme == .xvm

/-- The extend-mode words exist (R259). -/
def hasExtend (c : Cfg) : Bool := c.variant == .VB || c.variant == .VC

/-- A mode change to commit at the second cycle after (R257, R259, R260, R373). -/
def State.bufferMemm (s : State) (b : Bool) : State := { s with memmBuf := b, modeDefer := 2 }

/-- IOT, any word of the class no rule claims (R230). -/
def execIot (w : IotWord) (s : State) : Host.Outcome State Fault Refusal := .next (s.iot false w.dev w.code w.cla id)

/-! ## Interrupt control -/

/-- IOF (R240). -/
def execIof (f : IotForm) (s : State) : Host.Outcome State Fault Refusal :=
  .next (s.iot true 0o00 0o02 f.cla fun t => { t with ion := false })

/-- ION (R241). -/
def execIon (f : IotForm) (s : State) : Host.Outcome State Fault Refusal :=
  .next (s.iot true 0o00 0o42 f.cla fun t => { t with ion := true })

/-- IORS (R244): the devices' status and the PI enable in bit 0. -/
def execIors (f : IotForm) (s : State) : Host.Outcome State Fault Refusal :=
  .next (s.iot true 0o03 0o04 f.cla fun t =>
    { t with
      ac := t.ac ||| t.statusPoll ||| (BitVec.ofBool t.ion ++ 0#17)
      statusPolls := t.statusPolls.tail
      draws := t.draws + 1 })

/-- CAF (R245): the PI enable, the API's state, the sticky flags and every request line. -/
def execCaf (f : IotForm) (s : State) : Host.Outcome State Fault Refusal :=
  .next (s.iot true 0o33 0o02 f.cla fun t =>
    { t with
      ion := false
      apiEnb := !t.cfg.hasAPI && t.apiEnb
      apiReq := if t.cfg.hasAPI then 0 else t.apiReq
      apiAct := if t.cfg.hasAPI then 0 else t.apiAct
      intReq := {}
      nexm := false
      prvn := false })

/-- DBK (R247). -/
def execDbk (f : IotForm) (s : State) : Host.Outcome State Fault Refusal :=
  .next (s.iot s.cfg.hasAPI 0o33 0o04 f.cla fun t => t.dismiss)

/-- DBR (R248): dismiss, and the next indirect JMP restores. -/
def execDbr (f : IotForm) (s : State) : Host.Outcome State Fault Refusal :=
  .next (s.iot s.cfg.hasAPI 0o33 0o44 f.cla fun t => { t.dismiss with restPending := true })

/-! ## Memory management -/

/-- MPSK (R249). -/
def execMpsk (f : IotForm) (s : State) : Host.Outcome State Fault Refusal :=
  .next (s.iot (hasMM s.cfg) 0o17 0o01 f.cla fun t => t.skipIf t.prvn)

/-- MPCNE (R250). -/
def execMpcne (f : IotForm) (s : State) : Host.Outcome State Fault Refusal :=
  .next (s.iot (hasMM s.cfg) 0o17 0o44 f.cla fun t => { t with nexm := false })

/-- MPCV (R251), the word without the clear bit (log entry 9). -/
def execMpcv (_ign : BitVec 2) (s : State) : Host.Outcome State Fault Refusal :=
  .next (s.iot (hasMM s.cfg) 0o17 0o02 false fun t => { t with prvn := false })

/-- MPLD (R252). -/
def execMpld (f : IotForm) (s : State) : Host.Outcome State Fault Refusal :=
  .next (s.iot (hasMM s.cfg) 0o17 0o04 f.cla fun t => { t with br := t.ac })

/-- MPLR (R253). -/
def execMplr (f : IotForm) (s : State) : Host.Outcome State Fault Refusal :=
  .next (s.iot (hasReloc s.cfg) 0o17 0o24 f.cla fun t => { t with rr := t.ac })

/-- MPLMR (R254). -/
def execMplmr (f : IotForm) (s : State) : Host.Outcome State Fault Refusal :=
  .next (s.iot (hasXvm s.cfg) 0o17 0o22 f.cla fun t => { t with mmr := t.ac })

/-- MPRMR (R255), the word with the clear bit (log entry 9). -/
def execMprmr (_ign : BitVec 2) (s : State) : Host.Outcome State Fault Refusal :=
  .next (s.iot (hasXvm s.cfg) 0o17 0o02 true fun t => { t with ac := t.ac ||| t.mmr })

/-- MPSNE (R256). -/
def execMpsne (f : IotForm) (s : State) : Host.Outcome State Fault Refusal :=
  .next (s.iot (hasMM s.cfg) 0o17 0o41 f.cla fun t => t.skipIf t.nexm)

/-- MPEU (R257): user mode from the second instruction after. -/
def execMpeu (f : IotForm) (s : State) : Host.Outcome State Fault Refusal :=
  .next (s.iot (hasMM s.cfg) 0o17 0o42 f.cla fun t => { t with usmdBuf := true, modeDefer := 2 })

/-! ## Addressing mode -/

/-- SEM (VB, VC), SBA (VD) (R258). -/
def execSemSba (f : IotForm) (s : State) : Host.Outcome State Fault Refusal :=
  .next (s.iot (s.cfg.variant != .VA) 0o77 0o01 f.cla fun t => t.skipIf t.memm)

/-- EEM (R259, VB and VC). -/
def execEem (f : IotForm) (s : State) : Host.Outcome State Fault Refusal :=
  .next (s.iot (hasExtend s.cfg) 0o77 0o02 f.cla fun t => t.bufferMemm true)

/-- LEM (R259, VB and VC). -/
def execLem (f : IotForm) (s : State) : Host.Outcome State Fault Refusal :=
  .next (s.iot (hasExtend s.cfg) 0o77 0o04 f.cla fun t => t.bufferMemm false)

/-- EBA (R260, VD). -/
def execEba (f : IotForm) (s : State) : Host.Outcome State Fault Refusal :=
  .next (s.iot (s.cfg.variant == .VD) 0o77 0o24 f.cla fun t => t.bufferMemm true)

/-- DBA (R260, VD). -/
def execDba (f : IotForm) (s : State) : Host.Outcome State Fault Refusal :=
  .next (s.iot (s.cfg.variant == .VD) 0o77 0o22 f.cla fun t => t.bufferMemm false)

/-- EMIR (VB, VC), RES (VD) (R261). -/
def execEmirRes (f : IotForm) (s : State) : Host.Outcome State Fault Refusal :=
  .next (s.iot (s.cfg.variant != .VA) 0o77 0o42 f.cla fun t => { t with restPending := true })

/-! ## API control -/

/-- SPI (R262). -/
def execSpi (f : IotForm) (s : State) : Host.Outcome State Fault Refusal :=
  .next (s.iot s.cfg.hasAPI 0o55 0o01 f.cla fun t => t.skipIf (t.apiAct == 0))

/-- The API enable after ISA: AC<1> disables, then AC<0> enables (R263). -/
def isaEnable (ac : Word) (enb : Bool) : Bool := ac.getMsbD 0 || (!ac.getMsbD 1 && enb)

/-- The software requests after ISA: AC<14:17> withdraw levels 4 to 7, then AC<10:13> request them (R263). -/
def isaRequests (ac : Word) (req : BitVec 8) : BitVec 8 :=
  (req &&& ~~~((ac.extractLsb' 0 4).setWidth 8)) ||| (ac.extractLsb' 4 4).setWidth 8

/-- ISA (R263). -/
def execIsa (f : IotForm) (s : State) : Host.Outcome State Fault Refusal :=
  .next (s.iot s.cfg.hasAPI 0o55 0o04 f.cla fun t =>
    { t with apiEnb := isaEnable t.ac t.apiEnb, apiReq := isaRequests t.ac t.apiReq })

/-- RPL (R264): the enable in bit 0, the pending levels in bits 2 to 9, the active levels in bits 10 to 17. -/
def execRpl (f : IotForm) (s : State) : Host.Outcome State Fault Refusal :=
  .next (s.iot s.cfg.hasAPI 0o55 0o02 f.cla fun t =>
    { t with ac := t.ac ||| (BitVec.ofBool t.apiEnb ++ 0#1 ++ t.pendingMask ++ t.apiAct) })

end Sys2Proof.Machine
end

