-- ==== Sys2Proof/Machine/MemRef.lean ====
section
/-! DEFINITION. The memory-reference instructions but XCT (R170 to R182): XCT's meaning, which runs any instruction, stands in
Xct.lean. -/

namespace Sys2Proof.Machine

/-- CAL (R170): API level 4 becomes active when the API is on, then the forced entry saves at 0o20 and goes to 0o21. -/
def execCal (_ign : BitVec 14) (s : State) : Host.Outcome State Fault Refusal :=
  let act := if s.cfg.hasAPI && s.apiEnb then s.apiAct ||| 0o010 else s.apiAct
  .next ({ s with apiAct := act }.enter 0o20 0o21)

/-- DAC (R171). -/
def execDac (m : MemOperand) (s : State) : Host.Outcome State Fault Refusal :=
  .next ((s.storeOperand m s.ac).finish fun _ t => t)

/-- JMS (R172). -/
def execJms (m : MemOperand) (s : State) : Host.Outcome State Fault Refusal :=
  .next ((s.resolve m).finish fun r t => t.jumpSubroutine r.ea t.retWord)

/-- DZM (R173). -/
def execDzm (m : MemOperand) (s : State) : Host.Outcome State Fault Refusal :=
  .next ((s.storeOperand m 0).finish fun _ t => t)

/-- LAC (R174). -/
def execLac (m : MemOperand) (s : State) : Host.Outcome State Fault Refusal :=
  .next ((s.loadOperand m).finish fun v t => { t with ac := v })

/-- XOR (R175). -/
def execXor (m : MemOperand) (s : State) : Host.Outcome State Fault Refusal :=
  .next ((s.loadOperand m).finish fun v t => { t with ac := t.ac ^^^ v })

/-- ADD (R176): L is set on overflow and never cleared. -/
def execAdd (m : MemOperand) (s : State) : Host.Outcome State Fault Refusal :=
  .next ((s.loadOperand m).finish fun v t => { t with ac := onesSum t.ac v, l := t.l || onesOverflow t.ac v })

/-- TAD (R177). -/
def execTad (m : MemOperand) (s : State) : Host.Outcome State Fault Refusal :=
  .next ((s.loadOperand m).finish fun v t =>
    { t with ac := lacWord (tadSum t.lac v), l := lacLink (tadSum t.lac v) })

/-- ISZ (R180): the read, the write and the skip are one step. -/
def execIsz (m : MemOperand) (s : State) : Host.Outcome State Fault Refusal :=
  .next (((s.resolve m).andThen fun r s1 =>
    (s1.cpuRead r.ea .read).andThen fun v s2 =>
      (s2.cpuWrite r.ea (v + 1)).andThen fun _ s3 => .done (v + 1) s3).finish fun v t => t.skipIf (v == 0))

/-- AND (R179). -/
def execAnd (m : MemOperand) (s : State) : Host.Outcome State Fault Refusal :=
  .next ((s.loadOperand m).finish fun v t => { t with ac := t.ac &&& v })

/-- SAD (R181). -/
def execSad (m : MemOperand) (s : State) : Host.Outcome State Fault Refusal :=
  .next ((s.loadOperand m).finish fun v t => t.skipIf (t.ac != v))

/-- The jump to self that nothing can end (R182). -/
def State.selfLoop (s : State) (ea : Addr) : Bool :=
  ea == s.instrAddr && s.xctDepth == 0 && s.cfg.stopOnSelfLoop && !s.ion && !(s.cfg.hasAPI && s.apiEnb) && !s.trapPending

/-- JMP (R182): an indirect JMP with `restPending` restores L and the modes from its pointer; a jump to self that nothing can
end stops the run once it is complete. -/
def execJmp (m : MemOperand) (s : State) : Host.Outcome State Fault Refusal :=
  .next ((s.resolve m).finish fun r t =>
    let t1 := if m.ind && t.restPending then t.restoreFrom r.ptr else t
    let t2 := { t1.pcqPush with pc := r.ea }
    if t2.selfLoop r.ea then t2.stop .selfLoop else t2)

end Sys2Proof.Machine
end

