-- ==== Sys2Proof/Machine/Operate.lean ====
section
/-! DEFINITION. The operate group and load immediate (R200 to R209). Every word of the group is one shared operation over its
micro-operation bits; a named combination is that operation at its bits (R207). -/

namespace Sys2Proof.Machine

/-- An operate word (R206): HLT in user mode suppresses the whole word and traps (R205); else the skip test is on the original
AC and L, then L:AC is transformed, then HLT stops the run, with the skip made. -/
def State.operate (o : OperateOps) (s : State) : State :=
  if o.hlt && s.usmd then s.violation
  else
    let x := operateLac o s.l s.ac s.sr
    let t := { s with ac := lacWord x, l := lacLink x }.skipIf (skipTest o s.ac s.l)
    if o.hlt then t.stop .halt else t

/-- OPR, any word of the group (R206). -/
def execOpr (o : OperateOps) (s : State) : Host.Outcome State Fault Refusal := .next (s.operate o)

/-- 740000 (R206, R207: no operation). -/
def execNop (s : State) : Host.Outcome State Fault Refusal := .next (s.operate {})

/-- 740001 (R202: AC <- ~AC). -/
def execCma (s : State) : Host.Outcome State Fault Refusal := .next (s.operate { cma := true })

/-- 740002 (R202: L <- 1 - L). -/
def execCml (s : State) : Host.Outcome State Fault Refusal := .next (s.operate { cml := true })

/-- 740004 (R202: AC <- AC | SR). -/
def execOas (s : State) : Host.Outcome State Fault Refusal := .next (s.operate { oas := true })

/-- 740010 (R203). -/
def execRal (s : State) : Host.Outcome State Fault Refusal := .next (s.operate { ral := true })

/-- 740020 (R203). -/
def execRar (s : State) : Host.Outcome State Fault Refusal := .next (s.operate { rar := true })

/-- 740030 (R204: L:AC incremented, VD). -/
def execIac (s : State) : Host.Outcome State Fault Refusal := .next (s.operate { rar := true, ral := true })

/-- 740040 (R205). -/
def execHlt (s : State) : Host.Outcome State Fault Refusal := .next (s.operate { hlt := true })

/-- 740100 (R200: skip if AC<0> = 1). -/
def execSma (s : State) : Host.Outcome State Fault Refusal := .next (s.operate { sma := true })

/-- 740200 (R200: skip if AC = 0). -/
def execSza (s : State) : Host.Outcome State Fault Refusal := .next (s.operate { sza := true })

/-- 740300 (R200: skip if AC<0> = 1 or AC = 0). -/
def execSmaSza (s : State) : Host.Outcome State Fault Refusal := .next (s.operate { sza := true, sma := true })

/-- 740400 (R200: skip if L = 1). -/
def execSnl (s : State) : Host.Outcome State Fault Refusal := .next (s.operate { snl := true })

/-- 741000 (R200: skip always). -/
def execSkp (s : State) : Host.Outcome State Fault Refusal := .next (s.operate { skp := true })

/-- 741100 (R200: skip if AC<0> = 0). -/
def execSpa (s : State) : Host.Outcome State Fault Refusal := .next (s.operate { skp := true, sma := true })

/-- 741200 (R200: skip if AC is not 0). -/
def execSna (s : State) : Host.Outcome State Fault Refusal := .next (s.operate { skp := true, sza := true })

/-- 741300 (R200: skip if AC<0> = 0 and AC is not 0). -/
def execSpaSna (s : State) : Host.Outcome State Fault Refusal := .next (s.operate { skp := true, sza := true, sma := true })

/-- 741400 (R200: skip if L = 0). -/
def execSzl (s : State) : Host.Outcome State Fault Refusal := .next (s.operate { skp := true, snl := true })

/-- 742010 (R203). -/
def execRtl (s : State) : Host.Outcome State Fault Refusal := .next (s.operate { rtwo := true, ral := true })

/-- 742020 (R203). -/
def execRtr (s : State) : Host.Outcome State Fault Refusal := .next (s.operate { rtwo := true, rar := true })

/-- 742030 (R204: the 9-bit halves of AC swapped, VD). -/
def execBsw (s : State) : Host.Outcome State Fault Refusal := .next (s.operate { rtwo := true, rar := true, ral := true })

/-- 744000 (R201: L <- 0). -/
def execCll (s : State) : Host.Outcome State Fault Refusal := .next (s.operate { cll := true })

/-- 744002 (R201, R202: L <- 1). -/
def execStl (s : State) : Host.Outcome State Fault Refusal := .next (s.operate { cll := true, cml := true })

/-- 744010 (R201, R203: L <- 0, then left). -/
def execRcl (s : State) : Host.Outcome State Fault Refusal := .next (s.operate { cll := true, ral := true })

/-- 744020 (R201, R203: L <- 0, then right). -/
def execRcr (s : State) : Host.Outcome State Fault Refusal := .next (s.operate { cll := true, rar := true })

/-- 750000 (R201: AC <- 0). -/
def execCla (s : State) : Host.Outcome State Fault Refusal := .next (s.operate { cla := true })

/-- 750001 (R201, R202: AC <- 0o777777). -/
def execClc (s : State) : Host.Outcome State Fault Refusal := .next (s.operate { cla := true, cma := true })

/-- 750004 (R201, R202: AC <- SR). -/
def execLas (s : State) : Host.Outcome State Fault Refusal := .next (s.operate { cla := true, oas := true })

/-- 750010 (R201, R203: AC <- L, L <- 0). -/
def execGlk (s : State) : Host.Outcome State Fault Refusal := .next (s.operate { cla := true, ral := true })

/-- LAW (R209): the whole word, opcode included, is the immediate. -/
def execLaw (n : BitVec 13) (s : State) : Host.Outcome State Fault Refusal := .next { s with ac := 0b11111#5 ++ n }

end Sys2Proof.Machine
end

