-- ==== Sys2Proof/Machine/Xct.lean ====
section
/-! DEFINITION. XCT (R178): the chain of executed words is one instruction, nested up to `XctMax`. -/

namespace Sys2Proof.Machine

/-- Any instruction's meaning, XCT's being given. -/
def execWith (xct : MemOperand → State → Host.Outcome State Fault Refusal) (i : Instr) (s : State) :
    Host.Outcome State Fault Refusal :=
  match i with
  | .cal ign => execCal ign s
  | .dac m => execDac m s
  | .jms m => execJms m s
  | .dzm m => execDzm m s
  | .lac m => execLac m s
  | .xor m => execXor m s
  | .add m => execAdd m s
  | .tad m => execTad m s
  | .xct m => xct m s
  | .isz m => execIsz m s
  | .and m => execAnd m s
  | .sad m => execSad m s
  | .jmp m => execJmp m s
  | .opr o => execOpr o s
  | .nop => execNop s
  | .cma => execCma s
  | .cml => execCml s
  | .oas => execOas s
  | .ral => execRal s
  | .rar => execRar s
  | .iac => execIac s
  | .hlt => execHlt s
  | .sma => execSma s
  | .sza => execSza s
  | .smaSza => execSmaSza s
  | .snl => execSnl s
  | .skp => execSkp s
  | .spa => execSpa s
  | .sna => execSna s
  | .spaSna => execSpaSna s
  | .szl => execSzl s
  | .rtl => execRtl s
  | .rtr => execRtr s
  | .bsw => execBsw s
  | .cll => execCll s
  | .stl => execStl s
  | .rcl => execRcl s
  | .rcr => execRcr s
  | .cla => execCla s
  | .clc => execClc s
  | .las => execLas s
  | .glk => execGlk s
  | .law n => execLaw n s
  | .pax imm => execPax imm s
  | .pal imm => execPal imm s
  | .aac imm => execAac imm s
  | .pxa imm => execPxa imm s
  | .axs imm => execAxs imm s
  | .pxl imm => execPxl imm s
  | .pla imm => execPla imm s
  | .plx imm => execPlx imm s
  | .clac imm => execClac imm s
  | .clx imm => execClx imm s
  | .cllr imm => execCllr imm s
  | .axr imm => execAxr imm s
  | .iot w => execIot w s
  | .iof f => execIof f s
  | .ion f => execIon f s
  | .iors f => execIors f s
  | .caf f => execCaf f s
  | .dbk f => execDbk f s
  | .dbr f => execDbr f s
  | .mpsk f => execMpsk f s
  | .mpcne f => execMpcne f s
  | .mpcv ign => execMpcv ign s
  | .mpld f => execMpld f s
  | .mplr f => execMplr f s
  | .mplmr f => execMplmr f s
  | .mprmr ign => execMprmr ign s
  | .mpsne f => execMpsne f s
  | .mpeu f => execMpeu f s
  | .semSba f => execSemSba f s
  | .eem f => execEem f s
  | .lem f => execLem f s
  | .eba f => execEba f s
  | .dba f => execDba f s
  | .emirRes f => execEmirRes f s
  | .spi f => execSpi f s
  | .isa f => execIsa f s
  | .rpl f => execRpl f s
  | .eae pre cmd n => execEae pre cmd n s
  | .osc => execOsc s
  | .omq => execOmq s
  | .cmq => execCmq s
  | .lacs => execLacs s
  | .lacq => execLacq s
  | .abs => execAbs s
  | .clq => execClq s
  | .lmq => execLmq s
  | .gsm => execGsm s
  | .mul => execMul s
  | .muls => execMuls s
  | .div => execDiv s
  | .divs => execDivs s
  | .idiv => execIdiv s
  | .idivs => execIdivs s
  | .frdiv => execFrdiv s
  | .frdivs => execFrdivs s
  | .norm => execNorm s
  | .norms => execNorms s
  | .lrs n => execLrs n s
  | .lrss n => execLrss n s
  | .lls n => execLls n s
  | .llss n => execLlss n s
  | .als n => execAls n s
  | .alss n => execAlss n s
  | .fpSub m => execFpSub m s
  | .fpRsub m => execFpRsub m s
  | .fpMul m => execFpMul m s
  | .fpDiv m => execFpDiv m s
  | .fpRdiv m => execFpRdiv m s
  | .ld m => execLd m s
  | .st m => execSt m s
  | .flt m => execFlt m s
  | .fix m => execFix m s
  | .lfmq m => execLfmq m s
  | .jea m => execJea m s
  | .fpAdd m => execFpAdd m s
  | .br c => execBr c s

/-- A word executed once it is there, fetched or read by XCT (R142, R145, R178): decoded, then run, or unimplemented. DEDUCED (log
entry 30): a malformed word keeps what its fetch, or XCT's read of it, has changed already. -/
def executeWord (run : Instr → State → Host.Outcome State Fault Refusal) (w : Word) (s : State) :
    Host.Outcome State Fault Refusal :=
  match decode s.cfg w with
  | .ok i => run i s
  | .error _ => .next s.unimplemented

/-- XCT with room for `n` more levels (R178): the word is read, the depth counted, then the limit checked. -/
def xctChain : Nat → MemOperand → State → Host.Outcome State Fault Refusal
  | 0, m, s => .next ((s.loadOperand m).finish fun _ t => { t with xctDepth := t.xctDepth + 1 }.stop .xctLimit)
  | n + 1, m, s =>
    match s.loadOperand m with
    | .abandoned t => .next t
    | .done w t =>
      executeWord (execWith fun m' s' => xctChain n m' s') w { t with xctDepth := t.xctDepth + 1, ir := w }

/-- XCT (R178): the addressed word is executed as an instruction, the PC being the address after the XCT. -/
def execXct (m : MemOperand) (s : State) : Host.Outcome State Fault Refusal :=
  xctChain (s.cfg.xctMax - s.xctDepth) m s

end Sys2Proof.Machine
end

