-- ==== Sys2Proof/Machine/Dispatch.lean ====
section
/-! DEFINITION. The meaning of every instruction: one arm a row of the opcode table. -/

namespace Sys2Proof.Machine

/-- The meaning of an instruction on a machine that has it (R142 says which words are which instruction). -/
def exec (i : Instr) (s : State) : Host.Outcome State Fault Refusal :=
  match i with
  | .cal ign => Sys2Proof.Machine.execCal ign s
  | .dac m => Sys2Proof.Machine.execDac m s
  | .jms m => Sys2Proof.Machine.execJms m s
  | .dzm m => Sys2Proof.Machine.execDzm m s
  | .lac m => Sys2Proof.Machine.execLac m s
  | .xor m => Sys2Proof.Machine.execXor m s
  | .add m => Sys2Proof.Machine.execAdd m s
  | .tad m => Sys2Proof.Machine.execTad m s
  | .xct m => Sys2Proof.Machine.execXct m s
  | .isz m => Sys2Proof.Machine.execIsz m s
  | .and m => Sys2Proof.Machine.execAnd m s
  | .sad m => Sys2Proof.Machine.execSad m s
  | .jmp m => Sys2Proof.Machine.execJmp m s
  | .opr o => Sys2Proof.Machine.execOpr o s
  | .nop => Sys2Proof.Machine.execNop s
  | .cma => Sys2Proof.Machine.execCma s
  | .cml => Sys2Proof.Machine.execCml s
  | .oas => Sys2Proof.Machine.execOas s
  | .ral => Sys2Proof.Machine.execRal s
  | .rar => Sys2Proof.Machine.execRar s
  | .iac => Sys2Proof.Machine.execIac s
  | .hlt => Sys2Proof.Machine.execHlt s
  | .sma => Sys2Proof.Machine.execSma s
  | .sza => Sys2Proof.Machine.execSza s
  | .smaSza => Sys2Proof.Machine.execSmaSza s
  | .snl => Sys2Proof.Machine.execSnl s
  | .skp => Sys2Proof.Machine.execSkp s
  | .spa => Sys2Proof.Machine.execSpa s
  | .sna => Sys2Proof.Machine.execSna s
  | .spaSna => Sys2Proof.Machine.execSpaSna s
  | .szl => Sys2Proof.Machine.execSzl s
  | .rtl => Sys2Proof.Machine.execRtl s
  | .rtr => Sys2Proof.Machine.execRtr s
  | .bsw => Sys2Proof.Machine.execBsw s
  | .cll => Sys2Proof.Machine.execCll s
  | .stl => Sys2Proof.Machine.execStl s
  | .rcl => Sys2Proof.Machine.execRcl s
  | .rcr => Sys2Proof.Machine.execRcr s
  | .cla => Sys2Proof.Machine.execCla s
  | .clc => Sys2Proof.Machine.execClc s
  | .las => Sys2Proof.Machine.execLas s
  | .glk => Sys2Proof.Machine.execGlk s
  | .law n => Sys2Proof.Machine.execLaw n s
  | .pax imm => Sys2Proof.Machine.execPax imm s
  | .pal imm => Sys2Proof.Machine.execPal imm s
  | .aac imm => Sys2Proof.Machine.execAac imm s
  | .pxa imm => Sys2Proof.Machine.execPxa imm s
  | .axs imm => Sys2Proof.Machine.execAxs imm s
  | .pxl imm => Sys2Proof.Machine.execPxl imm s
  | .pla imm => Sys2Proof.Machine.execPla imm s
  | .plx imm => Sys2Proof.Machine.execPlx imm s
  | .clac imm => Sys2Proof.Machine.execClac imm s
  | .clx imm => Sys2Proof.Machine.execClx imm s
  | .cllr imm => Sys2Proof.Machine.execCllr imm s
  | .axr imm => Sys2Proof.Machine.execAxr imm s
  | .iot w => Sys2Proof.Machine.execIot w s
  | .iof f => Sys2Proof.Machine.execIof f s
  | .ion f => Sys2Proof.Machine.execIon f s
  | .iors f => Sys2Proof.Machine.execIors f s
  | .caf f => Sys2Proof.Machine.execCaf f s
  | .dbk f => Sys2Proof.Machine.execDbk f s
  | .dbr f => Sys2Proof.Machine.execDbr f s
  | .mpsk f => Sys2Proof.Machine.execMpsk f s
  | .mpcne f => Sys2Proof.Machine.execMpcne f s
  | .mpcv ign => Sys2Proof.Machine.execMpcv ign s
  | .mpld f => Sys2Proof.Machine.execMpld f s
  | .mplr f => Sys2Proof.Machine.execMplr f s
  | .mplmr f => Sys2Proof.Machine.execMplmr f s
  | .mprmr ign => Sys2Proof.Machine.execMprmr ign s
  | .mpsne f => Sys2Proof.Machine.execMpsne f s
  | .mpeu f => Sys2Proof.Machine.execMpeu f s
  | .semSba f => Sys2Proof.Machine.execSemSba f s
  | .eem f => Sys2Proof.Machine.execEem f s
  | .lem f => Sys2Proof.Machine.execLem f s
  | .eba f => Sys2Proof.Machine.execEba f s
  | .dba f => Sys2Proof.Machine.execDba f s
  | .emirRes f => Sys2Proof.Machine.execEmirRes f s
  | .spi f => Sys2Proof.Machine.execSpi f s
  | .isa f => Sys2Proof.Machine.execIsa f s
  | .rpl f => Sys2Proof.Machine.execRpl f s
  | .eae pre cmd n => Sys2Proof.Machine.execEae pre cmd n s
  | .osc => Sys2Proof.Machine.execOsc s
  | .omq => Sys2Proof.Machine.execOmq s
  | .cmq => Sys2Proof.Machine.execCmq s
  | .lacs => Sys2Proof.Machine.execLacs s
  | .lacq => Sys2Proof.Machine.execLacq s
  | .abs => Sys2Proof.Machine.execAbs s
  | .clq => Sys2Proof.Machine.execClq s
  | .lmq => Sys2Proof.Machine.execLmq s
  | .gsm => Sys2Proof.Machine.execGsm s
  | .mul => Sys2Proof.Machine.execMul s
  | .muls => Sys2Proof.Machine.execMuls s
  | .div => Sys2Proof.Machine.execDiv s
  | .divs => Sys2Proof.Machine.execDivs s
  | .idiv => Sys2Proof.Machine.execIdiv s
  | .idivs => Sys2Proof.Machine.execIdivs s
  | .frdiv => Sys2Proof.Machine.execFrdiv s
  | .frdivs => Sys2Proof.Machine.execFrdivs s
  | .norm => Sys2Proof.Machine.execNorm s
  | .norms => Sys2Proof.Machine.execNorms s
  | .lrs n => Sys2Proof.Machine.execLrs n s
  | .lrss n => Sys2Proof.Machine.execLrss n s
  | .lls n => Sys2Proof.Machine.execLls n s
  | .llss n => Sys2Proof.Machine.execLlss n s
  | .als n => Sys2Proof.Machine.execAls n s
  | .alss n => Sys2Proof.Machine.execAlss n s
  | .fpSub m => Sys2Proof.Machine.execFpSub m s
  | .fpRsub m => Sys2Proof.Machine.execFpRsub m s
  | .fpMul m => Sys2Proof.Machine.execFpMul m s
  | .fpDiv m => Sys2Proof.Machine.execFpDiv m s
  | .fpRdiv m => Sys2Proof.Machine.execFpRdiv m s
  | .ld m => Sys2Proof.Machine.execLd m s
  | .st m => Sys2Proof.Machine.execSt m s
  | .flt m => Sys2Proof.Machine.execFlt m s
  | .fix m => Sys2Proof.Machine.execFix m s
  | .lfmq m => Sys2Proof.Machine.execLfmq m s
  | .jea m => Sys2Proof.Machine.execJea m s
  | .fpAdd m => Sys2Proof.Machine.execFpAdd m s
  | .br c => Sys2Proof.Machine.execBr c s

end Sys2Proof.Machine
end

