-- ==== Sys2Proof/Machine/Cycle.lean ====
section
/-! DEFINITION. The instruction cycle (R370 to R373): mode commit, trap, arbitration, breakpoint, fetch and execute. Then the
placing of an instruction where the next cycle fetches it. -/

namespace Sys2Proof.Machine

/-- What a fetch leaves for the instruction (R372): its address and word noted, the PC advanced, no XCT begun. -/
def State.fetched (s : State) (w : Word) : State :=
  { s.advance with instrAddr := s.pc, ir := w, xctDepth := 0 }

/-- Fetch and execute (R372). A Fault of the fetch that traps leaves the PC as it is and executes nothing (R98). DEDUCED (log
entry 29): a fetch from non-existent memory that does not trap is a read like any other, so the PC advances and the word
`FaultReadValue` is executed; R372's comment gives a Fault the first end alone. -/
def State.fetchExecute (s : State) : Host.Outcome State Fault Refusal :=
  match s.cpuRead s.pc .fetch with
  | .abandoned t => .next t
  | .done w t => executeWord exec w (t.fetched w)

/-- Steps 4 and 5 of the cycle (R370): a breakpoint stops the run, but not in its first cycle; else fetch and execute. -/
def State.breakOrFetch (s : State) (first : Bool) : Host.Outcome State Fault Refusal :=
  if !first && s.breakpoints.contains s.pc then .next (s.stop .breakpoint) else s.fetchExecute

/-- The state after step 1 of a cycle (R370, R373): the modes committed, the run's first cycle no longer to come. -/
def State.started (s : State) : State := { s.commitModes with firstCycle := false }

/-- The deferral used up (R370 step 3, R371). -/
def State.undeferred (s : State) : State := { s with ionDefer := false }

/-- One cycle of a running processor (R370), in the order of its steps. -/
def State.cycle (s : State) : Host.Outcome State Fault Refusal :=
  let s1 := s.started
  if s1.trapPending then .next s1.trapEntry
  else if s1.ionDefer then s1.undeferred.breakOrFetch s.firstCycle
  else
    match s1.arbitrate with
    | .api k => .next (s.apiDelivery s1 k)
    | .pi => .next s1.piDelivery
    | .none => s1.breakOrFetch s.firstCycle

/-- The processor's move: a cycle while the run is on, nothing while it is stopped (R55, R375, R400). -/
def State.processorMove (s : State) : Host.Outcome State Fault Refusal :=
  match s.runState with
  | .running => s.cycle
  | .stopped _ => .next s

/-- The state with words placed where the next cycle fetches (`State.withFetchWord`): the run on, no move of the agent or the
host first, no trap or interrupt in the way, the first word at the physical address of the PC in the modes the cycle
commits, the second at the address after it. -/
def State.placeAtFetch (s : State) (w0 w1 : Word) : State :=
  let c := s.commitModes
  let place (m : Memory) (va : Addr) (w : Word) : Memory :=
    match c.translate va .fetch with
    | .ok pa => m.write pa.toNat w
    | _ => m
  { s with
    runState := .running
    moves := []
    firstCycle := true
    trapPending := false
    ionDefer := s.ionDefer || decide (c.arbitrate ≠ .none)
    mem := place (place s.mem (incPC s.cfg s.pc) w1) s.pc w0 }

end Sys2Proof.Machine
end

