-- ==== Sys2Proof/Machine/HostPort.lean ====
section
/-! DEFINITION. The host (R375, R400, R402, R406) and the interleaving of its moves and the device agent's with the processor's
cycles (R365, R370). -/

namespace Sys2Proof.Machine

/-- The reset operation (R400): every register to its reset value, but PC, SR, PCQ, memory, and what the host and the agent
hold, which it leaves. -/
def State.hostReset (s : State) : State :=
  { State.powerOn s.cfg with
    pc := s.pc
    sr := s.sr
    pcq := s.pcq
    mem := s.mem
    breakpoints := s.breakpoints
    devices := s.devices
    moves := s.moves
    ioAnswers := s.ioAnswers
    statusPolls := s.statusPolls
    draws := s.draws
    hostData := s.hostData }

/-! ## Loading, examine and deposit -/

/-- `loadWord(pa, v)` (R402): beyond the installed memory nothing happens and no flag is set. -/
def State.hostLoadWord (s : State) (pa v : Nat) : State :=
  if pa < s.cfg.memSize then { s with mem := s.mem.write pa (BitVec.ofNat 18 v) } else s

/-- Whether a value deposited in a 1-bit register sets it: its low bit (R406). -/
def lowBit (v : Nat) : Bool := v % 2 == 1

/-- A request vector replaced by a deposit (R406). -/
def RequestLines.put (q : RequestLines) (level : ReqLevel) (v : BitVec 32) : RequestLines :=
  match level with
  | .api0 => { q with api0 := v }
  | .api1 => { q with api1 := v }
  | .api2 => { q with api2 := v }
  | .api3 => { q with api3 := v }
  | .pi => { q with pi := v }

/-- Whether the configuration has a register. XR and LR exist only on VD (R37), the API's state only with an API (R42), BR, RR
and MMR only under their schemes (R47 to R49), the FP15's registers only with the FP15 (R51 to R53); memm is always 0 on VA
(R43), usmd without a scheme (R44), and their buffers with them. 10_state.md sets no condition on the others, MQ, SC, the EAE's
latch and `restPending` (R46) among them. -/
def hasRegister (c : Cfg) : RegName → Bool
  | .xr | .lr => c.hasIndex
  | .apiEnb | .apiReq | .apiAct => c.hasAPI
  | .memm | .memmBuf => c.variant != .VA
  | .usmd | .usmdBuf | .br => c.protScheme != .none
  | .rr => c.protScheme == .reloc || c.protScheme == .xvm
  | .mmr => c.protScheme == .xvm
  | .fmaS | .fmaE | .fmaHi | .fmaLo | .fmbS | .fmbE | .fmbHi | .fmbLo | .fmq | .fguard | .jeaBase => c.hasFP15
  | .ac | .l | .mq | .sc | .eaeAcSign | .pc | .sr | .intReq _ | .ion | .ionDefer | .modeDefer | .restPending | .nexm | .prvn
  | .trapPending | .pcq _ | .runState => true

/-- The number the host sees as `runState` (R55). DESIGN CHOICE (log entry 19): the spec gives the reasons no numbers. -/
def RunState.code : RunState → Nat
  | .running => 0
  | .stopped .halt => 1
  | .stopped .breakpoint => 2
  | .stopped .unimplemented => 3
  | .stopped .xctLimit => 4
  | .stopped .invalidVector => 5
  | .stopped .selfLoop => 6
  | .stopped .hostStop => 7
  | .stopped (.ioStop code) => code + 8

/-- The `runState` of a number (R55, log entry 19). -/
def RunState.ofCode : Nat → RunState
  | 0 => .running
  | 1 => .stopped .halt
  | 2 => .stopped .breakpoint
  | 3 => .stopped .unimplemented
  | 4 => .stopped .xctLimit
  | 5 => .stopped .invalidVector
  | 6 => .stopped .selfLoop
  | 7 => .stopped .hostStop
  | code + 8 => .stopped (.ioStop code)

/-- A new run begins: its first cycle checks no breakpoint (R370, R404). -/
def State.startRun (s : State) : State := { s with runState := .running, firstCycle := true }

/-- A register written by the host (R406): the value truncated to the register's width. Only levels 4 to 7 can be requested
(R42), modeDefer has 2 bits (R45), and Running, deposited in `runState`, begins a run (log entry 19). -/
def State.putRegister (s : State) (r : RegName) (v : Nat) : State :=
  match r with
  | .ac => { s with ac := BitVec.ofNat 18 v }
  | .l => { s with l := lowBit v }
  | .mq => { s with mq := BitVec.ofNat 18 v }
  | .sc => { s with sc := BitVec.ofNat 6 v }
  | .eaeAcSign => { s with eaeAcSign := lowBit v }
  | .pc => { s with pc := BitVec.ofNat 17 v &&& amask s.cfg }
  | .sr => { s with sr := BitVec.ofNat 18 v }
  | .xr => { s with xr := BitVec.ofNat 18 v }
  | .lr => { s with lr := BitVec.ofNat 18 v }
  | .intReq level => { s with intReq := s.intReq.put level (BitVec.ofNat 32 v) }
  | .ion => { s with ion := lowBit v }
  | .ionDefer => { s with ionDefer := lowBit v }
  | .apiEnb => { s with apiEnb := lowBit v }
  | .apiReq => { s with apiReq := BitVec.ofNat 8 v &&& 0o017 }
  | .apiAct => { s with apiAct := BitVec.ofNat 8 v }
  | .memm => { s with memm := lowBit v }
  | .usmd => { s with usmd := lowBit v }
  | .memmBuf => { s with memmBuf := lowBit v }
  | .usmdBuf => { s with usmdBuf := lowBit v }
  | .modeDefer => { s with modeDefer := BitVec.ofNat 2 v }
  | .restPending => { s with restPending := lowBit v }
  | .br => { s with br := BitVec.ofNat 18 v }
  | .rr => { s with rr := BitVec.ofNat 18 v }
  | .mmr => { s with mmr := BitVec.ofNat 18 v }
  | .nexm => { s with nexm := lowBit v }
  | .prvn => { s with prvn := lowBit v }
  | .trapPending => { s with trapPending := lowBit v }
  | .fmaS => { s with fma := { s.fma with s := lowBit v } }
  | .fmaE => { s with fma := { s.fma with e := BitVec.ofNat 18 v } }
  | .fmaHi => { s with fma := { s.fma with hi := BitVec.ofNat 17 v } }
  | .fmaLo => { s with fma := { s.fma with lo := BitVec.ofNat 18 v } }
  | .fmbS => { s with fmb := { s.fmb with s := lowBit v } }
  | .fmbE => { s with fmb := { s.fmb with e := BitVec.ofNat 18 v } }
  | .fmbHi => { s with fmb := { s.fmb with hi := BitVec.ofNat 17 v } }
  | .fmbLo => { s with fmb := { s.fmb with lo := BitVec.ofNat 18 v } }
  | .fmq => { s with fmq := BitVec.ofNat 35 v }
  | .fguard => { s with fguard := lowBit v }
  | .jeaBase => { s with jeaBase := BitVec.ofNat 15 v }
  | .pcq i => { s with pcq := s.pcq.set i (BitVec.ofNat 17 v &&& amask s.cfg) }
  | .runState => if v = 0 then s.startRun else { s with runState := RunState.ofCode v }

/-- Deposit (R406), with no side effect. DESIGN CHOICE (log entry 19): a deposit in a register that the configuration does not
have does nothing; the register stays 0. -/
def State.deposit (s : State) (r : RegName) (v : Nat) : State := if hasRegister s.cfg r then s.putRegister r v else s

/-- Examine (R406): a register's value; it changes nothing. -/
def State.examine (s : State) (r : RegName) : Nat :=
  match r with
  | .ac => s.ac.toNat
  | .l => s.l.toNat
  | .mq => s.mq.toNat
  | .sc => s.sc.toNat
  | .eaeAcSign => s.eaeAcSign.toNat
  | .pc => s.pc.toNat
  | .sr => s.sr.toNat
  | .xr => s.xr.toNat
  | .lr => s.lr.toNat
  | .intReq .api0 => s.intReq.api0.toNat
  | .intReq .api1 => s.intReq.api1.toNat
  | .intReq .api2 => s.intReq.api2.toNat
  | .intReq .api3 => s.intReq.api3.toNat
  | .intReq .pi => s.intReq.pi.toNat
  | .ion => s.ion.toNat
  | .ionDefer => s.ionDefer.toNat
  | .apiEnb => s.apiEnb.toNat
  | .apiReq => s.apiReq.toNat
  | .apiAct => s.apiAct.toNat
  | .memm => s.memm.toNat
  | .usmd => s.usmd.toNat
  | .memmBuf => s.memmBuf.toNat
  | .usmdBuf => s.usmdBuf.toNat
  | .modeDefer => s.modeDefer.toNat
  | .restPending => s.restPending.toNat
  | .br => s.br.toNat
  | .rr => s.rr.toNat
  | .mmr => s.mmr.toNat
  | .nexm => s.nexm.toNat
  | .prvn => s.prvn.toNat
  | .trapPending => s.trapPending.toNat
  | .fmaS => s.fma.s.toNat
  | .fmaE => s.fma.e.toNat
  | .fmaHi => s.fma.hi.toNat
  | .fmaLo => s.fma.lo.toNat
  | .fmbS => s.fmb.s.toNat
  | .fmbE => s.fmb.e.toNat
  | .fmbHi => s.fmb.hi.toNat
  | .fmbLo => s.fmb.lo.toNat
  | .fmq => s.fmq.toNat
  | .fguard => s.fguard.toNat
  | .jeaBase => s.jeaBase.toNat
  | .pcq i => (s.pcq.getD i 0).toNat
  | .runState => s.runState.code

/-! ## Configuring the device agent -/

/-- The slots `base` to `base + count - 1` of the dispatch table (R366). -/
def slotMask (base count : Nat) : BitVec 64 := (BitVec.allOnes 64 >>> (64 - count)) <<< base

/-- Registration of a device (R366): its slots are taken; a slot that is taken already, or beyond the 64 there are, is a fatal
conflict (R405). -/
def State.registerDevice (s : State) (base count : Nat) : Host.Outcome State Fault Refusal :=
  if 64 < base + count ∨ s.devices &&& slotMask base count ≠ 0 then .fault .deviceSlotConflict
  else .next { s with devices := s.devices ||| slotMask base count }

/-! ## The host's actions -/

/-- The host starts a run, on a valid configuration only (R405). -/
def State.hostRun (s : State) : Host.Outcome State Fault Refusal :=
  if s.cfg.valid then .next s.startRun else .fault .invalidConfiguration

/-- A host action on a stopped machine (R366, R400, R402, R404, R406). -/
def State.hostActStopped (s : State) (a : HostAction) : Host.Outcome State Fault Refusal :=
  match a with
  | .run => s.hostRun
  | .stop => .next s
  | .reset => .next s.hostReset
  | .setPC a => .next { s with pc := BitVec.ofNat 17 a &&& amask s.cfg }
  | .loadWord pa v => .next (s.hostLoadWord pa v)
  | .deposit r v => if r = .runState ∧ v = 0 then s.hostRun else .next (s.deposit r v)
  | .examine r => .next { s with hostData := s.examine r }
  | .examineWord pa => .next { s with hostData := (s.physRead pa).toNat }
  | .setBreakpoint a => .next { s with breakpoints := a :: s.breakpoints }
  | .clearBreakpoint a => .next { s with breakpoints := s.breakpoints.filter (· != a) }
  | .registerDevice base count => s.registerDevice base count
  | .removeDevice base count => .next { s with devices := s.devices &&& ~~~slotMask base count }
  | .setIoAnswers answers => .next { s with ioAnswers := answers }
  | .setStatusPolls words => .next { s with statusPolls := words }

/-- A host action: while the run is on only a stop is allowed (R375, R406). -/
def State.hostAct (s : State) (a : HostAction) : Host.Outcome State Fault Refusal :=
  match s.runState with
  | .stopped _ => s.hostActStopped a
  | .running =>
    match a with
    | .stop => .next (s.stop .hostStop)
    | _ => .refused .hostAccessWhileRunning

/-- The move that is next, off the list. -/
def State.nextMove (s : State) : Host.Outcome State Fault Refusal :=
  match s.moves with
  | [] => s.processorMove
  | .cycle :: rest => { s with moves := rest }.processorMove
  | .agent m :: rest => .next { s with moves := rest, intReq := s.intReq.apply m }
  | .host a :: rest => { s with moves := rest }.hostAct a

end Sys2Proof.Machine
end

