-- ==== Sys2Proof/Machine/Step.lean ====
section
/-! DEFINITION. The step: the next move of the processor, the device agent or the host (R365, R370, R375). -/

namespace Sys2Proof.Machine

/-- One step of the machine. -/
def step (s : State) : Host.Outcome State Fault Refusal := s.nextMove

/-- The state with an instruction of the opcode table placed so that the next step fetches and runs it. -/
def State.withFetchWord (s : State) (nbits w : Nat) : State := s.placeAtFetch (tableWord nbits w 0) (tableWord nbits w 1)

end Sys2Proof.Machine
end

