-- ==== Sys2Proof/Safety.lean ====
section
/-! DEFINITION. What counts as a safe state and a safe step, in the terms the statements use. -/

namespace Sys2Proof.Machine

/-- The PC lies inside the variant's address space (R33, R82). -/
abbrev State.pcOk (s : State) : Prop := s.pc &&& amask s.cfg = s.pc

/-- The modes are ones the machine can be in: user mode only with a protection scheme (R44), memm 0 on VA (R43), and the
buffers equal to the modes when no commit is pending (R45, R373). -/
abbrev State.modesOk (s : State) : Prop :=
  (s.cfg.protScheme = .none → s.usmd = false ∧ s.usmdBuf = false)
  ∧ (s.cfg.variant = .VA → s.memm = false ∧ s.memmBuf = false)
  ∧ (s.modeDefer = 0 → s.memmBuf = s.memm ∧ s.usmdBuf = s.usmd)
  ∧ s.modeDefer.toNat ≤ 2

/-- Only software levels are requested, and without an API nothing of it is set (R42). -/
abbrev State.apiOk (s : State) : Prop :=
  s.apiReq &&& 0o360 = 0 ∧ (s.cfg.hasAPI = false → s.apiEnb = false ∧ s.apiReq = 0 ∧ s.apiAct = 0)

/-- A move that deposits a mode flag: the one thing that can part a mode from its buffer (R406). -/
def Move.depositsMode : Move → Bool
  | .host (.deposit .memm _) => true
  | .host (.deposit .usmd _) => true
  | .host (.deposit .memmBuf _) => true
  | .host (.deposit .usmdBuf _) => true
  | .host (.deposit .modeDefer _) => true
  | _ => false

/-- None of the moves to come deposits a mode flag. -/
abbrev State.modesLeftAlone (s : State) : Prop := ∀ m ∈ s.moves, m.depositsMode = false

/-- The next move is the processor's, standing on the list or with no move left there: no move of the agent or the host comes
first. -/
abbrev State.processorNext (s : State) : Prop := s.moves = [] ∨ s.moves.head? = some .cycle

/-- The state once the next move is off the list. -/
abbrev State.moved (s : State) : State := { s with moves := s.moves.tail }

/-- The next cycle fetches at the PC: the run is on with no other move first, and neither a trap, an interrupt nor a
breakpoint comes before the fetch, in the modes the cycle commits (R370). -/
abbrev State.willFetch (s : State) : Prop :=
  s.processorNext ∧ s.runState = .running ∧ s.trapPending = false
  ∧ (s.ionDefer = true ∨ s.commitModes.arbitrate = .none)
  ∧ (s.firstCycle = true ∨ s.breakpoints.contains s.pc = false)

/-- The state in which the fetch of such a cycle is made: its move off the list, modes committed, the deferral used up (R370,
R373). -/
def State.atFetch (s : State) : State := s.moved.started.undeferred

/-- What the accesses of an instruction can change: memory and the three fault flags; everything else of `t` is as in `s`. -/
abbrev State.accessFrame (s t : State) : Prop :=
  ∃ m n p q, t = { s with mem := m, nexm := n, prvn := p, trapPending := q }

/-- Memory reads in `t` as in `s` at every physical address outside `as`. -/
abbrev State.memFrame (s t : State) (as : List Nat) : Prop := ∀ a, a ∉ as → t.wordAt a = s.wordAt a

/-- The physical address that an auto-indexed reference increments (R89), computed from the PC `base` as the reference does;
none where the reference is not auto-indexed or the increment is not written. -/
def State.autoCell (s : State) (base : Addr) (m : MemOperand) : Option Nat :=
  let d := s.directAddr base m
  if m.ind && s.autoIndex d then
    match s.translate (s.autoLoc d) .write with
    | .ok pa => some pa.toNat
    | _ => none
  else none

/-- A step is safe when it ends in a next state. -/
abbrev SafeStep (s : State) : Prop := ∃ t, step s = .next t

end Sys2Proof.Machine
end

