-- ==== Sys2Proof/WellFormed.lean ====
section
/-! DEFINITION. Which instructions a machine of a given configuration has: the options an instruction belongs to are
installed, and a general word is none of the words that have a constructor of their own. -/

namespace Sys2Proof

/-- The ignored bits IR<4:5> of an IOT are free only where they do not make the word an FP15 or index-operate one
(R142, R144). -/
def iotIgnOk (c : Cfg) (ign : BitVec 2) : Bool :=
  (!c.hasFP15 || ign != 0b01) && (!c.hasIndex || ign.getMsbD 0 == false)

/-- The checks on an instruction: the option it belongs to is installed (R142, R145), a general operate, IOT or EAE word
is none of the named ones (R207, R230, R291). -/
def WellFormed (c : Cfg) : Instr → Bool
  | .cal _ | .dac _ | .jms _ | .dzm _ | .lac _ | .xor _ | .add _ | .tad _ | .xct _ | .isz _ | .and _ | .sad _ | .jmp _ => true
  | .opr o => (!o.rotExtra || c.variant == .VD) && nameOperate o == .opr o
  | .iac | .bsw => c.variant == .VD
  | .nop | .cma | .cml | .oas | .ral | .rar | .hlt | .sma | .sza | .smaSza | .snl | .skp | .spa | .sna | .spaSna | .szl
  | .rtl | .rtr | .cll | .stl | .rcl | .rcr | .cla | .clc | .las | .glk => true
  | .law _ => true
  | .pax _ | .pal _ | .aac _ | .pxa _ | .axs _ | .pxl _ | .pla _ | .plx _ | .clac _ | .clx _ | .cllr _ | .axr _ => c.hasIndex
  | .iot w => iotIgnOk c w.ign && nameIot w == .iot w
  | .iof f | .ion f | .iors f | .caf f | .dbk f | .dbr f | .mpsk f | .mpcne f | .mpld f | .mplr f | .mplmr f | .mpsne f
  | .mpeu f | .semSba f | .eem f | .lem f | .eba f | .dba f | .emirRes f | .spi f | .isa f | .rpl f => iotIgnOk c f.ign
  | .mpcv ign | .mprmr ign => iotIgnOk c ign
  | .eae pre cmd n => c.hasEAE && nameEae pre cmd n == .eae pre cmd n
  | .osc | .omq | .cmq | .lacs | .lacq | .abs | .clq | .lmq | .gsm | .mul | .muls | .div | .divs | .idiv | .idivs | .frdiv
  | .frdivs | .norm | .norms | .lrs _ | .lrss _ | .lls _ | .llss _ | .als _ | .alss _ => c.hasEAE
  | .fpSub _ | .fpRsub _ | .fpMul _ | .fpDiv _ | .fpRdiv _ | .ld _ | .st _ | .flt _ | .fix _ | .lfmq _ | .jea _ | .fpAdd _
  | .br _ => c.hasFP15

end Sys2Proof
end

