-- ==== Sys2Proof/Certificates/Slice0/Obligations.lean ====
section
/-! DEFINITION. The statements for the provers. Each docstring names the rules it rests on; where a statement rests on a choice
of the model, it names the log entry. -/

section

open Sys2Proof Sys2Proof.Machine

/-! ## Encoding -/

/-- Decoding gives every well-formed instruction back from its word, for every configuration (R131 to R145). -/
def Obligations.DecodeOfEncode : Prop :=
  ∀ (c : Cfg) (i : Instr), WellFormed c i = true → decode c (encode i) = .ok i

/-- A word that decodes is the word of its instruction, which is well-formed: no bit is dropped (R131 to R145). -/
def Obligations.EncodeOfDecode : Prop :=
  ∀ (c : Cfg) (w : Word) (i : Instr), decode c w = .ok i → encode i = w ∧ WellFormed c i = true

/-- A few words, written out from the encoding rules, decode to the instructions they stand for. -/
def Clause.SpecWordsDecode : Prop :=
  decode Cfg.full 0o200100 = .ok (.lac ⟨false, 0o0100⟩)
  ∧ decode Cfg.full 0o620100 = .ok (.jmp ⟨true, 0o0100⟩)
  ∧ decode Cfg.full 0o765432 = .ok (.law 0o05432)
  ∧ decode Cfg.full 0o750010 = .ok .glk
  ∧ decode Cfg.full 0o754000 = .ok (.opr { cla := true, cll := true })
  ∧ decode Cfg.full 0o725001 = .ok (.axs 1)
  ∧ decode Cfg.full 0o703302 = .ok (.caf {})
  ∧ decode Cfg.full 0o700314 = .ok (.iors { cla := true })
  ∧ decode Cfg.full 0o653122 = .ok .mul
  ∧ decode Cfg.full 0o660502 = .ok (.lrss 2)
  ∧ decode Cfg.full 0o716440 = .ok (.br { zero := true })

/-- The standard memory-management words decode to their instructions on every configuration (R249 to R257). -/
def Clause.MemoryManagementWords : Prop :=
  ∀ c : Cfg,
    decode c 0o701701 = .ok (.mpsk {}) ∧ decode c 0o701744 = .ok (.mpcne {}) ∧ decode c 0o701702 = .ok (.mpcv 0)
    ∧ decode c 0o701704 = .ok (.mpld {}) ∧ decode c 0o701724 = .ok (.mplr {}) ∧ decode c 0o701722 = .ok (.mplmr {})
    ∧ decode c 0o701712 = .ok (.mprmr 0) ∧ decode c 0o701741 = .ok (.mpsne {}) ∧ decode c 0o701742 = .ok (.mpeu {})

/-- Words written out from the encoding rules decode to the instructions they stand for. -/
def Obligations.WrittenWordsDecode : Prop := Clause.SpecWordsDecode ∧ Clause.MemoryManagementWords

/-- The malformed words of R145 that the decoder can see, and no others, do not decode. That a reserved rotate code makes a word
with HLT malformed in user mode too is the model's choice (log entry 28). -/
def Obligations.MalformedWordsRejected : Prop :=
  ∀ (c : Cfg) (w : Word), (∃ e, decode c w = .error e) ↔
    (w &&& 0o740000 = 0o640000 ∧ (c.hasEAE = false ∨ w &&& 0o000700 = 0o000200))
    ∨ (w &&& 0o770000 = 0o710000 ∧ c.hasFP15 = true
        ∧ (w &&& 0o000004 ≠ 0 ∨ w &&& 0o007400 = 0 ∨ w &&& 0o007400 = 0o007000 ∨ w &&& 0o007400 = 0o007400))
    ∨ (w &&& 0o760000 = 0o720000 ∧ c.hasIndex = true
        ∧ (w &&& 0o017000 = 0 ∨ w &&& 0o017000 = 0o007000 ∨ w &&& 0o017000 = 0o012000 ∨ w &&& 0o017000 = 0o013000))
    ∨ (w &&& 0o760000 = 0o740000 ∧ c.variant ≠ .VD ∧ w &&& 0o000030 = 0o000030)

/-! ## Power-on and reset -/

/-- The power-on state of every configuration (R400, R401). That the memory lists no word is the model's form of "each word a
free value" (log entry 5). -/
def Clause.PowerOnValues : Prop :=
  ∀ c : Cfg,
    let s := State.powerOn c
    s.cfg = c ∧ s.pc = 0 ∧ s.sr = 0 ∧ s.pcq = List.replicate c.pcqDepth 0
    ∧ s.ac = 0 ∧ s.l = false ∧ s.mq = 0 ∧ s.sc = 0 ∧ s.eaeAcSign = false ∧ s.xr = 0 ∧ s.lr = 0
    ∧ s.intReq = {} ∧ s.ion = false ∧ s.ionDefer = false ∧ s.apiEnb = false ∧ s.apiReq = 0 ∧ s.apiAct = 0
    ∧ s.memm = c.memmInit ∧ s.memmBuf = c.memmInit ∧ s.usmd = false ∧ s.usmdBuf = false ∧ s.modeDefer = 0
    ∧ s.restPending = false ∧ s.br = 0 ∧ s.rr = 0 ∧ s.mmr = 0 ∧ s.nexm = false ∧ s.prvn = false ∧ s.trapPending = false
    ∧ s.fma = {} ∧ s.fmb = {} ∧ s.fmq = 0 ∧ s.fguard = false ∧ s.jeaBase = 0 ∧ s.runState = .stopped .hostStop
    ∧ ∀ a, s.wordAt a = Config.powerOnWord a

/-- The host's reset of a stopped machine (R400): every register to its reset value; PC, SR, PCQ and memory unchanged, as are
the host's breakpoints and what the device agent and the host hold (the model's reading, log entries 23 and 26). -/
def Clause.HostResetValues : Prop :=
  ∀ (s : State) (r : StopReason) (rest : List Move), s.runState = .stopped r → s.moves = .host .reset :: rest →
    step s = .next
      { State.powerOn s.cfg with
        pc := s.pc, sr := s.sr, pcq := s.pcq, mem := s.mem, breakpoints := s.breakpoints, moves := rest
        devices := s.devices, ioAnswers := s.ioAnswers, statusPolls := s.statusPolls, draws := s.draws
        hostData := s.hostData }

/-- Power-on and the host's reset leave the values of R400 and R401. -/
def Obligations.ResetValues : Prop := Clause.PowerOnValues ∧ Clause.HostResetValues

/-! ## Invariants of every step -/

/-- Every step keeps memory in its canonical form inside the installed memory (R56, R100, R402). -/
def Obligations.MemoryStaysCanonical : Prop :=
  ∀ s t : State, s.memoryOk → step s = .next t → t.memoryOk

/-- Every step keeps the PC inside the variant's address space and leaves the configuration as it is (R33, R82). -/
def Obligations.PcStaysInAddressSpace : Prop :=
  ∀ s t : State, s.pcOk → step s = .next t → t.pcOk ∧ t.cfg = s.cfg

/-- Every step keeps the modes legal: user mode only with a protection scheme, memm 0 on VA, the buffers equal to the modes
when no commit is pending (R43, R44, R45, R373), as long as the host deposits no mode flag. -/
def Clause.ModesStayLegal : Prop :=
  ∀ s t : State, s.cfg.valid = true → s.modesOk → s.modesLeftAlone → step s = .next t → t.modesOk ∧ t.modesLeftAlone

/-- Every step keeps the API's masks legal: only software levels are requested, and without an API nothing is set (R42). For the
host's deposits, of which R42 says nothing, this is the model's choice (log entry 19, DESIGN CHOICE): a deposit leaves the
state of an absent API 0, and takes only the bits of the software levels. -/
def Clause.ApiMasksStayLegal : Prop :=
  ∀ s t : State, s.apiOk → step s = .next t → t.apiOk

/-- Every step keeps the modes and the API's masks legal (R42 to R45, R373); for what the host deposits, the second part is the
model's choice (log entry 19). -/
def Obligations.ControlStateStaysLegal : Prop := Clause.ModesStayLegal ∧ Clause.ApiMasksStayLegal

/-- The power-on state of every valid configuration meets the invariants. -/
def Obligations.PowerOnMeetsInvariants : Prop :=
  ∀ c : Cfg, c.valid = true →
    (State.powerOn c).memoryOk ∧ (State.powerOn c).pcOk ∧ (State.powerOn c).modesOk ∧ (State.powerOn c).modesLeftAlone
    ∧ (State.powerOn c).apiOk

/-! ## The cycle -/

/-- When the next cycle fetches, and the word at the PC decodes, the step is that instruction's meaning on the state with the
cycle's move off the list, if it stands there, the modes committed, the deferral used up, the PC advanced and no XCT begun
(R370, R372). -/
def Clause.DecodedInstructionRuns : Prop :=
  ∀ (s : State) (pa : Addr) (i : Instr), s.willFetch → s.atFetch.translate s.pc .fetch = .ok pa →
    decode s.cfg (s.wordAt pa.toNat) = .ok i →
    step s = exec i
      { s.atFetch with pc := incPC s.cfg s.pc, instrAddr := s.pc, ir := s.wordAt pa.toNat, xctDepth := 0 }

/-- What `incPC`, `AMASK` and `BLK` are (R11, R13, R15, R83): an address has AddrWidth bits; its successor wraps within its
block, of 2^13 words on VA and 2^15 words on the others, and stays in it. -/
def Clause.PcWrapsWithinItsBlock : Prop :=
  ∀ (c : Cfg) (a : Addr),
    let width := match c.variant with
      | .VA => 13
      | .VB => 15
      | .VC => 15
      | .VD => 17
    let block := match c.variant with
      | .VA => 2 ^ 13
      | _ => 2 ^ 15
    (amask c).toNat = 2 ^ width - 1
    ∧ (blkMask c).toNat = block - 1
    ∧ (incPC c a).toNat = a.toNat % 2 ^ width / block * block + (a.toNat + 1) % block

/-- A step whose fetch succeeds runs the instruction that the word decodes to, with the PC advanced within its block (R83, R370,
R372). -/
def Obligations.StepRunsDecodedInstruction : Prop := Clause.DecodedInstructionRuns ∧ Clause.PcWrapsWithinItsBlock

/-- A fetch that Faults, or that does not end in an instruction (R97, R98, R145, R372): a trapping Fault, which non-existent
memory is in user mode or under `ExecNxmTraps`, leaves the PC alone and executes nothing; non-existent memory that does not
trap is executed as the word `FaultReadValue`, the PC advanced, which is the model's reading (log entry 29, DEDUCED); a
malformed word stops the run after the PC's advance, or does nothing more; that the PC then stands after that word, also where
R130 counts it as the first of two, and that a malformed `FaultReadValue` leaves `nexm` set, is the model's reading too (log
entries 27 and 30, DEDUCED). -/
def Clause.FetchWithoutInstruction : Prop :=
  ∀ s : State, s.willFetch →
    let traps := s.commitModes.usmd = true ∨ s.cfg.execNxmTraps = true
    let fetched (w : Word) : State :=
      { s.atFetch with pc := incPC s.cfg s.pc, instrAddr := s.pc, ir := w, xctDepth := 0 }
    let malformed (t : State) : State :=
      { t with
        runState := match s.cfg.unimplPolicy with
          | .stop => .stopped .unimplemented
          | .nop => .running }
    (s.atFetch.translate s.pc .fetch = .violation →
      step s = .next { s.atFetch with prvn := true, trapPending := true })
    ∧ (s.atFetch.translate s.pc .fetch = .nonExistent → traps →
      step s = .next { s.atFetch with nexm := true, trapPending := true })
    ∧ (s.atFetch.translate s.pc .fetch = .nonExistent → ¬traps →
      (∀ i, decode s.cfg s.cfg.faultReadValue = .ok i →
        step s = exec i { fetched s.cfg.faultReadValue with nexm := true })
      ∧ ∀ e, decode s.cfg s.cfg.faultReadValue = .error e →
        step s = .next (malformed { fetched s.cfg.faultReadValue with nexm := true }))
    ∧ ∀ (pa : Addr) (e : Reject), s.atFetch.translate s.pc .fetch = .ok pa →
      decode s.cfg (s.wordAt pa.toNat) = .error e →
      step s = .next (malformed (fetched (s.wordAt pa.toNat)))

/-- A breakpoint stops the run before the instruction at the PC, but not in the first cycle of the run (R370, R404). -/
def Clause.BreakpointStops : Prop :=
  ∀ s : State, s.processorNext → s.runState = .running → s.trapPending = false →
    (s.ionDefer = true ∨ s.commitModes.arbitrate = .none) → s.firstCycle = false → s.breakpoints.contains s.pc = true →
    step s = .next
      { s.commitModes with
        moves := s.moves.tail, ionDefer := false, firstCycle := false, runState := .stopped .breakpoint }

/-- A stopped processor stays as it is (R55, R375): its move leaves the state unchanged, but for the move itself where it stands
on the list (log entry 7). -/
def Clause.StoppedProcessorStays : Prop :=
  ∀ (s : State) (reason : StopReason), s.processorNext → s.runState = .stopped reason →
    step s = .next { s with moves := s.moves.tail } ∧ (s.moves = [] → step s = .next s)

/-- A move of the processor that does not run the instruction at the PC, though no trap and no interrupt comes before it (R55, R97,
R98, R145, R370, R372, R375, R404). -/
def Obligations.CyclesWithoutInstruction : Prop :=
  Clause.FetchWithoutInstruction ∧ Clause.BreakpointStops ∧ Clause.StoppedProcessorStays

/-- Every instruction answers a next state, whatever the state: none faults, none is refused. The model's choice: a stop of the run
and a trap are next states (log entry 7, DEDUCED from R55, R375 and R404), and an instruction whose option is absent, which
the decoder never answers, is performed by `exec` all the same (log entry 22, DESIGN CHOICE). -/
def Clause.EveryInstructionAnswersNext : Prop :=
  ∀ (i : Instr) (s : State), ∃ t, exec i s = .next t

/-- The processor never stops a step: when its move is next, the step answers a next state. The model's choice (log entry 7,
DEDUCED from R55, R375 and R404). -/
def Clause.ProcessorAlwaysSteps : Prop :=
  ∀ s : State, s.processorNext → SafeStep s

/-- No instruction and no move of the processor faults or is refused: the model's choice (log entry 7, DEDUCED; log entry 22,
DESIGN CHOICE, for the instructions of an absent option). -/
def Obligations.StepsAnswerNext : Prop := Clause.EveryInstructionAnswersNext ∧ Clause.ProcessorAlwaysSteps

/-- The mode commit (R373), and the two cycles a mode-changing IOT takes: after `modeDefer <- 2` the next cycle runs in the old
modes and the one after it in the buffered ones. -/
def Obligations.ModeCommitIsDelayed : Prop :=
  ∀ s : State,
    (s.modeDefer = 0 → s.commitModes = s)
    ∧ (s.modeDefer = 1 → s.commitModes = { s with modeDefer := 0, memm := s.memmBuf, usmd := s.usmdBuf })
    ∧ (s.modeDefer = 2 → s.commitModes = { s with modeDefer := 1 }
        ∧ s.commitModes.commitModes = { s with modeDefer := 0, memm := s.memmBuf, usmd := s.usmdBuf })

/-- Trap entry (R362, R374): a pending trap is taken before any interrupt and any instruction. The return word of the
interrupted state is saved at 0, the modes are forced, the PI enable is cleared, and the PC goes to 2; nothing else
changes. -/
def Clause.TrapEntryIsTaken : Prop :=
  ∀ s : State, s.processorNext → s.runState = .running → s.trapPending = true → 0 < s.cfg.memSize →
    step s = .next
      { s.commitModes with
        moves := s.moves.tail, firstCycle := false, trapPending := false, ion := false
        pcq := s.pc :: s.pcq.take (s.cfg.pcqDepth - 1)
        usmd := false, usmdBuf := false, memm := s.cfg.entryMemm, memmBuf := s.cfg.entryMemm, modeDefer := 0
        mem := s.mem.write 0 s.commitModes.retWord
        pc := 2 }

/-- PI delivery (R368, R374): as trap entry, with the handler at 1, and the request line left set. -/
def Clause.PiDeliveryIsTaken : Prop :=
  ∀ s : State, s.processorNext → s.runState = .running → s.trapPending = false → s.ionDefer = false →
    s.commitModes.arbitrate = .pi → 0 < s.cfg.memSize →
    step s = .next
      { s.commitModes with
        moves := s.moves.tail, firstCycle := false, ion := false
        pcq := s.pc :: s.pcq.take (s.cfg.pcqDepth - 1)
        usmd := false, usmdBuf := false, memm := s.cfg.entryMemm, memmBuf := s.cfg.entryMemm, modeDefer := 0
        mem := s.mem.write 0 s.commitModes.retWord
        pc := 1 }

/-- A trap, and a program interrupt, are taken as R362, R368 and R374 say. -/
def Obligations.TrapAndPiEntry : Prop := Clause.TrapEntryIsTaken ∧ Clause.PiDeliveryIsTaken

/-- API delivery (R369, R374): the vector word, a JMS, is executed in the forced modes, its address resolved from the vector's own
location, as an instruction whose advanced PC is the address after the vector resolves it, and not from the interrupted PC;
the level becomes active and a software request is consumed; the return word is that of the interrupted state. Where the
resolution ends in a Fault that traps, or the word stored to is non-existent memory that traps, the PC stays and what was
changed before stays too, which is the model's reading (log entry 13, DEDUCED); where it does not trap the store is
discarded. -/
def Clause.ApiDeliveryIsTaken : Prop :=
  ∀ (s t : State) (k : Nat) (vec pa : Addr) (r : Resolved), s.processorNext → s.runState = .running → s.trapPending = false →
    s.ionDefer = false → s.commitModes.arbitrate = .api k → s.commitModes.apiVector k = some vec →
    vec.toNat < s.cfg.memSize → s.wordAt vec.toNat &&& 0o740000 = 0o100000 →
    let atVector : State :=
      { s.commitModes with
        moves := s.moves.tail, firstCycle := false
        usmd := false, usmdBuf := false, memm := s.cfg.entryMemm, memmBuf := s.cfg.entryMemm, modeDefer := 0
        apiAct := s.apiAct ||| (0o200#8 >>> k)
        apiReq := if 4 ≤ k then s.apiReq &&& ~~~(0o200#8 >>> k) else s.apiReq
        ir := s.wordAt vec.toNat
        pc := incPC s.cfg vec }
    let pushed := s.pc :: s.pcq.take (s.cfg.pcqDepth - 1)
    (atVector.resolve (memOperandOf (s.wordAt vec.toNat)) = .abandoned t → step s = .next { t with pc := s.pc })
    ∧ (atVector.resolve (memOperandOf (s.wordAt vec.toNat)) = .done r t →
      (t.translate r.ea .write = .ok pa →
        step s = .next
          { t with mem := t.mem.write pa.toNat s.commitModes.retWord, pcq := pushed, pc := incPC s.cfg r.ea })
      ∧ (t.translate r.ea .write = .nonExistent → s.cfg.execNxmTraps = true →
        step s = .next { t with pc := s.pc, nexm := true, trapPending := true })
      ∧ (t.translate r.ea .write = .nonExistent → s.cfg.execNxmTraps = false →
        step s = .next { t with nexm := true, pcq := pushed, pc := incPC s.cfg r.ea }))

/-- An invalid table entry, or a vector word that is not a JMS, stops the run and changes nothing else (R369, R404); that
the mode commit of the cycle is undone too is the model's reading (log entry 14). -/
def Clause.InvalidVectorStops : Prop :=
  ∀ (s : State) (k : Nat), s.processorNext → s.runState = .running → s.trapPending = false → s.ionDefer = false →
    s.commitModes.arbitrate = .api k →
    (s.commitModes.apiVector k = none
      ∨ ∃ vec, s.commitModes.apiVector k = some vec ∧ vec.toNat < s.cfg.memSize
        ∧ s.wordAt vec.toNat &&& 0o740000 ≠ 0o100000) →
    step s = .next { s with moves := s.moves.tail, runState := .stopped .invalidVector }

/-- Where the vector of a level lies (R369): for a hardware level, at the address in the table's entry for the level and its
highest asserted line, with none there an invalid vector; for a software level, at 0o40 to 0o43. -/
def Clause.ApiVectorOfLevel : Prop :=
  ∀ (s : State) (k : Nat),
    let lines := match k with
      | 0 => s.intReq.api0
      | 1 => s.intReq.api1
      | 2 => s.intReq.api2
      | _ => s.intReq.api3
    (k < 4 → ∀ n < 32, lines.getLsbD n = true → (∀ j, n < j → j < 32 → lines.getLsbD j = false) →
      s.apiVector k =
        (s.cfg.apiVecTable.find? fun v => v.level == k && v.line == n).map fun v => v.addr &&& amask s.cfg)
    ∧ (4 ≤ k → k < 8 → ∃ vec, s.apiVector k = some vec ∧ vec.toNat = 0o40 + (k - 4))

/-- An API level is delivered through its vector, or its invalid vector stops the run (R369, R404). -/
def Obligations.ApiEntry : Prop := Clause.ApiDeliveryIsTaken ∧ Clause.InvalidVectorStops ∧ Clause.ApiVectorOfLevel

/-- The pending levels (R367): a hardware level with a line asserted, a software level that is requested. -/
def Clause.PendingLevels : Prop :=
  ∀ (s : State) (k : Nat), k < 8 →
    s.pendingMask.getMsbD k = match k with
      | 0 => s.intReq.api0 != 0
      | 1 => s.intReq.api1 != 0
      | 2 => s.intReq.api2 != 0
      | 3 => s.intReq.api3 != 0
      | _ => s.apiReq.getMsbD k

/-- The API's candidate is the lowest pending level that is strictly above every active one (R367). -/
def Clause.ApiCandidateIsLowestPending : Prop :=
  ∀ (s : State) (k : Nat), s.apiCandidate = some k ↔
    s.cfg.hasAPI = true ∧ s.apiEnb = true ∧ k < 8 ∧ s.pendingMask.getMsbD k = true
    ∧ (∀ j ≤ k, s.apiAct.getMsbD j = false) ∧ ∀ j < k, s.pendingMask.getMsbD j = false

/-- The arbiter's order (R367): API levels 0 to 3, then PI, then API levels 4 to 7. On VC any active level masks PI, on VD an
active hardware level, and on VA and VB none. -/
def Clause.ArbitrationOrder : Prop :=
  ∀ s : State,
    let piReady := s.ion = true ∧ s.intReq.pi ≠ 0 ∧ ¬(s.cfg.variant = .VC ∧ s.apiAct ≠ 0)
      ∧ ¬(s.cfg.variant = .VD ∧ s.apiAct &&& 0o360 ≠ 0)
    (∀ k, k < 4 → (s.arbitrate = .api k ↔ s.apiCandidate = some k))
    ∧ (s.arbitrate = .pi ↔ piReady ∧ ∀ k, s.apiCandidate = some k → 4 ≤ k)
    ∧ (∀ k, 4 ≤ k → (s.arbitrate = .api k ↔ s.apiCandidate = some k ∧ ¬piReady))
    ∧ (s.arbitrate = .none ↔ s.apiCandidate = none ∧ ¬piReady)

/-- The arbiter (R367). -/
def Obligations.Arbitration : Prop := Clause.PendingLevels ∧ Clause.ApiCandidateIsLowestPending ∧ Clause.ArbitrationOrder

/-! ## The host and the device agent -/

/-- A move of the device agent sets or clears one request line and nothing else (R39, R365). -/
def Clause.AgentMovesOneLine : Prop :=
  ∀ (s : State) (m : ReqMove) (rest : List Move), s.moves = .agent m :: rest →
    (∃ q, step s = .next { s with moves := rest, intReq := q }
      ∧ (∀ n < 32, (match m.level with
          | .api0 => q.api0 | .api1 => q.api1 | .api2 => q.api2 | .api3 => q.api3 | .pi => q.pi).getLsbD n
        = if n = m.line.toNat then m.asserted
          else (match m.level with
            | .api0 => s.intReq.api0 | .api1 => s.intReq.api1 | .api2 => s.intReq.api2 | .api3 => s.intReq.api3
            | .pi => s.intReq.pi).getLsbD n)
      ∧ (m.level ≠ .api0 → q.api0 = s.intReq.api0) ∧ (m.level ≠ .api1 → q.api1 = s.intReq.api1)
      ∧ (m.level ≠ .api2 → q.api2 = s.intReq.api2) ∧ (m.level ≠ .api3 → q.api3 = s.intReq.api3)
      ∧ (m.level ≠ .pi → q.pi = s.intReq.pi))

/-- The host loads words and sets the PC while the run is stopped, and stops a running one (R375, R402). That any other action
on a running machine is refused is the treatment of I30 and R406. -/
def Clause.HostActions : Prop :=
  ∀ (s : State) (rest : List Move),
    (∀ r pa v, s.runState = .stopped r → s.moves = .host (.loadWord pa v) :: rest →
      step s = .next
        (if pa < s.cfg.memSize then { s with moves := rest, mem := s.mem.write pa (BitVec.ofNat 18 v) }
         else { s with moves := rest }))
    ∧ (∀ r a, s.runState = .stopped r → s.moves = .host (.setPC a) :: rest →
      step s = .next { s with moves := rest, pc := BitVec.ofNat 17 a &&& amask s.cfg })
    ∧ (∀ r, s.runState = .stopped r → s.moves = .host .run :: rest → s.cfg.valid = true →
      step s = .next { s with moves := rest, runState := .running, firstCycle := true })
    ∧ (s.runState = .running → s.moves = .host .stop :: rest →
      step s = .next { s with moves := rest, runState := .stopped .hostStop })
    ∧ (∀ a, s.runState = .running → s.moves = .host a :: rest → a ≠ .stop → step s = .refused .hostAccessWhileRunning)

/-- The host's access to the registers and to memory while the run is stopped (R406): a deposit of a register, and an examine,
whose answer goes to the model's `hostData` (log entry 26). Depositing Running in `runState` begins a run, as `run` does
(log entry 19); any other deposit is the register's alone. -/
def Clause.HostAccess : Prop :=
  ∀ (s : State) (reason : StopReason) (rest : List Move) (r : RegName) (v pa : Nat), s.runState = .stopped reason →
    let t := { s with moves := rest }
    (s.moves = .host (.deposit r v) :: rest → r ≠ .runState ∨ v ≠ 0 → step s = .next (t.deposit r v))
    ∧ (s.moves = .host (.deposit .runState 0) :: rest →
      step s = if s.cfg.valid = true then .next { t with runState := .running, firstCycle := true }
        else .fault .invalidConfiguration)
    ∧ (s.moves = .host (.examine r) :: rest → step s = .next { t with hostData := s.examine r })
    ∧ (s.moves = .host (.examineWord pa) :: rest → pa < s.cfg.memSize →
      step s = .next { t with hostData := (s.wordAt pa).toNat })

/-- The host's breakpoints (R404, R406), while the run is stopped: a set address is one, a cleared address is none, and no other
address changes. -/
def Clause.HostBreakpoints : Prop :=
  ∀ (s : State) (reason : StopReason) (rest : List Move) (a : Addr), s.runState = .stopped reason →
    (s.moves = .host (.setBreakpoint a) :: rest →
      ∃ bs, step s = .next { s with moves := rest, breakpoints := bs } ∧ a ∈ bs
        ∧ ∀ b, b ≠ a → (b ∈ bs ↔ b ∈ s.breakpoints))
    ∧ (s.moves = .host (.clearBreakpoint a) :: rest →
      ∃ bs, step s = .next { s with moves := rest, breakpoints := bs } ∧ a ∉ bs
        ∧ ∀ b, b ≠ a → (b ∈ bs ↔ b ∈ s.breakpoints))

/-- The host's configuration of the machine and of the device agent, while the run is stopped (R366, R405, R406): a run on a
configuration outside the matrix is a fault, and so is the registration of a device at a slot that is taken or does not
exist; a registration takes its slots, a removal frees them; the agent's next answers are those the host gives it. The form
of these actions is the model's (log entries 24 and 26). -/
def Clause.HostConfigures : Prop :=
  ∀ (s : State) (reason : StopReason) (rest : List Move) (base count : Nat), s.runState = .stopped reason →
    let within (n : Nat) := base ≤ n ∧ n < base + count
    let conflict := 64 < base + count ∨ ∃ n < 64, within n ∧ s.devices.getLsbD n = true
    (s.moves = .host .run :: rest → s.cfg.valid = false → step s = .fault .invalidConfiguration)
    ∧ (s.moves = .host (.registerDevice base count) :: rest → conflict → step s = .fault .deviceSlotConflict)
    ∧ (s.moves = .host (.registerDevice base count) :: rest → ¬conflict →
      ∃ d, step s = .next { s with moves := rest, devices := d }
        ∧ ∀ n < 64, d.getLsbD n = (decide (within n) || s.devices.getLsbD n))
    ∧ (s.moves = .host (.removeDevice base count) :: rest → base + count ≤ 64 →
      ∃ d, step s = .next { s with moves := rest, devices := d }
        ∧ ∀ n < 64, d.getLsbD n = (!decide (within n) && s.devices.getLsbD n))
    ∧ (∀ answers, s.moves = .host (.setIoAnswers answers) :: rest →
      step s = .next { s with moves := rest, ioAnswers := answers })
    ∧ (∀ words, s.moves = .host (.setStatusPolls words) :: rest →
      step s = .next { s with moves := rest, statusPolls := words })

/-- The moves of the device agent and of the host (R365, R366, R375, R402, R404 to R406). -/
def Obligations.HostAndAgentMoves : Prop :=
  Clause.AgentMovesOneLine ∧ Clause.HostActions ∧ Clause.HostAccess ∧ Clause.HostBreakpoints ∧ Clause.HostConfigures

/-- A deposited value is examined as it was deposited, truncated to the register's width (R406), and no other register and no
word of memory changes; but for `runState` itself, the run is not touched. Three of the values are the model's choice (log
entry 19, DESIGN CHOICE): apiReq, of 8 bits, takes the low 4, those of the software levels, alone; the counter modeDefer has 2
bits; and `runState` is a number. -/
def Clause.DepositOfARegister : Prop :=
  ∀ (s : State) (r : RegName) (v : Nat), (∀ i, r = .pcq i → i < s.pcq.length) →
    let c := s.cfg
    let present : Prop := match r with
      | .xr | .lr => c.variant = .VD
      | .apiEnb | .apiReq | .apiAct => c.hasAPI = true
      | .memm | .memmBuf => c.variant ≠ .VA
      | .usmd | .usmdBuf | .br => c.protScheme ≠ .none
      | .rr => c.protScheme = .reloc ∨ c.protScheme = .xvm
      | .mmr => c.protScheme = .xvm
      | .fmaS | .fmaE | .fmaHi | .fmaLo | .fmbS | .fmbE | .fmbHi | .fmbLo | .fmq | .fguard | .jeaBase => c.hasFP15 = true
      | _ => True
    present →
      (s.deposit r v).examine r = (match r with
        | .l | .eaeAcSign | .ion | .ionDefer | .apiEnb | .memm | .usmd | .memmBuf | .usmdBuf | .restPending | .nexm | .prvn
        | .trapPending | .fmaS | .fmbS | .fguard => v % 2
        | .modeDefer => v % 4
        | .sc => v % 64
        | .apiReq => v % 16
        | .apiAct => v % 256
        | .jeaBase => v % 32768
        | .fmaHi | .fmbHi => v % 131072
        | .pc | .pcq _ => v % 2 ^ s.cfg.variant.addrWidth
        | .intReq _ => v % 4294967296
        | .fmq => v % 34359738368
        | .runState => v
        | _ => v % 262144)
      ∧ (∀ r', r' ≠ r → (s.deposit r v).examine r' = s.examine r')
      ∧ (s.deposit r v).mem = s.mem ∧ (r ≠ .runState → (s.deposit r v).runState = s.runState)

/-- A deposit in a register that the configuration does not have does nothing: the model's choice (log entry 19). -/
def Clause.DepositOfAnAbsentRegister : Prop :=
  ∀ (s : State) (r : RegName) (v : Nat),
    let c := s.cfg
    (c.variant ≠ .VD → r = .xr ∨ r = .lr → s.deposit r v = s)
    ∧ (c.hasAPI = false → r = .apiEnb ∨ r = .apiReq ∨ r = .apiAct → s.deposit r v = s)
    ∧ (c.variant = .VA → r = .memm ∨ r = .memmBuf → s.deposit r v = s)
    ∧ (c.protScheme = .none → r = .usmd ∨ r = .usmdBuf ∨ r = .br ∨ r = .rr ∨ r = .mmr → s.deposit r v = s)
    ∧ (c.protScheme = .bounds → r = .rr ∨ r = .mmr → s.deposit r v = s)
    ∧ (c.protScheme = .reloc → r = .mmr → s.deposit r v = s)
    ∧ (c.hasFP15 = false → r = .fmaS ∨ r = .fmaE ∨ r = .fmaHi ∨ r = .fmaLo ∨ r = .fmbS ∨ r = .fmbE ∨ r = .fmbHi ∨ r = .fmbLo
        ∨ r = .fmq ∨ r = .fguard ∨ r = .jeaBase → s.deposit r v = s)

/-- A deposited value is examined as it was deposited, and no other register changes (R406). The values of apiReq, modeDefer and
`runState`, and that a register which the configuration does not have takes no deposit, are the model's choice (log entry
19). -/
def Obligations.DepositThenExamine : Prop := Clause.DepositOfARegister ∧ Clause.DepositOfAnAbsentRegister

/-! ## Translation and faults -/

/-- Executive mode, or no scheme (R91, R97): the address passes through, and is non-existent at or beyond `MemSize`. -/
def Clause.PassThroughTranslation : Prop :=
  ∀ (s : State) (va : Addr) (k : AccessKind), s.usmd = false ∨ s.cfg.protScheme = .none →
    s.translate va k =
      if (va &&& amask s.cfg).toNat < s.cfg.memSize then .ok (va &&& amask s.cfg) else .nonExistent

/-- The bounds and the relocation scheme (R93, R94, R97): an access at `BRlim` is allowed and one above it is a violation, for
every kind of access; the bounds scheme changes no address, relocation adds RR rounded down to the granule. The granule is
a power of two, 2^g words. -/
def Clause.BoundsAndRelocation : Prop :=
  ∀ (s : State) (va : Addr) (k : AccessKind) (g : Nat), g < 18 → s.cfg.protGranule = 1#18 <<< g → s.usmd = true →
    let brLim := s.br.toNat / 2 ^ g * 2 ^ g + (2 ^ g - 1)
    let moved : Addr := BitVec.ofNat 17 (va.toNat + s.rr.toNat / 2 ^ g * 2 ^ g) &&& amask s.cfg
    (s.cfg.protScheme = .bounds →
      s.translate va k =
        if brLim < va.toNat then .violation else if va.toNat < s.cfg.memSize then .ok va else .nonExistent)
    ∧ (s.cfg.protScheme = .reloc →
      s.translate va k =
        if brLim < va.toNat then .violation else if moved.toNat < s.cfg.memSize then .ok moved else .nonExistent)

/-- The XVM scheme (R95, R96, R97): the bypass; the shared window, where a write is a violation when MMR<9> is 1; and base and
length relocation outside it. -/
def Clause.XvmTranslation : Prop :=
  ∀ (s : State) (va : Addr) (k : AccessKind), s.usmd = true → s.cfg.protScheme = .xvm →
    let w := if s.mmr.getMsbD 7 then if s.mmr.getMsbD 8 then s.cfg.xvmTable.w3 else s.cfg.xvmTable.w2
      else if s.mmr.getMsbD 8 then s.cfg.xvmTable.w1 else s.cfg.xvmTable.w0
    let inside := s.mmr.getMsbD 6 = true ∧ w.vstart ≤ va.toNat ∧ va.toNat < w.vstart + w.length
    let shared : Addr := BitVec.ofNat 17 (w.pbase + (va.toNat - w.vstart)) &&& amask s.cfg
    let installed (pa : Addr) : Translation := if pa.toNat < s.cfg.memSize then .ok pa else .nonExistent
    (s.mmr.getMsbD 0 = true → s.translate va k = installed va)
    ∧ (s.mmr.getMsbD 0 = false → inside →
      s.translate va k = if k = .write ∧ s.mmr.getMsbD 9 = true then .violation else installed shared)
    ∧ (s.mmr.getMsbD 0 = false → ¬inside →
      s.translate va k = { s with cfg := { s.cfg with protScheme := .reloc } }.translate va k)

/-- Translation without a scheme, and under the bounds, the relocation and the XVM scheme (R91 to R97). -/
def Obligations.AddressTranslation : Prop := Clause.PassThroughTranslation ∧ Clause.BoundsAndRelocation ∧ Clause.XvmTranslation

/-- What a Fault of the pointer word does outside the auto-index window (R86, R88, R97, R98): where it traps, the indirect
reference is abandoned before its operand; non-existent memory that does not trap gives the pointer `FaultReadValue`, which
leads where any pointer does. -/
def Clause.FaultedPointer : Prop :=
  ∀ (s : State) (y : BitVec 13),
    let bank := s.cfg.variant ≠ .VD ∨ s.memm = true
    let d : Addr := if bank then (s.pc &&& ~~~0o17777 &&& amask s.cfg) ||| y.setWidth 17
      else (s.pc &&& ~~~0o7777 &&& amask s.cfg) ||| (y &&& 0o07777).setWidth 17
    let off : Addr := if bank then d &&& 0o17777 else d &&& 0o7777
    let traps := s.usmd = true ∨ s.cfg.execNxmTraps = true
    let ptr := s.cfg.faultReadValue
    let block : Addr := (s.pc &&& ~~~blkMask s.cfg &&& amask s.cfg) ||| (ptr.setWidth 17 &&& 0o77777)
    let field : Addr := (s.pc &&& ~~~0o17777 &&& amask s.cfg) ||| (ptr.setWidth 17 &&& 0o17777)
    let ea : Addr := if bank then if s.cfg.variant ≠ .VA ∧ s.memm = true then block else field
      else if y.getMsbD 0 then (block + s.xr.setWidth 17) &&& amask s.cfg else block
    off < 0o10 ∨ 0o17 < off →
    (s.translate d .read = .violation → s.resolve ⟨true, y⟩ = .abandoned { s with prvn := true, trapPending := true })
    ∧ (s.translate d .read = .nonExistent → traps →
      s.resolve ⟨true, y⟩ = .abandoned { s with nexm := true, trapPending := true })
    ∧ (s.translate d .read = .nonExistent → ¬traps → s.resolve ⟨true, y⟩ = .done ⟨ea, ptr⟩ { s with nexm := true })

/-- What a Fault of an auto-indexed pointer does (R88, R89, R97, R98): a read that Faults with a trap abandons the reference, and
so does a write-back that the scheme forbids after a good read, with the pointer as it was. Where non-existent memory does
not trap, `FaultReadValue + 1` is the pointer, and its write-back is discarded; that it is used incremented all the same is
the model's reading (log entry 11, DEDUCED). -/
def Clause.FaultedAutoPointer : Prop :=
  ∀ (s : State) (y : BitVec 13),
    let bank := s.cfg.variant ≠ .VD ∨ s.memm = true
    let d : Addr := if bank then (s.pc &&& ~~~0o17777 &&& amask s.cfg) ||| y.setWidth 17
      else (s.pc &&& ~~~0o7777 &&& amask s.cfg) ||| (y &&& 0o07777).setWidth 17
    let off : Addr := if bank then d &&& 0o17777 else d &&& 0o7777
    let loc : Addr := if s.cfg.autoIndexScope = .fieldZero then d &&& 0o17 else d
    let traps := s.usmd = true ∨ s.cfg.execNxmTraps = true
    let ptr := s.cfg.faultReadValue + 1
    let block : Addr := (s.pc &&& ~~~blkMask s.cfg &&& amask s.cfg) ||| (ptr.setWidth 17 &&& 0o77777)
    let field : Addr := (s.pc &&& ~~~0o17777 &&& amask s.cfg) ||| (ptr.setWidth 17 &&& 0o17777)
    let full : Addr := ptr.setWidth 17 &&& amask s.cfg
    let ea : Addr := if bank then if s.cfg.variant ≠ .VA ∧ s.memm = true then block else field
      else if y.getMsbD 0 then (full + s.xr.setWidth 17) &&& amask s.cfg else full
    0o10 ≤ off → off ≤ 0o17 →
    (s.translate loc .read = .violation → s.resolve ⟨true, y⟩ = .abandoned { s with prvn := true, trapPending := true })
    ∧ (s.translate loc .read = .nonExistent → traps →
      s.resolve ⟨true, y⟩ = .abandoned { s with nexm := true, trapPending := true })
    ∧ (∀ pr, s.translate loc .read = .ok pr → s.translate loc .write = .violation →
      s.resolve ⟨true, y⟩ = .abandoned { s with prvn := true, trapPending := true })
    ∧ (s.translate loc .read = .nonExistent → ¬traps → s.resolve ⟨true, y⟩ = .done ⟨ea, ptr⟩ { s with nexm := true })

/-- What a trapping Fault does to the instruction (R97, R98): a violation, and non-existent memory in user mode or under
`ExecNxmTraps`, set the sticky flag and `trapPending` and end the instruction, with what it had already changed. That this is
so of an XCT at the nesting limit too, which reads before it stops the run, is the model's reading (log entry 15, DEDUCED). -/
def Clause.TrappingFaults : Prop :=
  ∀ (m : MemOperand) (s t : State) (r : Resolved),
    let traps := s.usmd = true ∨ s.cfg.execNxmTraps = true
    (s.resolve m = .abandoned t →
      ∀ i ∈ [Instr.dac m, .jms m, .dzm m, .lac m, .xor m, .add m, .tad m, .xct m, .isz m, .and m, .sad m, .jmp m],
        exec i s = .next t)
    ∧ (s.resolve m = .done r t →
    (∀ i ∈ [Instr.lac m, .xor m, .and m, .add m, .tad m, .sad m, .xct m, .isz m],
      (t.translate r.ea .read = .violation → exec i s = .next { t with prvn := true, trapPending := true })
      ∧ (t.translate r.ea .read = .nonExistent → traps → exec i s = .next { t with nexm := true, trapPending := true }))
    ∧ (∀ i ∈ [Instr.dac m, .dzm m, .jms m],
      (t.translate r.ea .write = .violation → exec i s = .next { t with prvn := true, trapPending := true })
      ∧ (t.translate r.ea .write = .nonExistent → traps → exec i s = .next { t with nexm := true, trapPending := true }))
    ∧ (∀ pa, t.translate r.ea .read = .ok pa → t.translate r.ea .write = .violation →
      exec (.isz m) s = .next { t with prvn := true, trapPending := true }))

/-- What non-existent memory does where it does not trap (R97, R98): `nexm` is set, a read gives `FaultReadValue`, a write is
discarded, and the instruction goes on. That an XCT at the nesting limit sets the flag before it stops the run is the model's
reading (log entry 15, DEDUCED), and so is that the PC stays as it is where the `FaultReadValue` an XCT executes is malformed
and does nothing, and that it leaves `nexm` set (log entries 27 and 30, DEDUCED). -/
def Clause.FlaggedFaults : Prop :=
  ∀ (m : MemOperand) (s t : State) (r : Resolved), s.resolve m = .done r t → s.usmd = false → s.cfg.execNxmTraps = false →
    let v := s.cfg.faultReadValue
    let u := { t with nexm := true }
    let sum := s.ac.toNat + v.toNat
    let ones : Word := BitVec.ofNat 18 (if 0o777777 < sum then sum + 1 else sum)
    let two := s.l.toNat * 2 ^ 18 + sum
    let deeper := { u with xctDepth := s.xctDepth + 1, ir := v }
    (t.translate r.ea .write = .nonExistent →
      exec (.dac m) s = .next u
      ∧ exec (.dzm m) s = .next u
      ∧ exec (.jms m) s = .next { u with pc := incPC s.cfg r.ea, pcq := s.pc :: s.pcq.take (s.cfg.pcqDepth - 1) })
    ∧ (t.translate r.ea .read = .nonExistent →
      exec (.lac m) s = .next { u with ac := v }
      ∧ exec (.xor m) s = .next { u with ac := s.ac ^^^ v }
      ∧ exec (.and m) s = .next { u with ac := s.ac &&& v }
      ∧ exec (.sad m) s = .next { u with pc := if s.ac ≠ v then incPC s.cfg s.pc else s.pc }
      ∧ exec (.add m) s = .next
        { u with ac := ones, l := s.l || (s.ac.getMsbD 0 == v.getMsbD 0 && ones.getMsbD 0 != s.ac.getMsbD 0) }
      ∧ exec (.tad m) s = .next { u with ac := BitVec.ofNat 18 two, l := two / 2 ^ 18 % 2 == 1 }
      ∧ exec (.isz m) s = .next { u with pc := if v = 0o777777 then incPC s.cfg s.pc else s.pc }
      ∧ (s.xctDepth < s.cfg.xctMax →
        (∀ i, decode s.cfg v = .ok i → ∃ w, exec (.xct m) s = .next w ∧ exec i deeper = .next w)
        ∧ ∀ e, decode s.cfg v = .error e →
          exec (.xct m) s = .next (match s.cfg.unimplPolicy with
            | .stop => { deeper with runState := .stopped .unimplemented }
            | .nop => deeper))
      ∧ (s.cfg.xctMax ≤ s.xctDepth →
        exec (.xct m) s = .next { u with xctDepth := s.xctDepth + 1, runState := .stopped .xctLimit }))

/-- What a Fault of the pointer, auto-indexed or not, or of the operand does to the instruction (R86, R88, R89, R97, R98); for XCT
at the nesting limit this rests on log entry 15, for XCT of a malformed `FaultReadValue` on log entries 27 and 30, and for an
auto-indexed pointer in memory that does not exist on log entry 11. -/
def Obligations.FaultedOperands : Prop :=
  Clause.FaultedPointer ∧ Clause.FaultedAutoPointer ∧ Clause.TrappingFaults ∧ Clause.FlaggedFaults

/-! ## Effective addresses -/

/-- The direct address (R85, R87, R88): 13 bits in the PC's field in bank addressing; in page addressing 12 bits in its page,
with XR added when IR<5> is 1. Memory and the state are untouched. -/
def Clause.DirectReferenceAddress : Prop :=
  ∀ (s : State) (y : BitVec 13),
    (s.cfg.variant ≠ .VD ∨ s.memm = true →
      s.resolve ⟨false, y⟩ = .done ⟨(s.pc &&& ~~~0o17777 &&& amask s.cfg) ||| y.setWidth 17, 0⟩ s)
    ∧ (s.cfg.variant = .VD → s.memm = false →
      let d : Addr := (s.pc &&& ~~~0o7777 &&& amask s.cfg) ||| (y &&& 0o07777).setWidth 17
      s.resolve ⟨false, y⟩ = .done ⟨if y.getMsbD 0 then (d + s.xr.setWidth 17) &&& amask s.cfg else d, 0⟩ s)

/-- The indirect address outside the auto-index window (R86, R88): one level, the pointer read at the direct address. In bank
addressing it reaches the field, or with memm = 1 (never on VA) the block; in page addressing the block, XR then added
when IR<5> is 1. -/
def Clause.IndirectReferenceAddress : Prop :=
  ∀ (s : State) (y : BitVec 13) (pa : Addr),
    let bank := s.cfg.variant ≠ .VD ∨ s.memm = true
    let d : Addr := if bank then (s.pc &&& ~~~0o17777 &&& amask s.cfg) ||| y.setWidth 17
      else (s.pc &&& ~~~0o7777 &&& amask s.cfg) ||| (y &&& 0o07777).setWidth 17
    let off : Addr := if bank then d &&& 0o17777 else d &&& 0o7777
    off < 0o10 ∨ 0o17 < off → s.translate d .read = .ok pa →
    let ptr := s.wordAt pa.toNat
    let block : Addr := (s.pc &&& ~~~blkMask s.cfg &&& amask s.cfg) ||| (ptr.setWidth 17 &&& 0o77777)
    let field : Addr := (s.pc &&& ~~~0o17777 &&& amask s.cfg) ||| (ptr.setWidth 17 &&& 0o17777)
    let ea : Addr := if bank then if s.cfg.variant ≠ .VA ∧ s.memm = true then block else field
      else if y.getMsbD 0 then (block + s.xr.setWidth 17) &&& amask s.cfg else block
    s.resolve ⟨true, y⟩ = .done ⟨ea, ptr⟩ s

/-- The effective address of a reference that is not auto-indexed (R84 to R88). -/
def Obligations.ReferenceAddress : Prop := Clause.DirectReferenceAddress ∧ Clause.IndirectReferenceAddress

/-- The auto-index window (R86, R88, R89): an indirect reference through offset 0o10 to 0o17 increments the pointer in memory
before it is used; in page addressing that pointer reaches the full space. The pointer lies in field zero or in the
reference's own field, as the configuration says. -/
def Obligations.AutoIndexedReference : Prop :=
  ∀ (s : State) (y : BitVec 13) (pr pw : Addr),
    let bank := s.cfg.variant ≠ .VD ∨ s.memm = true
    let d : Addr := if bank then (s.pc &&& ~~~0o17777 &&& amask s.cfg) ||| y.setWidth 17
      else (s.pc &&& ~~~0o7777 &&& amask s.cfg) ||| (y &&& 0o07777).setWidth 17
    let off : Addr := if bank then d &&& 0o17777 else d &&& 0o7777
    let loc : Addr := if s.cfg.autoIndexScope = .fieldZero then d &&& 0o17 else d
    0o10 ≤ off → off ≤ 0o17 → s.translate loc .read = .ok pr → s.translate loc .write = .ok pw →
    let ptr := s.wordAt pr.toNat + 1
    let block : Addr := (s.pc &&& ~~~blkMask s.cfg &&& amask s.cfg) ||| (ptr.setWidth 17 &&& 0o77777)
    let field : Addr := (s.pc &&& ~~~0o17777 &&& amask s.cfg) ||| (ptr.setWidth 17 &&& 0o17777)
    let full : Addr := ptr.setWidth 17 &&& amask s.cfg
    let ea : Addr := if bank then if s.cfg.variant ≠ .VA ∧ s.memm = true then block else field
      else if y.getMsbD 0 then (full + s.xr.setWidth 17) &&& amask s.cfg else full
    s.autoCell s.pc ⟨true, y⟩ = some pw.toNat
    ∧ s.resolve ⟨true, y⟩ = .done ⟨ea, ptr⟩ { s with mem := s.mem.write pw.toNat ptr }

/-! ## Memory reference -/

/-- LAC, XOR, AND, SAD, ADD and TAD on a readable operand (R174, R175, R176, R177, R179, R181): `v` is the operand, `t` the
state the address resolution leaves. ADD carries around once and sets L on overflow only; TAD's carry complements L. -/
def Obligations.LoadingReferences : Prop :=
  ∀ (m : MemOperand) (s t : State) (r : Resolved) (pa : Addr), s.resolve m = .done r t → t.translate r.ea .read = .ok pa →
    let v := t.wordAt pa.toNat
    let sum := s.ac.toNat + v.toNat
    let ones : Word := BitVec.ofNat 18 (if 0o777777 < sum then sum + 1 else sum)
    let two := s.l.toNat * 2 ^ 18 + sum
    exec (.lac m) s = .next { t with ac := v }
    ∧ exec (.xor m) s = .next { t with ac := s.ac ^^^ v }
    ∧ exec (.and m) s = .next { t with ac := s.ac &&& v }
    ∧ exec (.sad m) s = .next { t with pc := if s.ac ≠ v then incPC s.cfg s.pc else s.pc }
    ∧ exec (.add m) s = .next
      { t with ac := ones, l := s.l || (s.ac.getMsbD 0 == v.getMsbD 0 && ones.getMsbD 0 != s.ac.getMsbD 0) }
    ∧ exec (.tad m) s = .next { t with ac := BitVec.ofNat 18 two, l := two / 2 ^ 18 % 2 == 1 }

/-- What the loading references change (R98, R174 to R181), faulted or not: AC (not SAD), L (ADD and TAD alone), the PC (SAD
alone), the fault flags, and in memory only the pointer that an auto-indexed reference increments. -/
def Obligations.LoadingReferencesFrame : Prop :=
  ∀ (m : MemOperand) (s t : State), ∀ i ∈ [Instr.lac m, .xor m, .and m, .sad m, .add m, .tad m], exec i s = .next t →
    (∃ a l p mem n v q, t = { s with ac := a, l := l, pc := p, mem := mem, nexm := n, prvn := v, trapPending := q })
    ∧ (i = .sad m → t.ac = s.ac)
    ∧ (i ≠ .sad m → t.pc = s.pc)
    ∧ (i ≠ .add m → i ≠ .tad m → t.l = s.l)
    ∧ ∀ a, s.autoCell s.pc m ≠ some a → t.wordAt a = s.wordAt a

/-- ADD is ones-complement addition (R176): the result is congruent to the sum modulo 2^18 - 1, is zero only when both operands
are, and does not depend on the order of the operands. -/
def Obligations.OnesComplementSum : Prop :=
  ∀ a m : Word,
    (onesSum a m).toNat % (2 ^ 18 - 1) = (a.toNat + m.toNat) % (2 ^ 18 - 1)
    ∧ (onesSum a m = 0 ↔ a = 0 ∧ m = 0)
    ∧ onesSum a m = onesSum m a ∧ onesOverflow a m = onesOverflow m a

/-- DAC and DZM on a writable operand (R171, R173): the word stored at the resolved address, and every other word of memory as
it was but an auto-indexed pointer; no register changes. -/
def Clause.StoringReferences : Prop :=
  ∀ (m : MemOperand) (s t : State) (r : Resolved) (pa : Addr), s.resolve m = .done r t →
    t.translate r.ea .write = .ok pa →
    ∀ p ∈ [(Instr.dac m, s.ac), (Instr.dzm m, 0)],
      ∃ u, exec p.1 s = .next u ∧ u = { s with mem := u.mem, nexm := t.nexm, prvn := t.prvn, trapPending := t.trapPending }
        ∧ u.wordAt pa.toNat = p.2
        ∧ ∀ a, a ≠ pa.toNat → s.autoCell s.pc m ≠ some a → u.wordAt a = s.wordAt a

/-- ISZ on a readable and writable operand (R180): the word is incremented in memory, and the next word is skipped when it
became 0. -/
def Clause.IncrementAndSkip : Prop :=
  ∀ (m : MemOperand) (s t : State) (r : Resolved) (pr pw : Addr), s.resolve m = .done r t →
    t.translate r.ea .read = .ok pr → t.translate r.ea .write = .ok pw →
    ∃ u, exec (.isz m) s = .next u
      ∧ u = { s with
          pc := if t.wordAt pr.toNat = 0o777777 then incPC s.cfg s.pc else s.pc
          mem := u.mem, nexm := t.nexm, prvn := t.prvn, trapPending := t.trapPending }
      ∧ u.wordAt pw.toNat = t.wordAt pr.toNat + 1
      ∧ ∀ a, a ≠ pw.toNat → s.autoCell s.pc m ≠ some a → u.wordAt a = s.wordAt a

/-- The references that store: DAC, DZM and ISZ (R171, R173, R180). -/
def Obligations.StoresAndIncrement : Prop := Clause.StoringReferences ∧ Clause.IncrementAndSkip

/-- JMS on a writable operand (R172, R183, R390): the return word of the state, L over memm over usmd over the low 15 bits of
the PC, is stored at the resolved address, and the PC goes to the address after it. -/
def Obligations.SubroutineJump : Prop :=
  ∀ (m : MemOperand) (s t : State) (r : Resolved) (pa : Addr), s.resolve m = .done r t →
    t.translate r.ea .write = .ok pa →
    ∃ u, exec (.jms m) s = .next u
      ∧ u = { s with
          pc := incPC s.cfg r.ea, pcq := s.pc :: s.pcq.take (s.cfg.pcqDepth - 1)
          mem := u.mem, nexm := t.nexm, prvn := t.prvn, trapPending := t.trapPending }
      ∧ (u.wordAt pa.toNat).toNat
        = s.l.toNat * 2 ^ 17 + s.memm.toNat * 2 ^ 16 + s.usmd.toNat * 2 ^ 15 + s.pc.toNat % 2 ^ 15
      ∧ ∀ a, a ≠ pa.toNat → s.autoCell s.pc m ≠ some a → u.wordAt a = s.wordAt a

/-- JMP (R182, R390): the PC goes to the resolved address and the PC before it into the history. An indirect JMP with
`restPending` restores L from its pointer at once and the modes into their buffers, to commit at the next cycle. A jump to
itself that no trap and no interrupt can end stops the run. -/
def Obligations.Jump : Prop :=
  ∀ (m : MemOperand) (s t : State) (r : Resolved), s.resolve m = .done r t →
    let u := { t with pc := r.ea, pcq := s.pc :: s.pcq.take (s.cfg.pcqDepth - 1) }
    let w := if m.ind = true ∧ s.restPending = true then
        { u with
          l := r.ptr.getMsbD 0
          memmBuf := if s.cfg.variant = .VA then false else r.ptr.getMsbD 1
          usmdBuf := if s.cfg.protScheme = .none then false else r.ptr.getMsbD 2
          modeDefer := 1, restPending := false }
      else u
    let stuck := r.ea = s.instrAddr ∧ s.xctDepth = 0 ∧ s.cfg.stopOnSelfLoop = true ∧ s.ion = false
      ∧ (s.cfg.hasAPI = false ∨ s.apiEnb = false) ∧ t.trapPending = false
    exec (.jmp m) s = .next (if stuck then { w with runState := .stopped .selfLoop } else w)

/-- CAL (R170, R374): the return word is saved at 0o20, the modes are forced, API level 4 becomes active when the API is on, and
the PC goes to 0o21. With no memory at 0o20 the write is discarded and `nexm` set. -/
def Obligations.CallExecutive : Prop :=
  ∀ (ign : BitVec 14) (s : State),
    let u := { s with
      apiAct := if s.cfg.hasAPI = true ∧ s.apiEnb = true then s.apiAct ||| 0o010 else s.apiAct
      pcq := s.pc :: s.pcq.take (s.cfg.pcqDepth - 1)
      usmd := false, usmdBuf := false, memm := s.cfg.entryMemm, memmBuf := s.cfg.entryMemm, modeDefer := 0
      pc := 0o21 }
    exec (.cal ign) s = .next
      (if 0o20 < s.cfg.memSize then { u with mem := s.mem.write 0o20 s.retWord } else { u with nexm := true })

/-- XCT on a readable operand below the nesting limit (R178): the word is executed as an instruction with the PC as it is, and a
malformed one is unimplemented, the PC as it is (log entry 27) and what XCT's own read changed kept (log entry 30); at the limit the run stops. The order of the read and the check
at the limit is the pseudocode's (log entry 15). -/
def Obligations.ExecuteWord : Prop :=
  ∀ (m : MemOperand) (s t : State) (r : Resolved) (pa : Addr), s.resolve m = .done r t → t.translate r.ea .read = .ok pa →
    let w := t.wordAt pa.toNat
    let u := { t with xctDepth := s.xctDepth + 1, ir := w }
    (∀ i, s.xctDepth < s.cfg.xctMax → decode s.cfg w = .ok i →
      ∃ v, exec (.xct m) s = .next v ∧ exec i u = .next v)
    ∧ (∀ e, s.xctDepth < s.cfg.xctMax → decode s.cfg w = .error e →
      exec (.xct m) s = .next (match s.cfg.unimplPolicy with
        | .stop => { u with runState := .stopped .unimplemented }
        | .nop => u))
    ∧ (s.cfg.xctMax ≤ s.xctDepth →
      exec (.xct m) s = .next { t with xctDepth := s.xctDepth + 1, runState := .stopped .xctLimit })

/-- A return restores what an entry saved (R86, R88, R182, R183, R364, R373, R374). `s` is the state that was interrupted, `u` the
handler's state when it comes to its indirect JMP, RES, EMIR or DBR having set `restPending`, through a pointer word outside
the auto-index window that holds the return word of `s`. The JMP restores L at once, and the next commit the modes. The PC
comes back where the pointer reaches it: in bank addressing with memm 1, and in page addressing without indexing, within the
handler's block; in bank addressing with memm 0, which VB and VC enter a handler with, and on VA, within its field. -/
def Obligations.ReturnRestoresEntry : Prop :=
  ∀ (s u : State) (y : BitVec 13) (pa : Addr), u.cfg = s.cfg → s.pcOk → (s.cfg.variant = .VA → s.memm = false) →
    (s.cfg.protScheme = .none → s.usmd = false) → u.restPending = true →
    let d := u.directAddr u.pc ⟨true, y⟩
    u.autoIndex d = false → u.translate d .read = .ok pa → u.wordAt pa.toNat = s.retWord →
    let bank := u.cfg.variant ≠ .VD ∨ u.memm = true
    let reach : Addr := if bank ∧ (u.cfg.variant = .VA ∨ u.memm = false) then 0o17777 else 0o77777
    ∃ v, exec (.jmp ⟨true, y⟩) u = .next v
      ∧ v.l = s.l ∧ v.restPending = false
      ∧ v.commitModes.memm = s.memm ∧ v.commitModes.usmd = s.usmd ∧ v.commitModes.modeDefer = 0
      ∧ (bank ∨ y.getMsbD 0 = false →
        v.pc &&& reach = s.pc &&& reach
        ∧ (u.pc &&& amask s.cfg &&& ~~~reach = s.pc &&& ~~~reach → v.pc = s.pc))

/-! ## Operate, load immediate, index operate -/

/-- An operate word that runs (R200 to R206): the skip test on the original AC and L, then the clears, the complements, OAS and
the rotate group in that order, then the halt with the skip made. -/
def Obligations.OperateOrder : Prop :=
  ∀ (o : OperateOps) (s : State), o.hlt = false ∨ s.usmd = false →
    let cond := (o.sma && s.ac.getMsbD 0) || (o.sza && s.ac == 0) || (o.snl && s.l)
    let skip := if o.skp then !cond else cond
    let ac1 := if o.cla then 0 else s.ac
    let l1 := if o.cll then false else s.l
    let ac2 := if o.cma then ~~~ac1 else ac1
    let l2 := if o.cml then !l1 else l1
    let ac3 := if o.oas then ac2 ||| s.sr else ac2
    let x : BitVec 19 := BitVec.ofBool l2 ++ ac3
    let ral (y : BitVec 19) : BitVec 19 := (y <<< 1) ||| (y >>> 18)
    let rar (y : BitVec 19) : BitVec 19 := (y >>> 1) ||| ((y &&& 1) <<< 18)
    let z := match o.rtwo, o.rar, o.ral with
      | _, false, false => x
      | false, false, true => ral x
      | false, true, false => rar x
      | false, true, true => x + 1
      | true, false, true => ral (ral x)
      | true, true, false => rar (rar x)
      | true, true, true => BitVec.ofBool l2 ++ ac3.extractLsb' 0 9 ++ ac3.extractLsb' 9 9
    exec (.opr o) s = .next
      { s with
        ac := z.setWidth 18, l := z.getMsbD 0
        pc := if skip then incPC s.cfg s.pc else s.pc
        runState := if o.hlt then .stopped .halt else s.runState }

/-- The words of the named operate combinations (R207); IAC and BSW are VD's. -/
def Clause.OperateWords : Prop :=
  ∀ c : Cfg,
    decode c 0o740000 = .ok .nop ∧ decode c 0o740001 = .ok .cma ∧ decode c 0o740002 = .ok .cml ∧ decode c 0o740004 = .ok .oas
    ∧ decode c 0o740010 = .ok .ral ∧ decode c 0o740020 = .ok .rar ∧ (c.variant = .VD → decode c 0o740030 = .ok .iac)
    ∧ decode c 0o740040 = .ok .hlt ∧ decode c 0o740100 = .ok .sma ∧ decode c 0o740200 = .ok .sza
    ∧ decode c 0o740300 = .ok .smaSza ∧ decode c 0o740400 = .ok .snl ∧ decode c 0o741000 = .ok .skp
    ∧ decode c 0o741100 = .ok .spa ∧ decode c 0o741200 = .ok .sna ∧ decode c 0o741300 = .ok .spaSna
    ∧ decode c 0o741400 = .ok .szl ∧ decode c 0o742010 = .ok .rtl ∧ decode c 0o742020 = .ok .rtr
    ∧ (c.variant = .VD → decode c 0o742030 = .ok .bsw) ∧ decode c 0o744000 = .ok .cll ∧ decode c 0o744002 = .ok .stl
    ∧ decode c 0o744010 = .ok .rcl ∧ decode c 0o744020 = .ok .rcr ∧ decode c 0o750000 = .ok .cla
    ∧ decode c 0o750001 = .ok .clc ∧ decode c 0o750004 = .ok .las ∧ decode c 0o750010 = .ok .glk

/-- The named operate combinations, each with the meaning its row of R207 gives it, and nothing else changed. -/
def Clause.OperateMeanings : Prop :=
  ∀ s : State,
    let skip (b : Prop) [Decidable b] : State := { s with pc := if b then incPC s.cfg s.pc else s.pc }
    let ac0 := s.ac.getMsbD 0
    exec .nop s = .next s
    ∧ exec .cma s = .next { s with ac := ~~~s.ac }
    ∧ exec .cml s = .next { s with l := !s.l }
    ∧ exec .oas s = .next { s with ac := s.ac ||| s.sr }
    ∧ exec .ral s = .next { s with ac := (s.ac <<< 1) ||| (BitVec.ofBool s.l).setWidth 18, l := ac0 }
    ∧ exec .rar s = .next { s with ac := BitVec.ofBool s.l ++ s.ac.extractLsb' 1 17, l := s.ac.getLsbD 0 }
    ∧ (s.cfg.variant = .VD →
        exec .iac s = .next { s with ac := s.ac + 1, l := if s.ac = 0o777777 then !s.l else s.l })
    ∧ (s.usmd = false → exec .hlt s = .next { s with runState := .stopped .halt })
    ∧ exec .sma s = .next (skip (ac0 = true))
    ∧ exec .sza s = .next (skip (s.ac = 0))
    ∧ exec .smaSza s = .next (skip (ac0 = true ∨ s.ac = 0))
    ∧ exec .snl s = .next (skip (s.l = true))
    ∧ exec .skp s = .next (skip True)
    ∧ exec .spa s = .next (skip (ac0 = false))
    ∧ exec .sna s = .next (skip (s.ac ≠ 0))
    ∧ exec .spaSna s = .next (skip (ac0 = false ∧ s.ac ≠ 0))
    ∧ exec .szl s = .next (skip (s.l = false))
    ∧ exec .rtl s = .next
      { s with ac := s.ac.extractLsb' 0 16 ++ BitVec.ofBool s.l ++ BitVec.ofBool ac0, l := s.ac.getMsbD 1 }
    ∧ exec .rtr s = .next
      { s with ac := BitVec.ofBool (s.ac.getLsbD 0) ++ BitVec.ofBool s.l ++ s.ac.extractLsb' 2 16, l := s.ac.getLsbD 1 }
    ∧ (s.cfg.variant = .VD → exec .bsw s = .next { s with ac := (s.ac <<< 9) ||| (s.ac >>> 9) })
    ∧ exec .cll s = .next { s with l := false }
    ∧ exec .stl s = .next { s with l := true }
    ∧ exec .rcl s = .next { s with ac := s.ac <<< 1, l := ac0 }
    ∧ exec .rcr s = .next { s with ac := s.ac >>> 1, l := s.ac.getLsbD 0 }
    ∧ exec .cla s = .next { s with ac := 0 }
    ∧ exec .clc s = .next { s with ac := 0o777777 }
    ∧ exec .las s = .next { s with ac := s.sr }
    ∧ exec .glk s = .next { s with ac := (BitVec.ofBool s.l).setWidth 18, l := false }

/-- The table of named operate combinations: each word and its meaning (R207). -/
def Obligations.OperateTable : Prop := Clause.OperateWords ∧ Clause.OperateMeanings

/-- HLT in user mode (R205, R363): the whole operate word is suppressed and a privilege trap requested. This is of a word that
decodes; one with a reserved rotate code does not, by the model's choice (log entry 28). -/
def Clause.HaltTrapsInUserMode : Prop :=
  ∀ (o : OperateOps) (s : State), s.usmd = true →
    (o.hlt = true → exec (.opr o) s = .next { s with prvn := true, trapPending := true })
    ∧ exec .hlt s = .next { s with prvn := true, trapPending := true }

/-- Every IOT-class instruction in user mode (R230, R363): it is not executed, and requests a privilege trap. -/
def Clause.TransfersTrapInUserMode : Prop :=
  ∀ (w : IotWord) (f : IotForm) (ign : BitVec 2) (s : State), s.usmd = true →
    ∀ i ∈ [Instr.iot w, .iof f, .ion f, .iors f, .caf f, .dbk f, .dbr f, .mpsk f, .mpcne f, .mpcv ign, .mpld f, .mplr f,
        .mplmr f, .mprmr ign, .mpsne f, .mpeu f, .semSba f, .eem f, .lem f, .eba f, .dba f, .emirRes f, .spi f, .isa f,
        .rpl f],
      exec i s = .next { s with prvn := true, trapPending := true }

/-- The privileged instructions in user mode: HLT and every IOT (R205, R230, R363). -/
def Obligations.PrivilegedInstructionsTrap : Prop := Clause.HaltTrapsInUserMode ∧ Clause.TransfersTrapInUserMode

/-- LAW (R209): AC becomes the instruction word itself, whose top five bits are ones; nothing else changes, in either mode. -/
def Obligations.LoadImmediate : Prop :=
  ∀ (n : BitVec 13) (s : State),
    decode s.cfg (0o760000 ||| n.setWidth 18) = .ok (.law n)
    ∧ exec (.law n) s = .next { s with ac := 0o760000 ||| n.setWidth 18 }
    ∧ (0o760000 ||| n.setWidth 18 : Word).toInt = (n.toNat : Int) - 0o20000

/-- The index operates on VD (R210 to R221): each word, with any immediate field, decodes to its instruction, which changes its
one register and, for AXS, skips when XR reaches LR as signed numbers. -/
def Obligations.IndexOperates : Prop :=
  ∀ (imm : BitVec 9) (s : State), s.cfg.hasIndex = true →
    let word (base : Word) : Word := base ||| imm.setWidth 18
    let nw : Word := imm.signExtend 18
    (decode s.cfg (word 0o721000) = .ok (.pax imm) ∧ exec (.pax imm) s = .next { s with xr := s.ac })
    ∧ (decode s.cfg (word 0o722000) = .ok (.pal imm) ∧ exec (.pal imm) s = .next { s with lr := s.ac })
    ∧ (decode s.cfg (word 0o723000) = .ok (.aac imm) ∧ exec (.aac imm) s = .next { s with ac := s.ac + nw })
    ∧ (decode s.cfg (word 0o724000) = .ok (.pxa imm) ∧ exec (.pxa imm) s = .next { s with ac := s.xr })
    ∧ (decode s.cfg (word 0o725000) = .ok (.axs imm) ∧ exec (.axs imm) s = .next
        { s with
          xr := s.xr + nw
          pc := if s.lr.toInt ≤ (s.xr + nw).toInt then incPC s.cfg s.pc else s.pc })
    ∧ (decode s.cfg (word 0o726000) = .ok (.pxl imm) ∧ exec (.pxl imm) s = .next { s with lr := s.xr })
    ∧ (decode s.cfg (word 0o730000) = .ok (.pla imm) ∧ exec (.pla imm) s = .next { s with ac := s.lr })
    ∧ (decode s.cfg (word 0o731000) = .ok (.plx imm) ∧ exec (.plx imm) s = .next { s with xr := s.lr })
    ∧ (decode s.cfg (word 0o734000) = .ok (.clac imm) ∧ exec (.clac imm) s = .next { s with ac := 0 })
    ∧ (decode s.cfg (word 0o735000) = .ok (.clx imm) ∧ exec (.clx imm) s = .next { s with xr := 0 })
    ∧ (decode s.cfg (word 0o736000) = .ok (.cllr imm) ∧ exec (.cllr imm) s = .next { s with lr := 0 })
    ∧ (decode s.cfg (word 0o737000) = .ok (.axr imm) ∧ exec (.axr imm) s = .next { s with xr := s.xr + nw })

/-! ## I/O transfer -/

/-- IOF and ION (R240, R241): the PI enable, after the clear bit, with the deferral set, so that the next cycle takes no
interrupt. -/
def Clause.InterruptEnable : Prop :=
  ∀ (f : IotForm) (s : State), s.usmd = false →
    decode s.cfg 0o700002 = .ok (.iof {}) ∧ decode s.cfg 0o700042 = .ok (.ion {})
    ∧ exec (.iof f) s = .next { s with ac := if f.cla then 0 else s.ac, ionDefer := true, ion := false }
    ∧ exec (.ion f) s = .next { s with ac := if f.cla then 0 else s.ac, ionDefer := true, ion := true }

/-- IORS and CAF (R244, R245): AC takes the devices' status and the PI enable in bit 0; CAF clears the PI enable, the API's
state, the sticky flags and every request line, and not `trapPending`. Where the status word comes from, a list in the state
or else a free draw, is the model's form of the agent's free answer (log entry 6, DESIGN CHOICE). -/
def Clause.StatusAndClearFlags : Prop :=
  ∀ (f : IotForm) (s : State), s.usmd = false →
    let a : Word := if f.cla then 0 else s.ac
    let poll : Word := s.statusPolls.head?.getD (Config.statusPoll s.draws)
    decode s.cfg 0o700314 = .ok (.iors { cla := true }) ∧ decode s.cfg 0o703302 = .ok (.caf {})
    ∧ exec (.iors f) s = .next
      { s with
        ac := a ||| poll ||| (if s.ion then 0o400000 else 0), ionDefer := true
        statusPolls := s.statusPolls.tail, draws := s.draws + 1 }
    ∧ (s.cfg.hasAPI = true → exec (.caf f) s = .next
      { s with
        ac := a, ionDefer := true, ion := false, apiEnb := false, apiReq := 0, apiAct := 0
        intReq := ⟨0, 0, 0, 0, 0⟩, nexm := false, prvn := false })
    ∧ (s.cfg.hasAPI = false → exec (.caf f) s = .next
      { s with ac := a, ionDefer := true, ion := false, intReq := ⟨0, 0, 0, 0, 0⟩, nexm := false, prvn := false })

/-- IOF, ION, IORS and CAF (R240, R241, R244, R245); the form of the status word IORS polls is the model's (log entry 6). -/
def Obligations.InterruptControlTransfers : Prop := Clause.InterruptEnable ∧ Clause.StatusAndClearFlags

/-- The memory-management words where their scheme is installed (R249 to R257). -/
def Clause.MemoryManagementTransfers : Prop :=
  ∀ (f : IotForm) (ign : BitVec 2) (s : State), s.usmd = false →
    let t := { s with ac := if f.cla then 0 else s.ac, ionDefer := true }
    (s.cfg.protScheme ≠ .none →
      exec (.mpsk f) s = .next { t with pc := if s.prvn then incPC s.cfg s.pc else s.pc }
      ∧ exec (.mpcne f) s = .next { t with nexm := false }
      ∧ exec (.mpcv ign) s = .next { s with ionDefer := true, prvn := false }
      ∧ exec (.mpld f) s = .next { t with br := t.ac }
      ∧ exec (.mpsne f) s = .next { t with pc := if s.nexm then incPC s.cfg s.pc else s.pc }
      ∧ exec (.mpeu f) s = .next { t with usmdBuf := true, modeDefer := 2 })
    ∧ (s.cfg.protScheme = .reloc ∨ s.cfg.protScheme = .xvm → exec (.mplr f) s = .next { t with rr := t.ac })
    ∧ (s.cfg.protScheme = .xvm →
      exec (.mplmr f) s = .next { t with mmr := t.ac }
      ∧ exec (.mprmr ign) s = .next { s with ionDefer := true, ac := s.mmr })

/-- The addressing-mode words on the variants that have them (R258 to R261). -/
def Clause.AddressModeTransfers : Prop :=
  ∀ (f : IotForm) (s : State), s.usmd = false →
    let t := { s with ac := if f.cla then 0 else s.ac, ionDefer := true }
    (s.cfg.variant ≠ .VA →
      exec (.semSba f) s = .next { t with pc := if s.memm then incPC s.cfg s.pc else s.pc }
      ∧ exec (.emirRes f) s = .next { t with restPending := true })
    ∧ (s.cfg.variant = .VB ∨ s.cfg.variant = .VC →
      exec (.eem f) s = .next { t with memmBuf := true, modeDefer := 2 }
      ∧ exec (.lem f) s = .next { t with memmBuf := false, modeDefer := 2 })
    ∧ (s.cfg.variant = .VD →
      exec (.eba f) s = .next { t with memmBuf := true, modeDefer := 2 }
      ∧ exec (.dba f) s = .next { t with memmBuf := false, modeDefer := 2 })

/-- The standard addressing-mode words decode to their instructions on every configuration (R258 to R261). -/
def Clause.AddressModeWords : Prop :=
  ∀ c : Cfg,
    decode c 0o707701 = .ok (.semSba {}) ∧ decode c 0o707702 = .ok (.eem {}) ∧ decode c 0o707704 = .ok (.lem {})
    ∧ decode c 0o707724 = .ok (.eba {}) ∧ decode c 0o707722 = .ok (.dba {}) ∧ decode c 0o707742 = .ok (.emirRes {})

/-- The processor's words of devices 0o17 and 0o77, and what each does where its option is installed (R249 to R261). -/
def Obligations.ModeAndProtectionTransfers : Prop :=
  Clause.MemoryManagementWords ∧ Clause.MemoryManagementTransfers ∧ Clause.AddressModeWords ∧ Clause.AddressModeTransfers

/-- The standard API words decode to their instructions on every configuration (R247, R248, R262 to R264). -/
def Clause.ApiWords : Prop :=
  ∀ c : Cfg,
    decode c 0o703304 = .ok (.dbk {}) ∧ decode c 0o703344 = .ok (.dbr {}) ∧ decode c 0o705501 = .ok (.spi {})
    ∧ decode c 0o705504 = .ok (.isa {}) ∧ decode c 0o705512 = .ok (.rpl { cla := true })

/-- The API's words where it is installed (R247, R248, R262, R263, R264): the dismiss of the highest active level, alone and
with the restore; the skip when no level is active; the enable and the software requests from AC; the priority word. -/
def Clause.ApiMeanings : Prop :=
  ∀ (f : IotForm) (s : State), s.usmd = false → s.cfg.hasAPI = true →
    let t := { s with ac := if f.cla then 0 else s.ac, ionDefer := true }
    (∃ act, exec (.dbk f) s = .next { t with apiAct := act }
      ∧ exec (.dbr f) s = .next { t with apiAct := act, restPending := true }
      ∧ (s.apiAct = 0 → act = 0)
      ∧ ∀ k, k < 8 → (∀ j < k, s.apiAct.getMsbD j = false) → s.apiAct.getMsbD k = true →
          act = s.apiAct &&& ~~~(0o200#8 >>> k))
    ∧ exec (.spi f) s = .next { t with pc := if s.apiAct = 0 then incPC s.cfg s.pc else s.pc }
    ∧ (∃ req, exec (.isa f) s = .next
        { t with
          apiEnb := if t.ac.getMsbD 0 then true else if t.ac.getMsbD 1 then false else s.apiEnb
          apiReq := req }
      ∧ ∀ k, k < 8 → req.getMsbD k =
          if 4 ≤ k ∧ t.ac.getMsbD (6 + k) = true then true
          else if 4 ≤ k ∧ t.ac.getMsbD (10 + k) = true then false
          else s.apiReq.getMsbD k)
    ∧ exec (.rpl f) s = .next
      { t with ac := t.ac ||| (BitVec.ofBool s.apiEnb ++ 0#1 ++ s.pendingMask ++ s.apiAct) }

/-- The API's words and what each does (R247, R248, R262 to R264). -/
def Obligations.ApiTransfers : Prop := Clause.ApiWords ∧ Clause.ApiMeanings

/-- A word no rule claims (R230, R231, R366): the device's answer ORed into AC after the clear bit, then its skip and its stop
code, and the request lines it changes; with no device at the slot, unimplemented, with no effect at all but the stop. The
answer is the agent's, or free (log entry 6). -/
def Clause.DeviceTransfers : Prop :=
  ∀ (w : IotWord) (s : State), s.usmd = false →
    let a : Word := if w.cla then 0 else s.ac
    let r := s.ioAnswers.head?.getD (Config.ioAnswer s.draws w.code a w.dev)
    (s.devices.getLsbD w.dev.toNat = true →
      exec (.iot w) s = .next
        { s with
          ac := a ||| BitVec.ofNat 18 r.word
          ionDefer := true
          pc := if r.word.testBit 18 then incPC s.cfg s.pc else s.pc
          intReq := r.moves.foldl RequestLines.apply s.intReq
          runState := if r.word / 2 ^ 19 = 0 then s.runState else .stopped (.ioStop (r.word / 2 ^ 19))
          ioAnswers := s.ioAnswers.tail
          draws := s.draws + 1 })
    ∧ (s.devices.getLsbD w.dev.toNat = false →
      exec (.iot w) s = .next (match s.cfg.unimplPolicy with
        | .stop => { s with runState := .stopped .unimplemented }
        | .nop => s))

/-- A word of the processor's devices whose option or variant is absent goes to the device callback, as any other word does
(R230, R242, R247 to R264). -/
def Clause.AbsentOptionsGoToTheDevice : Prop :=
  ∀ (f : IotForm) (ign : BitVec 2) (s : State),
    let word (dev : BitVec 6) (sdev : BitVec 2) (pulse : BitVec 3) : Instr := .iot ⟨f.ign, dev, sdev, f.cla, pulse⟩
    (s.cfg.hasAPI = false →
      exec (.dbk f) s = exec (word 0o33 0 4) s ∧ exec (.dbr f) s = exec (word 0o33 2 4) s
      ∧ exec (.spi f) s = exec (word 0o55 0 1) s ∧ exec (.isa f) s = exec (word 0o55 0 4) s
      ∧ exec (.rpl f) s = exec (word 0o55 0 2) s)
    ∧ (s.cfg.protScheme = .none →
      exec (.mpsk f) s = exec (word 0o17 0 1) s ∧ exec (.mpcne f) s = exec (word 0o17 2 4) s
      ∧ exec (.mpcv ign) s = exec (.iot ⟨ign, 0o17, 0, false, 2⟩) s ∧ exec (.mpld f) s = exec (word 0o17 0 4) s
      ∧ exec (.mpsne f) s = exec (word 0o17 2 1) s ∧ exec (.mpeu f) s = exec (word 0o17 2 2) s)
    ∧ (s.cfg.protScheme ≠ .reloc → s.cfg.protScheme ≠ .xvm → exec (.mplr f) s = exec (word 0o17 1 4) s)
    ∧ (s.cfg.protScheme ≠ .xvm →
      exec (.mplmr f) s = exec (word 0o17 1 2) s ∧ exec (.mprmr ign) s = exec (.iot ⟨ign, 0o17, 0, true, 2⟩) s)
    ∧ (s.cfg.variant = .VA → exec (.semSba f) s = exec (word 0o77 0 1) s ∧ exec (.emirRes f) s = exec (word 0o77 2 2) s)
    ∧ (s.cfg.variant ≠ .VB → s.cfg.variant ≠ .VC →
      exec (.eem f) s = exec (word 0o77 0 2) s ∧ exec (.lem f) s = exec (word 0o77 0 4) s)
    ∧ (s.cfg.variant ≠ .VD →
      exec (.eba f) s = exec (word 0o77 1 4) s ∧ exec (.dba f) s = exec (word 0o77 1 2) s)

/-- The words the processor does not claim, and those whose option is absent (R230, R231, R366). -/
def Obligations.DeviceCallbacks : Prop := Clause.DeviceTransfers ∧ Clause.AbsentOptionsGoToTheDevice

/-! ## EAE -/

/-- Any setup, shift or normalize word, and any multiply or divide whose operand can be read (R280, R281, R282, R284): the
pre-steps in their order, then the command on what they leave. What the commands compute is `Clause.EaeCommandLoops`. -/
def Clause.EaeSequence : Prop :=
  ∀ (p : EaePre) (n : BitVec 6) (s : State),
    let neg := p.sign && s.ac.getMsbD 0
    let mq1 := if p.clq then 0 else s.mq
    let t := { s with
      l := if p.sgnl then s.ac.getMsbD 0 else s.l
      eaeAcSign := neg
      mq := if p.acmq then mq1 ||| s.ac else mq1
      ac := if p.cla then 0 else if p.acmq then s.ac else if neg then ~~~s.ac else s.ac }
    let cmq := if n.getMsbD 3 then ~~~t.mq else t.mq
    let omq := if n.getMsbD 4 then t.ac ||| cmq else t.ac
    exec (.eae p .setup n) s = .next { t with mq := cmq, ac := if n.getMsbD 5 then omq ||| s.sc.setWidth 18 else omq }
    ∧ exec (.eae p .normalize n) s = .next (t.eaeNormalize n)
    ∧ exec (.eae p .lrs n) s = .next (t.eaeShift shiftRightStep n)
    ∧ exec (.eae p .lls n) s = .next (t.eaeShift shiftLeftStep n)
    ∧ exec (.eae p .als n) s = .next (t.eaeShift shiftAcStep n)
    ∧ (∀ pa : Addr, s.translate s.pc .read = .ok pa →
      exec (.eae p .multiply n) s = .next
        ({ t with pc := incPC s.cfg s.pc }.eaeMultiply p.sign n (s.wordAt pa.toNat))
      ∧ exec (.eae p .divide n) s = .next
        ({ t with pc := incPC s.cfg s.pc }.eaeDivide p.sign n (s.wordAt pa.toNat)))
    ∧ (s.translate s.pc .read = .violation → ∀ cmd ∈ [EaeCmd.multiply, .divide],
      exec (.eae p cmd n) s = .next { t with pc := incPC s.cfg s.pc, prvn := true, trapPending := true })

/-- What a multiply, a divide, a normalize and a shift compute at every count `n` from 0 to 63 (R281, R284, R285, R287, R289,
R290, I33), from the state `t` that the pre-steps leave and, for multiply and divide, the operand word `mb`: the loops of
the rules on numbers, "repeat n times", and for the shifts and the normalize the place in the pair that the shifts bring to
the top. An operand in non-existent memory that does not trap is `FaultReadValue`; one that does ends the word. -/
def Clause.EaeCommandLoops : Prop :=
  ∀ (p : EaePre) (n : BitVec 6) (s : State),
    let neg := p.sign && s.ac.getMsbD 0
    let mq1 := if p.clq then 0 else s.mq
    let t := { s with
      l := if p.sgnl then s.ac.getMsbD 0 else s.l
      eaeAcSign := neg
      mq := if p.acmq then mq1 ||| s.ac else mq1
      ac := if p.cla then 0 else if p.acmq then s.ac else if neg then ~~~s.ac else s.ac }
    let flip (b : Bool) (w : Word) : Word := if b then ~~~w else w
    let mq := flip neg t.mq
    let multiplied (u : State) (mb : Word) : State :=
      let mneg := p.sign && mb.getMsbD 0
      let md := (flip mneg mb).toNat
      let r := Nat.repeat (fun q : Nat × Nat =>
          let sum := q.1 + (if q.2 % 2 = 1 then md else 0)
          (sum / 2, sum % 2 * 2 ^ 17 + q.2 / 2)) n.toNat (t.ac.toNat, mq.toNat)
      let psign := neg != mneg
      { u with ac := flip psign (BitVec.ofNat 18 r.1), mq := flip psign (BitVec.ofNat 18 r.2), l := psign, sc := 0 }
    let divided (u : State) (mb : Word) : State :=
      let dneg := p.sign && mb.getMsbD 0
      let dv := (flip dneg mb).toNat
      let r := Nat.repeat (fun q : Nat × Nat =>
          let rem := 2 * q.1 + q.2 / 2 ^ 17
          let quo := 2 * q.2 % 2 ^ 18
          if dv ≤ rem then (rem - dv, quo + 1) else (rem, quo)) (n.toNat - 1) (t.ac.toNat, mq.toNat)
      if dv ≤ t.ac.toNat then { u with mq := mq, l := true }
      else if t.ac = 0 ∧ mq = 0 then { u with mq := 0, l := false, sc := 0 }
      else
        { u with
          ac := flip neg (BitVec.ofNat 18 r.1), mq := flip (neg != dneg) (BitVec.ofNat 18 r.2), l := false, sc := 0 }
    let u := { t with pc := incPC s.cfg s.pc }
    let traps := s.usmd = true ∨ s.cfg.execNxmTraps = true
    let v := s.cfg.faultReadValue
    let ones : BitVec 63 := if t.l then BitVec.allOnes 63 else 0
    let right : BitVec 36 := (ones ++ t.ac ++ t.mq).extractLsb' n.toNat 36
    let left (k : Nat) : BitVec 36 := (t.ac ++ t.mq ++ ones).extractLsb' (63 - k) 36
    (∀ pa : Addr, s.translate s.pc .read = .ok pa →
      exec (.eae p .multiply n) s = .next (multiplied u (s.wordAt pa.toNat))
      ∧ exec (.eae p .divide n) s = .next (divided u (s.wordAt pa.toNat)))
    ∧ (s.translate s.pc .read = .nonExistent → ¬traps →
      exec (.eae p .multiply n) s = .next (multiplied { u with nexm := true } v)
      ∧ exec (.eae p .divide n) s = .next (divided { u with nexm := true } v))
    ∧ (s.translate s.pc .read = .nonExistent → traps → ∀ cmd ∈ [EaeCmd.multiply, .divide],
      exec (.eae p cmd n) s = .next { u with nexm := true, trapPending := true })
    ∧ (∃ k ≤ n.toNat,
      exec (.eae p .normalize n) s = .next
        { t with
          ac := (left k).extractLsb' 18 18, mq := (left k).extractLsb' 0 18, sc := BitVec.ofNat 6 (n.toNat - k) }
      ∧ (∀ j < k, (left j).getMsbD 0 = (left j).getMsbD 1)
      ∧ (k < n.toNat → (left k).getMsbD 0 ≠ (left k).getMsbD 1))
    ∧ exec (.eae p .lrs n) s = .next { t with ac := right.extractLsb' 18 18, mq := right.extractLsb' 0 18, sc := 0 }
    ∧ exec (.eae p .lls n) s = .next
      { t with ac := (left n.toNat).extractLsb' 18 18, mq := (left n.toNat).extractLsb' 0 18, sc := 0 }
    ∧ exec (.eae p .als n) s = .next { t with ac := (t.ac ++ ones).extractLsb' (63 - n.toNat) 18, sc := 0 }

/-- Each named EAE word is the word of the class with the same fields (R140, R280, R291): it is encoded as that word and does what
that word does, a Fault of its operand word included. -/
def Clause.NamedEaeWords : Prop :=
  ∀ (n : BitVec 6) (s : State),
    ∀ row ∈ [
        (0o640001#18, Instr.osc, ({} : EaePre), EaeCmd.setup, 0o01#6),
        (0o640002#18, .omq, {}, .setup, 0o02#6),
        (0o640004#18, .cmq, {}, .setup, 0o04#6),
        (0o641001#18, .lacs, { cla := true }, .setup, 0o01#6),
        (0o641002#18, .lacq, { cla := true }, .setup, 0o02#6),
        (0o644000#18, .abs, { sign := true }, .setup, 0#6),
        (0o650000#18, .clq, { clq := true }, .setup, 0#6),
        (0o652000#18, .lmq, { clq := true, acmq := true }, .setup, 0#6),
        (0o664000#18, .gsm, { sgnl := true, sign := true }, .setup, 0#6),
        (0o653122#18, .mul, { clq := true, acmq := true, cla := true }, .multiply, 0o22#6),
        (0o657122#18, .muls, { clq := true, sign := true, acmq := true, cla := true }, .multiply, 0o22#6),
        (0o640323#18, .div, {}, .divide, 0o23#6),
        (0o644323#18, .divs, { sign := true }, .divide, 0o23#6),
        (0o653323#18, .idiv, { clq := true, acmq := true, cla := true }, .divide, 0o23#6),
        (0o657323#18, .idivs, { clq := true, sign := true, acmq := true, cla := true }, .divide, 0o23#6),
        (0o650323#18, .frdiv, { clq := true }, .divide, 0o23#6),
        (0o654323#18, .frdivs, { clq := true, sign := true }, .divide, 0o23#6),
        (0o640444#18, .norm, {}, .normalize, 0o44#6),
        (0o660444#18, .norms, { sgnl := true }, .normalize, 0o44#6),
        (0o640500#18 ||| n.setWidth 18, .lrs n, {}, .lrs, n),
        (0o660500#18 ||| n.setWidth 18, .lrss n, { sgnl := true }, .lrs, n),
        (0o640600#18 ||| n.setWidth 18, .lls n, {}, .lls, n),
        (0o660600#18 ||| n.setWidth 18, .llss n, { sgnl := true }, .lls, n),
        (0o640700#18 ||| n.setWidth 18, .als n, {}, .als, n),
        (0o660700#18 ||| n.setWidth 18, .alss n, { sgnl := true }, .als, n)],
      encode row.2.1 = row.1 ∧ encode (.eae row.2.2.1 row.2.2.2.1 row.2.2.2.2) = row.1
      ∧ exec row.2.1 s = exec (.eae row.2.2.1 row.2.2.2.1 row.2.2.2.2) s

/-- Every EAE word, named or not: the pre-steps, the operand with its Faults, and the command's loop at every count (R280 to
R291). -/
def Obligations.ExtendedArithmeticSequence : Prop := Clause.EaeSequence ∧ Clause.EaeCommandLoops ∧ Clause.NamedEaeWords

/-- The named setup words, each with the meaning its row of R291 gives it (R281, R282, R291). -/
def Obligations.SetupTable : Prop :=
  ∀ s : State,
    let neg := s.ac.getMsbD 0
    let t := { s with eaeAcSign := false }
    exec .osc s = .next { t with ac := s.ac ||| s.sc.setWidth 18 }
    ∧ exec .omq s = .next { t with ac := s.ac ||| s.mq }
    ∧ exec .cmq s = .next { t with mq := ~~~s.mq }
    ∧ exec .lacs s = .next { t with ac := s.sc.setWidth 18 }
    ∧ exec .lacq s = .next { t with ac := s.mq }
    ∧ exec .abs s = .next { s with eaeAcSign := neg, ac := if neg then ~~~s.ac else s.ac }
    ∧ exec .clq s = .next { t with mq := 0 }
    ∧ exec .lmq s = .next { t with mq := s.ac }
    ∧ exec .gsm s = .next { s with eaeAcSign := neg, l := neg, ac := if neg then ~~~s.ac else s.ac }

/-- The shifts (R290): the pair AC:MQ, or AC alone, shifted by the count with the link, or with the sign in the signed forms, as
fill; the link ends as the fill, SC at 0. -/
def Obligations.ShiftsFillFromTheLink : Prop :=
  ∀ (n : BitVec 6) (s : State) (signed : Bool),
    let fill := if signed then s.ac.getMsbD 0 else s.l
    let ones : BitVec 63 := if fill then BitVec.allOnes 63 else 0
    let right : BitVec 36 := (ones ++ s.ac ++ s.mq).extractLsb' n.toNat 36
    let left : BitVec 36 := (s.ac ++ s.mq ++ ones).extractLsb' (63 - n.toNat) 36
    let t := { s with l := fill, eaeAcSign := false, sc := 0 }
    exec (if signed then .lrss n else .lrs n) s = .next { t with ac := right.extractLsb' 18 18, mq := right.extractLsb' 0 18 }
    ∧ exec (if signed then .llss n else .lls n) s = .next { t with ac := left.extractLsb' 18 18, mq := left.extractLsb' 0 18 }
    ∧ exec (if signed then .alss n else .als n) s = .next { t with ac := (s.ac ++ ones).extractLsb' (63 - n.toNat) 18 }

/-- MUL and MULS on a readable operand word (R284, R285): AC:MQ is the product of the magnitudes, the pair ones-complemented
when the signs differ; L is 0 or the product's sign, SC ends at 0, the PC moves past the operand. An operand word that Faults is
`Obligations.ExtendedArithmeticSequence`'s, here and for the divides. -/
def Obligations.MultiplyIsTheProduct : Prop :=
  ∀ (s : State) (pa : Addr), s.translate s.pc .read = .ok pa →
    let mb := s.wordAt pa.toNat
    let mag (w : Word) : Word := if w.getMsbD 0 then ~~~w else w
    let psign := s.ac.getMsbD 0 != mb.getMsbD 0
    let p : BitVec 36 := BitVec.ofNat 36 (s.ac.toNat * mb.toNat)
    let q : BitVec 36 := BitVec.ofNat 36 ((mag s.ac).toNat * (mag mb).toNat)
    let sq := if psign then ~~~q else q
    let t := { s with pc := incPC s.cfg s.pc, sc := 0 }
    exec .mul s = .next
      { t with ac := p.extractLsb' 18 18, mq := p.extractLsb' 0 18, l := false, eaeAcSign := false }
    ∧ exec .muls s = .next
      { t with ac := sq.extractLsb' 18 18, mq := sq.extractLsb' 0 18, l := psign, eaeAcSign := s.ac.getMsbD 0 }

/-- DIV, IDIV and FRDIV on a readable operand word (R284, R287, R288): with the dividend's high word below the divisor, MQ is
the quotient, AC the remainder, L and SC 0; otherwise L is 1, the dividend stays and SC is unchanged. -/
def Clause.DivideIsQuotientAndRemainder : Prop :=
  ∀ (s : State) (pa : Addr), s.translate s.pc .read = .ok pa →
    let mb := s.wordAt pa.toNat
    let t := { s with pc := incPC s.cfg s.pc, eaeAcSign := false }
    ∀ p ∈ [(Instr.div, s.ac, s.mq), (Instr.idiv, 0, s.ac), (Instr.frdiv, s.ac, 0)],
      let d := p.2.1.toNat * 2 ^ 18 + p.2.2.toNat
      exec p.1 s = .next
        (if mb.toNat ≤ p.2.1.toNat then { t with ac := p.2.1, mq := p.2.2, l := true }
         else
          { t with ac := BitVec.ofNat 18 (d % mb.toNat), mq := BitVec.ofNat 18 (d / mb.toNat), l := false, sc := 0 })

/-- DIVS, IDIVS and FRDIVS on a readable operand word (R281, R284, R287, R288): the division of the magnitudes, the quotient
complemented when the signs differ and the remainder when the dividend is negative; an overflow leaves the dividend's
magnitude with L = 1, a zero dividend leaves +0. -/
def Clause.SignedDivide : Prop :=
  ∀ (s : State) (pa : Addr), s.translate s.pc .read = .ok pa →
    let mb := s.wordAt pa.toNat
    let neg := s.ac.getMsbD 0
    let flip (b : Bool) (w : Word) : Word := if b then ~~~w else w
    let dv := (flip (mb.getMsbD 0) mb).toNat
    let t := { s with pc := incPC s.cfg s.pc, eaeAcSign := neg }
    ∀ p ∈ [(Instr.divs, flip neg s.ac, flip neg s.mq), (Instr.idivs, 0, flip neg s.ac), (Instr.frdivs, flip neg s.ac, flip neg 0)],
      let d := p.2.1.toNat * 2 ^ 18 + p.2.2.toNat
      exec p.1 s = .next
        (if dv ≤ p.2.1.toNat then { t with ac := p.2.1, mq := p.2.2, l := true }
         else if d = 0 then { t with ac := 0, mq := 0, l := false, sc := 0 }
         else
          { t with
            ac := flip neg (BitVec.ofNat 18 (d % dv))
            mq := flip (neg != mb.getMsbD 0) (BitVec.ofNat 18 (d / dv))
            l := false, sc := 0 })

/-- The six named divides (R287, R288). -/
def Obligations.Division : Prop := Clause.DivideIsQuotientAndRemainder ∧ Clause.SignedDivide

/-- NORM and NORMS (R289): the pair shifted left, filled from the link (the sign in NORMS), until the top two bits differ or 36
steps are made; SC is the steps left. -/
def Obligations.NormalizeShiftsUntilSignsDiffer : Prop :=
  ∀ (s : State) (signed : Bool),
    let fill := if signed then s.ac.getMsbD 0 else s.l
    let ones : BitVec 36 := if fill then BitVec.allOnes 36 else 0
    let shifted (k : Nat) : BitVec 36 := (s.ac ++ s.mq ++ ones).extractLsb' (36 - k) 36
    ∃ k ≤ 36,
      exec (if signed then .norms else .norm) s = .next
        { s with
          l := fill, eaeAcSign := false
          ac := (shifted k).extractLsb' 18 18, mq := (shifted k).extractLsb' 0 18, sc := BitVec.ofNat 6 (36 - k) }
      ∧ (∀ j < k, (shifted j).getMsbD 0 = (shifted j).getMsbD 1)
      ∧ (k < 36 → (shifted k).getMsbD 0 ≠ (shifted k).getMsbD 1)

/-- What an EAE instruction changes, faulted or not (R280, R284): AC, L, MQ, SC, the latch, the PC over an operand word, and the
fault flags; never memory, a mode or the deferral. -/
def Obligations.ExtendedArithmeticFrame : Prop :=
  ∀ (i : Instr) (s t : State), encode i &&& 0o740000 = 0o640000 → exec i s = .next t →
    ∃ a l q c g p n v x, t = { s with
      ac := a, l := l, mq := q, sc := c, eaeAcSign := g, pc := p, nexm := n, prvn := v, trapPending := x }

/-! ## FP15 -/

/-- The address word of an FP15 instruction (R311): the word at the PC, which moves past it; bit 0 asks for one level of
indirection. -/
def Clause.FloatingAddress : Prop :=
  ∀ (s : State) (pa : Addr), s.translate s.pc .read = .ok pa →
    let aw := s.wordAt pa.toNat
    let ea : Addr := aw.setWidth 17 &&& amask s.cfg
    let t := { s with pc := incPC s.cfg s.pc }
    (aw.getMsbD 0 = false → s.fpAddress = .done ea t)
    ∧ ∀ pb : Addr, aw.getMsbD 0 = true → s.translate ea .read = .ok pb →
      s.fpAddress = .done ((s.wordAt pb.toNat).setWidth 17 &&& amask s.cfg) t

/-- The operand formats (R101, R312): the words at the address and after it, the most significant first, and the operand they
unpack to. The double integer -2^35 does not fit and is an overflow. -/
def Clause.FloatingOperandFormats : Prop :=
  ∀ (s : State) (ea p0 p1 p2 : Addr), s.translate ea .read = .ok p0 →
    let w0 := s.wordAt p0.toNat
    let w1 := s.wordAt p1.toNat
    let w2 := s.wordAt p2.toNat
    let second := s.translate ((ea + 1) &&& amask s.cfg) .read = .ok p1
    let third := s.translate ((((ea + 1) &&& amask s.cfg) + 1) &&& amask s.cfg) .read = .ok p2
    let v := (w0 ++ w1).toInt
    s.fpLoad .singleInt ea = .done (.ok ⟨decide (w0.toInt < 0), 35, w0.toInt.natAbs⟩) s
    ∧ (second → s.fpLoad .doubleInt ea = .done
        (if v = -2 ^ 35 then .error .ovf else .ok ⟨decide (v < 0), 35, v.natAbs⟩) s)
    ∧ (second → s.fpLoad .singleFloat ea = .done (.ok
        ⟨w1.getMsbD 0, ((w0.extractLsb' 0 9).toInt), (w1.toNat % 2 ^ 17) * 2 ^ 18 + w0.toNat / 2 ^ 9 * 2 ^ 9⟩) s)
    ∧ (second → third → s.fpLoad .doubleFloat ea = .done (.ok
        ⟨w1.getMsbD 0, w0.toInt, (w1.toNat % 2 ^ 17) * 2 ^ 18 + w2.toNat⟩) s)

/-- Operand B (R313): FMB under NOLOAD; else the memory operand, which FMB takes. An overflow of the unpacking leaves FMB as it
is (log entry 18). -/
def Clause.FloatingOperandB : Prop :=
  ∀ (m : FpMods) (s t : State) (ea : Addr),
    (m.noload = true → s.fpOperand m ea = .done (.ok s.fmb.unpack) s)
    ∧ ∀ b, m.noload = false → s.fpLoad (fpFormat m) ea = .done b t →
      match b with
      | .ok u => s.fpOperand m ea = .done (.ok u) { t with fmb := u.pack } ∧ u.pack.unpack = u
      | .error k => s.fpOperand m ea = .done (.error k) t

/-- The FP15's address word, memory formats and operand B (R311 to R313). -/
def Obligations.FloatingOperands : Prop := Clause.FloatingAddress ∧ Clause.FloatingOperandFormats ∧ Clause.FloatingOperandB

/-- SUB, RSUB, MUL, DIV, RDIV, LD and ADD once operand B is there (R311, R313, R316, R318, R345): a result goes to FMA through
the sign modifier with its guard, and to FMQ where the operation writes it; an exception leaves FMA, FMQ and the guard as
they were and is delivered. -/
def Clause.ArithmeticResults : Prop :=
  ∀ (m : FpMods) (s t u : State) (ea : Addr) (b : Unpacked), s.fpAddress = .done ea t →
    t.fpOperand m ea = .done (.ok b) u →
    ∀ p ∈ [(Instr.fpSub m, fpSubOp m), (Instr.fpRsub m, fpRsubOp m), (Instr.fpMul m, fpMulOp m), (Instr.fpDiv m, fpDivOp m),
        (Instr.fpRdiv m, fpRdivOp m), (Instr.ld m, fpLoadOp m), (Instr.fpAdd m, fpAddOp m)],
      (∀ x, p.2 s.fma.unpack b = .ok x →
        exec p.1 s = .next
          { u with fma := (applySgn m.sgn x.value).pack, fguard := x.grd, fmq := x.fmq.getD s.fmq })
      ∧ ∀ k, p.2 s.fma.unpack b = .error k → exec p.1 s = .next (u.fpException k)

/-- An operand B whose unpacking raises an exception (R312, R313, R318, R345): whatever the operation, the exception is delivered
and nothing is computed. It is the double integer -2^35 alone, and its exception the overflow; FMA, FMQ and the guard keep
their values, and FMB too, which is the model's reading (log entry 18, DEDUCED). -/
def Clause.OperandOverflow : Prop :=
  ∀ (m : FpMods) (s t : State) (ea : Addr), s.fpAddress = .done ea t →
    ∀ i ∈ [Instr.fpSub m, .fpRsub m, .fpMul m, .fpDiv m, .fpRdiv m, .ld m, .fpAdd m],
      (∀ k u, t.fpOperand m ea = .done (.error k) u →
        k = .ovf ∧ u = t ∧ m.noload = false ∧ m.fp = false ∧ m.dp = true ∧ exec i s = .next (t.fpException .ovf))
      ∧ ∀ p0 p1 : Addr, m.noload = false → m.fp = false → m.dp = true → t.translate ea .read = .ok p0 →
        t.translate ((ea + 1) &&& amask s.cfg) .read = .ok p1 →
        t.wordAt p0.toNat = 0o400000 → t.wordAt p1.toNat = 0 →
        exec i s = .next (t.fpException .ovf)

/-- The arithmetic instructions on an operand B that is there, and on one whose unpacking overflows (R311 to R313, R316, R318,
R345). -/
def Obligations.FloatingArithmetic : Prop := Clause.ArithmeticResults ∧ Clause.OperandOverflow

/-- The integer operations (R314, R332): the exact sum, difference, product, or quotient toward zero with the remainder's
magnitude for FMQ; a result of magnitude 2^35 or more overflows, a zero divisor is the divide exception. That LD writes
exponent 35 is the model's reading (log entry 17). -/
def Clause.IntegerOperations : Prop :=
  ∀ (m : FpMods) (x y : Unpacked), m.fp = false →
    let a : Int := if x.s then -(x.m : Int) else x.m
    let b : Int := if y.s then -(y.m : Int) else y.m
    let result (r : Int) (q : Option (BitVec 35)) : Except FpExc FpResult :=
      if 2 ^ 35 ≤ r.natAbs then .error .ovf else .ok ⟨⟨decide (r < 0), 35, r.natAbs⟩, false, q⟩
    fpAddOp m x y = result (a + b) none
    ∧ fpSubOp m x y = result (a - b) none
    ∧ fpRsubOp m x y = result (b - a) none
    ∧ fpMulOp m x y = result (a * b) none
    ∧ fpRdivOp m x y = fpDivOp m y x
    ∧ (b = 0 → fpDivOp m x y = .error .div)
    ∧ (b ≠ 0 → a = 0 → fpDivOp m x y = result 0 none)
    ∧ (b ≠ 0 → a ≠ 0 → ∃ r rem : Int, a = r * b + rem ∧ rem.natAbs < b.natAbs ∧ (rem = 0 ∨ (rem < 0 ↔ a < 0))
        ∧ fpDivOp m x y = result r (some (BitVec.ofNat 35 rem.natAbs)))
    ∧ fpLoadOp m x y = .ok ⟨{ y with e := 35 }, false, none⟩

/-- The float operations at their corners (R320, R324, R325, R326): a sum with operand B zero is operand A normalised, a number less itself is zero, a product with zero is the true zero with FMQ cleared, a zero divisor is the divide exception,
a zero dividend the true zero. -/
def Clause.FloatCorners : Prop :=
  ∀ (m : FpMods) (x y : Unpacked), m.fp = true →
    (y.m = 0 → fpAddOp m x y = (normalize m x.s x.e x.m false).map fun r => ⟨r.1, r.2, none⟩)
    ∧ (x.m ≠ 0 → fpSubOp m x x = .ok ⟨⟨false, 0, 0⟩, false, none⟩)
    ∧ (x.m = 0 ∨ y.m = 0 → fpMulOp m x y = .ok ⟨⟨false, 0, 0⟩, false, some 0⟩)
    ∧ (y.m = 0 → fpDivOp m x y = .error .div)
    ∧ (y.m ≠ 0 → x.m = 0 → fpDivOp m x y = .ok ⟨⟨false, 0, 0⟩, false, none⟩)
    ∧ fpRdivOp m x y = fpDivOp m y x

/-- The float operations on operands that are not zero (R320 to R326), each through `normalize`, which
`Obligations.Normalization` fixes. A sum: the operand of the smaller exponent is shifted right by the difference with one
position kept for the guard, the two are added as signed numbers, and a carry-out is shifted back; with one operand zero it
is the other one. A product: its high 35 bits, the bit below them as guard, its low 35 bits to FMQ. A quotient of 36 fraction
bits, shifted right by the least number of places that brings it below 2F. -/
def Clause.FloatResults : Prop :=
  ∀ (m : FpMods) (x y : Unpacked), m.fp = true → x.m < 2 ^ 35 → y.m < 2 ^ 35 →
    let result (s : Bool) (e : Int) (mant : Nat) (g : Bool) (q : Option (BitVec 35)) : Except FpExc FpResult :=
      (normalize m s e mant g).map fun r => ⟨r.1, r.2, q⟩
    let sum (a b : Unpacked) : Except FpExc FpResult :=
      let big := if b.e ≤ a.e then a else b
      let small := if b.e ≤ a.e then b else a
      let shifted : Nat := if big.e - small.e ≤ 35 then 2 * small.m / 2 ^ (big.e - small.e).toNat else 0
      let signed (neg : Bool) (n : Nat) : Int := if neg then -(n : Int) else n
      let total := signed big.s (2 * big.m) + signed small.s shifted
      let sign := if total = 0 then big.s else decide (total < 0)
      let carried := decide (2 ^ 36 ≤ total.natAbs)
      let r := if carried then total.natAbs / 2 else total.natAbs
      result sign (if carried then big.e + 1 else big.e) (r / 2) (r % 2 == 1) none
    let negated (a : Unpacked) : Unpacked := { a with s := !a.s }
    (x.m ≠ 0 → y.m ≠ 0 →
      fpAddOp m x y = sum x y
      ∧ fpSubOp m x y = sum x (negated y)
      ∧ fpRsubOp m x y = sum y (negated x)
      ∧ fpMulOp m x y =
        result (x.s != y.s) (x.e + y.e) (x.m * y.m / 2 ^ 35) (x.m * y.m / 2 ^ 34 % 2 == 1) (some (BitVec.ofNat 35 (x.m * y.m)))
      ∧ ∀ k : Nat,
        let q := x.m * 2 ^ 36 / y.m
        q / 2 ^ k < 2 ^ 36 → (k ≠ 0 → 2 ^ 36 ≤ q / 2 ^ (k - 1)) →
        fpDivOp m x y = result (x.s != y.s) (x.e - y.e + k) (q / 2 ^ k / 2) (q / 2 ^ k % 2 == 1) none)
    ∧ (x.m = 0 → y.m ≠ 0 →
      fpAddOp m x y = result y.s y.e y.m false none
      ∧ fpSubOp m x y = result (!y.s) y.e y.m false none
      ∧ fpRsubOp m x y = result y.s y.e y.m false none)
    ∧ (x.m = 0 → y.m = 0 →
      fpAddOp m x y = result x.s x.e 0 false none
      ∧ fpSubOp m x y = result x.s x.e 0 false none
      ∧ fpRsubOp m x y = result y.s y.e 0 false none)
    ∧ (x.m ≠ 0 → y.m = 0 →
      fpSubOp m x y = result x.s x.e x.m false none
      ∧ fpRsubOp m x y = result (!x.s) x.e x.m false none)
    ∧ fpLoadOp m x y = result y.s y.e y.m false none

/-- The arithmetic of the FP15: integer mode, float mode, and the corners of float mode (R314, R320 to R327, R332). -/
def Obligations.FloatingOperations : Prop := Clause.IntegerOperations ∧ Clause.FloatCorners ∧ Clause.FloatResults

/-- `normalize` on a 35-bit mantissa that is not zero with a guard bit set (R317, R318): without NONORM a result that is not zero
has its top bit set, a zero one is the true zero, and the exponent is in range. -/
def Clause.NormalizedResults : Prop :=
  ∀ (m : FpMods) (s : Bool) (e : Int) (x : Nat) (g : Bool) (u : Unpacked) (h : Bool), x < 2 ^ 35 → x ≠ 0 ∨ g = false →
    m.nonorm = false → normalize m s e x g = .ok (u, h) →
    (u.m = 0 → x = 0 ∧ u.s = false ∧ u.e = 0)
    ∧ (u.m ≠ 0 → 2 ^ 34 ≤ u.m ∧ u.m < 2 ^ 35 ∧ -2 ^ 17 ≤ u.e ∧ u.e < 2 ^ 17)

/-- Normalising keeps the value (R317): with rounding suppressed and no guard bit, `M * 2^e` is unchanged. -/
def Clause.NormalizeKeepsTheValue : Prop :=
  ∀ (m : FpMods) (s : Bool) (e : Int) (x : Nat) (u : Unpacked) (h : Bool), x < 2 ^ 35 → x ≠ 0 →
    normalize m s e x false = .ok (u, h) →
    h = false ∧ u.s = s ∧ u.e ≤ e ∧ u.m = x * 2 ^ (e - u.e).toNat

/-- `normalize` on every 35-bit mantissa, sign, exponent, guard and modifier (R317, R318). Unless NONORM is set or the mantissa is
0, the mantissa is shifted left by the `k` places that bring its top bit up, the guard bit entering first; the guard that is
left, none after a shift, is the one fguard takes. A mantissa of 0 without a guard is the true zero. Unless NORND is set, a
guard adds 1, and a carry-out halves the mantissa and adds 1 to the exponent. The answer is an overflow or an underflow
exactly when that result is not zero and its exponent is above 2^17 - 1 or below -2^17, and else the result. -/
def Clause.NormalizeResult : Prop :=
  ∀ (m : FpMods) (s : Bool) (e : Int) (x k : Nat) (g : Bool), x < 2 ^ 35 →
    (if m.nonorm = true ∨ x = 0 then k = 0 else 2 ^ 34 ≤ x * 2 ^ k ∧ x * 2 ^ k < 2 ^ 35) →
    let shifted := if k = 0 then x else x * 2 ^ k + g.toNat * 2 ^ (k - 1)
    let guard := g && k == 0
    let isZero := shifted = 0 ∧ guard = false
    let sign := if isZero then false else s
    let exponent : Int := if isZero then 0 else e - k
    let up := m.nornd = false ∧ guard = true
    let carry := up ∧ shifted + 1 = 2 ^ 35
    let mant := if carry then 2 ^ 34 else if up then shifted + 1 else shifted
    let rounded : Int := if carry then exponent + 1 else exponent
    normalize m s e x g =
      if mant ≠ 0 ∧ 2 ^ 17 - 1 < rounded then .error .ovf
      else if mant ≠ 0 ∧ rounded < -2 ^ 17 then .error .unf
      else .ok (⟨sign, rounded, mant⟩, guard)

/-- The sign modifier (R316): none, clear, set, complement; a zero mantissa keeps the sign 0 whatever the modifier (log entry
16). -/
def Clause.SignModifier : Prop :=
  ∀ u : Unpacked,
    (u.m = 0 → ∀ sgn, applySgn sgn u = { u with s := false })
    ∧ (u.m ≠ 0 → applySgn 0 u = u ∧ applySgn 1 u = { u with s := false } ∧ applySgn 2 u = { u with s := true }
        ∧ applySgn 3 u = { u with s := !u.s })

/-- The shared routine, with its exceptions, its rounding and its guard, and the sign modifier (R316 to R318). -/
def Obligations.Normalization : Prop :=
  Clause.NormalizeResult ∧ Clause.NormalizedResults ∧ Clause.NormalizeKeepsTheValue ∧ Clause.SignModifier

/-- ST (R316, R328): under NOLOAD FMB takes the signed value; else the words of the format are stored in order, at the address
and after it, and no other word of memory changes; an exception of the packing comes before any store. -/
def Clause.StoreOfWords : Prop :=
  ∀ (m : FpMods) (s t : State) (ea : Addr), s.fpAddress = .done ea t →
    let x := applySgn m.sgn s.fma.unpack
    let ea1 : Addr := (ea + 1) &&& amask s.cfg
    let ea2 : Addr := (ea1 + 1) &&& amask s.cfg
    let apart (va : Addr) (a : Nat) : Prop := ∀ pa, t.translate va .write = .ok pa → pa.toNat ≠ a
    (m.noload = true → exec (.st m) s = .next { t with fmb := x.pack })
    ∧ (m.noload = false → ∀ k, packWords (fpFormat m) x = .error k → exec (.st m) s = .next (t.fpException k))
    ∧ (m.noload = false → ∀ (ws : List Word) (u : State), packWords (fpFormat m) x = .ok ws → t.fpStore ea ws = .done () u →
      exec (.st m) s = .next u
      ∧ u = { t with mem := u.mem }
      ∧ ws.length = (if m.fp = true ∧ m.dp = true then 3 else if m.fp = true ∨ m.dp = true then 2 else 1)
      ∧ (∀ pa w, ws = [w] → t.translate ea .write = .ok pa →
          u.wordAt pa.toNat = w ∧ ∀ a, apart ea a → u.wordAt a = t.wordAt a)
      ∧ (∀ pa pb w v, ws = [w, v] → t.translate ea .write = .ok pa → t.translate ea1 .write = .ok pb →
          (pa ≠ pb → u.wordAt pa.toNat = w) ∧ u.wordAt pb.toNat = v
          ∧ ∀ a, apart ea a → apart ea1 a → u.wordAt a = t.wordAt a)
      ∧ (∀ pa pb pc w v z, ws = [w, v, z] → t.translate ea .write = .ok pa →
          t.translate ea1 .write = .ok pb → t.translate ea2 .write = .ok pc →
          (pa ≠ pb → pa ≠ pc → u.wordAt pa.toNat = w) ∧ (pb ≠ pc → u.wordAt pb.toNat = v) ∧ u.wordAt pc.toNat = z
          ∧ ∀ a, apart ea a → apart ea1 a → apart ea2 a → u.wordAt a = t.wordAt a))

/-- When ST stores, and what it leaves (R312, R328): with NOLOAD 0, an address word that can be read, a value that fits the
format and every word of the format at an address that can be written, it completes, in a state that differs from the one
the address word leaves in the words of the format alone. -/
def Clause.StoreCompletes : Prop :=
  ∀ (m : FpMods) (s t : State) (ea p0 p1 p2 : Addr), s.fpAddress = .done ea t → m.noload = false →
    let x := applySgn m.sgn s.fma.unpack
    let i : Int := if x.s then -(x.m : Int) else x.m
    let hi : Word := BitVec.ofBool x.s ++ BitVec.ofNat 17 (x.m / 2 ^ 18)
    let lo : Word := BitVec.ofNat 18 x.m
    let ea1 : Addr := (ea + 1) &&& amask s.cfg
    let ea2 : Addr := (ea1 + 1) &&& amask s.cfg
    let one (w0 : Word) : State := { t with mem := t.mem.write p0.toNat w0 }
    let two (w0 w1 : Word) : State := { t with mem := (t.mem.write p0.toNat w0).write p1.toNat w1 }
    let three (w0 w1 w2 : Word) : State :=
      { t with mem := ((t.mem.write p0.toNat w0).write p1.toNat w1).write p2.toNat w2 }
    t.translate ea .write = .ok p0 →
    (m.fp = false → m.dp = false → x.m < 2 ^ 17 → exec (.st m) s = .next (one (BitVec.ofInt 18 i)))
    ∧ (t.translate ea1 .write = .ok p1 →
      (m.fp = false → m.dp = true →
        exec (.st m) s = .next (two ((BitVec.ofInt 36 i).extractLsb' 18 18) ((BitVec.ofInt 36 i).extractLsb' 0 18)))
      ∧ (m.fp = true → m.dp = false → x.m = 0 ∨ -256 ≤ x.e ∧ x.e ≤ 255 →
        exec (.st m) s = .next (two (((lo >>> 9) <<< 9) ||| (BitVec.ofInt 18 x.e &&& 0o777)) hi))
      ∧ (t.translate ea2 .write = .ok p2 → m.fp = true → m.dp = true →
        exec (.st m) s = .next (three (BitVec.ofInt 18 x.e) hi lo)))

/-- ST (R316, R328): what it stores, and when it completes. -/
def Obligations.FloatingStore : Prop := Clause.StoreOfWords ∧ Clause.StoreCompletes

/-- The words a store writes (R328): the twos-complement integer, and the float formats; a single integer of 18 bits or more and a
single float outside the 9-bit exponent are exceptions. -/
def Clause.StoreFormats : Prop :=
  ∀ r : FpReg,
    let x := r.unpack
    let i : Int := if r.s then -(x.m : Int) else x.m
    packWords .singleInt x = (if 2 ^ 17 ≤ x.m then .error .ovf else .ok [BitVec.ofInt 18 i])
    ∧ packWords .doubleInt x = .ok [(BitVec.ofInt 36 i).extractLsb' 18 18, (BitVec.ofInt 36 i).extractLsb' 0 18]
    ∧ packWords .singleFloat x =
      (if x.m ≠ 0 ∧ 255 < r.e.toInt then .error .ovf
       else if x.m ≠ 0 ∧ r.e.toInt < -256 then .error .unf
       else .ok [((r.lo >>> 9) <<< 9) ||| (r.e &&& 0o777), BitVec.ofBool r.s ++ r.hi])
    ∧ packWords .doubleFloat x = .ok [r.e, BitVec.ofBool r.s ++ r.hi, r.lo]

/-- Storing and reloading gives the unpacked value back (R312, R328): always in the double-float format; in the single-float
format when the low 9 mantissa bits are 0 and the exponent fits; and an integer that fits, as an integer. -/
def Clause.StoreThenLoad : Prop :=
  ∀ r : FpReg,
    (∃ w0 w1 w2, packWords .doubleFloat r.unpack = .ok [w0, w1, w2] ∧ unpackDoubleFloat w0 w1 w2 = r.unpack)
    ∧ (r.lo &&& 0o777 = 0 → -256 ≤ r.e.toInt → r.e.toInt ≤ 255 →
      ∃ w0 w1, packWords .singleFloat r.unpack = .ok [w0, w1] ∧ unpackSingleFloat w0 w1 = r.unpack)
    ∧ (r.unpack.m < 2 ^ 17 →
      ∃ w0, packWords .singleInt r.unpack = .ok [w0] ∧ (unpackSingleInt w0).int = r.unpack.int)
    ∧ ∃ w0 w1 u, packWords .doubleInt r.unpack = .ok [w0, w1] ∧ unpackDoubleInt w0 w1 = .ok u ∧ u.int = r.unpack.int

/-- What a store writes, and that loading it gives the value back (R312, R328). -/
def Obligations.StoredFormats : Prop := Clause.StoreFormats ∧ Clause.StoreThenLoad

/-- FLT and FIX (R329, R330): the integer in FMA as a normalised float; the float in FMA truncated toward zero, with an overflow
at 2^35. -/
def Clause.FloatAndFix : Prop :=
  ∀ (m : FpMods) (s t : State) (ea : Addr), s.fpAddress = .done ea t →
    let a := s.fma.unpack
    let r := if a.e ≤ 35 then a.m / 2 ^ (35 - a.e).toNat else a.m * 2 ^ (a.e - 35).toNat
    (∀ u g, normalize m a.s 35 a.m false = .ok (u, g) →
      exec (.flt m) s = .next { t with fma := (applySgn m.sgn u).pack, fguard := g })
    ∧ (∀ k, normalize m a.s 35 a.m false = .error k → exec (.flt m) s = .next (t.fpException k))
    ∧ (r < 2 ^ 35 →
      exec (.fix m) s = .next
        { t with fma := (applySgn m.sgn ⟨if r = 0 then false else a.s, 35, r⟩).pack, fguard := false })
    ∧ (2 ^ 35 ≤ r → exec (.fix m) s = .next (t.fpException .ovf))

/-- LFMQ, JEA and BR (R53, R331, R333, R335, R390): FMA's mantissa from FMQ; the control register loaded or stored; the branch on
FMA and the guard. -/
def Clause.FloatingControl : Prop :=
  ∀ (m : FpMods) (c : BrConds) (s t : State) (ea : Addr), s.fpAddress = .done ea t →
    exec (.lfmq m) s = .next
      { t with fma := { s := s.fma.s, e := s.fma.e, hi := s.fmq.extractLsb' 18 17, lo := s.fmq.extractLsb' 0 18 } }
    ∧ (∀ pa, m.dp = false → t.translate ea .read = .ok pa →
      let w := t.wordAt pa.toNat
      exec (.jea m) s = .next
        { t with
          jeaBase := w.extractLsb' 0 15, fguard := w.getMsbD 1
          fma := { s := w.getMsbD 0, e := s.fma.e, hi := s.fma.hi, lo := s.fma.lo } })
    ∧ (∀ pa, m.dp = true → t.translate ea .write = .ok pa →
      exec (.jea m) s = .next
        { t with
          mem := t.mem.write pa.toNat (BitVec.ofBool s.fma.s ++ BitVec.ofBool s.fguard ++ 0#1 ++ s.jeaBase) })
    ∧ (let zero := s.fma.hi = 0 ∧ s.fma.lo = 0
       let cond := (c.zero = true ∧ zero) ∨ (c.positive = true ∧ ¬zero ∧ s.fma.s = false)
         ∨ (c.negative = true ∧ ¬zero ∧ s.fma.s = true) ∨ (c.grd = true ∧ s.fguard = true)
       let taken := if c.reverse then ¬cond else cond
       (taken → exec (.br c) s = .next
         { t with pc := ea, pcq := t.pc :: s.pcq.take (s.cfg.pcqDepth - 1) })
       ∧ (¬taken → exec (.br c) s = .next t))

/-- FLT, FIX, LFMQ, JEA and BR (R329 to R335). -/
def Obligations.ConversionAndControl : Prop := Clause.FloatAndFix ∧ Clause.FloatingControl

/-- FP15 exception delivery (R345): the return word at the base in the current block, the PC at the base plus the kind's offset;
a Fault of that store by the processor ends the delivery with the PC as it is where it traps, and is discarded where it does
not, which non-existent memory does neither in user mode nor under `ExecNxmTraps` (R97, R98). -/
def Clause.FloatingExceptionDelivery : Prop :=
  ∀ (s : State) (k : FpExc) (pa : Addr),
    let base : Addr := (s.pc &&& ~~~blkMask s.cfg &&& amask s.cfg) ||| s.jeaBase.setWidth 17
    let off : Addr := match k with
      | .ovf => s.cfg.fpExcOffset.ovf
      | .unf => s.cfg.fpExcOffset.unf
      | .div => s.cfg.fpExcOffset.div
      | .mm => s.cfg.fpExcOffset.mm
    let traps := s.usmd = true ∨ s.cfg.execNxmTraps = true
    (s.translate base .write = .ok pa →
      s.fpException k =
        { s with
          mem := s.mem.write pa.toNat s.retWord
          pcq := s.pc :: s.pcq.take (s.cfg.pcqDepth - 1)
          pc := (base + off) &&& amask s.cfg })
    ∧ (s.translate base .write = .violation → s.fpException k = { s with prvn := true, trapPending := true })
    ∧ (s.translate base .write = .nonExistent → traps → s.fpException k = { s with nexm := true, trapPending := true })
    ∧ (s.translate base .write = .nonExistent → ¬traps →
      s.fpException k =
        { s with
          nexm := true
          pcq := s.pc :: s.pcq.take (s.cfg.pcqDepth - 1)
          pc := (base + off) &&& amask s.cfg })

/-- A memory fault inside FP15 (R99, R346, R347): whatever the instruction, a Fault of its address word or of the indirect word
leaves the sticky flag set and `trapPending` clear, and the memory-fault exception is delivered. -/
def Clause.FloatingAddressFault : Prop :=
  ∀ (m : FpMods) (c : BrConds) (s : State),
    let t := { s with pc := incPC s.cfg s.pc }
    let faulted (f : Translation) : State :=
      if f = .violation then { t with prvn := true, trapPending := false } else { t with nexm := true, trapPending := false }
    ∀ i ∈ [Instr.fpSub m, .fpRsub m, .fpMul m, .fpDiv m, .fpRdiv m, .ld m, .st m, .flt m, .fix m, .lfmq m, .jea m, .fpAdd m,
        .br c],
    ∀ f ∈ [Translation.violation, .nonExistent],
      (s.translate s.pc .read = f → exec i s = .next ((faulted f).fpException .mm))
      ∧ ∀ pa : Addr, s.translate s.pc .read = .ok pa → (s.wordAt pa.toNat).getMsbD 0 = true →
        s.translate ((s.wordAt pa.toNat).setWidth 17 &&& amask s.cfg) .read = f →
        exec i s = .next ((faulted f).fpException .mm)

/-- A memory fault of an operand word (R101, R346, R347): the words of the format are read in order, and a Fault of the first,
the second or the third leaves the sticky flag set, `trapPending` clear and the FP15's registers as they were, and delivers
the memory-fault exception. The same for the word that JEA loads or stores. -/
def Clause.FloatingOperandFault : Prop :=
  ∀ (m : FpMods) (s t : State) (ea p0 p1 : Addr), s.fpAddress = .done ea t →
    let ea1 : Addr := (ea + 1) &&& amask s.cfg
    let ea2 : Addr := (ea1 + 1) &&& amask s.cfg
    let faulted (f : Translation) : State :=
      if f = .violation then { t with prvn := true, trapPending := false } else { t with nexm := true, trapPending := false }
    ∀ f ∈ [Translation.violation, .nonExistent],
      (m.noload = false →
        ∀ i ∈ [Instr.fpSub m, .fpRsub m, .fpMul m, .fpDiv m, .fpRdiv m, .ld m, .fpAdd m],
        (t.translate ea .read = f → exec i s = .next ((faulted f).fpException .mm))
        ∧ (m.fp = true ∨ m.dp = true → t.translate ea .read = .ok p0 → t.translate ea1 .read = f →
          exec i s = .next ((faulted f).fpException .mm))
        ∧ (m.fp = true → m.dp = true → t.translate ea .read = .ok p0 → t.translate ea1 .read = .ok p1 →
          t.translate ea2 .read = f → exec i s = .next ((faulted f).fpException .mm)))
      ∧ (t.translate ea (if m.dp then .write else .read) = f → exec (.jea m) s = .next ((faulted f).fpException .mm))

/-- A memory fault of a word that ST stores (R328, R346, R415): the words before it stay written, it and those after it are not
written, and the memory-fault exception is delivered. -/
def Clause.FloatingStoreFault : Prop :=
  ∀ (m : FpMods) (s t : State) (ea p0 p1 : Addr) (ws : List Word), s.fpAddress = .done ea t → m.noload = false →
    packWords (fpFormat m) (applySgn m.sgn s.fma.unpack) = .ok ws →
    let ea1 : Addr := (ea + 1) &&& amask s.cfg
    let ea2 : Addr := (ea1 + 1) &&& amask s.cfg
    let faulted (f : Translation) (mem : Memory) : State :=
      if f = .violation then { t with mem := mem, prvn := true, trapPending := false }
      else { t with mem := mem, nexm := true, trapPending := false }
    ∀ f ∈ [Translation.violation, .nonExistent],
      (t.translate ea .write = f → exec (.st m) s = .next ((faulted f t.mem).fpException .mm))
      ∧ (∀ w v rest, ws = w :: v :: rest → t.translate ea .write = .ok p0 → t.translate ea1 .write = f →
        exec (.st m) s = .next ((faulted f (t.mem.write p0.toNat w)).fpException .mm))
      ∧ (∀ w v z, ws = [w, v, z] → t.translate ea .write = .ok p0 → t.translate ea1 .write = .ok p1 →
        t.translate ea2 .write = f →
        exec (.st m) s = .next ((faulted f ((t.mem.write p0.toNat w).write p1.toNat v)).fpException .mm))

/-- FP15 exceptions (R345, R346): their delivery, and the memory faults of every access of an FP15 instruction. -/
def Obligations.FloatingExceptions : Prop :=
  Clause.FloatingExceptionDelivery ∧ Clause.FloatingAddressFault ∧ Clause.FloatingOperandFault ∧ Clause.FloatingStoreFault

/-- What an FP15 instruction changes (R310): the FP15's registers, the PC and its history, memory, and the fault flags; never
AC, L, MQ, SC, an index register, a mode, the deferral or the interrupt state. But for ST and JEA, the one word of memory that
can change is the exception's return word. -/
def Obligations.FloatingFrame : Prop :=
  ∀ (i : Instr) (s t : State), s.cfg.hasFP15 = true → WellFormed s.cfg i = true → encode i &&& 0o770000 = 0o710000 →
    exec i s = .next t →
    let p := incPC s.cfg s.pc
    let base : Addr := (p &&& ~~~blkMask s.cfg &&& amask s.cfg) ||| s.jeaBase.setWidth 17
    (∃ a b q g j pc h m n v x, t = { s with
      fma := a, fmb := b, fmq := q, fguard := g, jeaBase := j, pc := pc, pcq := h, mem := m, nexm := n, prvn := v
      trapPending := x })
    ∧ ((∀ m, i ≠ .st m) → (∀ m, i ≠ .jea m) →
      ∀ a, (∀ pa, s.translate base .write = .ok pa → pa.toNat ≠ a) → t.wordAt a = s.wordAt a)

/-! ## User mode -/

/-- User mode is entered only by the commit of its buffer (R373, R380): a step with no host or agent move first that turns
`usmd` on had `modeDefer` at 1 and the buffer at 1. -/
def Obligations.UserModeEnteredByCommitOnly : Prop :=
  ∀ s t : State, s.processorNext → s.usmd = false → step s = .next t → t.usmd = true →
    s.runState = .running ∧ s.modeDefer = 1 ∧ s.usmdBuf = true

/-- No instruction run in user mode changes a protection register, the switch register, an interrupt enable or request, or the
API's enable, software requests or request lines (R230, R363, R380). -/
def Obligations.UserModeCannotReconfigure : Prop :=
  ∀ (i : Instr) (s t : State), s.usmd = true → exec i s = .next t →
    t.br = s.br ∧ t.rr = s.rr ∧ t.mmr = s.mmr ∧ t.sr = s.sr ∧ t.ion = s.ion ∧ t.ionDefer = s.ionDefer
    ∧ t.apiEnb = s.apiEnb ∧ t.apiReq = s.apiReq ∧ t.intReq = s.intReq ∧ t.draws = s.draws
    ∧ t.ioAnswers = s.ioAnswers ∧ t.statusPolls = s.statusPolls

/-- Under the bounds scheme an instruction run in user mode changes no word of memory above the bound, but for the return word
that CAL saves at 0o20 (R93, R170, R363). -/
def Obligations.BoundsSchemeIsolatesMemory : Prop :=
  ∀ (i : Instr) (s t : State), s.usmd = true → s.cfg.protScheme = .bounds → exec i s = .next t →
    ∀ a, s.brLimit.toNat < a → a ≠ 0o20 → t.wordAt a = s.wordAt a

end
end

