-- ==== Sys2Proof/Laws/State.lean ====
section
/-! SUPPORT. One lemma for each field of State under each named update, true by rfl, so that no later proof unfolds one. -/

namespace Sys2Proof.Machine

@[simp] theorem State.advance_cfg (s : State) : (s.advance).cfg = s.cfg := rfl
@[simp] theorem State.advance_ac (s : State) : (s.advance).ac = s.ac := rfl
@[simp] theorem State.advance_l (s : State) : (s.advance).l = s.l := rfl
@[simp] theorem State.advance_mq (s : State) : (s.advance).mq = s.mq := rfl
@[simp] theorem State.advance_pc (s : State) : (s.advance).pc = incPC s.cfg s.pc := rfl
@[simp] theorem State.advance_sc (s : State) : (s.advance).sc = s.sc := rfl
@[simp] theorem State.advance_eaeAcSign (s : State) : (s.advance).eaeAcSign = s.eaeAcSign := rfl
@[simp] theorem State.advance_sr (s : State) : (s.advance).sr = s.sr := rfl
@[simp] theorem State.advance_xr (s : State) : (s.advance).xr = s.xr := rfl
@[simp] theorem State.advance_lr (s : State) : (s.advance).lr = s.lr := rfl
@[simp] theorem State.advance_ir (s : State) : (s.advance).ir = s.ir := rfl
@[simp] theorem State.advance_xctDepth (s : State) : (s.advance).xctDepth = s.xctDepth := rfl
@[simp] theorem State.advance_instrAddr (s : State) : (s.advance).instrAddr = s.instrAddr := rfl
@[simp] theorem State.advance_intReq (s : State) : (s.advance).intReq = s.intReq := rfl
@[simp] theorem State.advance_ion (s : State) : (s.advance).ion = s.ion := rfl
@[simp] theorem State.advance_ionDefer (s : State) : (s.advance).ionDefer = s.ionDefer := rfl
@[simp] theorem State.advance_apiEnb (s : State) : (s.advance).apiEnb = s.apiEnb := rfl
@[simp] theorem State.advance_apiReq (s : State) : (s.advance).apiReq = s.apiReq := rfl
@[simp] theorem State.advance_apiAct (s : State) : (s.advance).apiAct = s.apiAct := rfl
@[simp] theorem State.advance_memm (s : State) : (s.advance).memm = s.memm := rfl
@[simp] theorem State.advance_usmd (s : State) : (s.advance).usmd = s.usmd := rfl
@[simp] theorem State.advance_memmBuf (s : State) : (s.advance).memmBuf = s.memmBuf := rfl
@[simp] theorem State.advance_usmdBuf (s : State) : (s.advance).usmdBuf = s.usmdBuf := rfl
@[simp] theorem State.advance_modeDefer (s : State) : (s.advance).modeDefer = s.modeDefer := rfl
@[simp] theorem State.advance_restPending (s : State) : (s.advance).restPending = s.restPending := rfl
@[simp] theorem State.advance_br (s : State) : (s.advance).br = s.br := rfl
@[simp] theorem State.advance_rr (s : State) : (s.advance).rr = s.rr := rfl
@[simp] theorem State.advance_mmr (s : State) : (s.advance).mmr = s.mmr := rfl
@[simp] theorem State.advance_nexm (s : State) : (s.advance).nexm = s.nexm := rfl
@[simp] theorem State.advance_prvn (s : State) : (s.advance).prvn = s.prvn := rfl
@[simp] theorem State.advance_trapPending (s : State) : (s.advance).trapPending = s.trapPending := rfl
@[simp] theorem State.advance_fma (s : State) : (s.advance).fma = s.fma := rfl
@[simp] theorem State.advance_fmb (s : State) : (s.advance).fmb = s.fmb := rfl
@[simp] theorem State.advance_fmq (s : State) : (s.advance).fmq = s.fmq := rfl
@[simp] theorem State.advance_fguard (s : State) : (s.advance).fguard = s.fguard := rfl
@[simp] theorem State.advance_jeaBase (s : State) : (s.advance).jeaBase = s.jeaBase := rfl
@[simp] theorem State.advance_pcq (s : State) : (s.advance).pcq = s.pcq := rfl
@[simp] theorem State.advance_runState (s : State) : (s.advance).runState = s.runState := rfl
@[simp] theorem State.advance_mem (s : State) : (s.advance).mem = s.mem := rfl
@[simp] theorem State.advance_breakpoints (s : State) : (s.advance).breakpoints = s.breakpoints := rfl
@[simp] theorem State.advance_firstCycle (s : State) : (s.advance).firstCycle = s.firstCycle := rfl
@[simp] theorem State.advance_devices (s : State) : (s.advance).devices = s.devices := rfl
@[simp] theorem State.advance_moves (s : State) : (s.advance).moves = s.moves := rfl
@[simp] theorem State.advance_ioAnswers (s : State) : (s.advance).ioAnswers = s.ioAnswers := rfl
@[simp] theorem State.advance_statusPolls (s : State) : (s.advance).statusPolls = s.statusPolls := rfl
@[simp] theorem State.advance_draws (s : State) : (s.advance).draws = s.draws := rfl
@[simp] theorem State.advance_hostData (s : State) : (s.advance).hostData = s.hostData := rfl

@[simp] theorem State.skipIf_cfg (s : State) (b : Bool) : (s.skipIf b).cfg = s.cfg := rfl
@[simp] theorem State.skipIf_ac (s : State) (b : Bool) : (s.skipIf b).ac = s.ac := rfl
@[simp] theorem State.skipIf_l (s : State) (b : Bool) : (s.skipIf b).l = s.l := rfl
@[simp] theorem State.skipIf_mq (s : State) (b : Bool) : (s.skipIf b).mq = s.mq := rfl
@[simp] theorem State.skipIf_pc (s : State) (b : Bool) : (s.skipIf b).pc = if b then incPC s.cfg s.pc else s.pc := rfl
@[simp] theorem State.skipIf_sc (s : State) (b : Bool) : (s.skipIf b).sc = s.sc := rfl
@[simp] theorem State.skipIf_eaeAcSign (s : State) (b : Bool) : (s.skipIf b).eaeAcSign = s.eaeAcSign := rfl
@[simp] theorem State.skipIf_sr (s : State) (b : Bool) : (s.skipIf b).sr = s.sr := rfl
@[simp] theorem State.skipIf_xr (s : State) (b : Bool) : (s.skipIf b).xr = s.xr := rfl
@[simp] theorem State.skipIf_lr (s : State) (b : Bool) : (s.skipIf b).lr = s.lr := rfl
@[simp] theorem State.skipIf_ir (s : State) (b : Bool) : (s.skipIf b).ir = s.ir := rfl
@[simp] theorem State.skipIf_xctDepth (s : State) (b : Bool) : (s.skipIf b).xctDepth = s.xctDepth := rfl
@[simp] theorem State.skipIf_instrAddr (s : State) (b : Bool) : (s.skipIf b).instrAddr = s.instrAddr := rfl
@[simp] theorem State.skipIf_intReq (s : State) (b : Bool) : (s.skipIf b).intReq = s.intReq := rfl
@[simp] theorem State.skipIf_ion (s : State) (b : Bool) : (s.skipIf b).ion = s.ion := rfl
@[simp] theorem State.skipIf_ionDefer (s : State) (b : Bool) : (s.skipIf b).ionDefer = s.ionDefer := rfl
@[simp] theorem State.skipIf_apiEnb (s : State) (b : Bool) : (s.skipIf b).apiEnb = s.apiEnb := rfl
@[simp] theorem State.skipIf_apiReq (s : State) (b : Bool) : (s.skipIf b).apiReq = s.apiReq := rfl
@[simp] theorem State.skipIf_apiAct (s : State) (b : Bool) : (s.skipIf b).apiAct = s.apiAct := rfl
@[simp] theorem State.skipIf_memm (s : State) (b : Bool) : (s.skipIf b).memm = s.memm := rfl
@[simp] theorem State.skipIf_usmd (s : State) (b : Bool) : (s.skipIf b).usmd = s.usmd := rfl
@[simp] theorem State.skipIf_memmBuf (s : State) (b : Bool) : (s.skipIf b).memmBuf = s.memmBuf := rfl
@[simp] theorem State.skipIf_usmdBuf (s : State) (b : Bool) : (s.skipIf b).usmdBuf = s.usmdBuf := rfl
@[simp] theorem State.skipIf_modeDefer (s : State) (b : Bool) : (s.skipIf b).modeDefer = s.modeDefer := rfl
@[simp] theorem State.skipIf_restPending (s : State) (b : Bool) : (s.skipIf b).restPending = s.restPending := rfl
@[simp] theorem State.skipIf_br (s : State) (b : Bool) : (s.skipIf b).br = s.br := rfl
@[simp] theorem State.skipIf_rr (s : State) (b : Bool) : (s.skipIf b).rr = s.rr := rfl
@[simp] theorem State.skipIf_mmr (s : State) (b : Bool) : (s.skipIf b).mmr = s.mmr := rfl
@[simp] theorem State.skipIf_nexm (s : State) (b : Bool) : (s.skipIf b).nexm = s.nexm := rfl
@[simp] theorem State.skipIf_prvn (s : State) (b : Bool) : (s.skipIf b).prvn = s.prvn := rfl
@[simp] theorem State.skipIf_trapPending (s : State) (b : Bool) : (s.skipIf b).trapPending = s.trapPending := rfl
@[simp] theorem State.skipIf_fma (s : State) (b : Bool) : (s.skipIf b).fma = s.fma := rfl
@[simp] theorem State.skipIf_fmb (s : State) (b : Bool) : (s.skipIf b).fmb = s.fmb := rfl
@[simp] theorem State.skipIf_fmq (s : State) (b : Bool) : (s.skipIf b).fmq = s.fmq := rfl
@[simp] theorem State.skipIf_fguard (s : State) (b : Bool) : (s.skipIf b).fguard = s.fguard := rfl
@[simp] theorem State.skipIf_jeaBase (s : State) (b : Bool) : (s.skipIf b).jeaBase = s.jeaBase := rfl
@[simp] theorem State.skipIf_pcq (s : State) (b : Bool) : (s.skipIf b).pcq = s.pcq := rfl
@[simp] theorem State.skipIf_runState (s : State) (b : Bool) : (s.skipIf b).runState = s.runState := rfl
@[simp] theorem State.skipIf_mem (s : State) (b : Bool) : (s.skipIf b).mem = s.mem := rfl
@[simp] theorem State.skipIf_breakpoints (s : State) (b : Bool) : (s.skipIf b).breakpoints = s.breakpoints := rfl
@[simp] theorem State.skipIf_firstCycle (s : State) (b : Bool) : (s.skipIf b).firstCycle = s.firstCycle := rfl
@[simp] theorem State.skipIf_devices (s : State) (b : Bool) : (s.skipIf b).devices = s.devices := rfl
@[simp] theorem State.skipIf_moves (s : State) (b : Bool) : (s.skipIf b).moves = s.moves := rfl
@[simp] theorem State.skipIf_ioAnswers (s : State) (b : Bool) : (s.skipIf b).ioAnswers = s.ioAnswers := rfl
@[simp] theorem State.skipIf_statusPolls (s : State) (b : Bool) : (s.skipIf b).statusPolls = s.statusPolls := rfl
@[simp] theorem State.skipIf_draws (s : State) (b : Bool) : (s.skipIf b).draws = s.draws := rfl
@[simp] theorem State.skipIf_hostData (s : State) (b : Bool) : (s.skipIf b).hostData = s.hostData := rfl

@[simp] theorem State.stop_cfg (s : State) (r : StopReason) : (s.stop r).cfg = s.cfg := rfl
@[simp] theorem State.stop_ac (s : State) (r : StopReason) : (s.stop r).ac = s.ac := rfl
@[simp] theorem State.stop_l (s : State) (r : StopReason) : (s.stop r).l = s.l := rfl
@[simp] theorem State.stop_mq (s : State) (r : StopReason) : (s.stop r).mq = s.mq := rfl
@[simp] theorem State.stop_pc (s : State) (r : StopReason) : (s.stop r).pc = s.pc := rfl
@[simp] theorem State.stop_sc (s : State) (r : StopReason) : (s.stop r).sc = s.sc := rfl
@[simp] theorem State.stop_eaeAcSign (s : State) (r : StopReason) : (s.stop r).eaeAcSign = s.eaeAcSign := rfl
@[simp] theorem State.stop_sr (s : State) (r : StopReason) : (s.stop r).sr = s.sr := rfl
@[simp] theorem State.stop_xr (s : State) (r : StopReason) : (s.stop r).xr = s.xr := rfl
@[simp] theorem State.stop_lr (s : State) (r : StopReason) : (s.stop r).lr = s.lr := rfl
@[simp] theorem State.stop_ir (s : State) (r : StopReason) : (s.stop r).ir = s.ir := rfl
@[simp] theorem State.stop_xctDepth (s : State) (r : StopReason) : (s.stop r).xctDepth = s.xctDepth := rfl
@[simp] theorem State.stop_instrAddr (s : State) (r : StopReason) : (s.stop r).instrAddr = s.instrAddr := rfl
@[simp] theorem State.stop_intReq (s : State) (r : StopReason) : (s.stop r).intReq = s.intReq := rfl
@[simp] theorem State.stop_ion (s : State) (r : StopReason) : (s.stop r).ion = s.ion := rfl
@[simp] theorem State.stop_ionDefer (s : State) (r : StopReason) : (s.stop r).ionDefer = s.ionDefer := rfl
@[simp] theorem State.stop_apiEnb (s : State) (r : StopReason) : (s.stop r).apiEnb = s.apiEnb := rfl
@[simp] theorem State.stop_apiReq (s : State) (r : StopReason) : (s.stop r).apiReq = s.apiReq := rfl
@[simp] theorem State.stop_apiAct (s : State) (r : StopReason) : (s.stop r).apiAct = s.apiAct := rfl
@[simp] theorem State.stop_memm (s : State) (r : StopReason) : (s.stop r).memm = s.memm := rfl
@[simp] theorem State.stop_usmd (s : State) (r : StopReason) : (s.stop r).usmd = s.usmd := rfl
@[simp] theorem State.stop_memmBuf (s : State) (r : StopReason) : (s.stop r).memmBuf = s.memmBuf := rfl
@[simp] theorem State.stop_usmdBuf (s : State) (r : StopReason) : (s.stop r).usmdBuf = s.usmdBuf := rfl
@[simp] theorem State.stop_modeDefer (s : State) (r : StopReason) : (s.stop r).modeDefer = s.modeDefer := rfl
@[simp] theorem State.stop_restPending (s : State) (r : StopReason) : (s.stop r).restPending = s.restPending := rfl
@[simp] theorem State.stop_br (s : State) (r : StopReason) : (s.stop r).br = s.br := rfl
@[simp] theorem State.stop_rr (s : State) (r : StopReason) : (s.stop r).rr = s.rr := rfl
@[simp] theorem State.stop_mmr (s : State) (r : StopReason) : (s.stop r).mmr = s.mmr := rfl
@[simp] theorem State.stop_nexm (s : State) (r : StopReason) : (s.stop r).nexm = s.nexm := rfl
@[simp] theorem State.stop_prvn (s : State) (r : StopReason) : (s.stop r).prvn = s.prvn := rfl
@[simp] theorem State.stop_trapPending (s : State) (r : StopReason) : (s.stop r).trapPending = s.trapPending := rfl
@[simp] theorem State.stop_fma (s : State) (r : StopReason) : (s.stop r).fma = s.fma := rfl
@[simp] theorem State.stop_fmb (s : State) (r : StopReason) : (s.stop r).fmb = s.fmb := rfl
@[simp] theorem State.stop_fmq (s : State) (r : StopReason) : (s.stop r).fmq = s.fmq := rfl
@[simp] theorem State.stop_fguard (s : State) (r : StopReason) : (s.stop r).fguard = s.fguard := rfl
@[simp] theorem State.stop_jeaBase (s : State) (r : StopReason) : (s.stop r).jeaBase = s.jeaBase := rfl
@[simp] theorem State.stop_pcq (s : State) (r : StopReason) : (s.stop r).pcq = s.pcq := rfl
@[simp] theorem State.stop_runState (s : State) (r : StopReason) : (s.stop r).runState = .stopped r := rfl
@[simp] theorem State.stop_mem (s : State) (r : StopReason) : (s.stop r).mem = s.mem := rfl
@[simp] theorem State.stop_breakpoints (s : State) (r : StopReason) : (s.stop r).breakpoints = s.breakpoints := rfl
@[simp] theorem State.stop_firstCycle (s : State) (r : StopReason) : (s.stop r).firstCycle = s.firstCycle := rfl
@[simp] theorem State.stop_devices (s : State) (r : StopReason) : (s.stop r).devices = s.devices := rfl
@[simp] theorem State.stop_moves (s : State) (r : StopReason) : (s.stop r).moves = s.moves := rfl
@[simp] theorem State.stop_ioAnswers (s : State) (r : StopReason) : (s.stop r).ioAnswers = s.ioAnswers := rfl
@[simp] theorem State.stop_statusPolls (s : State) (r : StopReason) : (s.stop r).statusPolls = s.statusPolls := rfl
@[simp] theorem State.stop_draws (s : State) (r : StopReason) : (s.stop r).draws = s.draws := rfl
@[simp] theorem State.stop_hostData (s : State) (r : StopReason) : (s.stop r).hostData = s.hostData := rfl

@[simp] theorem State.violation_cfg (s : State) : (s.violation).cfg = s.cfg := rfl
@[simp] theorem State.violation_ac (s : State) : (s.violation).ac = s.ac := rfl
@[simp] theorem State.violation_l (s : State) : (s.violation).l = s.l := rfl
@[simp] theorem State.violation_mq (s : State) : (s.violation).mq = s.mq := rfl
@[simp] theorem State.violation_pc (s : State) : (s.violation).pc = s.pc := rfl
@[simp] theorem State.violation_sc (s : State) : (s.violation).sc = s.sc := rfl
@[simp] theorem State.violation_eaeAcSign (s : State) : (s.violation).eaeAcSign = s.eaeAcSign := rfl
@[simp] theorem State.violation_sr (s : State) : (s.violation).sr = s.sr := rfl
@[simp] theorem State.violation_xr (s : State) : (s.violation).xr = s.xr := rfl
@[simp] theorem State.violation_lr (s : State) : (s.violation).lr = s.lr := rfl
@[simp] theorem State.violation_ir (s : State) : (s.violation).ir = s.ir := rfl
@[simp] theorem State.violation_xctDepth (s : State) : (s.violation).xctDepth = s.xctDepth := rfl
@[simp] theorem State.violation_instrAddr (s : State) : (s.violation).instrAddr = s.instrAddr := rfl
@[simp] theorem State.violation_intReq (s : State) : (s.violation).intReq = s.intReq := rfl
@[simp] theorem State.violation_ion (s : State) : (s.violation).ion = s.ion := rfl
@[simp] theorem State.violation_ionDefer (s : State) : (s.violation).ionDefer = s.ionDefer := rfl
@[simp] theorem State.violation_apiEnb (s : State) : (s.violation).apiEnb = s.apiEnb := rfl
@[simp] theorem State.violation_apiReq (s : State) : (s.violation).apiReq = s.apiReq := rfl
@[simp] theorem State.violation_apiAct (s : State) : (s.violation).apiAct = s.apiAct := rfl
@[simp] theorem State.violation_memm (s : State) : (s.violation).memm = s.memm := rfl
@[simp] theorem State.violation_usmd (s : State) : (s.violation).usmd = s.usmd := rfl
@[simp] theorem State.violation_memmBuf (s : State) : (s.violation).memmBuf = s.memmBuf := rfl
@[simp] theorem State.violation_usmdBuf (s : State) : (s.violation).usmdBuf = s.usmdBuf := rfl
@[simp] theorem State.violation_modeDefer (s : State) : (s.violation).modeDefer = s.modeDefer := rfl
@[simp] theorem State.violation_restPending (s : State) : (s.violation).restPending = s.restPending := rfl
@[simp] theorem State.violation_br (s : State) : (s.violation).br = s.br := rfl
@[simp] theorem State.violation_rr (s : State) : (s.violation).rr = s.rr := rfl
@[simp] theorem State.violation_mmr (s : State) : (s.violation).mmr = s.mmr := rfl
@[simp] theorem State.violation_nexm (s : State) : (s.violation).nexm = s.nexm := rfl
@[simp] theorem State.violation_prvn (s : State) : (s.violation).prvn = true := rfl
@[simp] theorem State.violation_trapPending (s : State) : (s.violation).trapPending = true := rfl
@[simp] theorem State.violation_fma (s : State) : (s.violation).fma = s.fma := rfl
@[simp] theorem State.violation_fmb (s : State) : (s.violation).fmb = s.fmb := rfl
@[simp] theorem State.violation_fmq (s : State) : (s.violation).fmq = s.fmq := rfl
@[simp] theorem State.violation_fguard (s : State) : (s.violation).fguard = s.fguard := rfl
@[simp] theorem State.violation_jeaBase (s : State) : (s.violation).jeaBase = s.jeaBase := rfl
@[simp] theorem State.violation_pcq (s : State) : (s.violation).pcq = s.pcq := rfl
@[simp] theorem State.violation_runState (s : State) : (s.violation).runState = s.runState := rfl
@[simp] theorem State.violation_mem (s : State) : (s.violation).mem = s.mem := rfl
@[simp] theorem State.violation_breakpoints (s : State) : (s.violation).breakpoints = s.breakpoints := rfl
@[simp] theorem State.violation_firstCycle (s : State) : (s.violation).firstCycle = s.firstCycle := rfl
@[simp] theorem State.violation_devices (s : State) : (s.violation).devices = s.devices := rfl
@[simp] theorem State.violation_moves (s : State) : (s.violation).moves = s.moves := rfl
@[simp] theorem State.violation_ioAnswers (s : State) : (s.violation).ioAnswers = s.ioAnswers := rfl
@[simp] theorem State.violation_statusPolls (s : State) : (s.violation).statusPolls = s.statusPolls := rfl
@[simp] theorem State.violation_draws (s : State) : (s.violation).draws = s.draws := rfl
@[simp] theorem State.violation_hostData (s : State) : (s.violation).hostData = s.hostData := rfl

@[simp] theorem State.nonExistent_cfg (s : State) : (s.nonExistent).cfg = s.cfg := rfl
@[simp] theorem State.nonExistent_ac (s : State) : (s.nonExistent).ac = s.ac := rfl
@[simp] theorem State.nonExistent_l (s : State) : (s.nonExistent).l = s.l := rfl
@[simp] theorem State.nonExistent_mq (s : State) : (s.nonExistent).mq = s.mq := rfl
@[simp] theorem State.nonExistent_pc (s : State) : (s.nonExistent).pc = s.pc := rfl
@[simp] theorem State.nonExistent_sc (s : State) : (s.nonExistent).sc = s.sc := rfl
@[simp] theorem State.nonExistent_eaeAcSign (s : State) : (s.nonExistent).eaeAcSign = s.eaeAcSign := rfl
@[simp] theorem State.nonExistent_sr (s : State) : (s.nonExistent).sr = s.sr := rfl
@[simp] theorem State.nonExistent_xr (s : State) : (s.nonExistent).xr = s.xr := rfl
@[simp] theorem State.nonExistent_lr (s : State) : (s.nonExistent).lr = s.lr := rfl
@[simp] theorem State.nonExistent_ir (s : State) : (s.nonExistent).ir = s.ir := rfl
@[simp] theorem State.nonExistent_xctDepth (s : State) : (s.nonExistent).xctDepth = s.xctDepth := rfl
@[simp] theorem State.nonExistent_instrAddr (s : State) : (s.nonExistent).instrAddr = s.instrAddr := rfl
@[simp] theorem State.nonExistent_intReq (s : State) : (s.nonExistent).intReq = s.intReq := rfl
@[simp] theorem State.nonExistent_ion (s : State) : (s.nonExistent).ion = s.ion := rfl
@[simp] theorem State.nonExistent_ionDefer (s : State) : (s.nonExistent).ionDefer = s.ionDefer := rfl
@[simp] theorem State.nonExistent_apiEnb (s : State) : (s.nonExistent).apiEnb = s.apiEnb := rfl
@[simp] theorem State.nonExistent_apiReq (s : State) : (s.nonExistent).apiReq = s.apiReq := rfl
@[simp] theorem State.nonExistent_apiAct (s : State) : (s.nonExistent).apiAct = s.apiAct := rfl
@[simp] theorem State.nonExistent_memm (s : State) : (s.nonExistent).memm = s.memm := rfl
@[simp] theorem State.nonExistent_usmd (s : State) : (s.nonExistent).usmd = s.usmd := rfl
@[simp] theorem State.nonExistent_memmBuf (s : State) : (s.nonExistent).memmBuf = s.memmBuf := rfl
@[simp] theorem State.nonExistent_usmdBuf (s : State) : (s.nonExistent).usmdBuf = s.usmdBuf := rfl
@[simp] theorem State.nonExistent_modeDefer (s : State) : (s.nonExistent).modeDefer = s.modeDefer := rfl
@[simp] theorem State.nonExistent_restPending (s : State) : (s.nonExistent).restPending = s.restPending := rfl
@[simp] theorem State.nonExistent_br (s : State) : (s.nonExistent).br = s.br := rfl
@[simp] theorem State.nonExistent_rr (s : State) : (s.nonExistent).rr = s.rr := rfl
@[simp] theorem State.nonExistent_mmr (s : State) : (s.nonExistent).mmr = s.mmr := rfl
@[simp] theorem State.nonExistent_nexm (s : State) : (s.nonExistent).nexm = true := rfl
@[simp] theorem State.nonExistent_prvn (s : State) : (s.nonExistent).prvn = s.prvn := rfl
@[simp] theorem State.nonExistent_trapPending (s : State) : (s.nonExistent).trapPending = (s.trapPending || s.nxmTraps) := rfl
@[simp] theorem State.nonExistent_fma (s : State) : (s.nonExistent).fma = s.fma := rfl
@[simp] theorem State.nonExistent_fmb (s : State) : (s.nonExistent).fmb = s.fmb := rfl
@[simp] theorem State.nonExistent_fmq (s : State) : (s.nonExistent).fmq = s.fmq := rfl
@[simp] theorem State.nonExistent_fguard (s : State) : (s.nonExistent).fguard = s.fguard := rfl
@[simp] theorem State.nonExistent_jeaBase (s : State) : (s.nonExistent).jeaBase = s.jeaBase := rfl
@[simp] theorem State.nonExistent_pcq (s : State) : (s.nonExistent).pcq = s.pcq := rfl
@[simp] theorem State.nonExistent_runState (s : State) : (s.nonExistent).runState = s.runState := rfl
@[simp] theorem State.nonExistent_mem (s : State) : (s.nonExistent).mem = s.mem := rfl
@[simp] theorem State.nonExistent_breakpoints (s : State) : (s.nonExistent).breakpoints = s.breakpoints := rfl
@[simp] theorem State.nonExistent_firstCycle (s : State) : (s.nonExistent).firstCycle = s.firstCycle := rfl
@[simp] theorem State.nonExistent_devices (s : State) : (s.nonExistent).devices = s.devices := rfl
@[simp] theorem State.nonExistent_moves (s : State) : (s.nonExistent).moves = s.moves := rfl
@[simp] theorem State.nonExistent_ioAnswers (s : State) : (s.nonExistent).ioAnswers = s.ioAnswers := rfl
@[simp] theorem State.nonExistent_statusPolls (s : State) : (s.nonExistent).statusPolls = s.statusPolls := rfl
@[simp] theorem State.nonExistent_draws (s : State) : (s.nonExistent).draws = s.draws := rfl
@[simp] theorem State.nonExistent_hostData (s : State) : (s.nonExistent).hostData = s.hostData := rfl

@[simp] theorem State.pcqPush_cfg (s : State) : (s.pcqPush).cfg = s.cfg := rfl
@[simp] theorem State.pcqPush_ac (s : State) : (s.pcqPush).ac = s.ac := rfl
@[simp] theorem State.pcqPush_l (s : State) : (s.pcqPush).l = s.l := rfl
@[simp] theorem State.pcqPush_mq (s : State) : (s.pcqPush).mq = s.mq := rfl
@[simp] theorem State.pcqPush_pc (s : State) : (s.pcqPush).pc = s.pc := rfl
@[simp] theorem State.pcqPush_sc (s : State) : (s.pcqPush).sc = s.sc := rfl
@[simp] theorem State.pcqPush_eaeAcSign (s : State) : (s.pcqPush).eaeAcSign = s.eaeAcSign := rfl
@[simp] theorem State.pcqPush_sr (s : State) : (s.pcqPush).sr = s.sr := rfl
@[simp] theorem State.pcqPush_xr (s : State) : (s.pcqPush).xr = s.xr := rfl
@[simp] theorem State.pcqPush_lr (s : State) : (s.pcqPush).lr = s.lr := rfl
@[simp] theorem State.pcqPush_ir (s : State) : (s.pcqPush).ir = s.ir := rfl
@[simp] theorem State.pcqPush_xctDepth (s : State) : (s.pcqPush).xctDepth = s.xctDepth := rfl
@[simp] theorem State.pcqPush_instrAddr (s : State) : (s.pcqPush).instrAddr = s.instrAddr := rfl
@[simp] theorem State.pcqPush_intReq (s : State) : (s.pcqPush).intReq = s.intReq := rfl
@[simp] theorem State.pcqPush_ion (s : State) : (s.pcqPush).ion = s.ion := rfl
@[simp] theorem State.pcqPush_ionDefer (s : State) : (s.pcqPush).ionDefer = s.ionDefer := rfl
@[simp] theorem State.pcqPush_apiEnb (s : State) : (s.pcqPush).apiEnb = s.apiEnb := rfl
@[simp] theorem State.pcqPush_apiReq (s : State) : (s.pcqPush).apiReq = s.apiReq := rfl
@[simp] theorem State.pcqPush_apiAct (s : State) : (s.pcqPush).apiAct = s.apiAct := rfl
@[simp] theorem State.pcqPush_memm (s : State) : (s.pcqPush).memm = s.memm := rfl
@[simp] theorem State.pcqPush_usmd (s : State) : (s.pcqPush).usmd = s.usmd := rfl
@[simp] theorem State.pcqPush_memmBuf (s : State) : (s.pcqPush).memmBuf = s.memmBuf := rfl
@[simp] theorem State.pcqPush_usmdBuf (s : State) : (s.pcqPush).usmdBuf = s.usmdBuf := rfl
@[simp] theorem State.pcqPush_modeDefer (s : State) : (s.pcqPush).modeDefer = s.modeDefer := rfl
@[simp] theorem State.pcqPush_restPending (s : State) : (s.pcqPush).restPending = s.restPending := rfl
@[simp] theorem State.pcqPush_br (s : State) : (s.pcqPush).br = s.br := rfl
@[simp] theorem State.pcqPush_rr (s : State) : (s.pcqPush).rr = s.rr := rfl
@[simp] theorem State.pcqPush_mmr (s : State) : (s.pcqPush).mmr = s.mmr := rfl
@[simp] theorem State.pcqPush_nexm (s : State) : (s.pcqPush).nexm = s.nexm := rfl
@[simp] theorem State.pcqPush_prvn (s : State) : (s.pcqPush).prvn = s.prvn := rfl
@[simp] theorem State.pcqPush_trapPending (s : State) : (s.pcqPush).trapPending = s.trapPending := rfl
@[simp] theorem State.pcqPush_fma (s : State) : (s.pcqPush).fma = s.fma := rfl
@[simp] theorem State.pcqPush_fmb (s : State) : (s.pcqPush).fmb = s.fmb := rfl
@[simp] theorem State.pcqPush_fmq (s : State) : (s.pcqPush).fmq = s.fmq := rfl
@[simp] theorem State.pcqPush_fguard (s : State) : (s.pcqPush).fguard = s.fguard := rfl
@[simp] theorem State.pcqPush_jeaBase (s : State) : (s.pcqPush).jeaBase = s.jeaBase := rfl
@[simp] theorem State.pcqPush_pcq (s : State) : (s.pcqPush).pcq = s.pc :: s.pcq.take (s.cfg.pcqDepth - 1) := rfl
@[simp] theorem State.pcqPush_runState (s : State) : (s.pcqPush).runState = s.runState := rfl
@[simp] theorem State.pcqPush_mem (s : State) : (s.pcqPush).mem = s.mem := rfl
@[simp] theorem State.pcqPush_breakpoints (s : State) : (s.pcqPush).breakpoints = s.breakpoints := rfl
@[simp] theorem State.pcqPush_firstCycle (s : State) : (s.pcqPush).firstCycle = s.firstCycle := rfl
@[simp] theorem State.pcqPush_devices (s : State) : (s.pcqPush).devices = s.devices := rfl
@[simp] theorem State.pcqPush_moves (s : State) : (s.pcqPush).moves = s.moves := rfl
@[simp] theorem State.pcqPush_ioAnswers (s : State) : (s.pcqPush).ioAnswers = s.ioAnswers := rfl
@[simp] theorem State.pcqPush_statusPolls (s : State) : (s.pcqPush).statusPolls = s.statusPolls := rfl
@[simp] theorem State.pcqPush_draws (s : State) : (s.pcqPush).draws = s.draws := rfl
@[simp] theorem State.pcqPush_hostData (s : State) : (s.pcqPush).hostData = s.hostData := rfl

@[simp] theorem State.forceEntryModes_cfg (s : State) : (s.forceEntryModes).cfg = s.cfg := rfl
@[simp] theorem State.forceEntryModes_ac (s : State) : (s.forceEntryModes).ac = s.ac := rfl
@[simp] theorem State.forceEntryModes_l (s : State) : (s.forceEntryModes).l = s.l := rfl
@[simp] theorem State.forceEntryModes_mq (s : State) : (s.forceEntryModes).mq = s.mq := rfl
@[simp] theorem State.forceEntryModes_pc (s : State) : (s.forceEntryModes).pc = s.pc := rfl
@[simp] theorem State.forceEntryModes_sc (s : State) : (s.forceEntryModes).sc = s.sc := rfl
@[simp] theorem State.forceEntryModes_eaeAcSign (s : State) : (s.forceEntryModes).eaeAcSign = s.eaeAcSign := rfl
@[simp] theorem State.forceEntryModes_sr (s : State) : (s.forceEntryModes).sr = s.sr := rfl
@[simp] theorem State.forceEntryModes_xr (s : State) : (s.forceEntryModes).xr = s.xr := rfl
@[simp] theorem State.forceEntryModes_lr (s : State) : (s.forceEntryModes).lr = s.lr := rfl
@[simp] theorem State.forceEntryModes_ir (s : State) : (s.forceEntryModes).ir = s.ir := rfl
@[simp] theorem State.forceEntryModes_xctDepth (s : State) : (s.forceEntryModes).xctDepth = s.xctDepth := rfl
@[simp] theorem State.forceEntryModes_instrAddr (s : State) : (s.forceEntryModes).instrAddr = s.instrAddr := rfl
@[simp] theorem State.forceEntryModes_intReq (s : State) : (s.forceEntryModes).intReq = s.intReq := rfl
@[simp] theorem State.forceEntryModes_ion (s : State) : (s.forceEntryModes).ion = s.ion := rfl
@[simp] theorem State.forceEntryModes_ionDefer (s : State) : (s.forceEntryModes).ionDefer = s.ionDefer := rfl
@[simp] theorem State.forceEntryModes_apiEnb (s : State) : (s.forceEntryModes).apiEnb = s.apiEnb := rfl
@[simp] theorem State.forceEntryModes_apiReq (s : State) : (s.forceEntryModes).apiReq = s.apiReq := rfl
@[simp] theorem State.forceEntryModes_apiAct (s : State) : (s.forceEntryModes).apiAct = s.apiAct := rfl
@[simp] theorem State.forceEntryModes_memm (s : State) : (s.forceEntryModes).memm = s.cfg.entryMemm := rfl
@[simp] theorem State.forceEntryModes_usmd (s : State) : (s.forceEntryModes).usmd = false := rfl
@[simp] theorem State.forceEntryModes_memmBuf (s : State) : (s.forceEntryModes).memmBuf = s.cfg.entryMemm := rfl
@[simp] theorem State.forceEntryModes_usmdBuf (s : State) : (s.forceEntryModes).usmdBuf = false := rfl
@[simp] theorem State.forceEntryModes_modeDefer (s : State) : (s.forceEntryModes).modeDefer = 0 := rfl
@[simp] theorem State.forceEntryModes_restPending (s : State) : (s.forceEntryModes).restPending = s.restPending := rfl
@[simp] theorem State.forceEntryModes_br (s : State) : (s.forceEntryModes).br = s.br := rfl
@[simp] theorem State.forceEntryModes_rr (s : State) : (s.forceEntryModes).rr = s.rr := rfl
@[simp] theorem State.forceEntryModes_mmr (s : State) : (s.forceEntryModes).mmr = s.mmr := rfl
@[simp] theorem State.forceEntryModes_nexm (s : State) : (s.forceEntryModes).nexm = s.nexm := rfl
@[simp] theorem State.forceEntryModes_prvn (s : State) : (s.forceEntryModes).prvn = s.prvn := rfl
@[simp] theorem State.forceEntryModes_trapPending (s : State) : (s.forceEntryModes).trapPending = s.trapPending := rfl
@[simp] theorem State.forceEntryModes_fma (s : State) : (s.forceEntryModes).fma = s.fma := rfl
@[simp] theorem State.forceEntryModes_fmb (s : State) : (s.forceEntryModes).fmb = s.fmb := rfl
@[simp] theorem State.forceEntryModes_fmq (s : State) : (s.forceEntryModes).fmq = s.fmq := rfl
@[simp] theorem State.forceEntryModes_fguard (s : State) : (s.forceEntryModes).fguard = s.fguard := rfl
@[simp] theorem State.forceEntryModes_jeaBase (s : State) : (s.forceEntryModes).jeaBase = s.jeaBase := rfl
@[simp] theorem State.forceEntryModes_pcq (s : State) : (s.forceEntryModes).pcq = s.pcq := rfl
@[simp] theorem State.forceEntryModes_runState (s : State) : (s.forceEntryModes).runState = s.runState := rfl
@[simp] theorem State.forceEntryModes_mem (s : State) : (s.forceEntryModes).mem = s.mem := rfl
@[simp] theorem State.forceEntryModes_breakpoints (s : State) : (s.forceEntryModes).breakpoints = s.breakpoints := rfl
@[simp] theorem State.forceEntryModes_firstCycle (s : State) : (s.forceEntryModes).firstCycle = s.firstCycle := rfl
@[simp] theorem State.forceEntryModes_devices (s : State) : (s.forceEntryModes).devices = s.devices := rfl
@[simp] theorem State.forceEntryModes_moves (s : State) : (s.forceEntryModes).moves = s.moves := rfl
@[simp] theorem State.forceEntryModes_ioAnswers (s : State) : (s.forceEntryModes).ioAnswers = s.ioAnswers := rfl
@[simp] theorem State.forceEntryModes_statusPolls (s : State) : (s.forceEntryModes).statusPolls = s.statusPolls := rfl
@[simp] theorem State.forceEntryModes_draws (s : State) : (s.forceEntryModes).draws = s.draws := rfl
@[simp] theorem State.forceEntryModes_hostData (s : State) : (s.forceEntryModes).hostData = s.hostData := rfl

@[simp] theorem State.restoreFrom_cfg (s : State) (w : Word) : (s.restoreFrom w).cfg = s.cfg := rfl
@[simp] theorem State.restoreFrom_ac (s : State) (w : Word) : (s.restoreFrom w).ac = s.ac := rfl
@[simp] theorem State.restoreFrom_l (s : State) (w : Word) : (s.restoreFrom w).l = w.getMsbD 0 := rfl
@[simp] theorem State.restoreFrom_mq (s : State) (w : Word) : (s.restoreFrom w).mq = s.mq := rfl
@[simp] theorem State.restoreFrom_pc (s : State) (w : Word) : (s.restoreFrom w).pc = s.pc := rfl
@[simp] theorem State.restoreFrom_sc (s : State) (w : Word) : (s.restoreFrom w).sc = s.sc := rfl
@[simp] theorem State.restoreFrom_eaeAcSign (s : State) (w : Word) : (s.restoreFrom w).eaeAcSign = s.eaeAcSign := rfl
@[simp] theorem State.restoreFrom_sr (s : State) (w : Word) : (s.restoreFrom w).sr = s.sr := rfl
@[simp] theorem State.restoreFrom_xr (s : State) (w : Word) : (s.restoreFrom w).xr = s.xr := rfl
@[simp] theorem State.restoreFrom_lr (s : State) (w : Word) : (s.restoreFrom w).lr = s.lr := rfl
@[simp] theorem State.restoreFrom_ir (s : State) (w : Word) : (s.restoreFrom w).ir = s.ir := rfl
@[simp] theorem State.restoreFrom_xctDepth (s : State) (w : Word) : (s.restoreFrom w).xctDepth = s.xctDepth := rfl
@[simp] theorem State.restoreFrom_instrAddr (s : State) (w : Word) : (s.restoreFrom w).instrAddr = s.instrAddr := rfl
@[simp] theorem State.restoreFrom_intReq (s : State) (w : Word) : (s.restoreFrom w).intReq = s.intReq := rfl
@[simp] theorem State.restoreFrom_ion (s : State) (w : Word) : (s.restoreFrom w).ion = s.ion := rfl
@[simp] theorem State.restoreFrom_ionDefer (s : State) (w : Word) : (s.restoreFrom w).ionDefer = s.ionDefer := rfl
@[simp] theorem State.restoreFrom_apiEnb (s : State) (w : Word) : (s.restoreFrom w).apiEnb = s.apiEnb := rfl
@[simp] theorem State.restoreFrom_apiReq (s : State) (w : Word) : (s.restoreFrom w).apiReq = s.apiReq := rfl
@[simp] theorem State.restoreFrom_apiAct (s : State) (w : Word) : (s.restoreFrom w).apiAct = s.apiAct := rfl
@[simp] theorem State.restoreFrom_memm (s : State) (w : Word) : (s.restoreFrom w).memm = s.memm := rfl
@[simp] theorem State.restoreFrom_usmd (s : State) (w : Word) : (s.restoreFrom w).usmd = s.usmd := rfl
@[simp] theorem State.restoreFrom_memmBuf (s : State) (w : Word) : (s.restoreFrom w).memmBuf = (s.cfg.variant != .VA && w.getMsbD 1) := rfl
@[simp] theorem State.restoreFrom_usmdBuf (s : State) (w : Word) : (s.restoreFrom w).usmdBuf = (s.cfg.protScheme != .none && w.getMsbD 2) := rfl
@[simp] theorem State.restoreFrom_modeDefer (s : State) (w : Word) : (s.restoreFrom w).modeDefer = 1 := rfl
@[simp] theorem State.restoreFrom_restPending (s : State) (w : Word) : (s.restoreFrom w).restPending = false := rfl
@[simp] theorem State.restoreFrom_br (s : State) (w : Word) : (s.restoreFrom w).br = s.br := rfl
@[simp] theorem State.restoreFrom_rr (s : State) (w : Word) : (s.restoreFrom w).rr = s.rr := rfl
@[simp] theorem State.restoreFrom_mmr (s : State) (w : Word) : (s.restoreFrom w).mmr = s.mmr := rfl
@[simp] theorem State.restoreFrom_nexm (s : State) (w : Word) : (s.restoreFrom w).nexm = s.nexm := rfl
@[simp] theorem State.restoreFrom_prvn (s : State) (w : Word) : (s.restoreFrom w).prvn = s.prvn := rfl
@[simp] theorem State.restoreFrom_trapPending (s : State) (w : Word) : (s.restoreFrom w).trapPending = s.trapPending := rfl
@[simp] theorem State.restoreFrom_fma (s : State) (w : Word) : (s.restoreFrom w).fma = s.fma := rfl
@[simp] theorem State.restoreFrom_fmb (s : State) (w : Word) : (s.restoreFrom w).fmb = s.fmb := rfl
@[simp] theorem State.restoreFrom_fmq (s : State) (w : Word) : (s.restoreFrom w).fmq = s.fmq := rfl
@[simp] theorem State.restoreFrom_fguard (s : State) (w : Word) : (s.restoreFrom w).fguard = s.fguard := rfl
@[simp] theorem State.restoreFrom_jeaBase (s : State) (w : Word) : (s.restoreFrom w).jeaBase = s.jeaBase := rfl
@[simp] theorem State.restoreFrom_pcq (s : State) (w : Word) : (s.restoreFrom w).pcq = s.pcq := rfl
@[simp] theorem State.restoreFrom_runState (s : State) (w : Word) : (s.restoreFrom w).runState = s.runState := rfl
@[simp] theorem State.restoreFrom_mem (s : State) (w : Word) : (s.restoreFrom w).mem = s.mem := rfl
@[simp] theorem State.restoreFrom_breakpoints (s : State) (w : Word) : (s.restoreFrom w).breakpoints = s.breakpoints := rfl
@[simp] theorem State.restoreFrom_firstCycle (s : State) (w : Word) : (s.restoreFrom w).firstCycle = s.firstCycle := rfl
@[simp] theorem State.restoreFrom_devices (s : State) (w : Word) : (s.restoreFrom w).devices = s.devices := rfl
@[simp] theorem State.restoreFrom_moves (s : State) (w : Word) : (s.restoreFrom w).moves = s.moves := rfl
@[simp] theorem State.restoreFrom_ioAnswers (s : State) (w : Word) : (s.restoreFrom w).ioAnswers = s.ioAnswers := rfl
@[simp] theorem State.restoreFrom_statusPolls (s : State) (w : Word) : (s.restoreFrom w).statusPolls = s.statusPolls := rfl
@[simp] theorem State.restoreFrom_draws (s : State) (w : Word) : (s.restoreFrom w).draws = s.draws := rfl
@[simp] theorem State.restoreFrom_hostData (s : State) (w : Word) : (s.restoreFrom w).hostData = s.hostData := rfl

@[simp] theorem State.iotStart_cfg (s : State) (b : Bool) : (s.iotStart b).cfg = s.cfg := rfl
@[simp] theorem State.iotStart_ac (s : State) (b : Bool) : (s.iotStart b).ac = if b then 0 else s.ac := rfl
@[simp] theorem State.iotStart_l (s : State) (b : Bool) : (s.iotStart b).l = s.l := rfl
@[simp] theorem State.iotStart_mq (s : State) (b : Bool) : (s.iotStart b).mq = s.mq := rfl
@[simp] theorem State.iotStart_pc (s : State) (b : Bool) : (s.iotStart b).pc = s.pc := rfl
@[simp] theorem State.iotStart_sc (s : State) (b : Bool) : (s.iotStart b).sc = s.sc := rfl
@[simp] theorem State.iotStart_eaeAcSign (s : State) (b : Bool) : (s.iotStart b).eaeAcSign = s.eaeAcSign := rfl
@[simp] theorem State.iotStart_sr (s : State) (b : Bool) : (s.iotStart b).sr = s.sr := rfl
@[simp] theorem State.iotStart_xr (s : State) (b : Bool) : (s.iotStart b).xr = s.xr := rfl
@[simp] theorem State.iotStart_lr (s : State) (b : Bool) : (s.iotStart b).lr = s.lr := rfl
@[simp] theorem State.iotStart_ir (s : State) (b : Bool) : (s.iotStart b).ir = s.ir := rfl
@[simp] theorem State.iotStart_xctDepth (s : State) (b : Bool) : (s.iotStart b).xctDepth = s.xctDepth := rfl
@[simp] theorem State.iotStart_instrAddr (s : State) (b : Bool) : (s.iotStart b).instrAddr = s.instrAddr := rfl
@[simp] theorem State.iotStart_intReq (s : State) (b : Bool) : (s.iotStart b).intReq = s.intReq := rfl
@[simp] theorem State.iotStart_ion (s : State) (b : Bool) : (s.iotStart b).ion = s.ion := rfl
@[simp] theorem State.iotStart_ionDefer (s : State) (b : Bool) : (s.iotStart b).ionDefer = true := rfl
@[simp] theorem State.iotStart_apiEnb (s : State) (b : Bool) : (s.iotStart b).apiEnb = s.apiEnb := rfl
@[simp] theorem State.iotStart_apiReq (s : State) (b : Bool) : (s.iotStart b).apiReq = s.apiReq := rfl
@[simp] theorem State.iotStart_apiAct (s : State) (b : Bool) : (s.iotStart b).apiAct = s.apiAct := rfl
@[simp] theorem State.iotStart_memm (s : State) (b : Bool) : (s.iotStart b).memm = s.memm := rfl
@[simp] theorem State.iotStart_usmd (s : State) (b : Bool) : (s.iotStart b).usmd = s.usmd := rfl
@[simp] theorem State.iotStart_memmBuf (s : State) (b : Bool) : (s.iotStart b).memmBuf = s.memmBuf := rfl
@[simp] theorem State.iotStart_usmdBuf (s : State) (b : Bool) : (s.iotStart b).usmdBuf = s.usmdBuf := rfl
@[simp] theorem State.iotStart_modeDefer (s : State) (b : Bool) : (s.iotStart b).modeDefer = s.modeDefer := rfl
@[simp] theorem State.iotStart_restPending (s : State) (b : Bool) : (s.iotStart b).restPending = s.restPending := rfl
@[simp] theorem State.iotStart_br (s : State) (b : Bool) : (s.iotStart b).br = s.br := rfl
@[simp] theorem State.iotStart_rr (s : State) (b : Bool) : (s.iotStart b).rr = s.rr := rfl
@[simp] theorem State.iotStart_mmr (s : State) (b : Bool) : (s.iotStart b).mmr = s.mmr := rfl
@[simp] theorem State.iotStart_nexm (s : State) (b : Bool) : (s.iotStart b).nexm = s.nexm := rfl
@[simp] theorem State.iotStart_prvn (s : State) (b : Bool) : (s.iotStart b).prvn = s.prvn := rfl
@[simp] theorem State.iotStart_trapPending (s : State) (b : Bool) : (s.iotStart b).trapPending = s.trapPending := rfl
@[simp] theorem State.iotStart_fma (s : State) (b : Bool) : (s.iotStart b).fma = s.fma := rfl
@[simp] theorem State.iotStart_fmb (s : State) (b : Bool) : (s.iotStart b).fmb = s.fmb := rfl
@[simp] theorem State.iotStart_fmq (s : State) (b : Bool) : (s.iotStart b).fmq = s.fmq := rfl
@[simp] theorem State.iotStart_fguard (s : State) (b : Bool) : (s.iotStart b).fguard = s.fguard := rfl
@[simp] theorem State.iotStart_jeaBase (s : State) (b : Bool) : (s.iotStart b).jeaBase = s.jeaBase := rfl
@[simp] theorem State.iotStart_pcq (s : State) (b : Bool) : (s.iotStart b).pcq = s.pcq := rfl
@[simp] theorem State.iotStart_runState (s : State) (b : Bool) : (s.iotStart b).runState = s.runState := rfl
@[simp] theorem State.iotStart_mem (s : State) (b : Bool) : (s.iotStart b).mem = s.mem := rfl
@[simp] theorem State.iotStart_breakpoints (s : State) (b : Bool) : (s.iotStart b).breakpoints = s.breakpoints := rfl
@[simp] theorem State.iotStart_firstCycle (s : State) (b : Bool) : (s.iotStart b).firstCycle = s.firstCycle := rfl
@[simp] theorem State.iotStart_devices (s : State) (b : Bool) : (s.iotStart b).devices = s.devices := rfl
@[simp] theorem State.iotStart_moves (s : State) (b : Bool) : (s.iotStart b).moves = s.moves := rfl
@[simp] theorem State.iotStart_ioAnswers (s : State) (b : Bool) : (s.iotStart b).ioAnswers = s.ioAnswers := rfl
@[simp] theorem State.iotStart_statusPolls (s : State) (b : Bool) : (s.iotStart b).statusPolls = s.statusPolls := rfl
@[simp] theorem State.iotStart_draws (s : State) (b : Bool) : (s.iotStart b).draws = s.draws := rfl
@[simp] theorem State.iotStart_hostData (s : State) (b : Bool) : (s.iotStart b).hostData = s.hostData := rfl

@[simp] theorem State.bufferMemm_cfg (s : State) (b : Bool) : (s.bufferMemm b).cfg = s.cfg := rfl
@[simp] theorem State.bufferMemm_ac (s : State) (b : Bool) : (s.bufferMemm b).ac = s.ac := rfl
@[simp] theorem State.bufferMemm_l (s : State) (b : Bool) : (s.bufferMemm b).l = s.l := rfl
@[simp] theorem State.bufferMemm_mq (s : State) (b : Bool) : (s.bufferMemm b).mq = s.mq := rfl
@[simp] theorem State.bufferMemm_pc (s : State) (b : Bool) : (s.bufferMemm b).pc = s.pc := rfl
@[simp] theorem State.bufferMemm_sc (s : State) (b : Bool) : (s.bufferMemm b).sc = s.sc := rfl
@[simp] theorem State.bufferMemm_eaeAcSign (s : State) (b : Bool) : (s.bufferMemm b).eaeAcSign = s.eaeAcSign := rfl
@[simp] theorem State.bufferMemm_sr (s : State) (b : Bool) : (s.bufferMemm b).sr = s.sr := rfl
@[simp] theorem State.bufferMemm_xr (s : State) (b : Bool) : (s.bufferMemm b).xr = s.xr := rfl
@[simp] theorem State.bufferMemm_lr (s : State) (b : Bool) : (s.bufferMemm b).lr = s.lr := rfl
@[simp] theorem State.bufferMemm_ir (s : State) (b : Bool) : (s.bufferMemm b).ir = s.ir := rfl
@[simp] theorem State.bufferMemm_xctDepth (s : State) (b : Bool) : (s.bufferMemm b).xctDepth = s.xctDepth := rfl
@[simp] theorem State.bufferMemm_instrAddr (s : State) (b : Bool) : (s.bufferMemm b).instrAddr = s.instrAddr := rfl
@[simp] theorem State.bufferMemm_intReq (s : State) (b : Bool) : (s.bufferMemm b).intReq = s.intReq := rfl
@[simp] theorem State.bufferMemm_ion (s : State) (b : Bool) : (s.bufferMemm b).ion = s.ion := rfl
@[simp] theorem State.bufferMemm_ionDefer (s : State) (b : Bool) : (s.bufferMemm b).ionDefer = s.ionDefer := rfl
@[simp] theorem State.bufferMemm_apiEnb (s : State) (b : Bool) : (s.bufferMemm b).apiEnb = s.apiEnb := rfl
@[simp] theorem State.bufferMemm_apiReq (s : State) (b : Bool) : (s.bufferMemm b).apiReq = s.apiReq := rfl
@[simp] theorem State.bufferMemm_apiAct (s : State) (b : Bool) : (s.bufferMemm b).apiAct = s.apiAct := rfl
@[simp] theorem State.bufferMemm_memm (s : State) (b : Bool) : (s.bufferMemm b).memm = s.memm := rfl
@[simp] theorem State.bufferMemm_usmd (s : State) (b : Bool) : (s.bufferMemm b).usmd = s.usmd := rfl
@[simp] theorem State.bufferMemm_memmBuf (s : State) (b : Bool) : (s.bufferMemm b).memmBuf = b := rfl
@[simp] theorem State.bufferMemm_usmdBuf (s : State) (b : Bool) : (s.bufferMemm b).usmdBuf = s.usmdBuf := rfl
@[simp] theorem State.bufferMemm_modeDefer (s : State) (b : Bool) : (s.bufferMemm b).modeDefer = 2 := rfl
@[simp] theorem State.bufferMemm_restPending (s : State) (b : Bool) : (s.bufferMemm b).restPending = s.restPending := rfl
@[simp] theorem State.bufferMemm_br (s : State) (b : Bool) : (s.bufferMemm b).br = s.br := rfl
@[simp] theorem State.bufferMemm_rr (s : State) (b : Bool) : (s.bufferMemm b).rr = s.rr := rfl
@[simp] theorem State.bufferMemm_mmr (s : State) (b : Bool) : (s.bufferMemm b).mmr = s.mmr := rfl
@[simp] theorem State.bufferMemm_nexm (s : State) (b : Bool) : (s.bufferMemm b).nexm = s.nexm := rfl
@[simp] theorem State.bufferMemm_prvn (s : State) (b : Bool) : (s.bufferMemm b).prvn = s.prvn := rfl
@[simp] theorem State.bufferMemm_trapPending (s : State) (b : Bool) : (s.bufferMemm b).trapPending = s.trapPending := rfl
@[simp] theorem State.bufferMemm_fma (s : State) (b : Bool) : (s.bufferMemm b).fma = s.fma := rfl
@[simp] theorem State.bufferMemm_fmb (s : State) (b : Bool) : (s.bufferMemm b).fmb = s.fmb := rfl
@[simp] theorem State.bufferMemm_fmq (s : State) (b : Bool) : (s.bufferMemm b).fmq = s.fmq := rfl
@[simp] theorem State.bufferMemm_fguard (s : State) (b : Bool) : (s.bufferMemm b).fguard = s.fguard := rfl
@[simp] theorem State.bufferMemm_jeaBase (s : State) (b : Bool) : (s.bufferMemm b).jeaBase = s.jeaBase := rfl
@[simp] theorem State.bufferMemm_pcq (s : State) (b : Bool) : (s.bufferMemm b).pcq = s.pcq := rfl
@[simp] theorem State.bufferMemm_runState (s : State) (b : Bool) : (s.bufferMemm b).runState = s.runState := rfl
@[simp] theorem State.bufferMemm_mem (s : State) (b : Bool) : (s.bufferMemm b).mem = s.mem := rfl
@[simp] theorem State.bufferMemm_breakpoints (s : State) (b : Bool) : (s.bufferMemm b).breakpoints = s.breakpoints := rfl
@[simp] theorem State.bufferMemm_firstCycle (s : State) (b : Bool) : (s.bufferMemm b).firstCycle = s.firstCycle := rfl
@[simp] theorem State.bufferMemm_devices (s : State) (b : Bool) : (s.bufferMemm b).devices = s.devices := rfl
@[simp] theorem State.bufferMemm_moves (s : State) (b : Bool) : (s.bufferMemm b).moves = s.moves := rfl
@[simp] theorem State.bufferMemm_ioAnswers (s : State) (b : Bool) : (s.bufferMemm b).ioAnswers = s.ioAnswers := rfl
@[simp] theorem State.bufferMemm_statusPolls (s : State) (b : Bool) : (s.bufferMemm b).statusPolls = s.statusPolls := rfl
@[simp] theorem State.bufferMemm_draws (s : State) (b : Bool) : (s.bufferMemm b).draws = s.draws := rfl
@[simp] theorem State.bufferMemm_hostData (s : State) (b : Bool) : (s.bufferMemm b).hostData = s.hostData := rfl

@[simp] theorem State.dismiss_cfg (s : State) : (s.dismiss).cfg = s.cfg := rfl
@[simp] theorem State.dismiss_ac (s : State) : (s.dismiss).ac = s.ac := rfl
@[simp] theorem State.dismiss_l (s : State) : (s.dismiss).l = s.l := rfl
@[simp] theorem State.dismiss_mq (s : State) : (s.dismiss).mq = s.mq := rfl
@[simp] theorem State.dismiss_pc (s : State) : (s.dismiss).pc = s.pc := rfl
@[simp] theorem State.dismiss_sc (s : State) : (s.dismiss).sc = s.sc := rfl
@[simp] theorem State.dismiss_eaeAcSign (s : State) : (s.dismiss).eaeAcSign = s.eaeAcSign := rfl
@[simp] theorem State.dismiss_sr (s : State) : (s.dismiss).sr = s.sr := rfl
@[simp] theorem State.dismiss_xr (s : State) : (s.dismiss).xr = s.xr := rfl
@[simp] theorem State.dismiss_lr (s : State) : (s.dismiss).lr = s.lr := rfl
@[simp] theorem State.dismiss_ir (s : State) : (s.dismiss).ir = s.ir := rfl
@[simp] theorem State.dismiss_xctDepth (s : State) : (s.dismiss).xctDepth = s.xctDepth := rfl
@[simp] theorem State.dismiss_instrAddr (s : State) : (s.dismiss).instrAddr = s.instrAddr := rfl
@[simp] theorem State.dismiss_intReq (s : State) : (s.dismiss).intReq = s.intReq := rfl
@[simp] theorem State.dismiss_ion (s : State) : (s.dismiss).ion = s.ion := rfl
@[simp] theorem State.dismiss_ionDefer (s : State) : (s.dismiss).ionDefer = s.ionDefer := rfl
@[simp] theorem State.dismiss_apiEnb (s : State) : (s.dismiss).apiEnb = s.apiEnb := rfl
@[simp] theorem State.dismiss_apiReq (s : State) : (s.dismiss).apiReq = s.apiReq := rfl
@[simp] theorem State.dismiss_apiAct (s : State) : (s.dismiss).apiAct = s.apiAct &&& ~~~levelBit (topLevel s.apiAct) := rfl
@[simp] theorem State.dismiss_memm (s : State) : (s.dismiss).memm = s.memm := rfl
@[simp] theorem State.dismiss_usmd (s : State) : (s.dismiss).usmd = s.usmd := rfl
@[simp] theorem State.dismiss_memmBuf (s : State) : (s.dismiss).memmBuf = s.memmBuf := rfl
@[simp] theorem State.dismiss_usmdBuf (s : State) : (s.dismiss).usmdBuf = s.usmdBuf := rfl
@[simp] theorem State.dismiss_modeDefer (s : State) : (s.dismiss).modeDefer = s.modeDefer := rfl
@[simp] theorem State.dismiss_restPending (s : State) : (s.dismiss).restPending = s.restPending := rfl
@[simp] theorem State.dismiss_br (s : State) : (s.dismiss).br = s.br := rfl
@[simp] theorem State.dismiss_rr (s : State) : (s.dismiss).rr = s.rr := rfl
@[simp] theorem State.dismiss_mmr (s : State) : (s.dismiss).mmr = s.mmr := rfl
@[simp] theorem State.dismiss_nexm (s : State) : (s.dismiss).nexm = s.nexm := rfl
@[simp] theorem State.dismiss_prvn (s : State) : (s.dismiss).prvn = s.prvn := rfl
@[simp] theorem State.dismiss_trapPending (s : State) : (s.dismiss).trapPending = s.trapPending := rfl
@[simp] theorem State.dismiss_fma (s : State) : (s.dismiss).fma = s.fma := rfl
@[simp] theorem State.dismiss_fmb (s : State) : (s.dismiss).fmb = s.fmb := rfl
@[simp] theorem State.dismiss_fmq (s : State) : (s.dismiss).fmq = s.fmq := rfl
@[simp] theorem State.dismiss_fguard (s : State) : (s.dismiss).fguard = s.fguard := rfl
@[simp] theorem State.dismiss_jeaBase (s : State) : (s.dismiss).jeaBase = s.jeaBase := rfl
@[simp] theorem State.dismiss_pcq (s : State) : (s.dismiss).pcq = s.pcq := rfl
@[simp] theorem State.dismiss_runState (s : State) : (s.dismiss).runState = s.runState := rfl
@[simp] theorem State.dismiss_mem (s : State) : (s.dismiss).mem = s.mem := rfl
@[simp] theorem State.dismiss_breakpoints (s : State) : (s.dismiss).breakpoints = s.breakpoints := rfl
@[simp] theorem State.dismiss_firstCycle (s : State) : (s.dismiss).firstCycle = s.firstCycle := rfl
@[simp] theorem State.dismiss_devices (s : State) : (s.dismiss).devices = s.devices := rfl
@[simp] theorem State.dismiss_moves (s : State) : (s.dismiss).moves = s.moves := rfl
@[simp] theorem State.dismiss_ioAnswers (s : State) : (s.dismiss).ioAnswers = s.ioAnswers := rfl
@[simp] theorem State.dismiss_statusPolls (s : State) : (s.dismiss).statusPolls = s.statusPolls := rfl
@[simp] theorem State.dismiss_draws (s : State) : (s.dismiss).draws = s.draws := rfl
@[simp] theorem State.dismiss_hostData (s : State) : (s.dismiss).hostData = s.hostData := rfl

@[simp] theorem State.undeferred_cfg (s : State) : (s.undeferred).cfg = s.cfg := rfl
@[simp] theorem State.undeferred_ac (s : State) : (s.undeferred).ac = s.ac := rfl
@[simp] theorem State.undeferred_l (s : State) : (s.undeferred).l = s.l := rfl
@[simp] theorem State.undeferred_mq (s : State) : (s.undeferred).mq = s.mq := rfl
@[simp] theorem State.undeferred_pc (s : State) : (s.undeferred).pc = s.pc := rfl
@[simp] theorem State.undeferred_sc (s : State) : (s.undeferred).sc = s.sc := rfl
@[simp] theorem State.undeferred_eaeAcSign (s : State) : (s.undeferred).eaeAcSign = s.eaeAcSign := rfl
@[simp] theorem State.undeferred_sr (s : State) : (s.undeferred).sr = s.sr := rfl
@[simp] theorem State.undeferred_xr (s : State) : (s.undeferred).xr = s.xr := rfl
@[simp] theorem State.undeferred_lr (s : State) : (s.undeferred).lr = s.lr := rfl
@[simp] theorem State.undeferred_ir (s : State) : (s.undeferred).ir = s.ir := rfl
@[simp] theorem State.undeferred_xctDepth (s : State) : (s.undeferred).xctDepth = s.xctDepth := rfl
@[simp] theorem State.undeferred_instrAddr (s : State) : (s.undeferred).instrAddr = s.instrAddr := rfl
@[simp] theorem State.undeferred_intReq (s : State) : (s.undeferred).intReq = s.intReq := rfl
@[simp] theorem State.undeferred_ion (s : State) : (s.undeferred).ion = s.ion := rfl
@[simp] theorem State.undeferred_ionDefer (s : State) : (s.undeferred).ionDefer = false := rfl
@[simp] theorem State.undeferred_apiEnb (s : State) : (s.undeferred).apiEnb = s.apiEnb := rfl
@[simp] theorem State.undeferred_apiReq (s : State) : (s.undeferred).apiReq = s.apiReq := rfl
@[simp] theorem State.undeferred_apiAct (s : State) : (s.undeferred).apiAct = s.apiAct := rfl
@[simp] theorem State.undeferred_memm (s : State) : (s.undeferred).memm = s.memm := rfl
@[simp] theorem State.undeferred_usmd (s : State) : (s.undeferred).usmd = s.usmd := rfl
@[simp] theorem State.undeferred_memmBuf (s : State) : (s.undeferred).memmBuf = s.memmBuf := rfl
@[simp] theorem State.undeferred_usmdBuf (s : State) : (s.undeferred).usmdBuf = s.usmdBuf := rfl
@[simp] theorem State.undeferred_modeDefer (s : State) : (s.undeferred).modeDefer = s.modeDefer := rfl
@[simp] theorem State.undeferred_restPending (s : State) : (s.undeferred).restPending = s.restPending := rfl
@[simp] theorem State.undeferred_br (s : State) : (s.undeferred).br = s.br := rfl
@[simp] theorem State.undeferred_rr (s : State) : (s.undeferred).rr = s.rr := rfl
@[simp] theorem State.undeferred_mmr (s : State) : (s.undeferred).mmr = s.mmr := rfl
@[simp] theorem State.undeferred_nexm (s : State) : (s.undeferred).nexm = s.nexm := rfl
@[simp] theorem State.undeferred_prvn (s : State) : (s.undeferred).prvn = s.prvn := rfl
@[simp] theorem State.undeferred_trapPending (s : State) : (s.undeferred).trapPending = s.trapPending := rfl
@[simp] theorem State.undeferred_fma (s : State) : (s.undeferred).fma = s.fma := rfl
@[simp] theorem State.undeferred_fmb (s : State) : (s.undeferred).fmb = s.fmb := rfl
@[simp] theorem State.undeferred_fmq (s : State) : (s.undeferred).fmq = s.fmq := rfl
@[simp] theorem State.undeferred_fguard (s : State) : (s.undeferred).fguard = s.fguard := rfl
@[simp] theorem State.undeferred_jeaBase (s : State) : (s.undeferred).jeaBase = s.jeaBase := rfl
@[simp] theorem State.undeferred_pcq (s : State) : (s.undeferred).pcq = s.pcq := rfl
@[simp] theorem State.undeferred_runState (s : State) : (s.undeferred).runState = s.runState := rfl
@[simp] theorem State.undeferred_mem (s : State) : (s.undeferred).mem = s.mem := rfl
@[simp] theorem State.undeferred_breakpoints (s : State) : (s.undeferred).breakpoints = s.breakpoints := rfl
@[simp] theorem State.undeferred_firstCycle (s : State) : (s.undeferred).firstCycle = s.firstCycle := rfl
@[simp] theorem State.undeferred_devices (s : State) : (s.undeferred).devices = s.devices := rfl
@[simp] theorem State.undeferred_moves (s : State) : (s.undeferred).moves = s.moves := rfl
@[simp] theorem State.undeferred_ioAnswers (s : State) : (s.undeferred).ioAnswers = s.ioAnswers := rfl
@[simp] theorem State.undeferred_statusPolls (s : State) : (s.undeferred).statusPolls = s.statusPolls := rfl
@[simp] theorem State.undeferred_draws (s : State) : (s.undeferred).draws = s.draws := rfl
@[simp] theorem State.undeferred_hostData (s : State) : (s.undeferred).hostData = s.hostData := rfl

@[simp] theorem State.startRun_cfg (s : State) : (s.startRun).cfg = s.cfg := rfl
@[simp] theorem State.startRun_ac (s : State) : (s.startRun).ac = s.ac := rfl
@[simp] theorem State.startRun_l (s : State) : (s.startRun).l = s.l := rfl
@[simp] theorem State.startRun_mq (s : State) : (s.startRun).mq = s.mq := rfl
@[simp] theorem State.startRun_pc (s : State) : (s.startRun).pc = s.pc := rfl
@[simp] theorem State.startRun_sc (s : State) : (s.startRun).sc = s.sc := rfl
@[simp] theorem State.startRun_eaeAcSign (s : State) : (s.startRun).eaeAcSign = s.eaeAcSign := rfl
@[simp] theorem State.startRun_sr (s : State) : (s.startRun).sr = s.sr := rfl
@[simp] theorem State.startRun_xr (s : State) : (s.startRun).xr = s.xr := rfl
@[simp] theorem State.startRun_lr (s : State) : (s.startRun).lr = s.lr := rfl
@[simp] theorem State.startRun_ir (s : State) : (s.startRun).ir = s.ir := rfl
@[simp] theorem State.startRun_xctDepth (s : State) : (s.startRun).xctDepth = s.xctDepth := rfl
@[simp] theorem State.startRun_instrAddr (s : State) : (s.startRun).instrAddr = s.instrAddr := rfl
@[simp] theorem State.startRun_intReq (s : State) : (s.startRun).intReq = s.intReq := rfl
@[simp] theorem State.startRun_ion (s : State) : (s.startRun).ion = s.ion := rfl
@[simp] theorem State.startRun_ionDefer (s : State) : (s.startRun).ionDefer = s.ionDefer := rfl
@[simp] theorem State.startRun_apiEnb (s : State) : (s.startRun).apiEnb = s.apiEnb := rfl
@[simp] theorem State.startRun_apiReq (s : State) : (s.startRun).apiReq = s.apiReq := rfl
@[simp] theorem State.startRun_apiAct (s : State) : (s.startRun).apiAct = s.apiAct := rfl
@[simp] theorem State.startRun_memm (s : State) : (s.startRun).memm = s.memm := rfl
@[simp] theorem State.startRun_usmd (s : State) : (s.startRun).usmd = s.usmd := rfl
@[simp] theorem State.startRun_memmBuf (s : State) : (s.startRun).memmBuf = s.memmBuf := rfl
@[simp] theorem State.startRun_usmdBuf (s : State) : (s.startRun).usmdBuf = s.usmdBuf := rfl
@[simp] theorem State.startRun_modeDefer (s : State) : (s.startRun).modeDefer = s.modeDefer := rfl
@[simp] theorem State.startRun_restPending (s : State) : (s.startRun).restPending = s.restPending := rfl
@[simp] theorem State.startRun_br (s : State) : (s.startRun).br = s.br := rfl
@[simp] theorem State.startRun_rr (s : State) : (s.startRun).rr = s.rr := rfl
@[simp] theorem State.startRun_mmr (s : State) : (s.startRun).mmr = s.mmr := rfl
@[simp] theorem State.startRun_nexm (s : State) : (s.startRun).nexm = s.nexm := rfl
@[simp] theorem State.startRun_prvn (s : State) : (s.startRun).prvn = s.prvn := rfl
@[simp] theorem State.startRun_trapPending (s : State) : (s.startRun).trapPending = s.trapPending := rfl
@[simp] theorem State.startRun_fma (s : State) : (s.startRun).fma = s.fma := rfl
@[simp] theorem State.startRun_fmb (s : State) : (s.startRun).fmb = s.fmb := rfl
@[simp] theorem State.startRun_fmq (s : State) : (s.startRun).fmq = s.fmq := rfl
@[simp] theorem State.startRun_fguard (s : State) : (s.startRun).fguard = s.fguard := rfl
@[simp] theorem State.startRun_jeaBase (s : State) : (s.startRun).jeaBase = s.jeaBase := rfl
@[simp] theorem State.startRun_pcq (s : State) : (s.startRun).pcq = s.pcq := rfl
@[simp] theorem State.startRun_runState (s : State) : (s.startRun).runState = .running := rfl
@[simp] theorem State.startRun_mem (s : State) : (s.startRun).mem = s.mem := rfl
@[simp] theorem State.startRun_breakpoints (s : State) : (s.startRun).breakpoints = s.breakpoints := rfl
@[simp] theorem State.startRun_firstCycle (s : State) : (s.startRun).firstCycle = true := rfl
@[simp] theorem State.startRun_devices (s : State) : (s.startRun).devices = s.devices := rfl
@[simp] theorem State.startRun_moves (s : State) : (s.startRun).moves = s.moves := rfl
@[simp] theorem State.startRun_ioAnswers (s : State) : (s.startRun).ioAnswers = s.ioAnswers := rfl
@[simp] theorem State.startRun_statusPolls (s : State) : (s.startRun).statusPolls = s.statusPolls := rfl
@[simp] theorem State.startRun_draws (s : State) : (s.startRun).draws = s.draws := rfl
@[simp] theorem State.startRun_hostData (s : State) : (s.startRun).hostData = s.hostData := rfl

@[simp] theorem State.fetched_cfg (s : State) (w : Word) : (s.fetched w).cfg = s.cfg := rfl
@[simp] theorem State.fetched_ac (s : State) (w : Word) : (s.fetched w).ac = s.ac := rfl
@[simp] theorem State.fetched_l (s : State) (w : Word) : (s.fetched w).l = s.l := rfl
@[simp] theorem State.fetched_mq (s : State) (w : Word) : (s.fetched w).mq = s.mq := rfl
@[simp] theorem State.fetched_pc (s : State) (w : Word) : (s.fetched w).pc = incPC s.cfg s.pc := rfl
@[simp] theorem State.fetched_sc (s : State) (w : Word) : (s.fetched w).sc = s.sc := rfl
@[simp] theorem State.fetched_eaeAcSign (s : State) (w : Word) : (s.fetched w).eaeAcSign = s.eaeAcSign := rfl
@[simp] theorem State.fetched_sr (s : State) (w : Word) : (s.fetched w).sr = s.sr := rfl
@[simp] theorem State.fetched_xr (s : State) (w : Word) : (s.fetched w).xr = s.xr := rfl
@[simp] theorem State.fetched_lr (s : State) (w : Word) : (s.fetched w).lr = s.lr := rfl
@[simp] theorem State.fetched_ir (s : State) (w : Word) : (s.fetched w).ir = w := rfl
@[simp] theorem State.fetched_xctDepth (s : State) (w : Word) : (s.fetched w).xctDepth = 0 := rfl
@[simp] theorem State.fetched_instrAddr (s : State) (w : Word) : (s.fetched w).instrAddr = s.pc := rfl
@[simp] theorem State.fetched_intReq (s : State) (w : Word) : (s.fetched w).intReq = s.intReq := rfl
@[simp] theorem State.fetched_ion (s : State) (w : Word) : (s.fetched w).ion = s.ion := rfl
@[simp] theorem State.fetched_ionDefer (s : State) (w : Word) : (s.fetched w).ionDefer = s.ionDefer := rfl
@[simp] theorem State.fetched_apiEnb (s : State) (w : Word) : (s.fetched w).apiEnb = s.apiEnb := rfl
@[simp] theorem State.fetched_apiReq (s : State) (w : Word) : (s.fetched w).apiReq = s.apiReq := rfl
@[simp] theorem State.fetched_apiAct (s : State) (w : Word) : (s.fetched w).apiAct = s.apiAct := rfl
@[simp] theorem State.fetched_memm (s : State) (w : Word) : (s.fetched w).memm = s.memm := rfl
@[simp] theorem State.fetched_usmd (s : State) (w : Word) : (s.fetched w).usmd = s.usmd := rfl
@[simp] theorem State.fetched_memmBuf (s : State) (w : Word) : (s.fetched w).memmBuf = s.memmBuf := rfl
@[simp] theorem State.fetched_usmdBuf (s : State) (w : Word) : (s.fetched w).usmdBuf = s.usmdBuf := rfl
@[simp] theorem State.fetched_modeDefer (s : State) (w : Word) : (s.fetched w).modeDefer = s.modeDefer := rfl
@[simp] theorem State.fetched_restPending (s : State) (w : Word) : (s.fetched w).restPending = s.restPending := rfl
@[simp] theorem State.fetched_br (s : State) (w : Word) : (s.fetched w).br = s.br := rfl
@[simp] theorem State.fetched_rr (s : State) (w : Word) : (s.fetched w).rr = s.rr := rfl
@[simp] theorem State.fetched_mmr (s : State) (w : Word) : (s.fetched w).mmr = s.mmr := rfl
@[simp] theorem State.fetched_nexm (s : State) (w : Word) : (s.fetched w).nexm = s.nexm := rfl
@[simp] theorem State.fetched_prvn (s : State) (w : Word) : (s.fetched w).prvn = s.prvn := rfl
@[simp] theorem State.fetched_trapPending (s : State) (w : Word) : (s.fetched w).trapPending = s.trapPending := rfl
@[simp] theorem State.fetched_fma (s : State) (w : Word) : (s.fetched w).fma = s.fma := rfl
@[simp] theorem State.fetched_fmb (s : State) (w : Word) : (s.fetched w).fmb = s.fmb := rfl
@[simp] theorem State.fetched_fmq (s : State) (w : Word) : (s.fetched w).fmq = s.fmq := rfl
@[simp] theorem State.fetched_fguard (s : State) (w : Word) : (s.fetched w).fguard = s.fguard := rfl
@[simp] theorem State.fetched_jeaBase (s : State) (w : Word) : (s.fetched w).jeaBase = s.jeaBase := rfl
@[simp] theorem State.fetched_pcq (s : State) (w : Word) : (s.fetched w).pcq = s.pcq := rfl
@[simp] theorem State.fetched_runState (s : State) (w : Word) : (s.fetched w).runState = s.runState := rfl
@[simp] theorem State.fetched_mem (s : State) (w : Word) : (s.fetched w).mem = s.mem := rfl
@[simp] theorem State.fetched_breakpoints (s : State) (w : Word) : (s.fetched w).breakpoints = s.breakpoints := rfl
@[simp] theorem State.fetched_firstCycle (s : State) (w : Word) : (s.fetched w).firstCycle = s.firstCycle := rfl
@[simp] theorem State.fetched_devices (s : State) (w : Word) : (s.fetched w).devices = s.devices := rfl
@[simp] theorem State.fetched_moves (s : State) (w : Word) : (s.fetched w).moves = s.moves := rfl
@[simp] theorem State.fetched_ioAnswers (s : State) (w : Word) : (s.fetched w).ioAnswers = s.ioAnswers := rfl
@[simp] theorem State.fetched_statusPolls (s : State) (w : Word) : (s.fetched w).statusPolls = s.statusPolls := rfl
@[simp] theorem State.fetched_draws (s : State) (w : Word) : (s.fetched w).draws = s.draws := rfl
@[simp] theorem State.fetched_hostData (s : State) (w : Word) : (s.fetched w).hostData = s.hostData := rfl

/-! The mode commit and the start of a cycle change the modes, the deferral counter of the modes and `firstCycle` alone. -/

@[simp] theorem State.commitModes_cfg (s : State) : s.commitModes.cfg = s.cfg := by unfold State.commitModes; split; rfl; split <;> rfl
@[simp] theorem State.commitModes_ac (s : State) : s.commitModes.ac = s.ac := by unfold State.commitModes; split; rfl; split <;> rfl
@[simp] theorem State.commitModes_l (s : State) : s.commitModes.l = s.l := by unfold State.commitModes; split; rfl; split <;> rfl
@[simp] theorem State.commitModes_mq (s : State) : s.commitModes.mq = s.mq := by unfold State.commitModes; split; rfl; split <;> rfl
@[simp] theorem State.commitModes_pc (s : State) : s.commitModes.pc = s.pc := by unfold State.commitModes; split; rfl; split <;> rfl
@[simp] theorem State.commitModes_sc (s : State) : s.commitModes.sc = s.sc := by unfold State.commitModes; split; rfl; split <;> rfl
@[simp] theorem State.commitModes_eaeAcSign (s : State) : s.commitModes.eaeAcSign = s.eaeAcSign := by unfold State.commitModes; split; rfl; split <;> rfl
@[simp] theorem State.commitModes_sr (s : State) : s.commitModes.sr = s.sr := by unfold State.commitModes; split; rfl; split <;> rfl
@[simp] theorem State.commitModes_xr (s : State) : s.commitModes.xr = s.xr := by unfold State.commitModes; split; rfl; split <;> rfl
@[simp] theorem State.commitModes_lr (s : State) : s.commitModes.lr = s.lr := by unfold State.commitModes; split; rfl; split <;> rfl
@[simp] theorem State.commitModes_ir (s : State) : s.commitModes.ir = s.ir := by unfold State.commitModes; split; rfl; split <;> rfl
@[simp] theorem State.commitModes_xctDepth (s : State) : s.commitModes.xctDepth = s.xctDepth := by unfold State.commitModes; split; rfl; split <;> rfl
@[simp] theorem State.commitModes_instrAddr (s : State) : s.commitModes.instrAddr = s.instrAddr := by unfold State.commitModes; split; rfl; split <;> rfl
@[simp] theorem State.commitModes_intReq (s : State) : s.commitModes.intReq = s.intReq := by unfold State.commitModes; split; rfl; split <;> rfl
@[simp] theorem State.commitModes_ion (s : State) : s.commitModes.ion = s.ion := by unfold State.commitModes; split; rfl; split <;> rfl
@[simp] theorem State.commitModes_ionDefer (s : State) : s.commitModes.ionDefer = s.ionDefer := by unfold State.commitModes; split; rfl; split <;> rfl
@[simp] theorem State.commitModes_apiEnb (s : State) : s.commitModes.apiEnb = s.apiEnb := by unfold State.commitModes; split; rfl; split <;> rfl
@[simp] theorem State.commitModes_apiReq (s : State) : s.commitModes.apiReq = s.apiReq := by unfold State.commitModes; split; rfl; split <;> rfl
@[simp] theorem State.commitModes_apiAct (s : State) : s.commitModes.apiAct = s.apiAct := by unfold State.commitModes; split; rfl; split <;> rfl
@[simp] theorem State.commitModes_memmBuf (s : State) : s.commitModes.memmBuf = s.memmBuf := by unfold State.commitModes; split; rfl; split <;> rfl
@[simp] theorem State.commitModes_usmdBuf (s : State) : s.commitModes.usmdBuf = s.usmdBuf := by unfold State.commitModes; split; rfl; split <;> rfl
@[simp] theorem State.commitModes_restPending (s : State) : s.commitModes.restPending = s.restPending := by unfold State.commitModes; split; rfl; split <;> rfl
@[simp] theorem State.commitModes_br (s : State) : s.commitModes.br = s.br := by unfold State.commitModes; split; rfl; split <;> rfl
@[simp] theorem State.commitModes_rr (s : State) : s.commitModes.rr = s.rr := by unfold State.commitModes; split; rfl; split <;> rfl
@[simp] theorem State.commitModes_mmr (s : State) : s.commitModes.mmr = s.mmr := by unfold State.commitModes; split; rfl; split <;> rfl
@[simp] theorem State.commitModes_nexm (s : State) : s.commitModes.nexm = s.nexm := by unfold State.commitModes; split; rfl; split <;> rfl
@[simp] theorem State.commitModes_prvn (s : State) : s.commitModes.prvn = s.prvn := by unfold State.commitModes; split; rfl; split <;> rfl
@[simp] theorem State.commitModes_trapPending (s : State) : s.commitModes.trapPending = s.trapPending := by unfold State.commitModes; split; rfl; split <;> rfl
@[simp] theorem State.commitModes_fma (s : State) : s.commitModes.fma = s.fma := by unfold State.commitModes; split; rfl; split <;> rfl
@[simp] theorem State.commitModes_fmb (s : State) : s.commitModes.fmb = s.fmb := by unfold State.commitModes; split; rfl; split <;> rfl
@[simp] theorem State.commitModes_fmq (s : State) : s.commitModes.fmq = s.fmq := by unfold State.commitModes; split; rfl; split <;> rfl
@[simp] theorem State.commitModes_fguard (s : State) : s.commitModes.fguard = s.fguard := by unfold State.commitModes; split; rfl; split <;> rfl
@[simp] theorem State.commitModes_jeaBase (s : State) : s.commitModes.jeaBase = s.jeaBase := by unfold State.commitModes; split; rfl; split <;> rfl
@[simp] theorem State.commitModes_pcq (s : State) : s.commitModes.pcq = s.pcq := by unfold State.commitModes; split; rfl; split <;> rfl
@[simp] theorem State.commitModes_runState (s : State) : s.commitModes.runState = s.runState := by unfold State.commitModes; split; rfl; split <;> rfl
@[simp] theorem State.commitModes_mem (s : State) : s.commitModes.mem = s.mem := by unfold State.commitModes; split; rfl; split <;> rfl
@[simp] theorem State.commitModes_breakpoints (s : State) : s.commitModes.breakpoints = s.breakpoints := by unfold State.commitModes; split; rfl; split <;> rfl
@[simp] theorem State.commitModes_firstCycle (s : State) : s.commitModes.firstCycle = s.firstCycle := by unfold State.commitModes; split; rfl; split <;> rfl
@[simp] theorem State.commitModes_devices (s : State) : s.commitModes.devices = s.devices := by unfold State.commitModes; split; rfl; split <;> rfl
@[simp] theorem State.commitModes_moves (s : State) : s.commitModes.moves = s.moves := by unfold State.commitModes; split; rfl; split <;> rfl
@[simp] theorem State.commitModes_ioAnswers (s : State) : s.commitModes.ioAnswers = s.ioAnswers := by unfold State.commitModes; split; rfl; split <;> rfl
@[simp] theorem State.commitModes_statusPolls (s : State) : s.commitModes.statusPolls = s.statusPolls := by unfold State.commitModes; split; rfl; split <;> rfl
@[simp] theorem State.commitModes_draws (s : State) : s.commitModes.draws = s.draws := by unfold State.commitModes; split; rfl; split <;> rfl
@[simp] theorem State.commitModes_hostData (s : State) : s.commitModes.hostData = s.hostData := by unfold State.commitModes; split; rfl; split <;> rfl

@[simp] theorem State.started_cfg (s : State) : s.started.cfg = s.cfg := s.commitModes_cfg
@[simp] theorem State.started_ac (s : State) : s.started.ac = s.ac := s.commitModes_ac
@[simp] theorem State.started_l (s : State) : s.started.l = s.l := s.commitModes_l
@[simp] theorem State.started_mq (s : State) : s.started.mq = s.mq := s.commitModes_mq
@[simp] theorem State.started_pc (s : State) : s.started.pc = s.pc := s.commitModes_pc
@[simp] theorem State.started_sc (s : State) : s.started.sc = s.sc := s.commitModes_sc
@[simp] theorem State.started_eaeAcSign (s : State) : s.started.eaeAcSign = s.eaeAcSign := s.commitModes_eaeAcSign
@[simp] theorem State.started_sr (s : State) : s.started.sr = s.sr := s.commitModes_sr
@[simp] theorem State.started_xr (s : State) : s.started.xr = s.xr := s.commitModes_xr
@[simp] theorem State.started_lr (s : State) : s.started.lr = s.lr := s.commitModes_lr
@[simp] theorem State.started_ir (s : State) : s.started.ir = s.ir := s.commitModes_ir
@[simp] theorem State.started_xctDepth (s : State) : s.started.xctDepth = s.xctDepth := s.commitModes_xctDepth
@[simp] theorem State.started_instrAddr (s : State) : s.started.instrAddr = s.instrAddr := s.commitModes_instrAddr
@[simp] theorem State.started_intReq (s : State) : s.started.intReq = s.intReq := s.commitModes_intReq
@[simp] theorem State.started_ion (s : State) : s.started.ion = s.ion := s.commitModes_ion
@[simp] theorem State.started_ionDefer (s : State) : s.started.ionDefer = s.ionDefer := s.commitModes_ionDefer
@[simp] theorem State.started_apiEnb (s : State) : s.started.apiEnb = s.apiEnb := s.commitModes_apiEnb
@[simp] theorem State.started_apiReq (s : State) : s.started.apiReq = s.apiReq := s.commitModes_apiReq
@[simp] theorem State.started_apiAct (s : State) : s.started.apiAct = s.apiAct := s.commitModes_apiAct
@[simp] theorem State.started_memm (s : State) : s.started.memm = s.commitModes.memm := rfl
@[simp] theorem State.started_usmd (s : State) : s.started.usmd = s.commitModes.usmd := rfl
@[simp] theorem State.started_memmBuf (s : State) : s.started.memmBuf = s.memmBuf := s.commitModes_memmBuf
@[simp] theorem State.started_usmdBuf (s : State) : s.started.usmdBuf = s.usmdBuf := s.commitModes_usmdBuf
@[simp] theorem State.started_modeDefer (s : State) : s.started.modeDefer = s.commitModes.modeDefer := rfl
@[simp] theorem State.started_restPending (s : State) : s.started.restPending = s.restPending := s.commitModes_restPending
@[simp] theorem State.started_br (s : State) : s.started.br = s.br := s.commitModes_br
@[simp] theorem State.started_rr (s : State) : s.started.rr = s.rr := s.commitModes_rr
@[simp] theorem State.started_mmr (s : State) : s.started.mmr = s.mmr := s.commitModes_mmr
@[simp] theorem State.started_nexm (s : State) : s.started.nexm = s.nexm := s.commitModes_nexm
@[simp] theorem State.started_prvn (s : State) : s.started.prvn = s.prvn := s.commitModes_prvn
@[simp] theorem State.started_trapPending (s : State) : s.started.trapPending = s.trapPending := s.commitModes_trapPending
@[simp] theorem State.started_fma (s : State) : s.started.fma = s.fma := s.commitModes_fma
@[simp] theorem State.started_fmb (s : State) : s.started.fmb = s.fmb := s.commitModes_fmb
@[simp] theorem State.started_fmq (s : State) : s.started.fmq = s.fmq := s.commitModes_fmq
@[simp] theorem State.started_fguard (s : State) : s.started.fguard = s.fguard := s.commitModes_fguard
@[simp] theorem State.started_jeaBase (s : State) : s.started.jeaBase = s.jeaBase := s.commitModes_jeaBase
@[simp] theorem State.started_pcq (s : State) : s.started.pcq = s.pcq := s.commitModes_pcq
@[simp] theorem State.started_runState (s : State) : s.started.runState = s.runState := s.commitModes_runState
@[simp] theorem State.started_mem (s : State) : s.started.mem = s.mem := s.commitModes_mem
@[simp] theorem State.started_breakpoints (s : State) : s.started.breakpoints = s.breakpoints := s.commitModes_breakpoints
@[simp] theorem State.started_firstCycle (s : State) : s.started.firstCycle = false := rfl
@[simp] theorem State.started_devices (s : State) : s.started.devices = s.devices := s.commitModes_devices
@[simp] theorem State.started_moves (s : State) : s.started.moves = s.moves := s.commitModes_moves
@[simp] theorem State.started_ioAnswers (s : State) : s.started.ioAnswers = s.ioAnswers := s.commitModes_ioAnswers
@[simp] theorem State.started_statusPolls (s : State) : s.started.statusPolls = s.statusPolls := s.commitModes_statusPolls
@[simp] theorem State.started_draws (s : State) : s.started.draws = s.draws := s.commitModes_draws
@[simp] theorem State.started_hostData (s : State) : s.started.hostData = s.hostData := s.commitModes_hostData

end Sys2Proof.Machine
end

