-- ==== Sys2Proof/Laws/Memory.lean ====
section
/-! SUPPORT. The laws of memory: a read after a write, the canonical form kept by every operation that writes. -/

namespace Sys2Proof.Machine

theorem Memory.lookup_write_same (m : Memory) (a : Nat) (v : Word) : (m.write a v).lookup a = some v := by
  induction m with
  | nil => simp [Memory.write]
  | cons p m ih =>
    obtain ⟨b, u⟩ := p
    unfold Memory.write
    split
    · simp [List.lookup]
    · split
      · simp [List.lookup]
      · next h1 h2 =>
        have hb : (a == b) = false := by simpa using h2
        simpa [List.lookup, hb] using ih

theorem Memory.lookup_write_ne (m : Memory) {a b : Nat} (v : Word) (h : b ≠ a) :
    (m.write a v).lookup b = m.lookup b := by
  have hba : (b == a) = false := by simpa using h
  induction m with
  | nil => simp [Memory.write, List.lookup, hba]
  | cons p m ih =>
    obtain ⟨c, u⟩ := p
    unfold Memory.write
    split
    · simp [List.lookup, hba]
    · split
      · next h2 =>
        subst h2
        simp [List.lookup, hba]
      · by_cases hc : b = c
        · simp [List.lookup, hc]
        · have hbc : (b == c) = false := by simpa using hc
          simpa [List.lookup, hbc] using ih

/-- A read after a write to the same address gives the value written. -/
@[simp] theorem Memory.read_write_same (m : Memory) (a : Nat) (v : Word) : (m.write a v).read a = v := by
  simp [Memory.read, Memory.lookup_write_same]

/-- A write leaves every other address alone. -/
theorem Memory.read_write_ne (m : Memory) {a b : Nat} (v : Word) (h : b ≠ a) : (m.write a v).read b = m.read b := by
  simp [Memory.read, Memory.lookup_write_ne m v h]

/-- The addresses after a write are those before it and the one written. -/
theorem Memory.mem_write_fst {m : Memory} {a : Nat} {v : Word} {p : Nat × Word} (h : p ∈ m.write a v) :
    p = (a, v) ∨ p ∈ m := by
  induction m with
  | nil => simpa [Memory.write] using h
  | cons q m ih =>
    obtain ⟨b, u⟩ := q
    unfold Memory.write at h
    split at h
    · simpa using h
    · split at h
      · rcases List.mem_cons.mp h with h | h
        · exact .inl h
        · exact .inr (List.mem_cons_of_mem _ h)
      · rcases List.mem_cons.mp h with h | h
        · exact .inr (by simp [h])
        · rcases ih h with h | h
          · exact .inl h
          · exact .inr (List.mem_cons_of_mem _ h)

/-- A write keeps the canonical form. -/
theorem Memory.write_wf {m : Memory} (h : m.wf) (a : Nat) (v : Word) : (m.write a v).wf := by
  induction m with
  | nil => simp [Memory.write, Memory.wf]
  | cons q m ih =>
    obtain ⟨b, u⟩ := q
    have hq : (∀ x ∈ m.map Prod.fst, b < x) ∧ Memory.wf m := by
      simpa only [Memory.wf, List.map_cons, List.pairwise_cons] using h
    unfold Memory.write
    split
    · next hab =>
      simp only [Memory.wf, List.map_cons, List.pairwise_cons, List.mem_cons]
      refine ⟨?_, hq⟩
      rintro x (rfl | hx)
      · exact hab
      · exact Nat.lt_trans hab (hq.1 x hx)
    · split
      · next hab =>
        subst hab
        simpa only [Memory.wf, List.map_cons, List.pairwise_cons] using hq
      · next h1 h2 =>
        simp only [Memory.wf, List.map_cons, List.pairwise_cons]
        refine ⟨?_, ih hq.2⟩
        intro x hx
        obtain ⟨p, hp, rfl⟩ := List.mem_map.mp hx
        rcases Memory.mem_write_fst hp with rfl | hp
        · omega
        · exact hq.1 _ (List.mem_map_of_mem hp)

theorem reset_memory_wf : State.reset.mem.wf := by decide

/-- Writing at an installed address keeps the whole state's memory in form. -/
theorem State.memoryOk_write {s : State} (h : s.memoryOk) {a : Nat} (ha : a < s.cfg.memSize) (v : Word) :
    { s with mem := s.mem.write a v }.memoryOk := by
  refine ⟨Memory.write_wf h.1 a v, fun p hp => ?_⟩
  rcases Memory.mem_write_fst hp with rfl | hp
  · exact ha
  · exact h.2 p hp

@[simp] theorem State.wordAt_write_same (s : State) (a : Nat) (v : Word) :
    { s with mem := s.mem.write a v }.wordAt a = v := Memory.read_write_same s.mem a v

theorem State.wordAt_write_ne (s : State) {a b : Nat} (v : Word) (h : b ≠ a) :
    { s with mem := s.mem.write a v }.wordAt b = s.wordAt b := Memory.read_write_ne s.mem v h

/-- Everything a physical write can do (R15, R170). -/
theorem State.physWrite_cases (s : State) (pa : Nat) (v : Word) :
    (pa < s.cfg.memSize ∧ s.physWrite pa v = { s with mem := s.mem.write pa v })
    ∨ (s.cfg.memSize ≤ pa ∧ s.physWrite pa v = { s with nexm := true }) := by
  unfold State.physWrite
  split
  · exact .inl ⟨‹_›, rfl⟩
  · exact .inr ⟨by omega, rfl⟩

theorem State.physWrite_memoryOk {s : State} (h : s.memoryOk) (pa : Nat) (v : Word) : (s.physWrite pa v).memoryOk := by
  rcases s.physWrite_cases pa v with ⟨hp, he⟩ | ⟨_, he⟩ <;> rw [he]
  · exact State.memoryOk_write h hp v
  · exact h

/-- The host's loading of a word keeps the form (R402). -/
theorem State.hostLoadWord_memoryOk {s : State} (h : s.memoryOk) (pa v : Nat) : (s.hostLoadWord pa v).memoryOk := by
  unfold State.hostLoadWord
  split
  · exact State.memoryOk_write h ‹_› _
  · exact h

end Sys2Proof.Machine
end

