-- ==== Sys2Proof/Laws/Access.lean ====
section
/-! SUPPORT. What an access can do: one lemma for each, from which the frames of the operand forms follow. -/

namespace Sys2Proof.Machine

/-! ## Frames of accesses -/

theorem State.accessFrame_refl (s : State) : s.accessFrame s := ⟨s.mem, s.nexm, s.prvn, s.trapPending, rfl⟩

theorem State.accessFrame_trans {s t u : State} (h : s.accessFrame t) (h' : t.accessFrame u) : s.accessFrame u := by
  obtain ⟨_, _, _, _, rfl⟩ := h
  obtain ⟨m, n, p, q, rfl⟩ := h'
  exact ⟨m, n, p, q, rfl⟩

theorem State.accessFrame_mem (s : State) (m : Memory) : s.accessFrame { s with mem := m } :=
  ⟨m, s.nexm, s.prvn, s.trapPending, rfl⟩

theorem State.accessFrame_violation (s : State) : s.accessFrame s.violation := ⟨_, _, _, _, rfl⟩

theorem State.accessFrame_nonExistent (s : State) : s.accessFrame s.nonExistent := ⟨_, _, _, _, rfl⟩

theorem State.accessFrame_fpFault (s : State) (t : Translation) : s.accessFrame (s.fpFault t) := by
  cases t
  · exact s.accessFrame_refl
  · exact ⟨s.mem, s.nexm, true, false, rfl⟩
  · exact ⟨s.mem, true, s.prvn, false, rfl⟩

/-! ## Sequencing -/

@[simp] theorem Access.andThen_done {α β : Type} (v : α) (s : State) (f : α → State → Access β) :
    (Access.done v s).andThen f = f v s := rfl

@[simp] theorem Access.andThen_abandoned {α β : Type} (s : State) (f : α → State → Access β) :
    (Access.abandoned s : Access α).andThen f = .abandoned s := rfl

@[simp] theorem Access.finish_done {α : Type} (v : α) (s : State) (f : α → State → State) :
    (Access.done v s).finish f = f v s := rfl

@[simp] theorem Access.finish_abandoned {α : Type} (s : State) (f : α → State → State) :
    (Access.abandoned s : Access α).finish f = s := rfl

@[simp] theorem fpSettle_done {α : Type} (v : α) (s : State) (f : α → State → State) :
    fpSettle (Access.done v s) f = f v s := rfl

@[simp] theorem fpSettle_abandoned {α : Type} (s : State) (f : α → State → State) :
    fpSettle (Access.abandoned s : Access α) f = s.fpException .mm := rfl

/-- A sequence is done exactly when both of its parts are. -/
theorem Access.andThen_eq_done {α β : Type} {x : Access α} {f : α → State → Access β} {v : β} {t : State} :
    x.andThen f = .done v t ↔ ∃ u s, x = .done u s ∧ f u s = .done v t := by
  cases x <;> simp

/-- The state an access ends in, done or abandoned. -/
def Access.state {α : Type} : Access α → State
  | .done _ s => s
  | .abandoned s => s

@[simp] theorem Access.state_done {α : Type} (v : α) (s : State) : (Access.done v s).state = s := rfl
@[simp] theorem Access.state_abandoned {α : Type} (s : State) : (Access.abandoned s : Access α).state = s := rfl

/-- A relation that every access keeps and that composes is kept by a sequence. -/
theorem Access.state_andThen {α β : Type} {R : State → State → Prop} (htrans : ∀ {a b c}, R a b → R b c → R a c)
    {s : State} {x : Access α} {f : α → State → Access β} (hx : R s x.state) (hf : ∀ v t, R t (f v t).state) :
    R s (x.andThen f).state := by
  cases x with
  | done v t => exact htrans hx (hf v t)
  | abandoned t => exact hx

/-! ## The processor's accesses -/

/-- Everything a processor read can do (R97, R98): read an installed word, or be abandoned with the flags of its Fault, or,
on non-existent memory that does not trap, take `FaultReadValue`. -/
theorem State.cpuRead_cases (s : State) (va : Addr) (k : AccessKind) :
    (∃ pa, s.translate va k = .ok pa ∧ s.cpuRead va k = .done (s.wordAt pa.toNat) s)
    ∨ (s.translate va k = .violation ∧ s.cpuRead va k = .abandoned s.violation)
    ∨ (s.translate va k = .nonExistent ∧ s.nxmTraps = true ∧ s.cpuRead va k = .abandoned s.nonExistent)
    ∨ (s.translate va k = .nonExistent ∧ s.nxmTraps = false
        ∧ s.cpuRead va k = .done s.cfg.faultReadValue s.nonExistent) := by
  unfold State.cpuRead
  cases h : s.translate va k with
  | ok pa => exact .inl ⟨pa, rfl, rfl⟩
  | violation => exact .inr (.inl ⟨rfl, rfl⟩)
  | nonExistent => cases ht : s.nxmTraps <;> simp

/-- Everything a processor write can do (R97, R98). -/
theorem State.cpuWrite_cases (s : State) (va : Addr) (v : Word) :
    (∃ pa, s.translate va .write = .ok pa ∧ s.cpuWrite va v = .done () { s with mem := s.mem.write pa.toNat v })
    ∨ (s.translate va .write = .violation ∧ s.cpuWrite va v = .abandoned s.violation)
    ∨ (s.translate va .write = .nonExistent ∧ s.nxmTraps = true ∧ s.cpuWrite va v = .abandoned s.nonExistent)
    ∨ (s.translate va .write = .nonExistent ∧ s.nxmTraps = false ∧ s.cpuWrite va v = .done () s.nonExistent) := by
  unfold State.cpuWrite
  cases h : s.translate va .write with
  | ok pa => exact .inl ⟨pa, rfl, rfl⟩
  | violation => exact .inr (.inl ⟨rfl, rfl⟩)
  | nonExistent => cases ht : s.nxmTraps <;> simp

/-- Everything an FP15 read can do (R346). -/
theorem State.fpRead_cases (s : State) (va : Addr) :
    (∃ pa, s.translate va .read = .ok pa ∧ s.fpRead va = .done (s.wordAt pa.toNat) s)
    ∨ (s.translate va .read = .violation ∧ s.fpRead va = .abandoned (s.fpFault .violation))
    ∨ (s.translate va .read = .nonExistent ∧ s.fpRead va = .abandoned (s.fpFault .nonExistent)) := by
  unfold State.fpRead
  cases h : s.translate va .read with
  | ok pa => exact .inl ⟨pa, rfl, rfl⟩
  | violation => exact .inr (.inl ⟨rfl, rfl⟩)
  | nonExistent => exact .inr (.inr ⟨rfl, rfl⟩)

/-- Everything an FP15 write can do (R346). -/
theorem State.fpWrite_cases (s : State) (va : Addr) (v : Word) :
    (∃ pa, s.translate va .write = .ok pa ∧ s.fpWrite va v = .done () { s with mem := s.mem.write pa.toNat v })
    ∨ (s.translate va .write = .violation ∧ s.fpWrite va v = .abandoned (s.fpFault .violation))
    ∨ (s.translate va .write = .nonExistent ∧ s.fpWrite va v = .abandoned (s.fpFault .nonExistent)) := by
  unfold State.fpWrite
  cases h : s.translate va .write with
  | ok pa => exact .inl ⟨pa, rfl, rfl⟩
  | violation => exact .inr (.inl ⟨rfl, rfl⟩)
  | nonExistent => exact .inr (.inr ⟨rfl, rfl⟩)

/-- A physical address that translation gives is installed (R97). -/
theorem State.translate_installed {s : State} {va : Addr} {k : AccessKind} {pa : Addr} (h : s.translate va k = .ok pa) :
    pa.toNat < s.cfg.memSize := by
  unfold State.translate at h
  split at h
  · cases h
  · split at h
    · cases h
      assumption
    · cases h

theorem State.cpuRead_frame (s : State) (va : Addr) (k : AccessKind) : s.accessFrame (s.cpuRead va k).state := by
  rcases s.cpuRead_cases va k with ⟨_, _, h⟩ | ⟨_, h⟩ | ⟨_, _, h⟩ | ⟨_, _, h⟩ <;> rw [h]
  · exact s.accessFrame_refl
  · exact s.accessFrame_violation
  · exact s.accessFrame_nonExistent
  · exact s.accessFrame_nonExistent

theorem State.cpuWrite_frame (s : State) (va : Addr) (v : Word) : s.accessFrame (s.cpuWrite va v).state := by
  rcases s.cpuWrite_cases va v with ⟨_, _, h⟩ | ⟨_, h⟩ | ⟨_, _, h⟩ | ⟨_, _, h⟩ <;> rw [h]
  · exact s.accessFrame_mem _
  · exact s.accessFrame_violation
  · exact s.accessFrame_nonExistent
  · exact s.accessFrame_nonExistent

theorem State.fpRead_frame (s : State) (va : Addr) : s.accessFrame (s.fpRead va).state := by
  rcases s.fpRead_cases va with ⟨_, _, h⟩ | ⟨_, h⟩ | ⟨_, h⟩ <;> rw [h]
  · exact s.accessFrame_refl
  · exact s.accessFrame_fpFault .violation
  · exact s.accessFrame_fpFault .nonExistent

theorem State.fpWrite_frame (s : State) (va : Addr) (v : Word) : s.accessFrame (s.fpWrite va v).state := by
  rcases s.fpWrite_cases va v with ⟨_, _, h⟩ | ⟨_, h⟩ | ⟨_, h⟩ <;> rw [h]
  · exact s.accessFrame_mem _
  · exact s.accessFrame_fpFault .violation
  · exact s.accessFrame_fpFault .nonExistent

/-- A read of either requester leaves memory alone (R100). -/
theorem State.cpuRead_mem (s : State) (va : Addr) (k : AccessKind) : (s.cpuRead va k).state.mem = s.mem := by
  rcases s.cpuRead_cases va k with ⟨_, _, h⟩ | ⟨_, h⟩ | ⟨_, _, h⟩ | ⟨_, _, h⟩ <;> simp [h]

theorem State.fpRead_mem (s : State) (va : Addr) : (s.fpRead va).state.mem = s.mem := by
  rcases s.fpRead_cases va with ⟨_, _, h⟩ | ⟨_, h⟩ | ⟨_, h⟩ <;> simp [h, State.fpFault]

end Sys2Proof.Machine
end

