-- ==== Sys2Proof/Laws/Operands.lean ====
section
/-! SUPPORT. What the operand forms can do: each changes memory and the fault flags alone, and where each is done or abandoned. -/

namespace Sys2Proof.Machine

/-! ## What a frame keeps -/

/-- Translation sees the configuration, the mode and the protection registers alone, so an access does not change it (R90). -/
theorem State.translate_of_accessFrame {s t : State} (h : s.accessFrame t) : t.translate = s.translate := by
  obtain ⟨_, _, _, _, rfl⟩ := h
  rfl

theorem State.accessFrame_advance (s : State) {t : State} (h : s.advance.accessFrame t) :
    ∃ m n p q, t = { s with pc := incPC s.cfg s.pc, mem := m, nexm := n, prvn := p, trapPending := q } := h

/-! ## Sequences of accesses -/

theorem Access.frame_andThen {α β : Type} {s : State} {x : Access α} {f : α → State → Access β}
    (hx : s.accessFrame x.state) (hf : ∀ (v : α) (t : State), t.accessFrame (f v t).state) : s.accessFrame (x.andThen f).state :=
  Access.state_andThen (R := fun a b => a.accessFrame b) State.accessFrame_trans hx hf

/-- Memory is kept by a sequence whose parts keep it. -/
theorem Access.mem_andThen {α β : Type} {s : State} {x : Access α} {f : α → State → Access β}
    (hx : x.state.mem = s.mem) (hf : ∀ (v : α) (t : State), (f v t).state.mem = t.mem) : (x.andThen f).state.mem = s.mem := by
  cases x with
  | done v t => exact (hf v t).trans hx
  | abandoned t => exact hx

theorem Access.done_state {α : Type} {x : Access α} {v : α} {t : State} (h : x = .done v t) : x.state = t := by rw [h]; rfl

theorem Access.abandoned_state {α : Type} {x : Access α} {t : State} (h : x = .abandoned t) : x.state = t := by rw [h]; rfl

/-! ## The memory references -/

theorem State.pointer_frame (s : State) (d : Addr) : s.accessFrame (s.pointer d).state := by
  unfold State.pointer
  split
  · exact Access.frame_andThen (s.cpuRead_frame _ _) fun _ t =>
      Access.frame_andThen (t.cpuWrite_frame _ _) fun _ u => u.accessFrame_refl
  · exact s.cpuRead_frame _ _

theorem State.resolveFrom_frame (s : State) (base : Addr) (m : MemOperand) :
    s.accessFrame (s.resolveFrom base m).state := by
  unfold State.resolveFrom
  dsimp only
  split
  · exact Access.frame_andThen (s.pointer_frame _) fun _ t => t.accessFrame_refl
  · exact s.accessFrame_refl

theorem State.resolve_frame (s : State) (m : MemOperand) : s.accessFrame (s.resolve m).state := s.resolveFrom_frame _ _

theorem State.resolve_done_frame {s t : State} {m : MemOperand} {r : Resolved} (h : s.resolve m = .done r t) :
    s.accessFrame t := Access.done_state h ▸ s.resolve_frame m

theorem State.loadOperand_frame (s : State) (m : MemOperand) : s.accessFrame (s.loadOperand m).state :=
  Access.frame_andThen (s.resolve_frame m) fun _ t => t.cpuRead_frame _ _

theorem State.storeOperand_frame (s : State) (m : MemOperand) (v : Word) : s.accessFrame (s.storeOperand m v).state :=
  Access.frame_andThen (s.resolve_frame m) fun _ t => t.cpuWrite_frame _ _

theorem State.inlineOperand_frame (s : State) : s.advance.accessFrame s.inlineOperand.state := s.advance.cpuRead_frame _ _

/-- Everything the reading of an operand can do, once its address is resolved (R84, R97, R98). -/
theorem State.loadOperand_of_resolve {s t : State} {m : MemOperand} {r : Resolved} (h : s.resolve m = .done r t) :
    s.loadOperand m = t.cpuRead r.ea .read := by simp [State.loadOperand, h]

theorem State.storeOperand_of_resolve {s t : State} {m : MemOperand} {r : Resolved} (h : s.resolve m = .done r t) (v : Word) :
    s.storeOperand m v = t.cpuWrite r.ea v := by simp [State.storeOperand, h]

/-- A write changes at most the word at the address it translates to. -/
theorem State.cpuWrite_wordAt (s : State) (va : Addr) (v : Word) {a : Nat}
    (h : ∀ pa, s.translate va .write = .ok pa → pa.toNat ≠ a) : (s.cpuWrite va v).state.wordAt a = s.wordAt a := by
  rcases s.cpuWrite_cases va v with ⟨pa, ht, e⟩ | ⟨_, e⟩ | ⟨_, _, e⟩ | ⟨_, _, e⟩ <;> rw [e]
  · exact s.wordAt_write_ne v (Ne.symm (h pa ht))
  all_goals rfl

/-- Resolving an address changes at most the pointer that the reference increments (R89). -/
theorem State.resolveFrom_wordAt (s : State) (base : Addr) (m : MemOperand) {a : Nat} (h : s.autoCell base m ≠ some a) :
    (s.resolveFrom base m).state.wordAt a = s.wordAt a := by
  have key : (s.pointer (s.directAddr base m)).state.wordAt a = s.wordAt a ∨ m.ind = false := by
    cases hi : m.ind with
    | false => exact .inr rfl
    | true =>
      refine .inl ?_
      unfold State.pointer
      split
      · next ha =>
        have hw : ∀ pa, s.translate (s.autoLoc (s.directAddr base m)) .write = .ok pa → pa.toNat ≠ a := by
          intro pa hp e
          apply h
          simp [State.autoCell, hi, ha, hp, e]
        have hread := s.cpuRead_frame (s.autoLoc (s.directAddr base m)) .read
        have hmem := s.cpuRead_mem (s.autoLoc (s.directAddr base m)) .read
        revert hread hmem
        cases s.cpuRead (s.autoLoc (s.directAddr base m)) .read with
        | abandoned t => intro _ hm; simp at hm; simp [State.wordAt, hm]
        | done v t =>
          intro hf hm
          simp at hf hm
          simp only [Access.andThen_done]
          have h2 := t.cpuWrite_wordAt (s.autoLoc (s.directAddr base m)) (v + 1) (a := a) (by
            rw [State.translate_of_accessFrame hf]; exact hw)
          have h3 : t.wordAt a = s.wordAt a := by simp [State.wordAt, hm]
          rw [← h3, ← h2]
          cases t.cpuWrite (s.autoLoc (s.directAddr base m)) (v + 1) <;> rfl
      · simp [State.wordAt, s.cpuRead_mem]
  unfold State.resolveFrom
  dsimp only
  split
  · next hi =>
    rcases key with k | k
    · rw [← k]
      cases s.pointer (s.directAddr base m) <;> rfl
    · simp [k] at hi
  · rfl

theorem State.resolve_wordAt {s t : State} {m : MemOperand} {r : Resolved} (h : s.resolve m = .done r t) {a : Nat}
    (ha : s.autoCell s.pc m ≠ some a) : t.wordAt a = s.wordAt a := by
  have := s.resolveFrom_wordAt s.pc m ha
  rwa [show s.resolveFrom s.pc m = s.resolve m from rfl, h] at this

/-! ## The FP15's accesses -/

theorem State.fpAddress_frame (s : State) : s.advance.accessFrame s.fpAddress.state := by
  refine Access.frame_andThen (s.advance.fpRead_frame _) fun aw t => ?_
  split
  · exact Access.frame_andThen (t.fpRead_frame _) fun _ u => u.accessFrame_refl
  · exact t.accessFrame_refl

theorem State.fpAddress_mem (s : State) : s.fpAddress.state.mem = s.mem := by
  refine Access.mem_andThen (s := s.advance) (s.advance.fpRead_mem _) fun aw t => ?_
  split
  · exact Access.mem_andThen (t.fpRead_mem _) fun _ u => rfl
  · rfl

/-- An FP15 address that can be read and resolved leaves nothing but the PC past its word (R311). -/
theorem State.fpAddress_done {s t : State} {ea : Addr} (h : s.fpAddress = .done ea t) : t = s.advance := by
  unfold State.fpAddress at h
  rcases s.advance.fpRead_cases s.pc with ⟨pa, _, e⟩ | ⟨_, e⟩ | ⟨_, e⟩ <;> rw [e] at h
  · simp only [Access.andThen_done] at h
    split at h
    · rcases s.advance.fpRead_cases (wordAddr s.advance.cfg (s.advance.wordAt pa.toNat)) with ⟨pb, _, e⟩ | ⟨_, e⟩ | ⟨_, e⟩ <;>
        rw [e] at h <;> cases h
      rfl
    · cases h
      rfl
  all_goals cases h

theorem State.fpRead2_frame (s : State) (ea : Addr) : s.accessFrame (s.fpRead2 ea).state :=
  Access.frame_andThen (s.fpRead_frame _) fun _ t =>
    Access.frame_andThen (t.fpRead_frame _) fun _ u => u.accessFrame_refl

theorem State.fpRead2_mem (s : State) (ea : Addr) : (s.fpRead2 ea).state.mem = s.mem :=
  Access.mem_andThen (s.fpRead_mem _) fun _ t => Access.mem_andThen (t.fpRead_mem _) fun _ _ => rfl

theorem State.fpLoad_frame (s : State) (fmt : FpFormat) (ea : Addr) : s.accessFrame (s.fpLoad fmt ea).state := by
  cases fmt
  · exact Access.frame_andThen (s.fpRead_frame _) fun _ t => t.accessFrame_refl
  · exact Access.frame_andThen (s.fpRead2_frame _) fun _ t => t.accessFrame_refl
  · exact Access.frame_andThen (s.fpRead2_frame _) fun _ t => t.accessFrame_refl
  · exact Access.frame_andThen (s.fpRead2_frame _) fun _ t =>
      Access.frame_andThen (t.fpRead_frame _) fun _ u => u.accessFrame_refl

theorem State.fpLoad_mem (s : State) (fmt : FpFormat) (ea : Addr) : (s.fpLoad fmt ea).state.mem = s.mem := by
  cases fmt
  · exact Access.mem_andThen (s.fpRead_mem _) fun _ _ => rfl
  · exact Access.mem_andThen (s.fpRead2_mem _) fun _ _ => rfl
  · exact Access.mem_andThen (s.fpRead2_mem _) fun _ _ => rfl
  · exact Access.mem_andThen (s.fpRead2_mem _) fun _ t => Access.mem_andThen (t.fpRead_mem _) fun _ _ => rfl

theorem State.fpStore_frame (ws : List Word) : ∀ (s : State) (ea : Addr), s.accessFrame (s.fpStore ea ws).state := by
  induction ws with
  | nil => exact fun s _ => s.accessFrame_refl
  | cons w ws ih => exact fun s ea => Access.frame_andThen (s.fpWrite_frame _ _) fun _ t => ih t _

/-! ## The PC of a resolution -/

/-- An access seen from another PC: its end, with that PC. -/
def Access.atPc {α : Type} (x : Access α) (p : Addr) : Access α :=
  match x with
  | .done v t => .done v { t with pc := p }
  | .abandoned t => .abandoned { t with pc := p }

theorem State.cpuRead_atPc (s : State) (p va : Addr) (k : AccessKind) :
    ({ s with pc := p } : State).cpuRead va k = (s.cpuRead va k).atPc p := by
  unfold State.cpuRead
  rw [show ({ s with pc := p } : State).translate va k = s.translate va k from rfl,
    show ({ s with pc := p } : State).nxmTraps = s.nxmTraps from rfl]
  cases s.translate va k <;> try rfl
  cases s.nxmTraps <;> rfl

theorem State.cpuWrite_atPc (s : State) (p va : Addr) (w : Word) :
    ({ s with pc := p } : State).cpuWrite va w = (s.cpuWrite va w).atPc p := by
  unfold State.cpuWrite
  rw [show ({ s with pc := p } : State).translate va .write = s.translate va .write from rfl,
    show ({ s with pc := p } : State).nxmTraps = s.nxmTraps from rfl]
  cases s.translate va .write <;> try rfl
  cases s.nxmTraps <;> rfl

/-- Resolving from a given PC is resolving with that PC as one's own (R84, R369). -/
theorem State.resolve_atPc (s : State) (p : Addr) (m : MemOperand) :
    ({ s with pc := p } : State).resolve m = (s.resolveFrom p m).atPc p := by
  unfold State.resolve State.resolveFrom
  simp only [show ({ s with pc := p } : State).directAddr p m = s.directAddr p m from rfl]
  split
  · unfold State.pointer
    simp only [show ∀ d, ({ s with pc := p } : State).autoIndex d = s.autoIndex d from fun _ => rfl,
      show ∀ d, ({ s with pc := p } : State).autoLoc d = s.autoLoc d from fun _ => rfl]
    split
    · rw [State.cpuRead_atPc]
      cases s.cpuRead (s.autoLoc (s.directAddr p m)) .read with
      | abandoned u => rfl
      | done v u =>
        simp only [Access.atPc, Access.andThen_done]
        rw [State.cpuWrite_atPc]
        cases u.cpuWrite (s.autoLoc (s.directAddr p m)) (v + 1) <;> rfl
    · rw [State.cpuRead_atPc]
      cases s.cpuRead (s.directAddr p m) .read <;> rfl
  · rfl

end Sys2Proof.Machine
end

