-- ==== Sys2Proof/Laws/Exec.lean ====
section
/-! SUPPORT. Dispatch and XCT: exec is one function of XCT's meaning, an executed word is its instruction run one level deeper, and
every instruction answers a next state. -/

namespace Sys2Proof.Machine

/-- exec is the dispatch with XCT's own meaning (R178). -/
theorem exec_eq_execWith (i : Instr) (s : State) : exec i s = execWith execXct i s := by cases i <;> rfl

/-- XCT's meaning matters only where XCT is run. -/
theorem execWith_congr {x y : MemOperand → State → Host.Outcome State Fault Refusal} {i : Instr} {s : State}
    (h : ∀ m, x m s = y m s) : execWith x i s = execWith y i s := by
  cases i <;> first | rfl | exact h _

theorem executeWord_congr {x y : Instr → State → Host.Outcome State Fault Refusal} {w : Word} {s : State}
    (h : ∀ i, x i s = y i s) : executeWord x w s = executeWord y w s := by
  unfold executeWord
  split
  · exact h _
  · rfl

/-- An executed word is its instruction run on the state one level deeper (R178). -/
theorem execXct_done {s t : State} {m : MemOperand} {w : Word} (h : s.loadOperand m = .done w t)
    (hd : s.xctDepth < s.cfg.xctMax) :
    execXct m s = executeWord exec w { t with xctDepth := s.xctDepth + 1, ir := w } := by
  have hf := s.loadOperand_frame m
  rw [Access.done_state h] at hf
  obtain ⟨mm, n, p, q, rfl⟩ := hf
  obtain ⟨k, hk⟩ : ∃ k, s.cfg.xctMax - s.xctDepth = k + 1 := ⟨s.cfg.xctMax - s.xctDepth - 1, by omega⟩
  unfold execXct
  rw [hk]
  simp only [xctChain, h]
  refine executeWord_congr fun i => ?_
  rw [exec_eq_execWith]
  refine execWith_congr fun m' => ?_
  have : s.cfg.xctMax - (s.xctDepth + 1) = k := by omega
  simp [execXct, this]

/-- At the nesting limit the operand is read and the run stops (R178, log entry 15). -/
theorem execXct_limit {s t : State} {m : MemOperand} {w : Word} (h : s.loadOperand m = .done w t)
    (hd : s.cfg.xctMax ≤ s.xctDepth) : execXct m s = .next ({ t with xctDepth := t.xctDepth + 1 }.stop .xctLimit) := by
  unfold execXct
  rw [Nat.sub_eq_zero_of_le hd]
  simp [xctChain, h]

theorem execXct_abandoned {s t : State} {m : MemOperand} (h : s.loadOperand m = .abandoned t) :
    execXct m s = .next t := by
  unfold execXct
  cases s.cfg.xctMax - s.xctDepth <;> simp [xctChain, h]

end Sys2Proof.Machine
end

