-- ==== Sys2Proof/Laws/Cycle.lean ====
section
/-! SUPPORT. Everything a cycle can do (R370): one lemma for each way it can end. -/

namespace Sys2Proof.Machine

theorem State.undeferred_self {s : State} (h : s.ionDefer = false) : s.undeferred = s := by
  cases s
  simp_all [State.undeferred]

@[simp] theorem State.started_arbitrate (s : State) : s.started.arbitrate = s.commitModes.arbitrate := rfl

/-- The mode commit does not see the moves to come. -/
theorem State.moved_commitModes (s : State) : s.moved.commitModes = { s.commitModes with moves := s.moves.tail } := by
  unfold State.commitModes
  split
  · rfl
  · split <;> rfl

/-- Nor does the arbiter. -/
@[simp] theorem State.moved_commitModes_arbitrate (s : State) : s.moved.commitModes.arbitrate = s.commitModes.arbitrate := by
  rw [s.moved_commitModes]
  rfl

/-- With no other move first, the step is the processor's move, its entry off the list. -/
theorem step_of_processorNext {s : State} (h : s.processorNext) : step s = s.moved.processorMove := by
  unfold step State.nextMove
  rcases h with hm | hm
  · rw [hm, show s.moved = s by cases s; simp_all [State.moved]]
  · obtain ⟨rest, hm⟩ := List.head?_eq_some_iff.mp hm
    simp only [hm, State.moved, List.tail_cons]

/-- With no other move first, the step of a running machine is a cycle. -/
theorem step_of_running {s : State} (h : s.processorNext) (hr : s.runState = .running) : step s = s.moved.cycle := by
  rw [step_of_processorNext h]
  simp only [State.processorMove, hr]

/-- A pending trap comes first (R361, R370). -/
theorem State.cycle_trap {s : State} (h : s.trapPending = true) : s.cycle = .next s.started.trapEntry := by
  simp [State.cycle, h]

theorem State.cycle_pi {s : State} (ht : s.trapPending = false) (hd : s.ionDefer = false)
    (ha : s.commitModes.arbitrate = .pi) : s.cycle = .next s.started.piDelivery := by
  simp [State.cycle, ht, hd, ha]

theorem State.cycle_api {s : State} {k : Nat} (ht : s.trapPending = false) (hd : s.ionDefer = false)
    (ha : s.commitModes.arbitrate = .api k) : s.cycle = .next (s.apiDelivery s.started k) := by
  simp [State.cycle, ht, hd, ha]

/-- With no trap and no interrupt in the way, a cycle comes to its breakpoint check and its fetch (R370). -/
theorem State.cycle_breakOrFetch {s : State} (ht : s.trapPending = false)
    (hd : s.ionDefer = true ∨ s.commitModes.arbitrate = .none) :
    s.cycle = s.started.undeferred.breakOrFetch s.firstCycle := by
  unfold State.cycle
  cases hi : s.ionDefer with
  | true => simp [ht, hi]
  | false =>
    rcases hd with hd | hd
    · simp [hi] at hd
    · rw [State.undeferred_self (by simpa using hi)]
      simp [ht, hi, hd]

/-- A cycle that fetches is its fetch (R370, R372). -/
theorem step_of_willFetch {s : State} (h : s.willFetch) : step s = s.atFetch.fetchExecute := by
  obtain ⟨hm, hr, ht, hd, hb⟩ := h
  rw [step_of_running hm hr, State.cycle_breakOrFetch (s := s.moved) ht (by simpa using hd)]
  change s.atFetch.breakOrFetch s.firstCycle = _
  unfold State.breakOrFetch
  have : (!s.firstCycle && s.atFetch.breakpoints.contains s.atFetch.pc) = false := by
    rcases hb with hb | hb
    · simp [hb]
    · rw [show s.atFetch.breakpoints = s.breakpoints by simp [State.atFetch],
        show s.atFetch.pc = s.pc by simp [State.atFetch], hb, Bool.and_false]
  rw [this]
  rfl

/-- Everything a fetch can do (R98, R145, R372). -/
theorem State.fetchExecute_cases (s : State) :
    (∃ pa, s.translate s.pc .fetch = .ok pa
      ∧ s.fetchExecute = executeWord exec (s.wordAt pa.toNat) (s.fetched (s.wordAt pa.toNat)))
    ∨ (s.translate s.pc .fetch = .violation ∧ s.fetchExecute = .next s.violation)
    ∨ (s.translate s.pc .fetch = .nonExistent ∧ s.nxmTraps = true ∧ s.fetchExecute = .next s.nonExistent)
    ∨ (s.translate s.pc .fetch = .nonExistent ∧ s.nxmTraps = false
      ∧ s.fetchExecute = executeWord exec s.cfg.faultReadValue (s.nonExistent.fetched s.cfg.faultReadValue)) := by
  unfold State.fetchExecute
  rcases s.cpuRead_cases s.pc .fetch with ⟨pa, h, e⟩ | ⟨h, e⟩ | ⟨h, h', e⟩ | ⟨h, h', e⟩ <;> rw [e]
  · exact .inl ⟨pa, h, rfl⟩
  · exact .inr (.inl ⟨h, rfl⟩)
  · exact .inr (.inr (.inl ⟨h, h', rfl⟩))
  · exact .inr (.inr (.inr ⟨h, h', rfl⟩))

theorem executeWord_ok {run : Instr → State → Host.Outcome State Fault Refusal} {w : Word} {s : State} {i : Instr}
    (h : decode s.cfg w = .ok i) : executeWord run w s = run i s := by simp [executeWord, h]

theorem executeWord_error {run : Instr → State → Host.Outcome State Fault Refusal} {w : Word} {s : State} {e : Reject}
    (h : decode s.cfg w = .error e) : executeWord run w s = .next s.unimplemented := by simp [executeWord, h]

end Sys2Proof.Machine
end

