-- ==== Sys2Proof/Laws/Entry.lean ====
section
/-! SUPPORT. Everything the operations that leave the line of instructions can do: the forced entries, a JMS, an FP15 exception, an
IOT-class word, a malformed word. Then that every memory operation keeps the canonical form. -/

namespace Sys2Proof.Machine

/-! ## What each can do -/

/-- Everything a forced entry can do (R170, R362, R368, R374): the history, the modes and the PC, and the return word saved, or
`nexm` set where there is no memory to save it in. -/
theorem State.enter_cases (s : State) (save : Nat) (target : Addr) :
    (save < s.cfg.memSize ∧ s.enter save target =
      { s with
        pcq := s.pc :: s.pcq.take (s.cfg.pcqDepth - 1)
        usmd := false, usmdBuf := false, memm := s.cfg.entryMemm, memmBuf := s.cfg.entryMemm, modeDefer := 0
        mem := s.mem.write save s.retWord, pc := target })
    ∨ (s.cfg.memSize ≤ save ∧ s.enter save target =
      { s with
        pcq := s.pc :: s.pcq.take (s.cfg.pcqDepth - 1)
        usmd := false, usmdBuf := false, memm := s.cfg.entryMemm, memmBuf := s.cfg.entryMemm, modeDefer := 0
        nexm := true, pc := target }) := by
  unfold State.enter
  rcases s.pcqPush.forceEntryModes.physWrite_cases save s.retWord with ⟨h, e⟩ | ⟨h, e⟩ <;> rw [e]
  · exact .inl ⟨h, rfl⟩
  · exact .inr ⟨h, rfl⟩

/-- Everything a JMS can do once its address is known (R98, R172): the return word stored or discarded and the jump made, or the
jump abandoned with the PC as it is. -/
theorem State.jumpSubroutine_cases (s : State) (ea : Addr) (ret : Word) :
    (∃ pa, s.translate ea .write = .ok pa ∧ s.jumpSubroutine ea ret =
      { s with
        mem := s.mem.write pa.toNat ret, pcq := s.pc :: s.pcq.take (s.cfg.pcqDepth - 1), pc := incPC s.cfg ea })
    ∨ (s.translate ea .write = .violation ∧ s.jumpSubroutine ea ret = s.violation)
    ∨ (s.translate ea .write = .nonExistent ∧ s.nxmTraps = true ∧ s.jumpSubroutine ea ret = s.nonExistent)
    ∨ (s.translate ea .write = .nonExistent ∧ s.nxmTraps = false ∧ s.jumpSubroutine ea ret =
      { s.nonExistent with pcq := s.pc :: s.pcq.take (s.cfg.pcqDepth - 1), pc := incPC s.cfg ea }) := by
  unfold State.jumpSubroutine
  rcases s.cpuWrite_cases ea ret with ⟨pa, h, e⟩ | ⟨h, e⟩ | ⟨h, g, e⟩ | ⟨h, g, e⟩ <;> rw [e]
  · exact .inl ⟨pa, h, rfl⟩
  · exact .inr (.inl ⟨h, rfl⟩)
  · exact .inr (.inr (.inl ⟨h, g, rfl⟩))
  · exact .inr (.inr (.inr ⟨h, g, rfl⟩))

/-- Everything an FP15 exception can do (R98, R345). -/
theorem State.fpException_cases (s : State) (k : FpExc) :
    (∃ pa, s.translate s.fpBase .write = .ok pa ∧ s.fpException k =
      { s with
        mem := s.mem.write pa.toNat s.retWord, pcq := s.pc :: s.pcq.take (s.cfg.pcqDepth - 1)
        pc := (s.fpBase + fpExcOffset s.cfg k) &&& amask s.cfg })
    ∨ (s.translate s.fpBase .write = .violation ∧ s.fpException k = s.violation)
    ∨ (s.translate s.fpBase .write = .nonExistent ∧ s.nxmTraps = true ∧ s.fpException k = s.nonExistent)
    ∨ (s.translate s.fpBase .write = .nonExistent ∧ s.nxmTraps = false ∧ s.fpException k =
      { s.nonExistent with
        pcq := s.pc :: s.pcq.take (s.cfg.pcqDepth - 1), pc := (s.fpBase + fpExcOffset s.cfg k) &&& amask s.cfg }) := by
  unfold State.fpException
  rcases s.cpuWrite_cases s.fpBase s.retWord with ⟨pa, h, e⟩ | ⟨h, e⟩ | ⟨h, g, e⟩ | ⟨h, g, e⟩ <;> rw [e]
  · exact .inl ⟨pa, h, rfl⟩
  · exact .inr (.inl ⟨h, rfl⟩)
  · exact .inr (.inr (.inl ⟨h, g, rfl⟩))
  · exact .inr (.inr (.inr ⟨h, g, rfl⟩))

/-- Everything a malformed word can do (R145). -/
theorem State.unimplemented_cases (s : State) :
    (s.cfg.unimplPolicy = .stop ∧ s.unimplemented = s.stop .unimplemented)
    ∨ (s.cfg.unimplPolicy = .nop ∧ s.unimplemented = s) := by
  unfold State.unimplemented
  cases h : s.cfg.unimplPolicy
  · exact .inl ⟨rfl, rfl⟩
  · exact .inr ⟨rfl, rfl⟩

/-- Everything an IOT-class word can do (R230): trap in user mode, run its own effect, ask its device, or be unimplemented. -/
theorem State.iot_cases (s : State) (claimed : Bool) (dev code : BitVec 6) (cla : Bool) (effect : State → State) :
    (s.usmd = true ∧ s.iot claimed dev code cla effect = s.violation)
    ∨ (s.usmd = false ∧ claimed = true ∧ s.iot claimed dev code cla effect = effect (s.iotStart cla))
    ∨ (s.usmd = false ∧ claimed = false ∧ s.devices.getLsbD dev.toNat = true
      ∧ s.iot claimed dev code cla effect = (s.iotStart cla).ioTransfer dev code)
    ∨ (s.usmd = false ∧ claimed = false ∧ s.devices.getLsbD dev.toNat = false
      ∧ s.iot claimed dev code cla effect = s.unimplemented) := by
  unfold State.iot
  cases s.usmd <;> cases claimed <;> cases s.devices.getLsbD dev.toNat <;> simp

/-- Everything a device callback can do (R231, R366). -/
theorem State.ioTransfer_frame (s : State) (dev code : BitVec 6) :
    ∃ a p q r n m, s.ioTransfer dev code =
      { s with ac := a, pc := p, intReq := q, runState := r, ioAnswers := n, draws := m } := ⟨_, _, _, _, _, _, rfl⟩

/-- What the pre-steps of an EAE word can change (R281). -/
theorem State.eaePre_frame (s : State) (p : EaePre) :
    ∃ a l q g, s.eaePre p = { s with ac := a, l := l, mq := q, eaeAcSign := g } := ⟨_, _, _, _, rfl⟩

/-! ## The canonical form of memory -/

/-- An access that writes nothing keeps the form, and so does one that writes at a translated address. -/
theorem State.cpuWrite_memoryOk {s : State} (h : s.memoryOk) (va : Addr) (v : Word) : (s.cpuWrite va v).state.memoryOk := by
  rcases s.cpuWrite_cases va v with ⟨pa, ht, e⟩ | ⟨_, e⟩ | ⟨_, _, e⟩ | ⟨_, _, e⟩ <;> rw [e]
  · exact State.memoryOk_write h (State.translate_installed ht) v
  all_goals exact h

theorem State.fpWrite_memoryOk {s : State} (h : s.memoryOk) (va : Addr) (v : Word) : (s.fpWrite va v).state.memoryOk := by
  rcases s.fpWrite_cases va v with ⟨pa, ht, e⟩ | ⟨_, e⟩ | ⟨_, e⟩ <;> rw [e]
  · exact State.memoryOk_write h (State.translate_installed ht) v
  all_goals exact h

theorem State.cpuRead_memoryOk {s : State} (h : s.memoryOk) (va : Addr) (k : AccessKind) :
    (s.cpuRead va k).state.memoryOk := by
  rcases s.cpuRead_cases va k with ⟨_, _, e⟩ | ⟨_, e⟩ | ⟨_, _, e⟩ | ⟨_, _, e⟩ <;> rw [e] <;> exact h

theorem State.fpRead_memoryOk {s : State} (h : s.memoryOk) (va : Addr) : (s.fpRead va).state.memoryOk := by
  rcases s.fpRead_cases va with ⟨_, _, e⟩ | ⟨_, e⟩ | ⟨_, e⟩ <;> rw [e] <;> exact h

/-- A sequence of accesses keeps the form when its parts do. -/
theorem Access.memoryOk_andThen {α β : Type} {x : Access α} {f : α → State → Access β} (hx : x.state.memoryOk)
    (hf : ∀ (v : α) (t : State), t.memoryOk → (f v t).state.memoryOk) : (x.andThen f).state.memoryOk := by
  cases x with
  | done v t => exact hf v t hx
  | abandoned t => exact hx

theorem State.pointer_memoryOk {s : State} (h : s.memoryOk) (d : Addr) : (s.pointer d).state.memoryOk := by
  unfold State.pointer
  split
  · exact Access.memoryOk_andThen (State.cpuRead_memoryOk h _ _) fun _ _ ht =>
      Access.memoryOk_andThen (State.cpuWrite_memoryOk ht _ _) fun _ _ hu => hu
  · exact State.cpuRead_memoryOk h _ _

theorem State.resolveFrom_memoryOk {s : State} (h : s.memoryOk) (base : Addr) (m : MemOperand) :
    (s.resolveFrom base m).state.memoryOk := by
  unfold State.resolveFrom
  dsimp only
  split
  · exact Access.memoryOk_andThen (State.pointer_memoryOk h _) fun _ _ ht => ht
  · exact h

theorem State.fpStore_memoryOk (ws : List Word) :
    ∀ {s : State}, s.memoryOk → ∀ ea : Addr, (s.fpStore ea ws).state.memoryOk := by
  induction ws with
  | nil => exact fun h _ => h
  | cons w ws ih => exact fun h ea => Access.memoryOk_andThen (State.fpWrite_memoryOk h _ _) fun _ _ ht => ih ht _

theorem State.enter_memoryOk {s : State} (h : s.memoryOk) (save : Nat) (target : Addr) : (s.enter save target).memoryOk := by
  rcases s.enter_cases save target with ⟨hs, e⟩ | ⟨_, e⟩ <;> rw [e]
  · exact State.memoryOk_write h hs _
  · exact h

theorem State.jumpSubroutine_memoryOk {s : State} (h : s.memoryOk) (ea : Addr) (ret : Word) :
    (s.jumpSubroutine ea ret).memoryOk := by
  rcases s.jumpSubroutine_cases ea ret with ⟨pa, ht, e⟩ | ⟨_, e⟩ | ⟨_, _, e⟩ | ⟨_, _, e⟩ <;> rw [e]
  · exact State.memoryOk_write h (State.translate_installed ht) ret
  all_goals exact h

theorem State.fpException_memoryOk {s : State} (h : s.memoryOk) (k : FpExc) : (s.fpException k).memoryOk := by
  rcases s.fpException_cases k with ⟨pa, ht, e⟩ | ⟨_, e⟩ | ⟨_, _, e⟩ | ⟨_, _, e⟩ <;> rw [e]
  · exact State.memoryOk_write h (State.translate_installed ht) _
  all_goals exact h

end Sys2Proof.Machine
end

