-- ==== Sys2Proof/Laws/Host.lean ====
section
/-! SUPPORT. Everything an action of the host can do to a stopped machine (R366, R400, R402, R406). -/

namespace Sys2Proof.Machine

/-- Everything a deposit can do: write the register, or nothing where the configuration does not have it (log entry 19). -/
theorem State.deposit_cases (s : State) (r : RegName) (v : Nat) :
    (hasRegister s.cfg r = true ∧ s.deposit r v = s.putRegister r v) ∨ (hasRegister s.cfg r = false ∧ s.deposit r v = s) := by
  unfold State.deposit
  cases hasRegister s.cfg r
  · exact .inr ⟨rfl, rfl⟩
  · exact .inl ⟨rfl, rfl⟩

/-- A deposit leaves the configuration, memory, and what the host and the agent hold. -/
theorem State.deposit_frame (s : State) (r : RegName) (v : Nat) :
    (s.deposit r v).cfg = s.cfg ∧ (s.deposit r v).mem = s.mem ∧ (s.deposit r v).moves = s.moves
    ∧ (s.deposit r v).breakpoints = s.breakpoints ∧ (s.deposit r v).devices = s.devices := by
  rcases s.deposit_cases r v with ⟨_, e⟩ | ⟨_, e⟩ <;> rw [e]
  · cases r
    case runState =>
      simp only [State.putRegister]
      split <;> exact ⟨rfl, rfl, rfl, rfl, rfl⟩
    all_goals exact ⟨rfl, rfl, rfl, rfl, rfl⟩
  · exact ⟨rfl, rfl, rfl, rfl, rfl⟩

/-- A host action on a stopped machine leaves the configuration and the moves to come, and memory but for a loaded word. -/
theorem State.hostActStopped_frame {s t : State} {a : HostAction} (h : s.hostActStopped a = .next t) :
    t.cfg = s.cfg ∧ t.moves = s.moves ∧ (t.mem = s.mem ∨ ∃ pa v, a = .loadWord pa v ∧ t = s.hostLoadWord pa v) := by
  have run : ∀ {u : State}, s.hostRun = .next u → u = s.startRun := by
    intro u hu
    unfold State.hostRun at hu
    split at hu <;> cases hu
    rfl
  cases a <;> simp only [State.hostActStopped] at h
  case run => cases run h; exact ⟨rfl, rfl, .inl rfl⟩
  case loadWord pa v =>
    cases h
    refine ⟨?_, ?_, .inr ⟨pa, v, rfl, rfl⟩⟩ <;> (unfold State.hostLoadWord; split <;> rfl)
  case deposit r v =>
    split at h
    · cases run h
      exact ⟨rfl, rfl, .inl rfl⟩
    · cases h
      obtain ⟨hc, hm, hv, -, -⟩ := s.deposit_frame r v
      exact ⟨hc, hv, .inl hm⟩
  case registerDevice base count =>
    unfold State.registerDevice at h
    split at h <;> cases h
    exact ⟨rfl, rfl, .inl rfl⟩
  all_goals
    cases h
    exact ⟨rfl, rfl, .inl rfl⟩

/-- A host action on a stopped machine keeps the canonical form of memory (R402). -/
theorem State.hostActStopped_memoryOk {s t : State} {a : HostAction} (hs : s.memoryOk) (h : s.hostActStopped a = .next t) :
    t.memoryOk := by
  obtain ⟨hc, -, hm | ⟨pa, v, -, rfl⟩⟩ := State.hostActStopped_frame h
  · unfold State.memoryOk
    rwa [hm, hc]
  · exact State.hostLoadWord_memoryOk hs pa v

end Sys2Proof.Machine
end

