-- ==== Sys2Proof/Tests/Slice0.lean ====
section
/-! SUPPORT. Tests of the model against the spec: the checks on instructions, the decoding of a written-out word for every
constructor, the spec's worked vectors (95_test_vectors.md; a test's comment gives the row), and a witness for the hypotheses of
every statement. Each machine test is one step from a small state. -/

namespace Sys2Proof.Tests

-- One thread at a time: the tests are many and small.
set_option Elab.async false

open Sys2Proof Sys2Proof.Machine

/-! ## Small machines -/

/-- VA, with no options. -/
def cfgVA : Cfg := { variant := .VA, memSize := 0o20000, hasEAE := false, hasAPI := false, protScheme := .none, hasFP15 := false
                     autoIndexScope := .fieldZero }

/-- VB with EAE. -/
def cfgVB : Cfg := { variant := .VB, memSize := 0o100000, hasEAE := true, hasAPI := false, protScheme := .none, hasFP15 := false
                     autoIndexScope := .perField }

/-- VC with API and the bounds scheme. -/
def cfgVC : Cfg := { variant := .VC, memSize := 0o100000, hasEAE := true, hasAPI := true, protScheme := .bounds, hasFP15 := false
                     autoIndexScope := .fieldZero }

/-- VD with the relocation scheme (T1.5, T1.7, P5). -/
def cfgReloc : Cfg := { Cfg.full with protScheme := .reloc, memSize := 0o40000 }

/-- VD with XVM and one shared window (X6). -/
def cfgXvm : Cfg := { Cfg.full with memSize := 0o40000, xvmTable := { w1 := ⟨0o4000, 0o1000, 0o20000⟩ } }

/-- VD with malformed words ignored (I10). -/
def cfgBare : Cfg := { Cfg.full with unimplPolicy := .nop }

/-- VD with one API vector (A8). -/
def cfgVec : Cfg := { Cfg.full with apiVecTable := [⟨1, 5, 0o52⟩] }

/-- A running machine at `pc` with words in memory and a device at every slot. -/
def at' (c : Cfg) (pc : Addr) (mem : Memory) : State :=
  { State.powerOn c with runState := .running, pc := pc, mem := mem, devices := BitVec.allOnes 64 }

/-- The next step answers a state of which `p` holds. -/
def goes (s : State) (p : State → Bool) : Bool :=
  match step s with
  | .next t => p t
  | _ => false

/-- FP15 1.0, 0.5 and 2.0 (R51). -/
def fpOne : FpReg := { e := 1, hi := 0o200000 }
/-- See `fpOne`. -/
def fpHalf : FpReg := { hi := 0o200000 }
/-- See `fpOne`. -/
def fpTwo : FpReg := { e := 2, hi := 0o200000 }

/-! ## WellFormed refuses each ill-formed term -/

theorem test_wf_rotateCodeNeedsVD : WellFormed cfgVB (.opr { cla := true, rar := true, ral := true }) = false := by decide
theorem test_wf_namedOperateIsNotGeneral : WellFormed Cfg.full (.opr { cma := true }) = false := by decide
theorem test_wf_iacNeedsVD : WellFormed cfgVB .iac = false ∧ WellFormed cfgVB .bsw = false := by decide
theorem test_wf_indexNeedsVD : WellFormed cfgVB (.axs 1) = false := by decide
theorem test_wf_iotInFp15Space : WellFormed Cfg.full (.iot ⟨1, 0o34, 0, false, 1⟩) = false := by decide
theorem test_wf_iotInIndexSpace : WellFormed Cfg.full (.iot ⟨2, 0o34, 0, false, 1⟩) = false := by decide
theorem test_wf_namedIotIsNotGeneral : WellFormed Cfg.full (.iot ⟨0, 0, 0, false, 2⟩) = false := by decide
theorem test_wf_ignoredBitsOfForm : WellFormed Cfg.full (.iof ⟨1, false⟩) = false ∧ WellFormed Cfg.full (.mpcv 3) = false := by
  decide
theorem test_wf_eaeAbsent : WellFormed cfgVA .osc = false ∧ WellFormed cfgVA (.eae {} .setup 3) = false := by decide
theorem test_wf_namedEaeIsNotGeneral : WellFormed Cfg.full (.eae {} .setup 1) = false := by decide
theorem test_wf_fp15Absent : WellFormed cfgVB (.ld {}) = false ∧ WellFormed cfgVB (.br {}) = false := by decide

/-! ## Decoding: a word written out from the encoding rules for every constructor -/

/-- R131, R132: opcode IR<0:3>, I = IR<4>, address IR<5:17>. -/
theorem test_decode_memoryReference :
    decode Cfg.full 0o012345 = .ok (.cal 0o12345)
    ∧ decode Cfg.full 0o040200 = .ok (.dac ⟨false, 0o0200⟩)
    ∧ decode Cfg.full 0o117777 = .ok (.jms ⟨false, 0o17777⟩)
    ∧ decode Cfg.full 0o140100 = .ok (.dzm ⟨false, 0o0100⟩)
    ∧ decode Cfg.full 0o220050 = .ok (.lac ⟨true, 0o0050⟩)
    ∧ decode Cfg.full 0o240100 = .ok (.xor ⟨false, 0o0100⟩)
    ∧ decode Cfg.full 0o300222 = .ok (.add ⟨false, 0o0222⟩)
    ∧ decode Cfg.full 0o360010 = .ok (.tad ⟨true, 0o0010⟩)
    ∧ decode Cfg.full 0o400300 = .ok (.xct ⟨false, 0o0300⟩)
    ∧ decode Cfg.full 0o440100 = .ok (.isz ⟨false, 0o0100⟩)
    ∧ decode Cfg.full 0o510100 = .ok (.and ⟨false, 0o10100⟩)
    ∧ decode Cfg.full 0o540100 = .ok (.sad ⟨false, 0o0100⟩)
    ∧ decode Cfg.full 0o620230 = .ok (.jmp ⟨true, 0o0230⟩) := by decide

/-- R134, R207: the operate bits, and the named combinations. -/
theorem test_decode_operate :
    decode Cfg.full 0o754000 = .ok (.opr { cla := true, cll := true })
    ∧ decode Cfg.full 0o741500 = .ok (.opr { skp := true, snl := true, sma := true })
    ∧ decode Cfg.full 0o742004 = .ok (.opr { rtwo := true, oas := true })
    ∧ decode Cfg.full 0o740140 = .ok (.opr { sma := true, hlt := true })
    ∧ decode Cfg.full 0o740000 = .ok .nop
    ∧ decode Cfg.full 0o740001 = .ok .cma
    ∧ decode Cfg.full 0o740002 = .ok .cml
    ∧ decode Cfg.full 0o740004 = .ok .oas
    ∧ decode Cfg.full 0o740010 = .ok .ral
    ∧ decode Cfg.full 0o740020 = .ok .rar
    ∧ decode Cfg.full 0o740030 = .ok .iac
    ∧ decode Cfg.full 0o740040 = .ok .hlt
    ∧ decode Cfg.full 0o740100 = .ok .sma
    ∧ decode Cfg.full 0o740200 = .ok .sza
    ∧ decode Cfg.full 0o740300 = .ok .smaSza
    ∧ decode Cfg.full 0o740400 = .ok .snl
    ∧ decode Cfg.full 0o741000 = .ok .skp
    ∧ decode Cfg.full 0o741100 = .ok .spa
    ∧ decode Cfg.full 0o741200 = .ok .sna
    ∧ decode Cfg.full 0o741300 = .ok .spaSna
    ∧ decode Cfg.full 0o741400 = .ok .szl
    ∧ decode Cfg.full 0o742010 = .ok .rtl
    ∧ decode Cfg.full 0o742020 = .ok .rtr
    ∧ decode Cfg.full 0o742030 = .ok .bsw
    ∧ decode Cfg.full 0o744000 = .ok .cll
    ∧ decode Cfg.full 0o744002 = .ok .stl
    ∧ decode Cfg.full 0o744010 = .ok .rcl
    ∧ decode Cfg.full 0o744020 = .ok .rcr
    ∧ decode Cfg.full 0o750000 = .ok .cla
    ∧ decode Cfg.full 0o750001 = .ok .clc
    ∧ decode Cfg.full 0o750004 = .ok .las
    ∧ decode Cfg.full 0o750010 = .ok .glk := by decide

/-- R133, R135: LAW and the index operates with their 9-bit immediate. -/
theorem test_decode_immediateAndIndex :
    decode Cfg.full 0o760017 = .ok (.law 0o00017)
    ∧ decode Cfg.full 0o721000 = .ok (.pax 0)
    ∧ decode Cfg.full 0o722001 = .ok (.pal 1)
    ∧ decode Cfg.full 0o723777 = .ok (.aac 0o777)
    ∧ decode Cfg.full 0o724000 = .ok (.pxa 0)
    ∧ decode Cfg.full 0o725001 = .ok (.axs 1)
    ∧ decode Cfg.full 0o726000 = .ok (.pxl 0)
    ∧ decode Cfg.full 0o730000 = .ok (.pla 0)
    ∧ decode Cfg.full 0o731000 = .ok (.plx 0)
    ∧ decode Cfg.full 0o734000 = .ok (.clac 0)
    ∧ decode Cfg.full 0o735000 = .ok (.clx 0)
    ∧ decode Cfg.full 0o736000 = .ok (.cllr 0)
    ∧ decode Cfg.full 0o737776 = .ok (.axr 0o776) := by decide

/-- R136, R137, R240 to R264: device IR<6:11>, subdevice IR<12:13>, clear bit IR<14>, pulses IR<15:17>. -/
theorem test_decode_transfer :
    decode Cfg.full 0o703401 = .ok (.iot ⟨0, 0o34, 0, false, 1⟩)
    ∧ decode Cfg.full 0o703471 = .ok (.iot ⟨0, 0o34, 3, true, 1⟩)
    ∧ decode Cfg.full 0o700002 = .ok (.iof {})
    ∧ decode Cfg.full 0o700042 = .ok (.ion {})
    ∧ decode Cfg.full 0o700314 = .ok (.iors { cla := true })
    ∧ decode Cfg.full 0o703302 = .ok (.caf {})
    ∧ decode Cfg.full 0o703304 = .ok (.dbk {})
    ∧ decode Cfg.full 0o703344 = .ok (.dbr {})
    ∧ decode Cfg.full 0o701701 = .ok (.mpsk {})
    ∧ decode Cfg.full 0o701744 = .ok (.mpcne {})
    ∧ decode Cfg.full 0o701702 = .ok (.mpcv 0)
    ∧ decode Cfg.full 0o701704 = .ok (.mpld {})
    ∧ decode Cfg.full 0o701724 = .ok (.mplr {})
    ∧ decode Cfg.full 0o701722 = .ok (.mplmr {})
    ∧ decode Cfg.full 0o701712 = .ok (.mprmr 0)
    ∧ decode Cfg.full 0o701741 = .ok (.mpsne {})
    ∧ decode Cfg.full 0o701742 = .ok (.mpeu {})
    ∧ decode Cfg.full 0o707701 = .ok (.semSba {})
    ∧ decode Cfg.full 0o707702 = .ok (.eem {})
    ∧ decode Cfg.full 0o707704 = .ok (.lem {})
    ∧ decode Cfg.full 0o707724 = .ok (.eba {})
    ∧ decode Cfg.full 0o707722 = .ok (.dba {})
    ∧ decode Cfg.full 0o707742 = .ok (.emirRes {})
    ∧ decode Cfg.full 0o705501 = .ok (.spi {})
    ∧ decode Cfg.full 0o705504 = .ok (.isa {})
    ∧ decode Cfg.full 0o705512 = .ok (.rpl { cla := true }) := by decide

/-- R140, R291: the pre-steps IR<4:8>, the command IR<9:11>, the count IR<12:17>. -/
theorem test_decode_extendedArithmetic :
    decode Cfg.full 0o640305 = .ok (.eae {} .divide 5)
    ∧ decode Cfg.full 0o664001 = .ok (.eae { sgnl := true, sign := true } .setup 1)
    ∧ decode Cfg.full 0o640001 = .ok .osc
    ∧ decode Cfg.full 0o640002 = .ok .omq
    ∧ decode Cfg.full 0o640004 = .ok .cmq
    ∧ decode Cfg.full 0o641001 = .ok .lacs
    ∧ decode Cfg.full 0o641002 = .ok .lacq
    ∧ decode Cfg.full 0o644000 = .ok .abs
    ∧ decode Cfg.full 0o650000 = .ok .clq
    ∧ decode Cfg.full 0o652000 = .ok .lmq
    ∧ decode Cfg.full 0o664000 = .ok .gsm
    ∧ decode Cfg.full 0o653122 = .ok .mul
    ∧ decode Cfg.full 0o657122 = .ok .muls
    ∧ decode Cfg.full 0o640323 = .ok .div
    ∧ decode Cfg.full 0o644323 = .ok .divs
    ∧ decode Cfg.full 0o653323 = .ok .idiv
    ∧ decode Cfg.full 0o657323 = .ok .idivs
    ∧ decode Cfg.full 0o650323 = .ok .frdiv
    ∧ decode Cfg.full 0o654323 = .ok .frdivs
    ∧ decode Cfg.full 0o640444 = .ok .norm
    ∧ decode Cfg.full 0o660444 = .ok .norms
    ∧ decode Cfg.full 0o640544 = .ok (.lrs 0o44)
    ∧ decode Cfg.full 0o660502 = .ok (.lrss 2)
    ∧ decode Cfg.full 0o640603 = .ok (.lls 3)
    ∧ decode Cfg.full 0o660603 = .ok (.llss 3)
    ∧ decode Cfg.full 0o640702 = .ok (.als 2)
    ∧ decode Cfg.full 0o660702 = .ok (.alss 2) := by decide

/-- R138, R139, R335: the subop IR<6:9>, the modifiers IR<10:14>, IR<16:17>. -/
theorem test_decode_floating :
    decode Cfg.full 0o710440 = .ok (.fpSub { fp := true })
    ∧ decode Cfg.full 0o711000 = .ok (.fpRsub {})
    ∧ decode Cfg.full 0o711540 = .ok (.fpMul { dp := true, fp := true })
    ∧ decode Cfg.full 0o712200 = .ok (.fpDiv { noload := true })
    ∧ decode Cfg.full 0o712400 = .ok (.fpRdiv {})
    ∧ decode Cfg.full 0o713143 = .ok (.ld { dp := true, fp := true, sgn := 3 })
    ∧ decode Cfg.full 0o713540 = .ok (.st { dp := true, fp := true })
    ∧ decode Cfg.full 0o714020 = .ok (.flt { nonorm := true })
    ∧ decode Cfg.full 0o714410 = .ok (.fix { nornd := true })
    ∧ decode Cfg.full 0o715000 = .ok (.lfmq {})
    ∧ decode Cfg.full 0o715500 = .ok (.jea { dp := true })
    ∧ decode Cfg.full 0o716140 = .ok (.fpAdd { dp := true, fp := true })
    ∧ decode Cfg.full 0o716440 = .ok (.br { zero := true })
    ∧ decode Cfg.full 0o716423 = .ok (.br { positive := true, grd := true, reverse := true }) := by decide

/-- R130: `decodeTableWord` reads the first word of a row; the bits above `nbits` are 0. -/
theorem test_decodeTableWord :
    decodeTableWord 18 0o653122 = some .mul ∧ decodeTableWord 18 (0o1000000 + 0o740001) = some .cma
    ∧ decodeTableWord 18 0o640200 = none := by decide

/-- R142 to R145: a word of an absent option. -/
theorem test_decode_absentOption :
    decode cfgVA 0o640001 = .error .eaeAbsent ∧ decode cfgVB 0o740030 = .error .rotateReserved
    ∧ decode cfgVB 0o713140 = .ok (.iot ⟨1, 0o31, 2, false, 0⟩) ∧ decode Cfg.full 0o713144 = .error .fpBit15
    ∧ decode Cfg.full 0o727000 = .error .indexSubReserved ∧ decode Cfg.full 0o640200 = .error .eaeCmdReserved
    ∧ decode Cfg.full 0o717400 = .error .fpSubopReserved := by decide
/-! ## Memory reference (95_test_vectors.md section 2.1) -/

/-- V1. -/
theorem test_tad_carryComplementsLink :
    goes { at' cfgVB 0o200 [(0o100, 2), (0o200, 0o340100)] with ac := 0o777777 }
      (fun t => t.ac == 1 && t.l && t.pc == 0o201) = true := by decide +kernel

/-- V2. -/
theorem test_tad_carryClearsLink :
    goes { at' cfgVB 0o200 [(0o100, 1), (0o200, 0o340100)] with ac := 0o777777, l := true }
      (fun t => t.ac == 0 && !t.l) = true := by decide +kernel

/-- T1.1 row 1: the carry goes around once. -/
theorem test_add_minusZeroTwice :
    goes { at' cfgVB 0o200 [(0o100, 0o777777), (0o200, 0o300100)] with ac := 0o777777 }
      (fun t => t.ac == 0o777777 && !t.l) = true := by decide +kernel

/-- T1.1 row 5. -/
theorem test_add_overflowSetsLink :
    goes { at' cfgVB 0o200 [(0o100, 0o400000), (0o200, 0o300100)] with ac := 0o400000 }
      (fun t => t.ac == 1 && t.l) = true := by decide +kernel

/-- V3. -/
theorem test_isz_skipsAtZero :
    goes (at' cfgVB 0o200 [(0o100, 0o777777), (0o200, 0o440100)])
      (fun t => t.wordAt 0o100 == 0 && t.pc == 0o202) = true := by decide +kernel

/-- V4. -/
theorem test_isz_doesNotSkip :
    goes (at' cfgVB 0o200 [(0o100, 0o777776), (0o200, 0o440100)])
      (fun t => t.wordAt 0o100 == 0o777777 && t.pc == 0o201) = true := by decide +kernel

/-- V5. -/
theorem test_sad_zerosDiffer :
    goes (at' cfgVB 0o200 [(0o100, 0o777777), (0o200, 0o540100)]) (fun t => t.pc == 0o202) = true := by decide +kernel

/-- V6. -/
theorem test_sad_equal :
    goes { at' cfgVB 0o200 [(0o100, 5), (0o200, 0o540100)] with ac := 5 } (fun t => t.pc == 0o201) = true := by decide +kernel

/-- V7. -/
theorem test_jms_wrapsOnVA :
    goes (at' cfgVA 0o1000 [(0o1000, 0o117777)]) (fun t => t.wordAt 0o17777 == 0o001001 && t.pc == 0) = true := by
  decide +kernel

/-- V8. -/
theorem test_jms_goesOnInTheBlock :
    goes (at' cfgVB 0o1000 [(0o1000, 0o117777)]) (fun t => t.wordAt 0o17777 == 0o001001 && t.pc == 0o20000) = true := by
  decide +kernel

/-- V9. -/
theorem test_xct_nestingLimit :
    goes (at' cfgVB 0o200 [(0o100, 0o400100), (0o200, 0o400100)])
      (fun t => t.runState == .stopped .xctLimit && t.pc == 0o201) = true := by decide +kernel

/-- V11. -/
theorem test_xct_skip :
    goes (at' cfgVB 0o200 [(0o200, 0o400300), (0o300, 0o741000)]) (fun t => t.pc == 0o202) = true := by decide +kernel

/-- V12. -/
theorem test_jmp_selfLoop :
    goes (at' cfgVB 0o200 [(0o200, 0o600200)])
      (fun t => t.runState == .stopped .selfLoop && t.pc == 0o200 && t.pcq.head? == some 0o201) = true := by decide +kernel

/-- V24 (any variant). -/
theorem test_jmp_restores :
    goes { at' cfgVC 0o200 [(0o100, 0o402000), (0o200, 0o620100)] with restPending := true }
      (fun t => t.l && !t.memmBuf && !t.usmdBuf && t.modeDefer == 1 && !t.restPending && t.pc == 0o2000) = true
    ∧ goes { at' cfgVA 0o200 [(0o100, 0o602000), (0o200, 0o620100)] with restPending := true }
      (fun t => t.l && !t.memmBuf && t.modeDefer == 1 && !t.restPending && t.pc == 0o2000) = true := by
  decide +kernel

/-- V14: extend mode reaches the block. -/
theorem test_lac_extend :
    goes { at' cfgVB 0o20100 [(0o20100, 0o220200), (0o20200, 0o070000), (0o70000, 0o123)] with memm := true, memmBuf := true }
      (fun t => t.ac == 0o123) = true := by decide +kernel

/-- V16: indexed on VD. -/
theorem test_lac_indexed :
    goes { at' Cfg.full 0o10000 [(0o10000, 0o210100), (0o10105, 7)] with xr := 5 } (fun t => t.ac == 7) = true := by
  decide +kernel

/-- V19: the auto-index window of the PC's own field. -/
theorem test_autoIndex_perField :
    goes (at' cfgVB 0o20100 [(0o20010, 0o100), (0o20100, 0o220010), (0o20101, 5)])
      (fun t => t.wordAt 0o20010 == 0o101 && t.ac == 5) = true := by decide +kernel

/-- V20: the auto-index window of field 0. -/
theorem test_autoIndex_fieldZero :
    goes (at' cfgVC 0o20100 [(0o10, 0o100), (0o20100, 0o220010), (0o20101, 5)])
      (fun t => t.wordAt 0o10 == 0o101 && t.ac == 5) = true := by decide +kernel

/-- V21. -/
theorem test_cal :
    goes { at' cfgVB 0o777 [(0o777, 0o000000)] with l := true }
      (fun t => t.wordAt 0o20 == 0o401000 && t.pc == 0o21) = true := by decide +kernel

/-- V22. -/
theorem test_cal_api :
    goes { at' cfgVC 0o777 [(0o777, 0o000000)] with apiEnb := true }
      (fun t => t.wordAt 0o20 == 0o001000 && t.pc == 0o21 && t.apiAct == 0o010) = true := by decide +kernel

/-- V23. -/
theorem test_xor :
    goes { at' cfgVB 0o200 [(0o100, 0o777000), (0o200, 0o240100)] with ac := 0o707070 } (fun t => t.ac == 0o070070) = true := by
  decide +kernel

/-- V23. -/
theorem test_and :
    goes { at' cfgVB 0o200 [(0o100, 0o777000), (0o200, 0o500100)] with ac := 0o707070 } (fun t => t.ac == 0o707000) = true := by
  decide +kernel

/-- P1, R171: DAC; the rest of memory stays. -/
theorem test_dac :
    goes { at' cfgVB 0o104 [(0o20, 9), (0o104, 0o040021)] with ac := 0o17 }
      (fun t => t.mem == [(0o20, 9), (0o21, 0o17), (0o104, 0o040021)]) = true := by decide +kernel

/-- R173. -/
theorem test_dzm :
    goes (at' cfgVB 0o200 [(0o100, 5), (0o200, 0o140100)]) (fun t => t.wordAt 0o100 == 0) = true := by decide +kernel

/-! ## Operate and load immediate (section 2.2) -/

/-- O1. -/
theorem test_rar :
    goes { at' cfgVB 0o100 [(0o100, 0o740020)] with l := true } (fun t => !t.l && t.ac == 0o400000) = true := by decide +kernel

/-- T1.6 step 2. -/
theorem test_ral :
    goes { at' cfgVB 0o100 [(0o100, 0o740010)] with ac := 0o777777 } (fun t => t.l && t.ac == 0o777776) = true := by
  decide +kernel

/-- T1.6 last row. -/
theorem test_rtl :
    goes { at' cfgVB 0o100 [(0o100, 0o742010)] with ac := 0o777777 } (fun t => t.l && t.ac == 0o777775) = true := by
  decide +kernel

/-- O3. -/
theorem test_rtr :
    goes { at' cfgVB 0o100 [(0o100, 0o742020)] with ac := 1 } (fun t => !t.l && t.ac == 0o400000) = true := by decide +kernel

/-- O4. -/
theorem test_glk :
    goes { at' cfgVB 0o100 [(0o100, 0o750010)] with l := true, ac := 0o777 } (fun t => !t.l && t.ac == 1) = true := by
  decide +kernel

/-- O5. -/
theorem test_sza_minusZero :
    goes { at' cfgVB 0o100 [(0o100, 0o740200)] with ac := 0o777777 } (fun t => t.pc == 0o101) = true := by decide +kernel

/-- O6. -/
theorem test_sma :
    goes { at' cfgVB 0o100 [(0o100, 0o740100)] with ac := 0o777777 } (fun t => t.pc == 0o102) = true := by decide +kernel

/-- O7. -/
theorem test_sna :
    goes (at' cfgVB 0o100 [(0o100, 0o741200)]) (fun t => t.pc == 0o101) = true := by decide +kernel

/-- O8. -/
theorem test_szl :
    goes { at' cfgVB 0o100 [(0o100, 0o741400)] with ac := 5 } (fun t => t.pc == 0o102) = true := by decide +kernel

/-- O9: SPA SZL skips only when both hold. -/
theorem test_opr_spaSzl :
    goes { at' cfgVB 0o100 [(0o100, 0o741500)] with ac := 0o400000 } (fun t => t.pc == 0o101) = true
    ∧ goes { at' cfgVB 0o100 [(0o100, 0o741500)] with ac := 5 } (fun t => t.pc == 0o102) = true := by decide +kernel

/-- O10. -/
theorem test_skp_wraps :
    goes (at' cfgVB 0o77776 [(0o77776, 0o741000)]) (fun t => t.pc == 0) = true := by decide +kernel

/-- O11. -/
theorem test_bsw :
    goes { at' Cfg.full 0o100 [(0o100, 0o742030)] with ac := 0o123456 } (fun t => t.ac == 0o456123) = true := by decide +kernel

/-- O12. -/
theorem test_iac :
    goes { at' Cfg.full 0o100 [(0o100, 0o740030)] with ac := 0o777777 } (fun t => t.ac == 0 && t.l) = true := by decide +kernel

/-- O13: malformed on VB, under both policies. -/
theorem test_malformed :
    goes (at' cfgVB 0o100 [(0o100, 0o740030)]) (fun t => t.runState == .stopped .unimplemented && t.pc == 0o101) = true
    ∧ goes (at' cfgBare 0o100 [(0o100, 0o727000)]) (fun t => t.runState == .running && t.pc == 0o101) = true := by
  decide +kernel

/-- O16. -/
theorem test_las :
    goes { at' cfgVB 0o100 [(0o100, 0o750004)] with sr := 0o252525, ac := 1 } (fun t => t.ac == 0o252525) = true := by
  decide +kernel

/-- O18. -/
theorem test_stl : goes (at' cfgVB 0o100 [(0o100, 0o744002)]) (fun t => t.l) = true := by decide +kernel

/-- O19. -/
theorem test_hlt_user :
    goes { at' Cfg.full 0o100 [(0o100, 0o740040)] with usmd := true, usmdBuf := true, mmr := 0o400000 }
      (fun t => t.prvn && t.trapPending && t.runState == .running) = true := by decide +kernel

/-- O20. -/
theorem test_opr_claCmaHlt :
    goes (at' cfgVB 0o100 [(0o100, 0o750041)])
      (fun t => t.ac == 0o777777 && t.runState == .stopped .halt && t.pc == 0o101) = true := by decide +kernel

/-- O15. -/
theorem test_law :
    goes (at' cfgVB 0o100 [(0o100, 0o760000)]) (fun t => t.ac == 0o760000) = true := by decide +kernel

/-- O21. -/
theorem test_aac :
    goes (at' Cfg.full 0o100 [(0o100, 0o723777)]) (fun t => t.ac == 0o777777) = true := by decide +kernel

/-- O22. -/
theorem test_axs :
    goes { at' Cfg.full 0o100 [(0o100, 0o725001)] with xr := 7, lr := 0o10 } (fun t => t.xr == 0o10 && t.pc == 0o102) = true := by
  decide +kernel

/-- O23. -/
theorem test_axr :
    goes (at' Cfg.full 0o100 [(0o100, 0o737776)]) (fun t => t.xr == 0o777776) = true := by decide +kernel

/-- O24. -/
theorem test_pax :
    goes { at' Cfg.full 0o100 [(0o100, 0o721000)] with ac := 0o100 } (fun t => t.xr == 0o100) = true := by decide +kernel

/-- R218: PLX moves LR to XR. -/
theorem test_plx :
    goes { at' Cfg.full 0o100 [(0o100, 0o731000)] with lr := 3 } (fun t => t.xr == 3 && t.ac == 0) = true := by decide +kernel

/-! ## I/O transfer (section 2.3) -/

/-- I1. -/
theorem test_iors :
    goes { at' Cfg.full 0o100 [(0o100, 0o700314)] with ion := true, ionDefer := true, statusPolls := [0o000400], ac := 7 }
      (fun t => t.ac == 0o400400 && t.ionDefer) = true := by decide +kernel

/-- I2. -/
theorem test_rpl :
    goes { at' Cfg.full 0o100 [(0o100, 0o705512)] with
        apiEnb := true, intReq := { api1 := 8 }, apiReq := 0o004, apiAct := 0o100 }
      (fun t => t.ac == 0o442100 && t.ionDefer) = true := by decide +kernel

/-- I3. -/
theorem test_dbk :
    goes { at' Cfg.full 0o100 [(0o100, 0o703304)] with apiAct := 0o044 } (fun t => t.apiAct == 0o004) = true := by decide +kernel

/-- I5. -/
theorem test_isa :
    goes { at' Cfg.full 0o100 [(0o100, 0o705504)] with ac := 0o400200 } (fun t => t.apiEnb && t.apiReq == 0o010) = true := by
  decide +kernel

/-- I6. -/
theorem test_spi : goes (at' Cfg.full 0o100 [(0o100, 0o705501)]) (fun t => t.pc == 0o102) = true := by decide +kernel

/-- I7: data and skip of the device's answer. -/
theorem test_iot_skip :
    goes { at' Cfg.full 0o100 [(0o100, 0o703401)] with ac := 0o10, ioAnswers := [⟨2 ^ 18 + 0o123, []⟩] }
      (fun t => t.ac == 0o133 && t.pc == 0o102 && t.ionDefer) = true := by decide +kernel

/-- I8: a stop code. -/
theorem test_iot_stop :
    goes { at' Cfg.full 0o100 [(0o100, 0o703401)] with ac := 0o10, ioAnswers := [⟨5 * 2 ^ 19 + 0o3, []⟩] }
      (fun t => t.ac == 0o13 && t.runState == .stopped (.ioStop 5)) = true := by decide +kernel

/-- I9. -/
theorem test_ion_user :
    goes { at' Cfg.full 0o100 [(0o100, 0o700042)] with usmd := true, usmdBuf := true, mmr := 0o400000 }
      (fun t => t.prvn && t.trapPending && !t.ion && !t.ionDefer) = true := by decide +kernel

/-- I10, I11: no device at the slot. -/
theorem test_iot_noDevice :
    goes { at' cfgBare 0o100 [(0o100, 0o703411)] with ac := 7, devices := 0 } (fun t => t.ac == 7 && !t.ionDefer && t.pc == 0o101) = true
    ∧ goes { at' cfgVB 0o100 [(0o100, 0o703411)] with ac := 7, devices := 0 }
      (fun t => t.ac == 7 && t.runState == .stopped .unimplemented) = true := by decide +kernel

/-- I12. -/
theorem test_mpsk :
    goes { at' Cfg.full 0o100 [(0o100, 0o701701)] with prvn := true } (fun t => t.pc == 0o102) = true := by decide +kernel

/-- I13. -/
theorem test_mpcv :
    goes { at' Cfg.full 0o100 [(0o100, 0o701702)] with prvn := true, nexm := true } (fun t => !t.prvn && t.nexm) = true := by
  decide +kernel

/-- I14. -/
theorem test_mpld :
    goes { at' Cfg.full 0o100 [(0o100, 0o701704)] with ac := 0o777 } (fun t => t.br == 0o777) = true := by decide +kernel

/-- R255. -/
theorem test_mprmr :
    goes { at' Cfg.full 0o100 [(0o100, 0o701712)] with mmr := 0o123, ac := 0o777 } (fun t => t.ac == 0o123) = true := by
  decide +kernel

/-- I15, with the device slots empty: the word is the processor's own. -/
theorem test_eem :
    goes { at' cfgVC 0o100 [(0o100, 0o707702)] with devices := 0 } (fun t => t.memmBuf && !t.memm && t.modeDefer == 2) = true := by decide +kernel

/-- I16. -/
theorem test_caf :
    goes { at' Cfg.full 0o100 [(0o100, 0o703302)] with
        ion := true, nexm := true, prvn := true, apiAct := 0o044, intReq := { pi := 1 }, ionDefer := true }
      (fun t => !t.ion && !t.nexm && !t.prvn && t.apiAct == 0 && t.intReq == {}) = true := by decide +kernel

/-! ## EAE (T1.2, section 2.4) -/

/-- E12. -/
theorem test_mul :
    goes { at' cfgVB 0o300 [(0o300, 0o653122), (0o301, 0o12)] with ac := 0o14 }
      (fun t => t.ac == 0 && t.mq == 0o170 && !t.l && t.sc == 0 && t.pc == 0o302) = true := by decide +kernel

/-- T1.2 row 4: the product -0. -/
theorem test_muls_minusZero :
    goes { at' cfgVB 0o300 [(0o300, 0o657122), (0o301, 0o777777)] with ac := 3 }
      (fun t => t.ac == 0o777777 && t.mq == 0o777777 && t.l && t.sc == 0) = true := by decide +kernel

/-- T1.2 row 5. -/
theorem test_idiv :
    goes { at' cfgVB 0o300 [(0o300, 0o653323), (0o301, 4)] with ac := 0o17 }
      (fun t => t.mq == 3 && t.ac == 3 && !t.l && t.sc == 0) = true := by decide +kernel

/-- T1.2 row 7. -/
theorem test_idivs :
    goes { at' cfgVB 0o300 [(0o300, 0o657323), (0o301, 4)] with ac := 0o777760 }
      (fun t => t.mq == 0o777774 && t.ac == 0o777774 && !t.l) = true := by decide +kernel

/-- T1.2 row 8. -/
theorem test_div_byZero :
    goes { at' cfgVB 0o300 [(0o300, 0o640323), (0o301, 0)] with mq := 5, sc := 7 }
      (fun t => t.l && t.ac == 0 && t.mq == 5 && t.sc == 7) = true := by decide +kernel

/-- E1. -/
theorem test_norm_zero :
    goes (at' cfgVB 0o300 [(0o300, 0o640444)]) (fun t => t.ac == 0 && t.mq == 0 && t.sc == 0) = true := by decide +kernel

/-- E3. -/
theorem test_norms :
    goes { at' cfgVB 0o300 [(0o300, 0o660444)] with l := true, ac := 0o777776, mq := 0o777777 }
      (fun t => t.ac == 0o577777 && t.mq == 0o777777 && t.sc == 0o24 && t.l) = true := by decide +kernel

/-- E4. -/
theorem test_lls :
    goes { at' cfgVB 0o300 [(0o300, 0o640603)] with ac := 1, mq := 0o400000 } (fun t => t.ac == 0o14 && t.mq == 0) = true := by
  decide +kernel

/-- E5. -/
theorem test_als :
    goes { at' cfgVB 0o300 [(0o300, 0o640702)] with l := true, ac := 1 } (fun t => t.ac == 7 && t.sc == 0) = true := by
  decide +kernel

/-- E6. -/
theorem test_lrs :
    goes { at' cfgVB 0o300 [(0o300, 0o640544)] with l := true } (fun t => t.ac == 0o777777 && t.mq == 0o777777) = true := by
  decide +kernel

/-- E7. -/
theorem test_abs :
    goes { at' cfgVB 0o300 [(0o300, 0o644000)] with ac := 0o777770 } (fun t => t.eaeAcSign && t.ac == 7) = true := by
  decide +kernel

/-- E8. -/
theorem test_gsm :
    goes { at' cfgVB 0o300 [(0o300, 0o664000)] with ac := 0o777770 } (fun t => t.l && t.ac == 7) = true := by decide +kernel

/-- E10. -/
theorem test_lacs :
    goes { at' cfgVB 0o300 [(0o300, 0o641001)] with sc := 0o17, ac := 5 } (fun t => t.ac == 0o17) = true := by decide +kernel

/-- E11. -/
theorem test_eae_reserved :
    goes { at' cfgVB 0o300 [(0o300, 0o650200)] with mq := 3 } (fun t => t.runState == .stopped .unimplemented && t.mq == 3) = true := by
  decide +kernel

/-! ## FP15 (T1.2, T1.4, section 2.5) -/

/-- F1, F2. -/
theorem test_normalize :
    normalize {} false 3 (2 ^ 33) true = .ok (⟨false, 2, 2 ^ 34 + 1⟩, false)
    ∧ normalize {} false 0 (2 ^ 35 - 1) true = .ok (⟨false, 1, 2 ^ 34⟩, true) := by decide +kernel

/-- F5. -/
theorem test_fpAdd :
    goes { at' Cfg.full 0o402 [(0o402, 0o716140), (0o403, 0o503), (0o503, 0), (0o504, 0o200000), (0o505, 0)] with fma := fpOne }
      (fun t => t.fma.unpack == ⟨false, 1, 3 * 2 ^ 33⟩ && t.fmb == fpHalf && t.pc == 0o404) = true := by decide +kernel

/-- F4, by SUB with NOLOAD. -/
theorem test_fpSub_toZero :
    goes { at' Cfg.full 0o400 [(0o400, 0o710640), (0o401, 0)] with fma := fpOne, fmb := fpOne } (fun t => t.fma == {}) = true := by
  decide +kernel

/-- R323: RSUB is B - A. -/
theorem test_fpRsub :
    goes { at' Cfg.full 0o400 [(0o400, 0o711240), (0o401, 0)] with fma := fpOne, fmb := fpTwo } (fun t => t.fma == fpOne) = true := by
  decide +kernel

/-- F6. -/
theorem test_fpMul :
    goes { at' Cfg.full 0o400 [(0o400, 0o711640), (0o401, 0)] with
        fma := { e := 1, hi := 0o300000 }, fmb := { e := 1, hi := 0o300000 } }
      (fun t => t.fma.unpack == ⟨false, 2, 9 * 2 ^ 31⟩ && t.fmq == 0) = true := by decide +kernel

/-- F7. -/
theorem test_fpDiv :
    goes { at' Cfg.full 0o400 [(0o400, 0o712240), (0o401, 0)] with fma := fpOne, fmb := fpTwo } (fun t => t.fma == fpHalf) = true := by
  decide +kernel

/-- F20. -/
theorem test_fpDiv_byZero :
    goes { at' Cfg.full 0o300 [(0o300, 0o712240), (0o301, 0)] with fma := fpOne, jeaBase := 0o1000 }
      (fun t => t.wordAt 0o1000 == 0o000302 && t.pc == 0o1003 && t.fma == fpOne) = true := by decide +kernel

/-- R326: RDIV is B / A. -/
theorem test_fpRdiv :
    goes { at' Cfg.full 0o400 [(0o400, 0o712640), (0o401, 0)] with fma := fpTwo, fmb := fpOne } (fun t => t.fma == fpHalf) = true := by
  decide +kernel

/-- F16. -/
theorem test_ld_negated :
    goes (at' Cfg.full 0o400 [(0o400, 0o713143), (0o401, 0o500), (0o500, 1), (0o501, 0o200000), (0o502, 0)])
      (fun t => t.fma == { fpOne with s := true } && t.fmb == fpOne) = true := by decide +kernel

/-- F8. -/
theorem test_ld_single :
    goes (at' Cfg.full 0o400 [(0o400, 0o713040), (0o401, 0o500), (0o500, 1), (0o501, 0o200000)])
      (fun t => t.fma == fpOne) = true := by decide +kernel

/-- T1.4 row 2. -/
theorem test_st_double :
    goes { at' Cfg.full 0o400 [(0o400, 0o713540), (0o401, 0o500)] with fma := ⟨true, 0o777776, 0o300000, 0⟩ }
      (fun t => t.wordAt 0o500 == 0o777776 && t.wordAt 0o501 == 0o700000 && t.wordAt 0o502 == 0) = true := by decide +kernel

/-- T1.4 row 5. -/
theorem test_st_integer :
    goes { at' Cfg.full 0o400 [(0o400, 0o713400), (0o401, 0o500)] with fma := ⟨true, 35, 0, 5⟩ }
      (fun t => t.wordAt 0o500 == 0o777773) = true := by decide +kernel

/-- F9. -/
theorem test_flt :
    goes { at' Cfg.full 0o400 [(0o400, 0o714000), (0o401, 0)] with fma := ⟨false, 35, 0, 3⟩ }
      (fun t => t.fma.unpack == ⟨false, 2, 3 * 2 ^ 33⟩) = true := by decide +kernel

/-- F10. -/
theorem test_fix :
    goes { at' Cfg.full 0o400 [(0o400, 0o714400), (0o401, 0)] with fma := (⟨false, 2, 9 * 2 ^ 31⟩ : Unpacked).pack }
      (fun t => t.fma.unpack == ⟨false, 35, 2⟩) = true := by decide +kernel

/-- R331. -/
theorem test_lfmq :
    goes { at' Cfg.full 0o400 [(0o400, 0o715000), (0o401, 0)] with fma := fpOne, fmq := 0o1000003 }
      (fun t => t.fma == ⟨false, 1, 1, 3⟩) = true := by decide +kernel

/-- F18. -/
theorem test_jea_store :
    goes { at' Cfg.full 0o400 [(0o400, 0o715500), (0o401, 0o500)] with fma := { s := true }, fguard := true, jeaBase := 0o1000 }
      (fun t => t.wordAt 0o500 == 0o601000) = true := by decide +kernel

/-- F19. -/
theorem test_br_zero :
    goes (at' Cfg.full 0o400 [(0o400, 0o716440), (0o401, 0o2000)]) (fun t => t.pc == 0o2000) = true := by decide +kernel

/-- F21. -/
theorem test_fp_memoryFault :
    goes { at' cfgReloc 0o300 [(0o300, 0o712140), (0o301, 0o50000)] with fma := fpOne, jeaBase := 0o1000 }
      (fun t => t.nexm && !t.trapPending && t.pc == 0o1004 && t.wordAt 0o1000 == 0o302) = true := by decide +kernel

/-! ## Translation (T1.5, section 2.6) -/

/-- T1.5: both sides of the bound. -/
theorem test_reloc_bound :
    { at' cfgReloc 0 [] with usmd := true, br := 0o777, rr := 0o10000 }.translate 0o777 .read = .ok 0o10777
    ∧ { at' cfgReloc 0 [] with usmd := true, br := 0o777, rr := 0o10000 }.translate 0o1000 .read = .violation
    ∧ { at' cfgReloc 0 [] with usmd := true, rr := 0o10000 }.translate 0o377 .read = .ok 0o10377
    ∧ { at' cfgReloc 0 [] with usmd := true, rr := 0o10000 }.translate 0o400 .read = .violation := by decide +kernel

/-- X1, X5. -/
theorem test_reloc_granule :
    { at' cfgReloc 0 [] with usmd := true, br := 0o777, rr := 0o10123 }.translate 0o100 .read = .ok 0o10100
    ∧ { at' { cfgReloc with memSize := 0o20000 } 0 [] with usmd := true, br := 0o777, rr := 0o17600 }.translate 0o500 .read
      = .nonExistent := by decide +kernel

/-- X6, X7, X9. -/
theorem test_xvm :
    { at' cfgXvm 0 [] with usmd := true, mmr := 0o005000 }.translate 0o4010 .read = .ok 0o20010
    ∧ { at' cfgXvm 0 [] with usmd := true, mmr := 0o005400 }.translate 0o4010 .write = .violation
    ∧ { at' cfgXvm 0 [] with usmd := true, mmr := 0o400000 }.translate 0o30000 .read = .ok 0o30000 := by decide +kernel

/-- X2, X4. -/
theorem test_nonExistent_executive :
    goes { at' { cfgVB with memSize := 0o20000 } 0o200 [(0o100, 0o30000), (0o200, 0o220100)] with memm := true, ac := 5 }
      (fun t => t.nexm && t.ac == 0 && !t.trapPending && t.pc == 0o201) = true
    ∧ goes { at' { cfgVB with memSize := 0o20000, execNxmTraps := true } 0o200 [(0o100, 0o30000), (0o200, 0o220100)] with
        memm := true, ac := 5 }
      (fun t => t.nexm && t.ac == 5 && t.trapPending) = true := by decide +kernel

/-! ## Interrupts, traps, modes, the host (T1.3, T1.7, T1.8, sections 2.7, 2.8) -/

/-- T1.3, four rows. -/
theorem test_arbitrate_api :
    { at' Cfg.full 0 [] with apiEnb := true, intReq := { api2 := 1, api3 := 1 } }.arbitrate = .api 2
    ∧ { at' Cfg.full 0 [] with apiEnb := true, apiAct := 0o040, intReq := { api1 := 1 } }.arbitrate = .api 1
    ∧ { at' Cfg.full 0 [] with apiEnb := true, apiAct := 0o100, intReq := { api2 := 1 } }.arbitrate = .none
    ∧ { at' Cfg.full 0 [] with apiEnb := true, apiReq := 0o017 }.arbitrate = .api 4 := by decide +kernel

/-- A1, A2, A3, A5. -/
theorem test_arbitrate_pi :
    { at' cfgVC 0 [] with apiEnb := true, apiAct := 0o004, ion := true, intReq := { pi := 1 } }.arbitrate = .none
    ∧ { at' Cfg.full 0 [] with apiEnb := true, apiAct := 0o004, ion := true, intReq := { pi := 1 } }.arbitrate = .pi
    ∧ { at' Cfg.full 0 [] with apiEnb := true, apiAct := 0o040, ion := true, intReq := { pi := 1 } }.arbitrate = .none
    ∧ { at' Cfg.full 0 [] with apiEnb := true, apiReq := 0o010, ion := true, intReq := { pi := 1 } }.arbitrate = .pi := by
  decide +kernel

/-- A4. -/
theorem test_api_softwareLevel :
    goes { at' Cfg.full 0o1234 [(0o42, 0o100400)] with apiEnb := true, apiReq := 0o002, l := true }
      (fun t => t.wordAt 0o400 == 0o401234 && t.pc == 0o401 && t.apiAct == 0o002 && t.apiReq == 0) = true := by decide +kernel

/-- A8, A9. -/
theorem test_api_hardwareLevel :
    goes { at' cfgVec 0o2000 [(0o52, 0o100300)] with apiEnb := true, intReq := { api1 := 32 } }
      (fun t => t.wordAt 0o300 == 0o002000 && t.pc == 0o301 && t.apiAct == 0o100) = true
    ∧ goes { at' cfgVec 0o2000 [(0o52, 0o200300)] with apiEnb := true, intReq := { api1 := 32 } }
      (fun t => t.runState == .stopped .invalidVector && t.pc == 0o2000 && t.apiAct == 0) = true := by decide +kernel

/-- A10. -/
theorem test_pi_delivery :
    goes { at' cfgVB 0o1234 [] with ion := true, intReq := { pi := 1 } }
      (fun t => t.wordAt 0 == 0o001234 && t.pc == 1 && !t.ion) = true := by decide +kernel

/-- T1.7 cycle 2, A6. -/
theorem test_trap_entry :
    goes { at' cfgReloc 0o401 [] with
        trapPending := true, prvn := true, usmd := true, usmdBuf := true, l := true, ion := true, intReq := { pi := 1 } }
      (fun t => t.wordAt 0 == 0o500401 && t.pc == 2 && !t.usmd && !t.ion && !t.trapPending && t.prvn
        && t.pcq.head? == some 0o401) = true := by decide +kernel

/-- T1.7 cycle 1: the access above the bound, in user mode. -/
theorem test_trap_raised :
    goes { at' cfgReloc 0o400 [(0o10400, 0o201400)] with usmd := true, usmdBuf := true, br := 0o777, rr := 0o10000 }
      (fun t => t.prvn && t.trapPending && t.pc == 0o401 && t.ac == 0) = true := by decide +kernel

/-- T1.8 cycle 2: the deferral lets one instruction run. -/
theorem test_deferral :
    goes { at' cfgVB 0o101 [(0o101, 0o040200)] with ion := true, ionDefer := true, intReq := { pi := 1 }, ac := 0o55 }
      (fun t => !t.ionDefer && t.wordAt 0o200 == 0o55 && t.pc == 0o102) = true := by decide +kernel

/-- H1: user mode is committed at the start of the cycle that fetches. -/
theorem test_mode_commit :
    goes { at' cfgReloc 0o5000 [(0o15000, 0o740000)] with usmdBuf := true, modeDefer := 1, br := 0o7777, rr := 0o10000 }
      (fun t => t.usmd && t.pc == 0o5001 && t.modeDefer == 0) = true := by decide +kernel

/-- H3, H4: a breakpoint, in the first cycle of a run and later. -/
theorem test_breakpoint :
    goes { at' cfgVB 0o101 [(0o101, 0o740000)] with breakpoints := [0o101] }
      (fun t => t.runState == .running && t.pc == 0o102) = true
    ∧ goes { at' cfgVB 0o101 [(0o101, 0o740000)] with breakpoints := [0o101], firstCycle := false }
      (fun t => t.runState == .stopped .breakpoint && t.pc == 0o101) = true := by decide +kernel

/-- R402, R406: the host loads a word, and may only stop a running machine. -/
theorem test_host :
    goes { State.powerOn cfgVB with moves := [.host (.loadWord 0o100 0o1000005)] }
      (fun t => t.mem == [(0o100, 5)] && t.moves == []) = true
    ∧ (match step { at' cfgVB 0 [] with moves := [.host .reset] } with
      | .refused r => r == .hostAccessWhileRunning
      | _ => false) = true := by decide +kernel

/-- R405: a run on a configuration that the matrix does not allow. -/
theorem test_invalidConfiguration :
    (match step { State.powerOn { cfgVB with hasFP15 := true } with moves := [.host .run] } with
      | .fault r => r == .invalidConfiguration
      | _ => false) = true := by decide +kernel

/-- C3, D11, D24, R11, R54: what the matrix fixes, and the granule the model takes (log entry 25). -/
theorem test_matrix :
    ({ cfgVB with autoIndexScope := .fieldZero }).valid = false ∧ ({ cfgVC with autoIndexScope := .perField }).valid = false
    ∧ ({ Cfg.full with entryMemm := true }).valid = false ∧ ({ Cfg.full with pcqDepth := 7 }).valid = false
    ∧ ({ Cfg.full with protGranule := 3 }).valid = false ∧ ({ Cfg.full with protGranule := 1 }).valid = true := by decide

/-- R406: examine and deposit of `runState`, and of a register the configuration does not have; R366, R405: a slot taken twice. -/
theorem test_host_access :
    goes { State.powerOn cfgVB with moves := [.host (.examine .runState)] } (fun t => t.hostData == 7) = true
    ∧ goes { State.powerOn cfgVB with moves := [.host (.deposit .runState 0)] } (fun t => t.runState == .running) = true
    ∧ goes { State.powerOn cfgVB with moves := [.host (.deposit .xr 5)] } (fun t => t.xr == 0) = true
    ∧ goes { State.powerOn cfgVA with moves := [.host (.deposit .restPending 1)] } (fun t => t.restPending) = true
    ∧ (match step { State.powerOn cfgVB with devices := 0o400, moves := [.host (.registerDevice 7 2)] } with
      | .fault r => r == .deviceSlotConflict
      | _ => false) = true
    ∧ (match step { at' cfgVB 0 [] with moves := [.host (.examine .ac)] } with
      | .refused r => r == .hostAccessWhileRunning
      | _ => false) = true := by decide +kernel

/-- The interface: the placed word is the next step's instruction. -/
theorem test_withFetchWord :
    goes (State.reset.withFetchWord 18 0o740001) (fun t => t.ac == 0o777777 && t.pc == 1) = true := by decide +kernel

/-! ## Witnesses: states and operands that meet the hypotheses of the statements -/

/-- A machine on VB, PC 0o200, with a few words. -/
def w0 : State := at' cfgVB 0o200 [(7, 0o300), (0o10, 0o300), (0o17, 0o777777), (0o20, 0o300), (0o100, 5), (0o200, 0o200100)]

/-- A machine on VD in page addressing. -/
def wd : State := { w0 with cfg := Cfg.full, xr := 3 }

/-- A machine in user mode under the relocation scheme, with a bound at 0o377. -/
def wu : State := { at' cfgReloc 0o200 [(0o10, 0o377777), (0o200, 0o200100)] with usmd := true, usmdBuf := true }

/-- A machine whose memory is small, in executive mode, where non-existent memory does not trap. -/
def ws : State := { w0 with cfg := { cfgVB with memSize := 0o400 } }

theorem witness_DecodeOfEncode :
    WellFormed Cfg.full (.lac ⟨true, 0o17777⟩) = true ∧ WellFormed Cfg.full (.cal 0o37777) = true
    ∧ WellFormed Cfg.full (.iot ⟨0, 0o77, 3, true, 7⟩) = true ∧ WellFormed cfgVB (.iot ⟨3, 0, 0, false, 0⟩) = true
    ∧ WellFormed Cfg.full (.opr { cla := true, cma := true, hlt := true }) = true
    ∧ WellFormed Cfg.full (.eae {} .divide 0o77) = true ∧ WellFormed Cfg.full (.st { sgn := 3 }) = true := by decide

theorem witness_EncodeOfDecode :
    decode Cfg.full 0 = .ok (.cal 0) ∧ decode Cfg.full 0o777777 = .ok (.law 0o17777) := by decide

theorem witness_HostResetValues :
    { w0 with runState := .stopped .halt, moves := [.host .reset] }.runState = .stopped .halt
    ∧ { w0 with runState := .stopped .halt, moves := [.host .reset] }.moves = .host .reset :: [] := by decide

theorem witness_MemoryStaysCanonical : w0.memoryOk ∧ ∃ t, step w0 = .next t := ⟨by decide, _, rfl⟩

theorem witness_PcStaysInAddressSpace :
    { w0 with pc := 0o77777, moves := [.host .stop] }.pcOk
    ∧ ∃ t, step { w0 with pc := 0o77777, moves := [.host .stop] } = .next t := ⟨by decide, _, rfl⟩

theorem witness_ModesStayLegal :
    { wu with modeDefer := 2 }.cfg.valid = true ∧ { wu with modeDefer := 2 }.modesOk ∧ { wu with modeDefer := 2 }.modesLeftAlone
    ∧ ∃ t, step { wu with modeDefer := 2 } = .next t := ⟨by decide, by decide, by decide, _, rfl⟩

theorem witness_ApiMasksStayLegal :
    { w0 with moves := [.host .stop] }.apiOk ∧ ∃ t, step { w0 with moves := [.host .stop] } = .next t := ⟨by decide, _, rfl⟩

theorem witness_PowerOnMeetsInvariants :
    cfgVA.valid = true ∧ cfgVB.valid = true ∧ cfgVC.valid = true ∧ cfgReloc.valid = true ∧ Cfg.full.valid = true := by decide

theorem witness_StepRunsDecodedInstruction :
    { w0 with moves := [.cycle] }.willFetch ∧ w0.willFetch ∧ w0.atFetch.translate w0.pc .fetch = .ok 0o200 ∧ decode w0.cfg (w0.wordAt 0o200) = .ok (.lac ⟨false, 0o100⟩) := by
  decide +kernel

theorem witness_FetchWithoutInstruction :
    { wu with pc := 0o400 }.willFetch ∧ { wu with pc := 0o400 }.atFetch.translate 0o400 .fetch = .violation
    ∧ { wu with br := 0o377777, rr := 0o37400, pc := 0o400 }.willFetch
    ∧ { wu with br := 0o377777, rr := 0o37400, pc := 0o400 }.atFetch.translate 0o400 .fetch = .nonExistent
    ∧ { wu with br := 0o377777, rr := 0o37400, pc := 0o400 }.commitModes.usmd = true
    ∧ { ws with pc := 0o400 }.willFetch ∧ { ws with pc := 0o400 }.atFetch.translate 0o400 .fetch = .nonExistent
    ∧ ¬({ ws with pc := 0o400 }.commitModes.usmd = true ∨ ws.cfg.execNxmTraps = true)
    ∧ decode ws.cfg ws.cfg.faultReadValue = .ok (.cal 0)
    ∧ decode { ws.cfg with faultReadValue := 0o740030 } 0o740030 = .error .rotateReserved
    ∧ { w0 with mem := [(0o200, 0o740030)] }.willFetch
    ∧ { w0 with mem := [(0o200, 0o740030)] }.atFetch.translate 0o200 .fetch = .ok 0o200
    ∧ decode w0.cfg ({ w0 with mem := [(0o200, 0o740030)] }.wordAt 0o200) = .error .rotateReserved := by decide +kernel

theorem witness_BreakpointStops :
    let s := { w0 with breakpoints := [0o200], firstCycle := false }
    s.processorNext ∧ s.runState = .running ∧ s.trapPending = false ∧ s.commitModes.arbitrate = .none ∧ s.firstCycle = false
    ∧ s.breakpoints.contains s.pc = true := by decide +kernel

theorem witness_StoppedProcessorStays :
    { w0 with runState := .stopped .halt }.processorNext
    ∧ { w0 with runState := .stopped .halt, moves := [.cycle, .cycle] }.processorNext
    ∧ { w0 with runState := .stopped .halt }.runState = .stopped .halt := by decide

theorem witness_ProcessorAlwaysSteps : w0.processorNext ∧ { w0 with moves := [.cycle] }.processorNext := by decide

theorem witness_ModeCommitIsDelayed :
    w0.modeDefer = 0 ∧ { w0 with modeDefer := 1 }.modeDefer = 1 ∧ { w0 with modeDefer := 2 }.modeDefer = 2 := by decide

theorem witness_TrapEntryIsTaken :
    let s := { wu with trapPending := true }
    s.processorNext ∧ s.runState = .running ∧ s.trapPending = true ∧ 0 < s.cfg.memSize := by decide

theorem witness_PiDeliveryIsTaken :
    let s := { w0 with ion := true, intReq := { pi := 1 } }
    s.processorNext ∧ s.runState = .running ∧ s.trapPending = false ∧ s.ionDefer = false ∧ s.commitModes.arbitrate = .pi
    ∧ 0 < s.cfg.memSize := by decide +kernel

/-- API levels 0 and 3 (hardware) and 4 and 7 (software) are delivered to a JMS. -/
def wapi : State :=
  { at' { Cfg.full with apiVecTable := [⟨0, 31, 0o50⟩, ⟨3, 0, 0o53⟩] } 0o200
      [(0o40, 0o100300), (0o43, 0o100300), (0o50, 0o100300), (0o53, 0o100300)] with apiEnb := true }

/-- The state in which the JMS of the vector at `vec` resolves its address. -/
def atVector (s : State) (k : Nat) (vec : Addr) : State :=
  { s.commitModes with
    moves := s.moves.tail, firstCycle := false
    usmd := false, usmdBuf := false, memm := s.cfg.entryMemm, memmBuf := s.cfg.entryMemm, modeDefer := 0
    apiAct := s.apiAct ||| (0o200#8 >>> k)
    apiReq := if 4 ≤ k then s.apiReq &&& ~~~(0o200#8 >>> k) else s.apiReq
    ir := s.wordAt vec.toNat
    pc := incPC s.cfg vec }

theorem witness_ApiDeliveryIsTaken :
    ∀ p ∈ [({ wapi with intReq := { api0 := 0x80000000#32 } }, 0, (0o50 : Addr)),
        ({ wapi with intReq := { api3 := 1 } }, 3, 0o53), ({ wapi with apiReq := 0o010 }, 4, 0o40),
        ({ wapi with apiReq := 0o001, pc := 0o352525 }, 7, 0o43)],
      p.1.processorNext ∧ p.1.runState = .running ∧ p.1.trapPending = false ∧ p.1.ionDefer = false
      ∧ p.1.commitModes.arbitrate = .api p.2.1 ∧ p.1.commitModes.apiVector p.2.1 = some p.2.2 ∧ p.2.2.toNat < p.1.cfg.memSize
      ∧ p.1.wordAt p.2.2.toNat &&& 0o740000 = 0o100000
      ∧ (atVector p.1 p.2.1 p.2.2).resolve (memOperandOf (p.1.wordAt p.2.2.toNat))
        = .done ⟨0o300, 0⟩ (atVector p.1 p.2.1 p.2.2)
      ∧ (atVector p.1 p.2.1 p.2.2).translate 0o300 .write = .ok 0o300 := by decide +kernel

/-- As `wapi`, with memory of 0o100 words, where non-existent memory traps or not, and vectors through pointers. -/
def wapiSmall (traps : Bool) (w : Word) : State :=
  { wapi with
    cfg := { Cfg.full with memSize := 0o100, execNxmTraps := traps }, apiReq := 0o010, mem := [(0o40, w), (0o41, 0o77)] }

theorem witness_ApiDeliveryFaults :
    (wapiSmall true 0o100300).commitModes.arbitrate = .api 4 ∧ (wapiSmall true 0o100300).commitModes.apiVector 4 = some 0o40
    ∧ (0o40 : Addr).toNat < (wapiSmall true 0o100300).cfg.memSize
    ∧ (atVector (wapiSmall true 0o120300) 4 0o40).resolve (memOperandOf 0o120300)
      = .abandoned (atVector (wapiSmall true 0o120300) 4 0o40).nonExistent
    ∧ (∀ b ∈ [true, false], (atVector (wapiSmall b 0o100300) 4 0o40).resolve (memOperandOf 0o100300)
        = .done ⟨0o300, 0⟩ (atVector (wapiSmall b 0o100300) 4 0o40)
      ∧ (atVector (wapiSmall b 0o100300) 4 0o40).translate 0o300 .write = .nonExistent) := by decide +kernel

/-- A8 with the interrupted PC in another field: the JMS of the vector at 0o52 stores in field 0 (R369). -/
theorem test_api_vectorField :
    goes { at' cfgVec 0o352525 [(0o52, 0o100300)] with apiEnb := true, intReq := { api1 := 0x20#32 } }
      (fun t => t.wordAt 0o300 == 0o052525 && t.pc == 0o301 && t.apiAct == 0o100) = true := by decide +kernel

theorem witness_InvalidVectorStops :
    { wapi with intReq := { api1 := 1 } }.commitModes.arbitrate = .api 1
    ∧ { wapi with intReq := { api1 := 1 } }.commitModes.apiVector 1 = none
    ∧ { wapi with apiReq := 0o001, mem := [(0o43, 0o600300)] }.commitModes.arbitrate = .api 7
    ∧ { wapi with apiReq := 0o001, mem := [(0o43, 0o600300)] }.commitModes.apiVector 7 = some 0o43
    ∧ { wapi with apiReq := 0o001, mem := [(0o43, 0o600300)] }.wordAt 0o43 &&& 0o740000 ≠ 0o100000 := by decide +kernel

theorem witness_ApiVectorOfLevel :
    { wapi with intReq := { api0 := 0x80000001#32 } }.intReq.api0.getLsbD 31 = true
    ∧ { wapi with intReq := { api3 := 1 } }.intReq.api3.getLsbD 0 = true
    ∧ (∀ j < 32, 0 < j → { wapi with intReq := { api3 := 1 } }.intReq.api3.getLsbD j = false)
    ∧ { wapi with intReq := { api0 := 0x80000001#32 } }.apiVector 0 = some 0o50
    ∧ { wapi with intReq := { api3 := 1 } }.apiVector 3 = some 0o53 ∧ wapi.apiVector 4 = some 0o40
    ∧ wapi.apiVector 7 = some 0o43 := by decide +kernel

theorem witness_Arbitration :
    { wapi with intReq := { api0 := 1 } }.apiCandidate = some 0 ∧ { wapi with intReq := { api3 := 1 } }.apiCandidate = some 3
    ∧ { wapi with apiReq := 0o010 }.apiCandidate = some 4 ∧ { wapi with apiReq := 0o001 }.apiCandidate = some 7
    ∧ wapi.apiCandidate = none := by decide +kernel

theorem witness_AgentMovesOneLine :
    { w0 with moves := [.agent ⟨.api3, 31, true⟩] }.moves = .agent ⟨.api3, 31, true⟩ :: []
    ∧ { w0 with moves := [.agent ⟨.pi, 0, false⟩] }.moves = .agent ⟨.pi, 0, false⟩ :: [] := by decide

theorem witness_HostActions :
    let stopped (a : HostAction) : State := { w0 with runState := .stopped .halt, moves := [.host a] }
    (stopped (.loadWord 0o77777 5)).runState = .stopped .halt ∧ 0o77777 < (stopped (.loadWord 0o77777 5)).cfg.memSize
    ∧ ¬0o100000 < (stopped (.loadWord 0o100000 5)).cfg.memSize ∧ (stopped .run).cfg.valid = true
    ∧ (stopped (.setPC 0o400000)).moves = .host (.setPC 0o400000) :: []
    ∧ { w0 with moves := [.host .stop] }.runState = .running ∧ HostAction.run ≠ .stop := by decide

/-- A stopped machine on VB with devices at slots 8 and 63 and one move of the host to come. -/
def stopped (a : HostAction) : State :=
  { w0 with runState := .stopped .halt, devices := 0x8000000000000100#64, moves := [.host a] }

theorem witness_HostAccess :
    (stopped (.deposit .ac 5)).runState = .stopped .halt ∧ RegName.ac ≠ .runState
    ∧ (stopped (.deposit .runState 0)).cfg.valid = true
    ∧ { stopped (.deposit .runState 0) with cfg := { cfgVB with pcqDepth := 7 } }.cfg.valid = false
    ∧ (stopped (.examine .ac)).moves = .host (.examine .ac) :: []
    ∧ 0o77777 < (stopped (.examineWord 0o77777)).cfg.memSize := by decide

theorem witness_HostBreakpoints :
    (stopped (.setBreakpoint 0o100)).moves = .host (.setBreakpoint 0o100) :: []
    ∧ (stopped (.clearBreakpoint 0o100)).moves = .host (.clearBreakpoint 0o100) :: [] := by decide

theorem witness_HostConfigures :
    { stopped .run with cfg := { cfgVB with hasFP15 := true } }.cfg.valid = false
    ∧ 64 < 63 + 2 ∧ (stopped (.registerDevice 7 2)).devices.getLsbD 8 = true
    ∧ (stopped (.registerDevice 62 2)).devices.getLsbD 63 = true
    ∧ (∀ n < 64, 9 ≤ n → n < 9 + 54 → (stopped (.registerDevice 9 54)).devices.getLsbD n = false)
    ∧ (stopped (.removeDevice 0 64)).moves = .host (.removeDevice 0 64) :: []
    ∧ (stopped (.setStatusPolls [1])).moves = .host (.setStatusPolls [1]) :: [] := by decide +kernel

theorem witness_DepositThenExamine :
    7 < w0.pcq.length ∧ RegName.mq ≠ .ac ∧ Cfg.full.variant = .VD ∧ Cfg.full.hasAPI = true ∧ Cfg.full.protScheme = .xvm
    ∧ Cfg.full.hasFP15 = true ∧ cfgReloc.protScheme = .reloc ∧ cfgVC.protScheme = .bounds ∧ cfgVA.variant = .VA
    ∧ cfgVA.hasAPI = false ∧ cfgVA.protScheme = .none ∧ cfgVA.hasFP15 = false := by decide

theorem witness_PassThroughTranslation :
    wd.usmd = false ∧ { w0 with usmd := true }.cfg.protScheme = .none := by decide

theorem witness_BoundsAndRelocation :
    cfgVC.protGranule = 1#18 <<< 8 ∧ cfgVC.protScheme = .bounds ∧ wu.usmd = true ∧ wu.cfg.protScheme = .reloc
    ∧ { cfgVC with protGranule := 1 }.protGranule = 1#18 <<< 0
    ∧ { cfgVC with protGranule := 0o400000 }.protGranule = 1#18 <<< 17 := by decide

theorem witness_XvmTranslation :
    let s := { at' cfgXvm 0 [] with usmd := true, mmr := 0o005000 }
    s.usmd = true ∧ s.cfg.protScheme = .xvm ∧ s.mmr.getMsbD 0 = false ∧ s.mmr.getMsbD 6 = true ∧ s.window.vstart ≤ 0o4000
    ∧ 0o4777 < s.window.vstart + s.window.length ∧ ¬0o5000 < s.window.vstart + s.window.length
    ∧ { s with mmr := 0o400000 }.mmr.getMsbD 0 = true := by decide +kernel

/-- A pointer of the auto-index window that Faults: beyond a bound of 0 (granule 1), in memory of 8 words, in user mode through
a relocation beyond memory, and in a write-protected XVM window over location 0. -/
def wauto : State × State × State × State :=
  ({ at' { cfgReloc with protGranule := 1 } 0o200 [] with usmd := true },
    { at' { cfgVC with memSize := 8 } 0 [] with memm := true },
    { at' cfgReloc 0o200 [] with usmd := true, br := 0o377777, rr := 0o40000 },
    { at' { Cfg.full with xvmTable := { w1 := ⟨0, 0o1000, 0o2000⟩ } } 0o200 [] with usmd := true, mmr := 0o005400 })

theorem witness_FaultedAutoPointer :
    wauto.1.translate (0o17 &&& 0o17) .read = .violation
    ∧ wauto.2.1.translate (0o10 &&& 0o17) .read = .nonExistent ∧ ¬(wauto.2.1.usmd = true ∨ wauto.2.1.cfg.execNxmTraps = true)
    ∧ wauto.2.2.1.translate (0o17 &&& 0o17) .read = .nonExistent ∧ wauto.2.2.1.usmd = true
    ∧ wauto.2.2.2.translate (0o10 &&& 0o17) .read = .ok 0o2010
    ∧ wauto.2.2.2.translate (0o10 &&& 0o17) .write = .violation := by decide +kernel

/-- User mode at 0o4200 under XVM, with a write-protected shared window. -/
def wwp : State := { at' cfgXvm 0o4200 [(0o20010, 5)] with usmd := true, usmdBuf := true, mmr := 0o005400 }

theorem witness_FaultedPointer :
    wu.translate (wu.directAddr wu.pc ⟨true, 0o400⟩) .read = .violation
    ∧ { wu with br := 0o377777, rr := 0o37400 }.translate 0o400 .read = .nonExistent
    ∧ ws.translate (ws.directAddr ws.pc ⟨true, 0o400⟩) .read = .nonExistent
    ∧ ¬(ws.usmd = true ∨ ws.cfg.execNxmTraps = true) := by decide +kernel

theorem witness_TrappingFaults :
    wu.resolve ⟨true, 0o7777⟩ = .abandoned wu.violation
    ∧ wu.resolve ⟨false, 0o400⟩ = .done ⟨0o400, 0⟩ wu ∧ wu.translate 0o400 .read = .violation
    ∧ wu.translate 0o400 .write = .violation
    ∧ { wu with br := 0o377777, rr := 0o37400 }.translate 0o400 .read = .nonExistent
    ∧ { wu with br := 0o377777, rr := 0o37400 }.translate 0o400 .write = .nonExistent
    ∧ { wu with br := 0o377777, rr := 0o37400 }.usmd = true
    ∧ wwp.resolve ⟨false, 0o4010⟩ = .done ⟨0o4010, 0⟩ wwp ∧ wwp.translate 0o4010 .read = .ok 0o20010
    ∧ wwp.translate 0o4010 .write = .violation := by decide +kernel

theorem witness_FlaggedFaults :
    ws.resolve ⟨false, 0o400⟩ = .done ⟨0o400, 0⟩ ws ∧ ws.usmd = false ∧ ws.cfg.execNxmTraps = false
    ∧ ws.translate 0o400 .read = .nonExistent ∧ ws.translate 0o400 .write = .nonExistent
    ∧ ws.xctDepth < ws.cfg.xctMax ∧ ws.cfg.xctMax ≤ { ws with xctDepth := 16 }.xctDepth
    ∧ decode ws.cfg ws.cfg.faultReadValue = .ok (.cal 0)
    ∧ decode { ws.cfg with faultReadValue := 0o740030 } 0o740030 = .error .rotateReserved := by decide +kernel

theorem witness_ReferenceAddress :
    (w0.cfg.variant ≠ .VD ∨ w0.memm = true) ∧ wd.cfg.variant = .VD ∧ wd.memm = false
    ∧ w0.translate 7 .read = .ok 7 ∧ w0.translate 0o20 .read = .ok 0o20 ∧ wd.translate 7 .read = .ok 7
    ∧ wd.translate 0o20 .read = .ok 0o20 := by decide +kernel

theorem witness_AutoIndexedReference :
    w0.translate 0o10 .read = .ok 0o10 ∧ w0.translate 0o17 .write = .ok 0o17 ∧ wd.translate 0o10 .write = .ok 0o10
    ∧ wd.translate 0o17 .read = .ok 0o17 := by decide +kernel

theorem witness_LoadingReferences :
    w0.resolve ⟨false, 0o100⟩ = .done ⟨0o100, 0⟩ w0 ∧ w0.translate 0o100 .read = .ok 0o100
    ∧ w0.resolve ⟨true, 7⟩ = .done ⟨0o300, 0o300⟩ w0 ∧ w0.translate 0o300 .read = .ok 0o300 := by decide +kernel

theorem witness_LoadingReferencesFrame :
    ∃ t, exec (.tad ⟨true, 0o10⟩) { w0 with mem := [(0o10, 0o77), (0o100, 5)] } = .next t := ⟨_, rfl⟩

theorem witness_StoresAndIncrement :
    w0.resolve ⟨false, 0o100⟩ = .done ⟨0o100, 0⟩ w0 ∧ w0.translate 0o100 .read = .ok 0o100
    ∧ w0.translate 0o100 .write = .ok 0o100 := by decide +kernel

theorem witness_SubroutineJump :
    w0.resolve ⟨false, 0o17777⟩ = .done ⟨0o17777, 0⟩ w0 ∧ w0.translate 0o17777 .write = .ok 0o17777 := by decide +kernel

theorem witness_Jump :
    w0.resolve ⟨false, 0o200⟩ = .done ⟨0o200, 0⟩ w0 ∧ w0.resolve ⟨true, 0o20⟩ = .done ⟨0o300, 0o300⟩ w0 := by decide +kernel

theorem witness_ExecuteWord :
    w0.resolve ⟨false, 0o100⟩ = .done ⟨0o100, 0⟩ w0 ∧ w0.translate 0o100 .read = .ok 0o100
    ∧ { w0 with xctDepth := 15 }.xctDepth < w0.cfg.xctMax ∧ w0.cfg.xctMax ≤ { w0 with xctDepth := 16 }.xctDepth
    ∧ decode w0.cfg (w0.wordAt 0o100) = .ok (.cal 5) ∧ decode w0.cfg 0o740030 = .error .rotateReserved := by decide +kernel

/-- A state interrupted in user mode on VD, and one interrupted in extend mode on VC. -/
def wint : State := { wu with pc := 0o77777, l := true }
/-- See `wint`. -/
def wintVC : State := { at' cfgVC 0o17777 [] with memm := true, memmBuf := true }

/-- A handler at 3 that is to return through the return word of `s` at 0. -/
def handler (s : State) : State := { at' s.cfg 3 [(0, s.retWord)] with restPending := true }

theorem witness_ReturnRestoresEntry :
    ∀ s ∈ [wint, wintVC],
      (handler s).cfg = s.cfg ∧ s.pcOk ∧ (s.cfg.variant = .VA → s.memm = false) ∧ (s.cfg.protScheme = .none → s.usmd = false)
      ∧ (handler s).restPending = true ∧ (handler s).autoIndex ((handler s).directAddr 3 ⟨true, 0⟩) = false
      ∧ (handler s).translate ((handler s).directAddr 3 ⟨true, 0⟩) .read = .ok 0 ∧ (handler s).wordAt 0 = s.retWord
      ∧ ((handler s).cfg.variant ≠ .VD ∨ (0 : BitVec 13).getMsbD 0 = false)
      ∧ (3 : Addr) &&& amask s.cfg &&& ~~~(if s.cfg.variant = .VC then 0o17777 else 0o77777)
        = s.pc &&& ~~~(if s.cfg.variant = .VC then 0o17777 else 0o77777) := by decide +kernel

theorem witness_OperateOrder :
    (({ cla := true } : OperateOps).hlt = false ∨ wu.usmd = false) ∧ (({ hlt := true } : OperateOps).hlt = false ∨ w0.usmd = false) := by
  decide

theorem witness_OperateTable : w0.usmd = false ∧ wd.cfg.variant = .VD := by decide

theorem witness_PrivilegedInstructionsTrap : wu.usmd = true ∧ ({ hlt := true } : OperateOps).hlt = true := by decide

theorem witness_IndexOperates : wd.cfg.hasIndex = true := by decide

theorem witness_InterruptControlTransfers :
    w0.usmd = false ∧ w0.cfg.hasAPI = false ∧ wd.usmd = false ∧ wd.cfg.hasAPI = true := by decide

theorem witness_ModeAndProtectionTransfers :
    wd.usmd = false ∧ wd.cfg.protScheme = .xvm ∧ { wu with usmd := false }.cfg.protScheme = .reloc
    ∧ (cfgVC.protScheme ≠ .none) ∧ cfgVC.variant = .VC ∧ w0.cfg.variant = .VB ∧ wd.cfg.variant = .VD := by decide

theorem witness_ApiTransfers :
    let s := { wd with apiAct := 0o001 }
    s.usmd = false ∧ s.cfg.hasAPI = true ∧ (∀ j < 7, s.apiAct.getMsbD j = false) ∧ s.apiAct.getMsbD 7 = true
    ∧ { wd with apiAct := 0o200 }.apiAct.getMsbD 0 = true ∧ wd.apiAct = 0 := by decide

theorem witness_DeviceCallbacks :
    w0.usmd = false ∧ wd.devices.getLsbD (0o34 : BitVec 6).toNat = true
    ∧ { w0 with devices := 0 }.devices.getLsbD (0o34 : BitVec 6).toNat = false
    ∧ w0.cfg.hasAPI = false ∧ w0.cfg.protScheme = .none ∧ cfgVA.variant = .VA := by decide

theorem witness_ExtendedArithmetic :
    w0.translate w0.pc .read = .ok 0o200 ∧ { wu with pc := 0o400 }.translate 0o400 .read = .violation
    ∧ { ws with pc := 0o400 }.translate 0o400 .read = .nonExistent ∧ ¬(ws.usmd = true ∨ ws.cfg.execNxmTraps = true)
    ∧ { wu with br := 0o377777, rr := 0o37400, pc := 0o400 }.translate 0o400 .read = .nonExistent ∧ wu.usmd = true := by
  decide +kernel

theorem witness_MultiplyAndDivide :
    w0.translate w0.pc .read = .ok 0o200 ∧ wd.translate wd.pc .read = .ok 0o200 := by decide +kernel

theorem witness_ExtendedArithmeticFrame :
    encode (.lrs 3) &&& 0o740000 = 0o640000 ∧ ∃ t, exec (.lrs 3) w0 = .next t := ⟨by decide, _, rfl⟩

/-- A machine whose PC is at an FP15 address word, direct at 0o400 and indirect at 0o401. -/
def wf : State :=
  { at' Cfg.full 0o400 [(0o400, 0o500), (0o401, 0o400402), (0o402, 0o500), (0o500, 1), (0o501, 0o200000), (0o502, 0)] with
    fma := fpOne, fmb := fpHalf }

theorem witness_FloatingAddress :
    wf.translate wf.pc .read = .ok 0o400 ∧ (wf.wordAt 0o400).getMsbD 0 = false
    ∧ { wf with pc := 0o401 }.translate 0o401 .read = .ok 0o401 ∧ (wf.wordAt 0o401).getMsbD 0 = true
    ∧ wf.translate 0o402 .read = .ok 0o402 := by decide +kernel

theorem witness_FloatingOperandFormats :
    wf.translate 0o500 .read = .ok 0o500 ∧ wf.translate ((0o500 + 1) &&& amask wf.cfg) .read = .ok 0o501
    ∧ wf.translate ((((0o500 + 1) &&& amask wf.cfg) + 1) &&& amask wf.cfg) .read = .ok 0o502 := by decide +kernel

theorem witness_FloatingOperandB :
    ({ noload := true } : FpMods).noload = true ∧ ({} : FpMods).noload = false
    ∧ wf.fpLoad (fpFormat { dp := true, fp := true }) 0o500 = .done (.ok ⟨false, 1, 2 ^ 34⟩) wf
    ∧ { wf with mem := [(0o500, 0o400000), (0o501, 0)] }.fpLoad (fpFormat { dp := true }) 0o500
      = .done (.error .ovf) { wf with mem := [(0o500, 0o400000), (0o501, 0)] } := by decide +kernel

theorem witness_FloatingArithmetic :
    wf.fpAddress = .done 0o500 wf.advance
    ∧ wf.advance.fpOperand { noload := true } 0o500 = .done (.ok ⟨false, 0, 2 ^ 34⟩) wf.advance
    ∧ fpDivOp { noload := true, fp := true } wf.fma.unpack ⟨false, 0, 2 ^ 34⟩ = .ok ⟨⟨false, 2, 2 ^ 34⟩, false, none⟩
    ∧ fpDivOp { noload := true, fp := true } wf.fma.unpack ⟨false, 0, 0⟩ = .error .div := by decide +kernel

theorem witness_OperandOverflow :
    let s := { wf with mem := [(0o400, 0o500), (0o500, 0o400000), (0o501, 0)] }
    s.fpAddress = .done 0o500 s.advance ∧ s.advance.fpOperand { dp := true } 0o500 = .done (.error .ovf) s.advance
    ∧ s.advance.translate 0o500 .read = .ok 0o500 ∧ s.advance.translate ((0o500 + 1) &&& amask s.cfg) .read = .ok 0o501
    ∧ s.advance.wordAt 0o500 = 0o400000 ∧ s.advance.wordAt 0o501 = 0 := by decide +kernel

theorem witness_IntegerOperations :
    ({} : FpMods).fp = false ∧ fpDivOp {} ⟨true, 35, 7⟩ ⟨false, 35, 2⟩ = .ok ⟨⟨true, 35, 3⟩, false, some 1⟩ := by decide +kernel

theorem witness_FloatCorners :
    ({ fp := true } : FpMods).fp = true ∧ (⟨false, 0, 0⟩ : Unpacked).m = 0 ∧ (⟨false, 1, 2 ^ 34⟩ : Unpacked).m ≠ 0 := by decide

theorem witness_FloatResults :
    ({ fp := true } : FpMods).fp = true ∧ (2 ^ 35 - 1) * 2 ^ 36 / 1 / 2 ^ 35 < 2 ^ 36
    ∧ 2 ^ 36 ≤ (2 ^ 35 - 1) * 2 ^ 36 / 1 / 2 ^ 34 ∧ 1 * 2 ^ 36 / 2 ^ 34 / 2 ^ 0 < 2 ^ 36 := by decide

theorem witness_NormalizeResult :
    2 ^ 34 ≤ 1 * 2 ^ 34 ∧ 1 * 2 ^ 34 < 2 ^ 35 ∧ 2 ^ 34 ≤ (2 ^ 35 - 1) * 2 ^ 0 ∧ (2 ^ 35 - 1) * 2 ^ 0 < 2 ^ 35
    ∧ normalize {} false 131072 (2 ^ 34) false = .error .ovf
    ∧ normalize {} false 131071 (2 ^ 35 - 1) true = .error .ovf
    ∧ normalize { nornd := true } false 131071 (2 ^ 35 - 1) true = .ok (⟨false, 131071, 2 ^ 35 - 1⟩, true)
    ∧ normalize {} true (-131072) (2 ^ 33) false = .error .unf
    ∧ normalize { nonorm := true } true (-131072) 0 true = .ok (⟨true, -131072, 1⟩, true) := by decide +kernel

theorem witness_NormalizedResults :
    normalize {} false 3 1 false = .ok (⟨false, -31, 2 ^ 34⟩, false) ∧ normalize {} true 3 0 false = .ok (⟨false, 0, 0⟩, false)
    ∧ normalize {} false (2 ^ 17 - 1) (2 ^ 35 - 1) false = .ok (⟨false, 2 ^ 17 - 1, 2 ^ 35 - 1⟩, false) := by decide +kernel

theorem witness_SignModifier : (⟨false, 0, 0⟩ : Unpacked).m = 0 ∧ (⟨true, 0, 1⟩ : Unpacked).m ≠ 0 := by decide

theorem witness_FloatingStore :
    wf.fpAddress = .done 0o500 wf.advance
    ∧ packWords (fpFormat { fp := true }) (applySgn 0 wf.fma.unpack) = .ok [1, 0o200000]
    ∧ packWords (fpFormat { dp := true, fp := true }) (applySgn 0 wf.fma.unpack) = .ok [1, 0o200000, 0]
    ∧ packWords (fpFormat { fp := true }) ⟨false, 256, 1⟩ = .error .ovf
    ∧ packWords (fpFormat {}) ⟨false, 35, 5⟩ = .ok [5]
    ∧ wf.advance.fpStore 0o500 [5] = .done () { wf.advance with mem := wf.mem.write 0o500 5 }
    ∧ wf.advance.fpStore 0o500 [1, 2] = .done () { wf.advance with mem := (wf.mem.write 0o500 1).write 0o501 2 }
    ∧ wf.advance.fpStore 0o500 [1, 2, 3]
      = .done () { wf.advance with mem := ((wf.mem.write 0o500 1).write 0o501 2).write 0o502 3 }
    ∧ wf.advance.translate 0o500 .write = .ok 0o500 ∧ wf.advance.translate ((0o500 + 1) &&& amask wf.cfg) .write = .ok 0o501
    ∧ wf.advance.translate ((((0o500 + 1) &&& amask wf.cfg) + 1) &&& amask wf.cfg) .write = .ok 0o502 := by decide +kernel

theorem witness_StoreCompletes :
    (applySgn 0 ({ lo := 0o377777 } : FpReg).unpack).m < 2 ^ 17 ∧ (applySgn 0 ({ e := 255, hi := 1 } : FpReg).unpack).e ≤ 255
    ∧ -256 ≤ (applySgn 0 ({ e := 0o777400, hi := 1 } : FpReg).unpack).e
    ∧ (applySgn 0 ({ e := 256 } : FpReg).unpack).m = 0 := by decide +kernel

theorem witness_StoreThenLoad :
    ({ e := 255, hi := 1, lo := 0o001000 } : FpReg).lo &&& 0o777 = 0 ∧ ({ e := 255 } : FpReg).e.toInt ≤ 255
    ∧ -256 ≤ ({ e := 0o777400 } : FpReg).e.toInt ∧ ({ lo := 0o377777 } : FpReg).unpack.m < 2 ^ 17 := by decide +kernel

theorem witness_FloatAndFix :
    wf.fpAddress = .done 0o500 wf.advance ∧ normalize {} false 35 (2 ^ 34) false = .ok (⟨false, 35, 2 ^ 34⟩, false)
    ∧ 2 ^ 34 * 2 ^ (36 - 35) = 2 ^ 35 ∧ 2 ^ 34 / 2 ^ (35 - 1) < 2 ^ 35 := by decide +kernel

theorem witness_FloatingControl :
    wf.fpAddress = .done 0o500 wf.advance ∧ wf.advance.translate 0o500 .read = .ok 0o500
    ∧ wf.advance.translate 0o500 .write = .ok 0o500 ∧ ({ dp := true } : FpMods).dp = true ∧ ({} : FpMods).dp = false := by
  decide +kernel

theorem witness_FloatingExceptionDelivery :
    { wf with jeaBase := 0o1000 }.translate 0o1000 .write = .ok 0o1000
    ∧ { wu with jeaBase := 0o1000 }.translate 0o1000 .write = .violation
    ∧ { wu with br := 0o377777, rr := 0o37400, jeaBase := 0o1000 }.translate 0o1000 .write = .nonExistent ∧ wu.usmd = true
    ∧ { wf with cfg := { Cfg.full with memSize := 0o1000 }, jeaBase := 0o1000 }.translate 0o1000 .write = .nonExistent
    ∧ ¬(wf.usmd = true ∨ wf.cfg.execNxmTraps = true) := by decide +kernel

/-- `wf` with only `n` words of memory installed. -/
def wfn (n : Nat) : State := { wf with cfg := { Cfg.full with memSize := n } }

theorem witness_FloatingAddressFault :
    { wu with pc := 0o400 }.translate 0o400 .read = .violation
    ∧ { wu with pc := 0o400, br := 0o377777, rr := 0o37400 }.translate 0o400 .read = .nonExistent
    ∧ { wu with mem := [(0o200, 0o400400)] }.translate 0o200 .read = .ok 0o200
    ∧ ({ wu with mem := [(0o200, 0o400400)] }.wordAt 0o200).getMsbD 0 = true ∧ wu.translate 0o400 .read = .violation
    ∧ { wfn 0o402 with pc := 0o401 }.translate 0o401 .read = .ok 0o401 ∧ (wf.wordAt 0o401).getMsbD 0 = true
    ∧ (wfn 0o402).translate 0o402 .read = .nonExistent := by decide +kernel

theorem witness_FloatingOperandFault :
    (∀ n ∈ [0o500, 0o501, 0o502], (wfn n).fpAddress = .done 0o500 (wfn n).advance)
    ∧ (wfn 0o500).advance.translate 0o500 .read = .nonExistent ∧ (wfn 0o500).advance.translate 0o500 .write = .nonExistent
    ∧ (wfn 0o501).advance.translate 0o500 .read = .ok 0o500
    ∧ (wfn 0o501).advance.translate ((0o500 + 1) &&& amask Cfg.full) .read = .nonExistent
    ∧ (wfn 0o502).advance.translate ((0o500 + 1) &&& amask Cfg.full) .read = .ok 0o501
    ∧ (wfn 0o502).advance.translate ((((0o500 + 1) &&& amask Cfg.full) + 1) &&& amask Cfg.full) .read = .nonExistent
    ∧ { wu with mem := [(0o200, 0o400)] }.fpAddress = .done 0o400 { wu with mem := [(0o200, 0o400)] }.advance
    ∧ { wu with mem := [(0o200, 0o400)] }.advance.translate 0o400 .read = .violation := by decide +kernel

theorem witness_FloatingStoreFault :
    packWords (fpFormat { dp := true, fp := true }) (applySgn 0 wf.fma.unpack) = .ok [1, 0o200000, 0]
    ∧ (wfn 0o500).advance.translate 0o500 .write = .nonExistent
    ∧ (wfn 0o501).advance.translate 0o500 .write = .ok 0o500
    ∧ (wfn 0o501).advance.translate ((0o500 + 1) &&& amask Cfg.full) .write = .nonExistent
    ∧ (wfn 0o502).advance.translate ((0o500 + 1) &&& amask Cfg.full) .write = .ok 0o501
    ∧ (wfn 0o502).advance.translate ((((0o500 + 1) &&& amask Cfg.full) + 1) &&& amask Cfg.full) .write = .nonExistent := by
  decide +kernel

/-- R346, R415: ST whose third word Faults leaves the first two written. -/
theorem test_st_thirdWordFaults :
    goes { wfn 0o502 with pc := 0o377, mem := [(0o377, 0o713540), (0o400, 0o500)] }
      (fun t => t.wordAt 0o500 == 1 && t.wordAt 0o501 == 0o200000 && t.nexm && !t.trapPending && t.pc == 4) = true := by
  decide +kernel

theorem witness_FloatingFrame :
    wf.cfg.hasFP15 = true ∧ WellFormed wf.cfg (.lfmq {}) = true ∧ encode (.lfmq {}) &&& 0o770000 = 0o710000
    ∧ ∃ t, exec (.lfmq {}) wf = .next t := ⟨by decide, by decide, by decide, _, rfl⟩

theorem witness_UserModeEnteredByCommitOnly :
    let s := { at' cfgReloc 0o400 [] with usmdBuf := true, modeDefer := 1 }
    s.processorNext ∧ s.usmd = false ∧ ∃ t, step s = .next t ∧ t.usmd = true := ⟨.inl rfl, rfl, _, rfl, rfl⟩

theorem witness_UserModeCannotReconfigure : wu.usmd = true ∧ ∃ t, exec (.mpld {}) wu = .next t := ⟨rfl, _, rfl⟩

theorem witness_BoundsSchemeIsolatesMemory :
    let s := { at' cfgVC 0o200 [(0o300, 5), (0o400, 7)] with usmd := true, usmdBuf := true, ac := 1 }
    s.usmd = true ∧ s.cfg.protScheme = .bounds ∧ s.brLimit.toNat < 0o400 ∧ (0o400 : Nat) ≠ 0o20
    ∧ ∃ t, exec (.dac ⟨false, 0o300⟩) s = .next t := ⟨rfl, rfl, by decide +kernel, by decide, _, rfl⟩

end Sys2Proof.Tests
end

section
/-! The instruction cycle's fetch: the address masks and the advance of the PC as numbers (R11, R13, R15, R83), and the step that
runs the decoded instruction (R370, R372). -/

namespace Sys2Proof.Machine

/-! ## Masks of low bits -/

/-- A mask of the low `n` bits keeps the remainder. -/
theorem toNat_and_lowMask {k n : Nat} (x : BitVec k) {m : BitVec k} (hm : m.toNat = 2 ^ n - 1) :
    (x &&& m).toNat = x.toNat % 2 ^ n := by
  rw [BitVec.toNat_and, hm, Nat.and_two_pow_sub_one_eq_mod]

/-- The complement of that mask keeps the multiple of `2 ^ n`. -/
theorem toNat_and_not_lowMask {k n : Nat} (x : BitVec k) {m : BitVec k} (hm : m.toNat = 2 ^ n - 1) :
    (x &&& ~~~m).toNat = x.toNat / 2 ^ n * 2 ^ n := by
  refine Nat.eq_of_testBit_eq fun i => ?_
  have hbit : m.getLsbD i = decide (i < n) := by
    rw [← BitVec.testBit_toNat, hm, Nat.testBit_two_pow_sub_one]
  rw [Nat.testBit_mul_two_pow, Nat.testBit_div_two_pow, BitVec.testBit_toNat, BitVec.testBit_toNat, BitVec.getLsbD_and,
    BitVec.getLsbD_not, hbit]
  rcases Nat.lt_or_ge i n with hi | hi
  · simp [hi, Nat.not_le.mpr hi]
  · have hx : x.getLsbD i = true → i < k := BitVec.lt_of_getLsbD
    simpa [hi, Nat.not_lt.mpr hi] using hx

/-! ## The masks of a configuration, and the advance of the PC -/

/-- The number of address bits within which the PC wraps (R13, R83). -/
def blockWidth (c : Cfg) : Nat :=
  match c.variant with
  | .VA => 13
  | _ => 15

theorem blockWidth_le (c : Cfg) : blockWidth c ≤ 17 := by
  unfold blockWidth
  cases c.variant <;> decide

theorem amask_toNat (c : Cfg) : (amask c).toNat = 2 ^ c.variant.addrWidth - 1 := by
  unfold amask
  cases c.variant <;> rfl

theorem blkMask_toNat (c : Cfg) : (blkMask c).toNat = 2 ^ blockWidth c - 1 := by
  unfold blkMask blockWidth
  cases c.variant <;> rfl

/-- The block is the high part of `incPC`. -/
theorem blockBase_toNat (c : Cfg) (a : Addr) :
    (a &&& ~~~blkMask c &&& amask c).toNat = a.toNat % 2 ^ c.variant.addrWidth / 2 ^ blockWidth c * 2 ^ blockWidth c := by
  rw [BitVec.and_assoc, BitVec.and_comm (~~~blkMask c), ← BitVec.and_assoc, toNat_and_not_lowMask _ (blkMask_toNat c),
    toNat_and_lowMask _ (amask_toNat c)]

/-- The successor's place in the block is its low part. -/
theorem successorInBlock_toNat (c : Cfg) (a : Addr) :
    ((a + 1) &&& blkMask c).toNat = (a.toNat + 1) % 2 ^ blockWidth c := by
  rw [toNat_and_lowMask _ (blkMask_toNat c), BitVec.toNat_add]
  exact Nat.mod_mod_of_dvd _ (Nat.pow_dvd_pow 2 (blockWidth_le c))

/-- The two parts share no bit, so `incPC` is their sum. -/
theorem incPC_toNat (c : Cfg) (a : Addr) :
    (incPC c a).toNat = a.toNat % 2 ^ c.variant.addrWidth / 2 ^ blockWidth c * 2 ^ blockWidth c
      + (a.toNat + 1) % 2 ^ blockWidth c := by
  have hlow : (a.toNat + 1) % 2 ^ blockWidth c < 2 ^ blockWidth c := Nat.mod_lt _ (Nat.two_pow_pos _)
  unfold incPC
  rw [BitVec.toNat_or, blockBase_toNat, successorInBlock_toNat, Nat.mul_comm, Nat.two_pow_add_eq_or_of_lt hlow]

theorem pcWrapsWithinItsBlock : Clause.PcWrapsWithinItsBlock := by
  intro c a
  have hmask := amask_toNat c
  have hblk := blkMask_toNat c
  have hinc := incPC_toNat c a
  unfold blockWidth at hblk hinc
  cases hv : c.variant <;> rw [hv] at hmask hblk hinc <;> exact ⟨hmask, hblk, hinc⟩

/-! ## The fetch -/

@[simp] theorem State.atFetch_cfg (s : State) : s.atFetch.cfg = s.cfg := by simp [State.atFetch]

@[simp] theorem State.atFetch_pc (s : State) : s.atFetch.pc = s.pc := by simp [State.atFetch]

@[simp] theorem State.atFetch_mem (s : State) : s.atFetch.mem = s.mem := by simp [State.atFetch]

@[simp] theorem State.atFetch_wordAt (s : State) (a : Nat) : s.atFetch.wordAt a = s.wordAt a := by simp [State.wordAt]

/-- What the fetch of a cycle leaves, in terms of the state before the cycle. -/
theorem State.atFetch_fetched (s : State) (w : Word) :
    s.atFetch.fetched w = { s.atFetch with pc := incPC s.cfg s.pc, instrAddr := s.pc, ir := w, xctDepth := 0 } := by
  simp [State.fetched, State.advance]

/-- A fetch from an installed address executes the word there. -/
theorem State.fetchExecute_ok {s : State} {pa : Addr} (h : s.translate s.pc .fetch = .ok pa) :
    s.fetchExecute = executeWord exec (s.wordAt pa.toNat) (s.fetched (s.wordAt pa.toNat)) := by
  rcases s.fetchExecute_cases with ⟨pa', ht, he⟩ | ⟨ht, _⟩ | ⟨ht, _⟩ | ⟨ht, _⟩ <;> rw [h] at ht <;> cases ht
  exact he

theorem decodedInstructionRuns : Clause.DecodedInstructionRuns := by
  intro s pa i hfetch htranslate hdecode
  rw [← s.atFetch_pc] at htranslate
  rw [step_of_willFetch hfetch, State.fetchExecute_ok htranslate, s.atFetch_wordAt, executeWord_ok (by simpa using hdecode),
    s.atFetch_fetched]

/-- Settles O10: the cycle that fetches is its fetch, and `incPC` joins two parts without a common bit. -/
theorem stepRunsDecodedInstruction : Obligations.StepRunsDecodedInstruction :=
  ⟨decodedInstructionRuns, pcWrapsWithinItsBlock⟩

end Sys2Proof.Machine
end

section
/-! Addresses that lie inside the variant's address space: what every operation that forms one keeps (R13, R82, R84 to R89,
R311). -/

namespace Sys2Proof.Machine

/-- The address lies inside the variant's address space (R13, R82). -/
abbrev InSpace (c : Cfg) (a : Addr) : Prop := a &&& amask c = a

theorem inSpace_iff {c : Cfg} {a : Addr} : InSpace c a ↔ a.toNat < 2 ^ c.variant.addrWidth := by
  rw [InSpace, ← BitVec.toNat_inj, toNat_and_lowMask a (amask_toNat c), Nat.mod_eq_iff_lt (Nat.two_pow_pos _).ne']

/-- Every variant has at least the 2^13 words of VA (R11). -/
theorem thirteen_le_addrWidth (v : Variant) : 13 ≤ v.addrWidth := by cases v <;> decide

theorem fifteen_le_addrWidth {v : Variant} (h : v ≠ .VA) : 15 ≤ v.addrWidth := by
  cases v with
  | VA => exact absurd rfl h
  | _ => decide

theorem inSpace_of_lt {c : Cfg} {a : Addr} (h : a.toNat < 2 ^ 13) : InSpace c a :=
  inSpace_iff.mpr (h.trans_le (Nat.pow_le_pow_right (by decide) (thirteen_le_addrWidth _)))

theorem inSpace_amask (c : Cfg) (a : Addr) : InSpace c (a &&& amask c) := by
  rw [InSpace, BitVec.and_assoc, BitVec.and_self]

theorem inSpace_or {c : Cfg} {a b : Addr} (ha : InSpace c a) (hb : InSpace c b) : InSpace c (a ||| b) := by
  rw [inSpace_iff, BitVec.toNat_or]
  exact Nat.or_lt_two_pow (inSpace_iff.mp ha) (inSpace_iff.mp hb)

/-- A masked address is no greater than its mask. -/
theorem inSpace_and {c : Cfg} (a : Addr) {m : Addr} (hm : InSpace c m) : InSpace c (a &&& m) := by
  rw [inSpace_iff, BitVec.toNat_and]
  exact Nat.and_le_right.trans_lt (inSpace_iff.mp hm)

theorem inSpace_fldMask (c : Cfg) : InSpace c fldMask := inSpace_of_lt (by decide)

theorem inSpace_blkMask (c : Cfg) : InSpace c (blkMask c) := by
  unfold InSpace blkMask amask
  cases c.variant <;> rfl

/-- The 15-bit pointer mask, which VA does not use (R86, R88). -/
theorem inSpace_pointerMask {c : Cfg} (h : c.variant ≠ .VA) : InSpace c 0o77777 :=
  inSpace_iff.mpr <| (by decide : (0o77777 : Addr).toNat < 2 ^ 15).trans_le
    (Nat.pow_le_pow_right (by decide) (fifteen_le_addrWidth h))

theorem inSpace_incPC (c : Cfg) (a : Addr) : InSpace c (incPC c a) :=
  inSpace_or (inSpace_amask c _) (inSpace_and _ (inSpace_blkMask c))

/-- A short address field widened to an address. -/
theorem inSpace_setWidth {c : Cfg} {k : Nat} (y : BitVec k) (h : k ≤ 13) : InSpace c (y.setWidth 17) := by
  refine inSpace_of_lt ?_
  rw [BitVec.toNat_setWidth]
  exact (Nat.mod_le _ _).trans_lt (y.isLt.trans_le (Nat.pow_le_pow_right (by decide) h))

theorem State.inSpace_directAddr (s : State) (base : Addr) (m : MemOperand) : InSpace s.cfg (s.directAddr base m) := by
  unfold State.directAddr
  split
  · exact inSpace_or (inSpace_amask _ _) (inSpace_setWidth _ (by decide))
  · exact inSpace_or (inSpace_amask _ _) (inSpace_setWidth _ (by decide))

/-- Extend addressing is never in force on VA, nor is page addressing (R43, R87). -/
theorem State.inSpace_indirectAddr (s : State) (base d : Addr) (ptr : Word) :
    InSpace s.cfg (s.indirectAddr base d ptr) := by
  unfold State.indirectAddr
  split
  · split
    · next hext =>
      have hv : s.cfg.variant ≠ .VA := by
        intro hva
        simp [State.extendActive, hva] at hext
      exact inSpace_or (inSpace_amask _ _) (inSpace_and _ (inSpace_pointerMask hv))
    · exact inSpace_or (inSpace_amask _ _) (inSpace_and _ (inSpace_fldMask _))
  · next hpage =>
    have hv : s.cfg.variant ≠ .VA := by
      intro hva
      simp [State.bankMode, Cfg.hasPageMode, hva] at hpage
    split
    · exact inSpace_amask _ _
    · exact inSpace_or (inSpace_amask _ _) (inSpace_and _ (inSpace_pointerMask hv))

theorem State.inSpace_indexed (s : State) (m : MemOperand) {a : Addr} (ha : InSpace s.cfg a) :
    InSpace s.cfg (s.indexed m a) := by
  unfold State.indexed
  split
  · exact inSpace_amask _ _
  · exact ha

/-- A resolved address lies in the address space (R82, R84 to R89). -/
theorem State.resolve_inSpace {s t : State} {m : MemOperand} {r : Resolved} (h : s.resolve m = .done r t) :
    InSpace s.cfg r.ea := by
  unfold State.resolve State.resolveFrom at h
  dsimp only at h
  split at h
  · obtain ⟨ptr, u, -, hr⟩ := Access.andThen_eq_done.mp h
    cases hr
    exact s.inSpace_indexed m (s.inSpace_indirectAddr _ _ _)
  · cases h
    exact s.inSpace_indexed m (s.inSpace_directAddr _ _)

/-- So does the address of an FP15 instruction (R311). -/
theorem State.fpAddress_inSpace {s t : State} {ea : Addr} (h : s.fpAddress = .done ea t) : InSpace t.cfg ea := by
  obtain ⟨aw, u, -, hu⟩ := Access.andThen_eq_done.mp h
  split at hu
  · obtain ⟨p, v, -, hv⟩ := Access.andThen_eq_done.mp hu
    cases hv
    exact inSpace_amask _ _
  · cases hu
    exact inSpace_amask _ _

end Sys2Proof.Machine
end

section
/-! What a move of the machine is made of. A few elementary changes build up every instruction's meaning, every cycle and
every move of the agent; they are listed once, and each invariant of a step is then a check of the list (R33, R42 to R45, R56,
R82, R373). -/

namespace Sys2Proof.Machine

/-! ## The elementary changes -/

/-- What the invariants speak of: the configuration, memory, the PC, the modes, the API's masks and the moves to come. -/
structure Control where
  cfg : Cfg
  mem : Memory
  pc : Addr
  memm : Bool
  usmd : Bool
  memmBuf : Bool
  usmdBuf : Bool
  modeDefer : BitVec 2
  apiEnb : Bool
  apiReq : BitVec 8
  apiAct : BitVec 8
  moves : List Move

/-- That part of a state. -/
def State.control (s : State) : Control where
  cfg := s.cfg
  mem := s.mem
  pc := s.pc
  memm := s.memm
  usmd := s.usmd
  memmBuf := s.memmBuf
  usmdBuf := s.usmdBuf
  modeDefer := s.modeDefer
  apiEnb := s.apiEnb
  apiReq := s.apiReq
  apiAct := s.apiAct
  moves := s.moves

/-- The elementary changes that instructions, cycles and the agent's moves are made of. -/
inductive Change : State → State → Prop
  /-- Registers that no invariant speaks of. -/
  | data {s t : State} (h : t.control = s.control) : Change s t
  /-- A word of installed memory is written (R56, R97). -/
  | word (s : State) (a : Nat) (v : Word) (ha : a < s.cfg.memSize) : Change s { s with mem := s.mem.write a v }
  /-- The PC goes to an address of the variant's space (R82). -/
  | jump (s : State) (a : Addr) (ha : InSpace s.cfg a) : Change s { s with pc := a }
  /-- The entry modes are forced (R374). -/
  | enter (s : State) : Change s s.forceEntryModes
  /-- The mode commit of a cycle (R373). -/
  | commit (s : State) : Change s s.commitModes
  /-- The buffers are written, to commit in one or two cycles; that of a mode the machine does not have is not turned on (R43
  to R45, R182, R257 to R260). -/
  | buffer (s : State) (mb ub : Bool) (d : BitVec 2) (hm : s.cfg.variant = .VA → mb = true → s.memmBuf = true)
      (hu : s.cfg.protScheme = .none → ub = true → s.usmdBuf = true) (hd : d = 1 ∨ d = 2) :
      Change s { s with memmBuf := mb, usmdBuf := ub, modeDefer := d }
  /-- The state of an API that is installed; no hardware level is requested that was not (R42). -/
  | api (s : State) (e : Bool) (req act : BitVec 8) (hapi : s.cfg.hasAPI = true)
      (hreq : s.apiReq &&& 0o360 = 0 → req &&& 0o360 = 0) :
      Change s { s with apiEnb := e, apiReq := req, apiAct := act }

/-- Elementary changes, one after another, lead from one state to the other. -/
def State.LeadsTo (s t : State) : Prop := Relation.ReflTransGen Change s t

namespace State.LeadsTo

theorem refl (s : State) : s.LeadsTo s := Relation.ReflTransGen.refl

theorem trans {s t u : State} (h : s.LeadsTo t) (h' : t.LeadsTo u) : s.LeadsTo u := Relation.ReflTransGen.trans h h'

theorem of_change {s t : State} (h : Change s t) : s.LeadsTo t := Relation.ReflTransGen.single h

theorem data {s t : State} (h : t.control = s.control) : s.LeadsTo t := of_change (.data h)

theorem jump (s : State) {a : Addr} (ha : InSpace s.cfg a) : s.LeadsTo { s with pc := a } := of_change (.jump s a ha)

theorem word (s : State) {a : Nat} (v : Word) (ha : a < s.cfg.memSize) : s.LeadsTo { s with mem := s.mem.write a v } :=
  of_change (.word s a v ha)

/-- A jump together with registers that no invariant speaks of. -/
theorem jump_data {s t : State} (h : ({ t with pc := s.pc } : State).control = s.control) (ha : InSpace t.cfg t.pc) :
    s.LeadsTo t := (data h).trans (jump { t with pc := s.pc } ha)

/-- A predicate that every elementary change keeps is kept by a sequence of them. -/
theorem keeps {P : State → Prop} (hP : ∀ {a b}, Change a b → P a → P b) {s t : State} (h : s.LeadsTo t) (hs : P s) : P t := by
  induction h with
  | refl => exact hs
  | tail _ hc ih => exact hP hc ih

end State.LeadsTo

/-! ## Accesses -/

/-- An access that leaves memory alone changes fault flags only. -/
theorem State.LeadsTo.of_accessFrame {s t : State} (h : s.accessFrame t) (hm : t.mem = s.mem) : s.LeadsTo t := by
  obtain ⟨m, n, p, q, rfl⟩ := h
  cases hm
  exact .data rfl

theorem State.leadsTo_cpuRead (s : State) (va : Addr) (k : AccessKind) : s.LeadsTo (s.cpuRead va k).state :=
  .of_accessFrame (s.cpuRead_frame va k) (s.cpuRead_mem va k)

theorem State.leadsTo_fpRead (s : State) (va : Addr) : s.LeadsTo (s.fpRead va).state :=
  .of_accessFrame (s.fpRead_frame va) (s.fpRead_mem va)

theorem State.leadsTo_cpuWrite (s : State) (va : Addr) (v : Word) : s.LeadsTo (s.cpuWrite va v).state := by
  rcases s.cpuWrite_cases va v with ⟨pa, ht, e⟩ | ⟨_, e⟩ | ⟨_, _, e⟩ | ⟨_, _, e⟩ <;> rw [e]
  · exact .word s v (State.translate_installed ht)
  all_goals exact .data rfl

theorem State.leadsTo_fpWrite (s : State) (va : Addr) (v : Word) : s.LeadsTo (s.fpWrite va v).state := by
  rcases s.fpWrite_cases va v with ⟨pa, ht, e⟩ | ⟨_, e⟩ | ⟨_, e⟩ <;> rw [e]
  · exact .word s v (State.translate_installed ht)
  all_goals exact .data rfl

theorem State.leadsTo_physWrite (s : State) (pa : Nat) (v : Word) : s.LeadsTo (s.physWrite pa v) := by
  rcases s.physWrite_cases pa v with ⟨hp, e⟩ | ⟨_, e⟩ <;> rw [e]
  · exact .word s v hp
  · exact .data rfl

theorem Access.leadsTo_andThen {α β : Type} {s : State} {x : Access α} {f : α → State → Access β}
    (hx : s.LeadsTo x.state) (hf : ∀ (v : α) (t : State), t.LeadsTo (f v t).state) : s.LeadsTo (x.andThen f).state :=
  Access.state_andThen (R := State.LeadsTo) .trans hx hf

theorem Access.leadsTo_finish {α : Type} {s : State} {x : Access α} {f : α → State → State} (hx : s.LeadsTo x.state)
    (hf : ∀ v t, x = .done v t → t.LeadsTo (f v t)) : s.LeadsTo (x.finish f) := by
  cases x with
  | done v t => exact hx.trans (hf v t rfl)
  | abandoned t => exact hx

/-! ## Operand forms -/

theorem State.leadsTo_pointer (s : State) (d : Addr) : s.LeadsTo (s.pointer d).state := by
  unfold State.pointer
  split
  · exact Access.leadsTo_andThen (s.leadsTo_cpuRead _ _) fun _ t =>
      Access.leadsTo_andThen (t.leadsTo_cpuWrite _ _) fun _ u => .refl u
  · exact s.leadsTo_cpuRead _ _

theorem State.leadsTo_resolveFrom (s : State) (base : Addr) (m : MemOperand) : s.LeadsTo (s.resolveFrom base m).state := by
  unfold State.resolveFrom
  dsimp only
  split
  · exact Access.leadsTo_andThen (s.leadsTo_pointer _) fun _ t => .refl t
  · exact .refl s

theorem State.leadsTo_resolve (s : State) (m : MemOperand) : s.LeadsTo (s.resolve m).state := s.leadsTo_resolveFrom _ _

theorem State.leadsTo_loadOperand (s : State) (m : MemOperand) : s.LeadsTo (s.loadOperand m).state :=
  Access.leadsTo_andThen (s.leadsTo_resolve m) fun _ t => t.leadsTo_cpuRead _ _

theorem State.leadsTo_storeOperand (s : State) (m : MemOperand) (v : Word) : s.LeadsTo (s.storeOperand m v).state :=
  Access.leadsTo_andThen (s.leadsTo_resolve m) fun _ t => t.leadsTo_cpuWrite _ _

theorem State.leadsTo_advance (s : State) : s.LeadsTo s.advance := .jump s (inSpace_incPC _ _)

theorem State.leadsTo_skipIf (s : State) (b : Bool) : s.LeadsTo (s.skipIf b) := by
  cases b
  · exact .refl s
  · exact s.leadsTo_advance

theorem State.leadsTo_inlineOperand (s : State) : s.LeadsTo s.inlineOperand.state :=
  s.leadsTo_advance.trans (s.advance.leadsTo_cpuRead _ _)

theorem State.leadsTo_fpAddress (s : State) : s.LeadsTo s.fpAddress.state :=
  s.leadsTo_advance.trans (.of_accessFrame s.fpAddress_frame s.fpAddress_mem)

theorem State.leadsTo_fpLoad (s : State) (fmt : FpFormat) (ea : Addr) : s.LeadsTo (s.fpLoad fmt ea).state :=
  .of_accessFrame (s.fpLoad_frame fmt ea) (s.fpLoad_mem fmt ea)

theorem State.leadsTo_fpOperand (s : State) (md : FpMods) (ea : Addr) : s.LeadsTo (s.fpOperand md ea).state := by
  unfold State.fpOperand
  split
  · exact .refl s
  · refine Access.leadsTo_andThen (s.leadsTo_fpLoad _ _) fun b t => ?_
    cases b with
    | ok u => exact .data rfl
    | error k => exact .refl t

theorem State.leadsTo_fpStore (ws : List Word) : ∀ (s : State) (ea : Addr), s.LeadsTo (s.fpStore ea ws).state := by
  induction ws with
  | nil => exact fun s _ => .refl s
  | cons w ws ih => exact fun s ea => Access.leadsTo_andThen (s.leadsTo_fpWrite _ _) fun _ t => ih t _

/-! ## Entries, returns and stops -/

/-- A forced entry: the history, the entry modes, the return word saved, the handler's address. -/
theorem State.leadsTo_enter (s : State) (save : Nat) {target : Addr} (ht : target.toNat < 2 ^ 13) :
    s.LeadsTo (s.enter save target) := by
  have hpush : s.LeadsTo s.pcqPush := .data rfl
  have hforce : s.pcqPush.LeadsTo s.pcqPush.forceEntryModes := .of_change (.enter _)
  exact hpush.trans (hforce.trans ((State.leadsTo_physWrite _ save s.retWord).trans (.jump _ (inSpace_of_lt ht))))

theorem State.leadsTo_jumpSubroutine (s : State) (ea : Addr) (ret : Word) : s.LeadsTo (s.jumpSubroutine ea ret) :=
  Access.leadsTo_finish (s.leadsTo_cpuWrite _ _) fun _ _ _ => .jump_data rfl (inSpace_incPC _ _)

theorem State.LeadsTo.cfg {s t : State} (h : s.LeadsTo t) : t.cfg = s.cfg := by
  refine h.keeps (P := fun u => u.cfg = s.cfg) (fun {a b} hc ha => ?_) rfl
  cases hc with
  | data h => exact (congrArg Control.cfg h).trans ha
  | commit => exact a.commitModes_cfg.trans ha
  | _ => exact ha

theorem State.leadsTo_fpException (s : State) (k : FpExc) : s.LeadsTo (s.fpException k) := by
  refine Access.leadsTo_finish (s.leadsTo_cpuWrite _ _) fun _ t ht => .jump_data rfl ?_
  have hcfg : t.cfg = s.cfg := (Access.done_state ht ▸ s.leadsTo_cpuWrite _ _ : s.LeadsTo t).cfg
  change InSpace t.cfg _
  rw [hcfg]
  exact inSpace_amask _ _

theorem leadsTo_fpSettle {α : Type} {s : State} {x : Access α} {f : α → State → State} (hx : s.LeadsTo x.state)
    (hf : ∀ v t, x = .done v t → t.LeadsTo (f v t)) : s.LeadsTo (fpSettle x f) := by
  cases x with
  | done v t => exact hx.trans (hf v t rfl)
  | abandoned t => exact hx.trans (t.leadsTo_fpException .mm)

theorem State.leadsTo_unimplemented (s : State) : s.LeadsTo s.unimplemented := by
  rcases s.unimplemented_cases with ⟨-, e⟩ | ⟨-, e⟩ <;> rw [e]
  · exact .data rfl
  · exact .refl s

theorem State.leadsTo_restoreFrom (s : State) (ptr : Word) : s.LeadsTo (s.restoreFrom ptr) := by
  have hflags : s.LeadsTo { s with l := ptr.getMsbD 0, restPending := false } := .data rfl
  refine hflags.trans (.of_change (.buffer _ _ _ 1 ?_ ?_ (.inl rfl)))
  · intro hv hb
    simp [show s.cfg.variant = .VA from hv] at hb
  · intro hp hb
    simp [show s.cfg.protScheme = .none from hp] at hb

theorem State.leadsTo_ioTransfer (s : State) (dev code : BitVec 6) : s.LeadsTo (s.ioTransfer dev code) := by
  have hskip := s.leadsTo_skipIf ((s.ioAnswer dev code).word.testBit 18)
  exact hskip.trans (.data rfl)

/-- An IOT-class word, given what its own effect does where the processor claims it (R230). -/
theorem State.leadsTo_iot (s : State) {claimed : Bool} (dev code : BitVec 6) (cla : Bool) {effect : State → State}
    (h : claimed = true → (s.iotStart cla).LeadsTo (effect (s.iotStart cla))) :
    s.LeadsTo (s.iot claimed dev code cla effect) := by
  have hstart : s.LeadsTo (s.iotStart cla) := .data rfl
  rcases s.iot_cases claimed dev code cla effect with ⟨-, e⟩ | ⟨-, hc, e⟩ | ⟨-, -, -, e⟩ | ⟨-, -, -, e⟩ <;> rw [e]
  · exact .data rfl
  · exact hstart.trans (h hc)
  · exact hstart.trans (State.leadsTo_ioTransfer _ _ _)
  · exact s.leadsTo_unimplemented

theorem State.leadsTo_bufferMemm (s : State) (b : Bool) (hv : s.cfg.variant ≠ .VA) : s.LeadsTo (s.bufferMemm b) :=
  .of_change (.buffer s b s.usmdBuf 2 (fun h => absurd h hv) (fun _ h => h) (.inr rfl))

theorem State.leadsTo_dismiss (s : State) (h : s.cfg.hasAPI = true) : s.LeadsTo s.dismiss :=
  .of_change (.api s s.apiEnb s.apiReq _ h id)

/-! ## The shared operations of the instruction classes -/

theorem State.leadsTo_operate (s : State) (o : OperateOps) : s.LeadsTo (s.operate o) := by
  unfold State.operate
  split
  · exact .data rfl
  · have hskip : ∀ (x : BitVec 19) (b : Bool), s.LeadsTo ({ s with ac := lacWord x, l := lacLink x }.skipIf b) := by
      intro x b
      have hlac : s.LeadsTo { s with ac := lacWord x, l := lacLink x } := .data rfl
      exact hlac.trans (State.leadsTo_skipIf _ _)
    dsimp only
    split
    · exact (hskip _ _).trans (.data rfl)
    · exact hskip _ _

theorem State.leadsTo_eaeDivide (s : State) (signed : Bool) (n : BitVec 6) (mb : Word) :
    s.LeadsTo (s.eaeDivide signed n mb) := by
  unfold State.eaeDivide
  dsimp only
  generalize (if (signed && mb.getMsbD 0) = true then ~~~mb else mb) = divisor
  generalize (if s.eaeAcSign = true then ~~~s.mq else s.mq) = mq
  split
  · exact .data rfl
  · split <;> exact .data rfl

theorem State.leadsTo_eae (s : State) (p : EaePre) (cmd : EaeCmd) (n : BitVec 6) : s.LeadsTo (s.eae p cmd n) := by
  have hpre : s.LeadsTo (s.eaePre p) := .data rfl
  refine hpre.trans ?_
  cases cmd
  case multiply => exact Access.leadsTo_finish (State.leadsTo_inlineOperand _) fun _ _ _ => .data rfl
  case divide => exact Access.leadsTo_finish (State.leadsTo_inlineOperand _) fun _ t _ => t.leadsTo_eaeDivide _ _ _
  all_goals exact .data rfl

theorem State.leadsTo_fpFinish (s : State) (sgn : BitVec 2) (r : Except FpExc FpResult) : s.LeadsTo (s.fpFinish sgn r) := by
  cases r with
  | ok x => exact .data rfl
  | error k => exact s.leadsTo_fpException k

theorem State.leadsTo_fpArith (s : State) (md : FpMods) (op : FpMods → Unpacked → Unpacked → Except FpExc FpResult) :
    s.LeadsTo (s.fpArith md op) :=
  leadsTo_fpSettle (Access.leadsTo_andThen s.leadsTo_fpAddress fun _ t => t.leadsTo_fpOperand _ _) fun _ t _ =>
    t.leadsTo_fpFinish _ _

theorem State.leadsTo_fpUnary (s : State) (md : FpMods) (op : Unpacked → Except FpExc FpResult) :
    s.LeadsTo (s.fpUnary md op) :=
  leadsTo_fpSettle s.leadsTo_fpAddress fun _ t _ => t.leadsTo_fpFinish _ _

end Sys2Proof.Machine
end

section
/-! Every instruction answers a next state, and elementary changes lead to it (R170 to R335). -/

namespace Sys2Proof.Machine

/-! ## What a meaning answers -/

/-- A next state that elementary changes lead to. -/
def AnswersFrom (s : State) (o : Host.Outcome State Fault Refusal) : Prop := ∃ t, o = .next t ∧ s.LeadsTo t

theorem AnswersFrom.next {s t : State} (h : s.LeadsTo t) : AnswersFrom s (.next t) := ⟨t, rfl, h⟩

theorem AnswersFrom.of_leadsTo {s t : State} {o : Host.Outcome State Fault Refusal} (h : s.LeadsTo t)
    (ho : AnswersFrom t o) : AnswersFrom s o := by
  obtain ⟨u, rfl, hu⟩ := ho
  exact .next (h.trans hu)

theorem AnswersFrom.leadsTo {s t : State} (h : AnswersFrom s (.next t)) : s.LeadsTo t := by
  obtain ⟨u, hu, h⟩ := h
  cases hu
  exact h

/-! ## Memory references -/

/-- An instruction that loads an operand and then changes registers alone. -/
theorem answersFrom_load {s : State} {m : MemOperand} {f : Word → State → State} (hf : ∀ v (t : State), t.LeadsTo (f v t)) :
    AnswersFrom s (.next ((s.loadOperand m).finish f)) :=
  .next (Access.leadsTo_finish (s.leadsTo_loadOperand m) fun v t _ => hf v t)

theorem answersFrom_store {s : State} {m : MemOperand} {v : Word} :
    AnswersFrom s (.next ((s.storeOperand m v).finish fun _ t => t)) :=
  .next (Access.leadsTo_finish (s.leadsTo_storeOperand m v) fun _ t _ => .refl t)

theorem execCal_answers (ign : BitVec 14) (s : State) : AnswersFrom s (execCal ign s) := by
  unfold execCal
  dsimp only
  refine .next (State.LeadsTo.trans ?_ (State.leadsTo_enter _ 0o20 (by decide)))
  split
  · next hon =>
    have hapi : s.cfg.hasAPI = true := (Bool.and_eq_true_iff.mp hon).1
    exact .of_change (.api s s.apiEnb s.apiReq _ hapi id)
  · exact .refl s

theorem execJms_answers (m : MemOperand) (s : State) : AnswersFrom s (execJms m s) :=
  .next (Access.leadsTo_finish (s.leadsTo_resolve m) fun _ t _ => t.leadsTo_jumpSubroutine _ _)

theorem execIsz_answers (m : MemOperand) (s : State) : AnswersFrom s (execIsz m s) :=
  .next <| Access.leadsTo_finish
    (Access.leadsTo_andThen (s.leadsTo_resolve m) fun _ t =>
      Access.leadsTo_andThen (t.leadsTo_cpuRead _ _) fun _ u =>
        Access.leadsTo_andThen (u.leadsTo_cpuWrite _ _) fun _ v => .refl v)
    fun _ t _ => t.leadsTo_skipIf _

theorem execJmp_answers (m : MemOperand) (s : State) : AnswersFrom s (execJmp m s) := by
  refine .next (Access.leadsTo_finish (s.leadsTo_resolve m) fun r t ht => ?_)
  have hcfg : t.cfg = s.cfg := (Access.done_state ht ▸ s.leadsTo_resolve m : s.LeadsTo t).cfg
  have hea : InSpace t.cfg r.ea := hcfg ▸ State.resolve_inSpace ht
  have hjump : ∀ u : State, u.cfg = t.cfg → u.LeadsTo { u.pcqPush with pc := r.ea } := fun u hu =>
    .jump_data rfl (by rw [← hu] at hea; exact hea)
  have hrestored : ∃ u : State,
      (if m.ind && t.restPending then t.restoreFrom r.ptr else t) = u ∧ u.cfg = t.cfg ∧ t.LeadsTo u := by
    split
    · exact ⟨_, rfl, rfl, t.leadsTo_restoreFrom _⟩
    · exact ⟨t, rfl, rfl, .refl t⟩
  obtain ⟨u, hu, hucfg, hlead⟩ := hrestored
  dsimp only
  rw [hu]
  refine hlead.trans ((hjump u hucfg).trans ?_)
  split
  · exact .data rfl
  · exact .refl _

/-! ## The transfers that change a mode or the API -/

theorem execMpeu_answers (f : IotForm) (s : State) : AnswersFrom s (execMpeu f s) := by
  refine .next (s.leadsTo_iot _ _ _ fun hmm => ?_)
  have hp : s.cfg.protScheme ≠ .none := by simpa [hasMM] using hmm
  exact .of_change (.buffer _ s.memmBuf true 2 (fun _ h => h) (fun h => absurd h hp) (.inr rfl))

/-- The transfers that buffer an addressing mode, which VA does not have (R43, R259, R260). -/
theorem answersFrom_bufferMemm {s : State} {claimed : Bool} {dev code : BitVec 6} {cla b : Bool}
    (h : claimed = true → s.cfg.variant ≠ .VA) :
    AnswersFrom s (.next (s.iot claimed dev code cla fun t => t.bufferMemm b)) :=
  .next (s.leadsTo_iot _ _ _ fun hclaimed => State.leadsTo_bufferMemm _ b (h hclaimed))

theorem ne_VA_of_hasExtend {c : Cfg} (h : hasExtend c = true) : c.variant ≠ .VA := by
  intro hv
  simp [hasExtend, hv] at h

theorem ne_VA_of_eq_VD {v : Variant} (h : (v == .VD) = true) : v ≠ .VA := by
  rintro rfl
  cases h

/-- CAF clears the API's state where there is one, and no more than flags where there is none (R245). -/
theorem execCaf_answers (f : IotForm) (s : State) : AnswersFrom s (execCaf f s) := by
  refine .next (s.leadsTo_iot _ _ _ fun _ => ?_)
  have hflags : (s.iotStart f.cla).LeadsTo
      { s.iotStart f.cla with ion := false, intReq := {}, nexm := false, prvn := false } := .data rfl
  refine hflags.trans ?_
  cases hapi : s.cfg.hasAPI
  · exact .data (by simp [State.control, hapi])
  · simp only [State.iotStart_cfg, hapi]
    exact .of_change (.api _ _ 0 0 hapi fun _ => rfl)

theorem execDbk_answers (f : IotForm) (s : State) : AnswersFrom s (execDbk f s) :=
  .next (s.leadsTo_iot _ _ _ fun hapi => State.leadsTo_dismiss _ hapi)

theorem execDbr_answers (f : IotForm) (s : State) : AnswersFrom s (execDbr f s) := by
  refine .next (s.leadsTo_iot _ _ _ fun hapi => ?_)
  exact .trans (State.leadsTo_dismiss (s.iotStart f.cla) hapi) (.data rfl)

/-- Requests that are withdrawn add no hardware level. -/
theorem software_and {req : BitVec 8} (kept : BitVec 8) (h : req &&& 0o360 = 0) : req &&& kept &&& 0o360 = 0 := by
  rw [BitVec.and_assoc, BitVec.and_comm kept, ← BitVec.and_assoc, h]
  exact BitVec.zero_and

/-- ISA requests software levels alone (R263). -/
theorem isaRequests_software (ac : Word) {req : BitVec 8} (h : req &&& 0o360 = 0) : isaRequests ac req &&& 0o360 = 0 := by
  have hnew : ∀ levels : BitVec 4, levels.setWidth 8 &&& 0o360#8 = 0 := by decide
  unfold isaRequests
  rw [BitVec.and_or_distrib_right, software_and _ h]
  exact BitVec.zero_or.trans (hnew _)

theorem execIsa_answers (f : IotForm) (s : State) : AnswersFrom s (execIsa f s) :=
  .next (s.leadsTo_iot _ _ _ fun hapi => .of_change (.api _ _ _ _ hapi (isaRequests_software _)))

/-- A transfer whose effect no invariant sees. -/
theorem answersFrom_iot {s : State} {claimed : Bool} {dev code : BitVec 6} {cla : Bool} {effect : State → State}
    (h : ∀ t : State, t.LeadsTo (effect t)) : AnswersFrom s (.next (s.iot claimed dev code cla effect)) :=
  .next (s.leadsTo_iot _ _ _ fun _ => h _)

/-! ## The FP15 -/

theorem execSt_answers (m : FpMods) (s : State) : AnswersFrom s (execSt m s) := by
  refine .next (leadsTo_fpSettle s.leadsTo_fpAddress fun ea t _ => ?_)
  split
  · exact .data rfl
  · split
    · exact t.leadsTo_fpException _
    · exact leadsTo_fpSettle (State.leadsTo_fpStore _ t ea) fun _ u _ => .refl u

theorem execJea_answers (m : FpMods) (s : State) : AnswersFrom s (execJea m s) := by
  refine .next (leadsTo_fpSettle s.leadsTo_fpAddress fun ea t _ => ?_)
  split
  · exact leadsTo_fpSettle (t.leadsTo_fpWrite _ _) fun _ u _ => .refl u
  · exact leadsTo_fpSettle (t.leadsTo_fpRead _) fun _ u _ => .data rfl

theorem execBr_answers (c : BrConds) (s : State) : AnswersFrom s (execBr c s) := by
  refine .next (leadsTo_fpSettle s.leadsTo_fpAddress fun ea t ht => ?_)
  split
  · have hea : InSpace t.cfg ea := State.fpAddress_inSpace ht
    exact .jump_data rfl hea
  · exact .refl t

/-! ## Every instruction -/

/-- Every instruction answers a next state that elementary changes lead to, if XCT does. -/
theorem execWith_answers {xct : MemOperand → State → Host.Outcome State Fault Refusal}
    (hx : ∀ m s, AnswersFrom s (xct m s)) (i : Instr) (s : State) : AnswersFrom s (execWith xct i s) := by
  cases i
  case cal ign => exact execCal_answers ign s
  case dac | dzm => exact answersFrom_store
  case jms m => exact execJms_answers m s
  case lac | xor | add | tad | and => exact answersFrom_load fun _ _ => .data rfl
  case xct m => exact hx m s
  case isz m => exact execIsz_answers m s
  case sad => exact answersFrom_load fun _ t => t.leadsTo_skipIf _
  case jmp m => exact execJmp_answers m s
  case opr | nop | cma | cml | oas | ral | rar | iac | hlt | sma | sza | smaSza | snl | skp | spa | sna | spaSna | szl | rtl | rtr
      | bsw | cll | stl | rcl | rcr | cla | clc | las | glk => exact .next (s.leadsTo_operate _)
  case law | pax | pal | aac | pxa | pxl | pla | plx | clac | clx | cllr | axr => exact .next (.data rfl)
  case axs imm =>
    have hx : s.LeadsTo { s with xr := s.xr + immWord imm } := .data rfl
    exact .next (hx.trans (State.leadsTo_skipIf _ _))
  case iot => exact answersFrom_iot fun t => .refl t
  case mpsk | mpsne | semSba | spi => exact answersFrom_iot fun t => t.leadsTo_skipIf _
  case iof | ion | iors | mpcne | mpcv | mpld | mplr | mplmr | mprmr | emirRes | rpl => exact answersFrom_iot fun _ => .data rfl
  case caf f => exact execCaf_answers f s
  case dbk f => exact execDbk_answers f s
  case dbr f => exact execDbr_answers f s
  case mpeu f => exact execMpeu_answers f s
  case eem | lem => exact answersFrom_bufferMemm ne_VA_of_hasExtend
  case eba | dba => exact answersFrom_bufferMemm ne_VA_of_eq_VD
  case isa f => exact execIsa_answers f s
  case eae | osc | omq | cmq | lacs | lacq | abs | clq | lmq | gsm | mul | muls | div | divs | idiv | idivs | frdiv | frdivs | norm
      | norms | lrs | lrss | lls | llss | als | alss => exact .next (s.leadsTo_eae _ _ _)
  case fpSub | fpRsub | fpMul | fpDiv | fpRdiv | ld | fpAdd => exact .next (s.leadsTo_fpArith _ _)
  case st m => exact execSt_answers m s
  case flt | fix => exact .next (s.leadsTo_fpUnary _ _)
  case lfmq => exact .next (leadsTo_fpSettle s.leadsTo_fpAddress fun _ _ _ => .data rfl)
  case jea m => exact execJea_answers m s
  case br c => exact execBr_answers c s

theorem executeWord_answers {run : Instr → State → Host.Outcome State Fault Refusal} {w : Word} {s : State}
    (h : ∀ i, AnswersFrom s (run i s)) : AnswersFrom s (executeWord run w s) := by
  unfold executeWord
  split
  · exact h _
  · exact .next s.leadsTo_unimplemented

/-- XCT answers, by induction on the levels that are left (R178). -/
theorem xctChain_answers (n : Nat) : ∀ (m : MemOperand) (s : State), AnswersFrom s (xctChain n m s) := by
  induction n with
  | zero => exact fun m s => answersFrom_load fun _ _ => .data rfl
  | succ n ih =>
    intro m s
    have hload := s.leadsTo_loadOperand m
    unfold xctChain
    split
    · next t ht => exact .next (by rwa [ht] at hload)
    · next w t ht =>
      rw [ht] at hload
      have hdepth : s.LeadsTo { t with xctDepth := t.xctDepth + 1, ir := w } := hload.trans (.data rfl)
      exact .of_leadsTo hdepth (executeWord_answers fun i => execWith_answers ih i _)

/-- Every instruction answers a next state that elementary changes lead to. -/
theorem exec_answers (i : Instr) (s : State) : AnswersFrom s (exec i s) := by
  rw [exec_eq_execWith]
  exact execWith_answers (fun m s => xctChain_answers _ m s) i s

end Sys2Proof.Machine
end

section
/-! Every cycle and every step: elementary changes, but for the host's reset and its deposits of a mode (R365, R370, R375,
R406). -/

namespace Sys2Proof.Machine

/-! ## Every cycle -/

theorem State.leadsTo_commitModes (s : State) : s.LeadsTo s.commitModes := .of_change (.commit s)

theorem State.leadsTo_started (s : State) : s.LeadsTo s.started := s.leadsTo_commitModes.trans (.data rfl)

theorem State.fetchExecute_answers (s : State) : AnswersFrom s s.fetchExecute := by
  have hfetched : ∀ (t : State) w, t.LeadsTo (t.fetched w) := fun t w => t.leadsTo_advance.trans (.data rfl)
  rcases s.fetchExecute_cases with ⟨pa, -, e⟩ | ⟨-, e⟩ | ⟨-, -, e⟩ | ⟨-, -, e⟩ <;> rw [e]
  · exact .of_leadsTo (hfetched s _) (executeWord_answers fun i => exec_answers i _)
  · exact .next (.data rfl)
  · exact .next (.data rfl)
  · have hnexm : s.LeadsTo s.nonExistent := .data rfl
    exact .of_leadsTo (hnexm.trans (hfetched _ _)) (executeWord_answers fun i => exec_answers i _)

theorem State.breakOrFetch_answers (s : State) (first : Bool) : AnswersFrom s (s.breakOrFetch first) := by
  unfold State.breakOrFetch
  split
  · exact .next (.data rfl)
  · exact s.fetchExecute_answers

/-- The arbiter selects an API level only where the API is installed (R367). -/
theorem State.hasAPI_of_arbitrate {s : State} {k : Nat} (h : s.arbitrate = .api k) : s.cfg.hasAPI = true := by
  have hon : s.apiOn = true := by
    by_contra hoff
    have hcand : s.apiCandidate = none := by simp [State.apiCandidate, hoff]
    simp only [State.arbitrate, hcand] at h
    split at h <;> cases h
  exact (Bool.and_eq_true_iff.mp hon).1

/-- An API delivery, or the stop of an invalid vector in the state the cycle began with (R369, R404). -/
theorem State.leadsTo_apiDelivery {s0 s : State} (k : Nat) (h : s0.LeadsTo s) (hapi : s.cfg.hasAPI = true) :
    s0.LeadsTo (s0.apiDelivery s k) := by
  unfold State.apiDelivery
  split
  · exact .data rfl
  · dsimp only
    split
    · exact .data rfl
    · have hreq : s.apiReq &&& 0o360 = 0 →
          (if 4 ≤ k then s.apiReq &&& ~~~levelBit k else s.apiReq) &&& 0o360 = 0 := by
        intro hr
        split
        · exact software_and _ hr
        · exact hr
      refine h.trans (.trans ?_
        (Access.leadsTo_finish (State.leadsTo_resolveFrom _ _ _) fun _ t _ => t.leadsTo_jumpSubroutine _ _))
      have hforce : s.LeadsTo s.forceEntryModes := .of_change (.enter s)
      have hlevel := State.LeadsTo.of_change
        (.api s.forceEntryModes s.apiEnb _ (s.apiAct ||| levelBit k) hapi hreq)
      exact hforce.trans (hlevel.trans (.data rfl))

theorem State.cycle_answers (s : State) : AnswersFrom s s.cycle := by
  have hstart := s.leadsTo_started
  unfold State.cycle
  dsimp only
  split
  · have hflags : s.started.LeadsTo { s.started with trapPending := false, ion := false } := .data rfl
    exact .next (hstart.trans (hflags.trans (State.leadsTo_enter _ 0 (by decide))))
  · split
    · have hdefer : s.started.LeadsTo s.started.undeferred := .data rfl
      exact .of_leadsTo (hstart.trans hdefer) (State.breakOrFetch_answers _ _)
    · split
      · next k ha => exact .next (State.leadsTo_apiDelivery k hstart (State.hasAPI_of_arbitrate ha))
      · have hflag : s.started.LeadsTo { s.started with ion := false } := .data rfl
        exact .next (hstart.trans (hflag.trans (State.leadsTo_enter _ 0 (by decide))))
      · exact .of_leadsTo hstart (State.breakOrFetch_answers _ _)

theorem State.processorMove_answers (s : State) : AnswersFrom s s.processorMove := by
  unfold State.processorMove
  split
  · exact s.cycle_answers
  · exact .next (.refl s)

/-! ## Every step -/

/-- What the host's deposit of a register that is no mode changes, of what the invariants speak of (R406, log entry 19). -/
theorem State.leadsTo_deposit (s : State) {r : RegName} (v : Nat)
    (hr : (Move.host (.deposit r v)).depositsMode = false) : s.LeadsTo (s.deposit r v) := by
  rcases s.deposit_cases r v with ⟨hreg, e⟩ | ⟨-, e⟩ <;> rw [e]
  · cases r
    case memm | usmd | memmBuf | usmdBuf | modeDefer => cases hr
    case pc => exact .jump s (inSpace_amask _ _)
    case apiEnb => exact .of_change (.api s _ s.apiReq s.apiAct hreg id)
    case apiReq =>
      have hsoftware : BitVec.ofNat 8 v &&& 0o017 &&& 0o360 = 0 := by
        rw [BitVec.and_assoc]
        exact BitVec.and_zero
      exact .of_change (.api s s.apiEnb _ s.apiAct hreg fun _ => hsoftware)
    case apiAct => exact .of_change (.api s s.apiEnb s.apiReq _ hreg id)
    case runState =>
      unfold State.putRegister
      dsimp only
      split <;> exact .data rfl
    all_goals exact .data rfl
  · exact .refl s

/-- Everything the host can do to a stopped machine: elementary changes, the reset, or the deposit of a mode. -/
theorem State.hostActStopped_cases {s t : State} {a : HostAction} (h : s.hostActStopped a = .next t) :
    s.LeadsTo t ∨ t = s.hostReset ∨ ∃ r v, a = .deposit r v ∧ (Move.host a).depositsMode = true ∧ t = s.deposit r v := by
  have hrun : s.hostRun = .next t → s.LeadsTo t := by
    intro hu
    unfold State.hostRun at hu
    split at hu <;> cases hu
    exact .data rfl
  cases a <;> simp only [State.hostActStopped] at h
  case run => exact .inl (hrun h)
  case reset =>
    cases h
    exact .inr (.inl rfl)
  case setPC a =>
    cases h
    exact .inl (.jump s (inSpace_amask _ _))
  case loadWord pa v =>
    cases h
    refine .inl ?_
    unfold State.hostLoadWord
    split
    · exact .word s _ ‹_›
    · exact .refl s
  case deposit r v =>
    split at h
    · exact .inl (hrun h)
    · cases h
      cases hm : (Move.host (.deposit r v)).depositsMode
      · exact .inl (s.leadsTo_deposit v hm)
      · exact .inr (.inr ⟨r, v, rfl, rfl, rfl⟩)
  case registerDevice base count =>
    unfold State.registerDevice at h
    split at h <;> cases h
    exact .inl (.data rfl)
  all_goals
    cases h
    exact .inl (.data rfl)

/-- Everything a step can do: with its move off the list, elementary changes, the host's reset, or its deposit of a mode. -/
theorem step_cases {s t : State} (h : step s = .next t) :
    s.moved.LeadsTo t ∨ t = s.moved.hostReset
    ∨ ∃ r v, Move.host (.deposit r v) ∈ s.moves ∧ (Move.host (.deposit r v)).depositsMode = true
        ∧ t = s.moved.deposit r v := by
  rcases hm : s.moves with _ | ⟨move, rest⟩
  · rw [step_of_processorNext (.inl hm)] at h
    exact .inl (h ▸ s.moved.processorMove_answers).leadsTo
  · have hmoved : s.moved = { s with moves := rest } := by rw [State.moved, hm]; rfl
    cases move with
    | cycle =>
      rw [step_of_processorNext (.inr (by rw [hm]; rfl))] at h
      exact .inl (h ▸ s.moved.processorMove_answers).leadsTo
    | agent m =>
      simp only [step, State.nextMove, hm] at h
      cases h
      rw [hmoved]
      exact .inl (.data rfl)
    | host a =>
      simp only [step, State.nextMove, hm, ← hmoved] at h
      unfold State.hostAct at h
      split at h
      · rcases State.hostActStopped_cases h with hl | hr | ⟨r, v, rfl, hd, ht⟩
        · exact .inl hl
        · exact .inr (.inl hr)
        · exact .inr (.inr ⟨r, v, List.mem_cons_self, hd, ht⟩)
      · split at h <;> cases h
        exact .inl (.data rfl)

end Sys2Proof.Machine
end

section
/-! The invariants of every step, each from the elementary changes (R33, R42 to R45, R55, R56, R82, R100, R373, R402). -/

namespace Sys2Proof.Machine

/-! ## Memory -/

theorem Change.memoryOk {s t : State} (h : Change s t) (hs : s.memoryOk) : t.memoryOk := by
  cases h with
  | data h =>
    have hmem : t.mem = s.mem := congrArg Control.mem h
    have hcfg : t.cfg = s.cfg := congrArg Control.cfg h
    unfold State.memoryOk
    rwa [hmem, hcfg]
  | word a v ha => exact State.memoryOk_write hs ha v
  | commit =>
    unfold State.memoryOk
    rwa [s.commitModes_mem, s.commitModes_cfg]
  | _ => exact hs

/-- Settles O6: every elementary change writes installed memory or none, and neither the reset nor a deposit writes any. -/
theorem memoryStaysCanonical : Obligations.MemoryStaysCanonical := by
  intro s t hs h
  rcases step_cases h with hl | rfl | ⟨r, v, -, -, rfl⟩
  · exact hl.keeps Change.memoryOk hs
  · exact hs
  · obtain ⟨hcfg, hmem, -⟩ := s.moved.deposit_frame r v
    unfold State.memoryOk
    rw [hmem, hcfg]
    exact hs

/-! ## The PC -/

theorem Change.pcOk {s t : State} (h : Change s t) (hs : s.pcOk) : t.pcOk := by
  cases h with
  | data h =>
    have hpc : t.pc = s.pc := congrArg Control.pc h
    have hcfg : t.cfg = s.cfg := congrArg Control.cfg h
    unfold State.pcOk
    rwa [hpc, hcfg]
  | jump a ha => exact ha
  | commit =>
    unfold State.pcOk
    rwa [s.commitModes_pc, s.commitModes_cfg]
  | _ => exact hs

/-- The host's deposit of a mode leaves the PC. -/
theorem State.deposit_pc_of_mode (s : State) {r : RegName} {v : Nat} (h : (Move.host (.deposit r v)).depositsMode = true) :
    (s.deposit r v).pc = s.pc := by
  rcases s.deposit_cases r v with ⟨-, e⟩ | ⟨-, e⟩ <;> rw [e]
  cases r
  case memm | usmd | memmBuf | usmdBuf | modeDefer => rfl
  all_goals cases h

/-- Settles O7: every elementary change that moves the PC gives it an address of the space, and none the configuration. -/
theorem pcStaysInAddressSpace : Obligations.PcStaysInAddressSpace := by
  intro s t hs h
  rcases step_cases h with hl | rfl | ⟨r, v, -, hmode, rfl⟩
  · exact ⟨hl.keeps Change.pcOk hs, hl.cfg⟩
  · exact ⟨hs, rfl⟩
  · have hcfg : (s.moved.deposit r v).cfg = s.cfg := (s.moved.deposit_frame r v).1
    refine ⟨?_, hcfg⟩
    unfold State.pcOk
    rw [State.deposit_pc_of_mode _ hmode, hcfg]
    exact hs

/-! ## The mode commit -/

/-- Settles O13: the three values of `modeDefer`, through the branches of the commit. -/
theorem modeCommitIsDelayed : Obligations.ModeCommitIsDelayed := by
  intro s
  have hone : ∀ u : State, u.modeDefer = 1 →
      u.commitModes = { u with modeDefer := 0, memm := u.memmBuf, usmd := u.usmdBuf } := by
    intro u h
    simp [State.commitModes, h]
  have htwo : s.modeDefer = 2 → s.commitModes = { s with modeDefer := 1 } := by
    intro h
    simp [State.commitModes, h]
  refine ⟨fun h => ?_, hone s, fun h => ⟨htwo h, ?_⟩⟩
  · simp [State.commitModes, h]
  · rw [htwo h]
    exact hone _ rfl

/-! ## The modes and the API's masks -/

/-- What a valid configuration says of the modes it forces and resets to (R11, R43). -/
theorem Cfg.valid_modes {c : Cfg} (h : c.valid = true) : c.entryMemm = false ∧ (c.variant = .VA → c.memmInit = false) := by
  simp only [Cfg.valid, Bool.and_eq_true, Bool.not_eq_true'] at h
  obtain ⟨⟨⟨⟨⟨-, hinit⟩, hentry⟩, -⟩, -⟩, -⟩ := h
  refine ⟨hentry, fun hv => ?_⟩
  simpa [hv] using hinit

theorem State.modesOk_of_control {s t : State} (h : t.control = s.control) (hs : s.modesOk) : t.modesOk := by
  have hcfg : t.cfg = s.cfg := congrArg Control.cfg h
  have hmemm : t.memm = s.memm := congrArg Control.memm h
  have husmd : t.usmd = s.usmd := congrArg Control.usmd h
  have hmemmBuf : t.memmBuf = s.memmBuf := congrArg Control.memmBuf h
  have husmdBuf : t.usmdBuf = s.usmdBuf := congrArg Control.usmdBuf h
  have hdefer : t.modeDefer = s.modeDefer := congrArg Control.modeDefer h
  unfold State.modesOk
  rwa [hcfg, hmemm, husmd, hmemmBuf, husmdBuf, hdefer]

/-- The commit makes the modes what their buffers are, or counts down from 2 to 1 (R373). -/
theorem State.commitModes_modesOk {s : State} (hs : s.modesOk) : s.commitModes.modesOk := by
  obtain ⟨huser, hextend, hbuffers, hdefer⟩ := hs
  have hvalues : ∀ d : BitVec 2, d.toNat ≤ 2 → d = 0 ∨ d = 1 ∨ d = 2 := by decide
  obtain ⟨hzero, hone, htwo⟩ := modeCommitIsDelayed s
  rcases hvalues s.modeDefer hdefer with h | h | h
  · rw [hzero h]
    exact ⟨huser, hextend, hbuffers, hdefer⟩
  · rw [hone h]
    exact ⟨fun hp => ⟨(huser hp).2, (huser hp).2⟩, fun hv => ⟨(hextend hv).2, (hextend hv).2⟩, fun _ => ⟨rfl, rfl⟩,
      Nat.zero_le 2⟩
  · rw [(htwo h).1]
    exact ⟨huser, hextend, fun h => absurd h (by decide : (1 : BitVec 2) ≠ 0), (by decide : (1 : BitVec 2).toNat ≤ 2)⟩

/-- A buffer that is not turned on stays off. -/
theorem stays_off {b b' : Bool} (hb : b = false) (h : b' = true → b = true) : b' = false :=
  Bool.eq_false_iff.mpr fun hb' => Bool.false_ne_true (hb.symm.trans (h hb'))

theorem Change.modesOk {s t : State} (h : Change s t) (hvalid : s.cfg.valid = true) (hs : s.modesOk) : t.modesOk := by
  cases h with
  | data h => exact State.modesOk_of_control h hs
  | enter =>
    have hentry := (Cfg.valid_modes hvalid).1
    exact ⟨fun _ => ⟨rfl, rfl⟩, fun _ => ⟨hentry, hentry⟩, fun _ => ⟨rfl, rfl⟩, Nat.zero_le 2⟩
  | commit => exact State.commitModes_modesOk hs
  | buffer mb ub d hm hu hd =>
    obtain ⟨huser, hextend, -, -⟩ := hs
    have hpending : d ≠ 0 ∧ d.toNat ≤ 2 := by rcases hd with rfl | rfl <;> decide
    exact ⟨fun hp => ⟨(huser hp).1, stays_off (huser hp).2 (hu hp)⟩,
      fun hv => ⟨(hextend hv).1, stays_off (hextend hv).2 (hm hv)⟩, fun h0 => absurd h0 hpending.1, hpending.2⟩
  | _ => exact hs

theorem Change.moves {s t : State} (h : Change s t) : t.moves = s.moves := by
  cases h with
  | data h => exact congrArg Control.moves h
  | commit => exact s.commitModes_moves
  | _ => rfl

theorem Change.apiOk {s t : State} (h : Change s t) (hs : s.apiOk) : t.apiOk := by
  cases h with
  | data h =>
    have hcfg : t.cfg = s.cfg := congrArg Control.cfg h
    have henb : t.apiEnb = s.apiEnb := congrArg Control.apiEnb h
    have hreq : t.apiReq = s.apiReq := congrArg Control.apiReq h
    have hact : t.apiAct = s.apiAct := congrArg Control.apiAct h
    unfold State.apiOk
    rwa [hcfg, henb, hreq, hact]
  | commit =>
    unfold State.apiOk
    rwa [s.commitModes_cfg, s.commitModes_apiEnb, s.commitModes_apiReq, s.commitModes_apiAct]
  | api e req act hapi hreq =>
    have hinstalled : s.cfg.hasAPI ≠ false := by rw [hapi]; decide
    exact ⟨hreq hs.1, fun h => absurd h hinstalled⟩
  | _ => exact hs

theorem modesStayLegal : Clause.ModesStayLegal := by
  intro s t hvalid hs halone h
  have halone' : s.moved.modesLeftAlone := fun m hm => halone m (List.mem_of_mem_tail hm)
  rcases step_cases h with hl | rfl | ⟨r, v, hmem, hmode, -⟩
  · obtain ⟨hok, -, hmoves⟩ :=
      hl.keeps (P := fun u => u.modesOk ∧ u.cfg.valid = true ∧ u.moves = s.moved.moves)
        (fun hc ⟨hok, hv, hm⟩ => ⟨hc.modesOk hv hok, by rw [(State.LeadsTo.of_change hc).cfg]; exact hv, hc.moves.trans hm⟩)
        ⟨hs, hvalid, rfl⟩
    refine ⟨hok, ?_⟩
    unfold State.modesLeftAlone
    rw [hmoves]
    exact halone'
  · have hinit : s.cfg.variant = .VA → s.cfg.memmInit = false := (Cfg.valid_modes hvalid).2
    exact ⟨⟨fun _ => ⟨rfl, rfl⟩, fun hv => ⟨hinit hv, hinit hv⟩, fun _ => ⟨rfl, rfl⟩, Nat.zero_le 2⟩, halone'⟩
  · rw [halone _ hmem] at hmode
    cases hmode

/-- The host's deposit of a mode leaves the API's masks. -/
theorem State.deposit_apiOk_of_mode {s : State} {r : RegName} {v : Nat}
    (h : (Move.host (.deposit r v)).depositsMode = true) (hs : s.apiOk) : (s.deposit r v).apiOk := by
  rcases s.deposit_cases r v with ⟨-, e⟩ | ⟨-, e⟩ <;> rw [e]
  · cases r
    case memm | usmd | memmBuf | usmdBuf | modeDefer => exact hs
    all_goals cases h
  · exact hs

theorem apiMasksStayLegal : Clause.ApiMasksStayLegal := by
  intro s t hs h
  rcases step_cases h with hl | rfl | ⟨r, v, -, hmode, rfl⟩
  · exact hl.keeps Change.apiOk hs
  · exact ⟨BitVec.zero_and, fun _ => ⟨rfl, rfl, rfl⟩⟩
  · exact State.deposit_apiOk_of_mode hmode hs

/-- Settles O8: the elementary changes keep both, the host's reset sets both, and its deposits of a mode are excluded. -/
theorem controlStateStaysLegal : Obligations.ControlStateStaysLegal := ⟨modesStayLegal, apiMasksStayLegal⟩

/-! ## No fault and no refusal -/

theorem everyInstructionAnswersNext : Clause.EveryInstructionAnswersNext := by
  intro i s
  obtain ⟨t, ht, -⟩ := exec_answers i s
  exact ⟨t, ht⟩

theorem processorAlwaysSteps : Clause.ProcessorAlwaysSteps := by
  intro s hnext
  obtain ⟨t, ht, -⟩ := s.moved.processorMove_answers
  exact ⟨t, (step_of_processorNext hnext).trans ht⟩

/-- Settles O12: the next state that elementary changes lead to is one. -/
theorem stepsAnswerNext : Obligations.StepsAnswerNext := ⟨everyInstructionAnswersNext, processorAlwaysSteps⟩

end Sys2Proof.Machine
end

section
/-! Cycles that run no instruction (R55, R97, R98, R145, R370, R372, R375, R404). -/

namespace Sys2Proof.Machine

/-! ## The fetch -/

@[simp] theorem State.atFetch_runState (s : State) : s.atFetch.runState = s.runState := by simp [State.atFetch]

/-- The cycle's fetch traps as the modes that the cycle commits do (R97, R373). -/
theorem State.atFetch_nxmTraps (s : State) :
    s.atFetch.nxmTraps = true ↔ s.commitModes.usmd = true ∨ s.cfg.execNxmTraps = true := by
  have husmd : s.atFetch.usmd = s.commitModes.usmd := by simp [State.atFetch, State.undeferred, s.moved_commitModes]
  rw [State.nxmTraps, husmd, s.atFetch_cfg, Bool.or_eq_true]

/-- Non-existent memory that traps sets both flags (R97). -/
theorem State.nonExistent_of_traps {s : State} (h : s.nxmTraps = true) :
    s.nonExistent = { s with nexm := true, trapPending := true } := by
  rw [State.nonExistent, h, Bool.or_true]

/-- Non-existent memory that does not trap sets `nexm` alone (R97). -/
theorem State.nonExistent_of_not_traps {s : State} (h : s.nxmTraps = false) : s.nonExistent = { s with nexm := true } := by
  rw [State.nonExistent, h, Bool.or_false]

theorem State.fetchExecute_violation {s : State} (h : s.translate s.pc .fetch = .violation) :
    s.fetchExecute = .next s.violation := by
  rcases s.fetchExecute_cases with ⟨pa, ht, -⟩ | ⟨-, he⟩ | ⟨ht, -⟩ | ⟨ht, -⟩
  · rw [h] at ht; cases ht
  · exact he
  all_goals rw [h] at ht; cases ht

/-- A fetch from non-existent memory that traps executes nothing (R98). -/
theorem State.fetchExecute_nonExistent_traps {s : State} (h : s.translate s.pc .fetch = .nonExistent)
    (htraps : s.nxmTraps = true) : s.fetchExecute = .next { s with nexm := true, trapPending := true } := by
  rw [← State.nonExistent_of_traps htraps]
  rcases s.fetchExecute_cases with ⟨pa, ht, -⟩ | ⟨ht, -⟩ | ⟨-, -, he⟩ | ⟨-, hno, -⟩
  · rw [h] at ht; cases ht
  · rw [h] at ht; cases ht
  · exact he
  · rw [htraps] at hno; cases hno

/-- One that does not trap executes `FaultReadValue` (R98, log entry 29). -/
theorem State.fetchExecute_nonExistent {s : State} (h : s.translate s.pc .fetch = .nonExistent)
    (htraps : s.nxmTraps = false) :
    s.fetchExecute = executeWord exec s.cfg.faultReadValue { s.fetched s.cfg.faultReadValue with nexm := true } := by
  rcases s.fetchExecute_cases with ⟨pa, ht, -⟩ | ⟨ht, -⟩ | ⟨-, hyes, -⟩ | ⟨-, -, he⟩
  · rw [h] at ht; cases ht
  · rw [h] at ht; cases ht
  · rw [htraps] at hyes; cases hyes
  · rw [he, State.nonExistent_of_not_traps htraps]
    rfl

/-- A malformed word met while the run is on, on a machine of a given configuration (R145). -/
theorem State.unimplemented_of_running {s : State} {c : Cfg} (hc : s.cfg = c) (h : s.runState = .running) :
    s.unimplemented = { s with
      runState := match c.unimplPolicy with
        | .stop => .stopped .unimplemented
        | .nop => .running } := by
  rw [← hc, ← h]
  unfold State.unimplemented
  cases s.cfg.unimplPolicy <;> rfl

theorem fetchWithoutInstruction : Clause.FetchWithoutInstruction := by
  intro s hfetch traps fetched malformed
  have hfetched : ∀ w, s.atFetch.fetched w = fetched w := s.atFetch_fetched
  have hmalformed : ∀ {w : Word} {t : State} {e : Reject}, t.cfg = s.atFetch.cfg → t.runState = s.atFetch.runState →
      decode s.cfg w = .error e → executeWord exec w t = .next (malformed t) := by
    intro w t e hcfg hrun hdecode
    have hc : t.cfg = s.cfg := hcfg.trans s.atFetch_cfg
    have hrunning : t.runState = .running := hrun.trans (s.atFetch_runState.trans hfetch.2.1)
    exact (executeWord_error (hc ▸ hdecode)).trans (congrArg _ (State.unimplemented_of_running hc hrunning))
  have htraps : s.atFetch.nxmTraps = true ↔ traps := s.atFetch_nxmTraps
  rw [step_of_willFetch hfetch, ← s.atFetch_pc]
  refine ⟨State.fetchExecute_violation, fun hnone hyes => State.fetchExecute_nonExistent_traps hnone (htraps.mpr hyes),
    fun hnone hno => ?_, fun pa e htranslate hdecode => ?_⟩
  · rw [State.fetchExecute_nonExistent hnone (Bool.eq_false_iff.mpr (hno ∘ htraps.mp)), hfetched, s.atFetch_cfg]
    exact ⟨fun i hdecode => executeWord_ok (s.atFetch_cfg ▸ hdecode), fun e hdecode => hmalformed rfl rfl hdecode⟩
  · rw [State.fetchExecute_ok htranslate, hfetched, s.atFetch_wordAt]
    exact hmalformed rfl rfl hdecode

/-! ## The breakpoint and the stopped processor -/

theorem breakpointStops : Clause.BreakpointStops := by
  intro s hnext hrun htrap hdefer hfirst hbreak
  have hhere : s.moved.started.undeferred.breakpoints.contains s.moved.started.undeferred.pc = true := by simpa using hbreak
  rw [step_of_running hnext hrun, State.cycle_breakOrFetch (s := s.moved) htrap (by simpa using hdefer), State.breakOrFetch,
    hhere, hfirst, State.started, s.moved_commitModes]
  rfl

theorem stoppedProcessorStays : Clause.StoppedProcessorStays := by
  intro s reason hnext hstopped
  have hmove : step s = .next s.moved := by
    rw [step_of_processorNext hnext, State.processorMove]
    simp only [hstopped]
  refine ⟨hmove, fun hnone => ?_⟩
  rw [hmove, show s.moved = s by rw [State.moved, hnone, List.tail_nil, ← hnone]]

/-- Settles O11: the ends of a fetch, the breakpoint check before it, and the stopped processor's move. -/
theorem cyclesWithoutInstruction : Obligations.CyclesWithoutInstruction :=
  ⟨fetchWithoutInstruction, breakpointStops, stoppedProcessorStays⟩

end Sys2Proof.Machine
end

section
/-! The FP15's conversions and its control (R53, R329 to R331, R333, R335, R390), once the address word is resolved. -/

namespace Sys2Proof.Machine

/-- An operation on FMA alone, with its address resolved (R329, R330). -/
theorem State.fpUnary_done {s t : State} {ea : Addr} (h : s.fpAddress = .done ea t) (md : FpMods)
    (op : Unpacked → Except FpExc FpResult) : s.fpUnary md op = t.fpFinish md.sgn (op s.fma.unpack) := by
  have hfma : t.fma = s.fma := by rw [State.fpAddress_done h, State.advance_fma]
  rw [State.fpUnary, h, fpSettle_done, hfma]

/-- FIX's magnitude, the shifts written as a division and a product (R330). -/
theorem fpFixOp_eq (a : Unpacked) :
    fpFixOp a =
      let r := if a.e ≤ 35 then a.m / 2 ^ (35 - a.e).toNat else a.m * 2 ^ (a.e - 35).toNat
      if 2 ^ 35 ≤ r then .error .ovf else .ok ⟨⟨if r = 0 then false else a.s, 35, r⟩, false, none⟩ := by
  have hsign : ∀ r : Nat, (r != 0 && a.s) = if r = 0 then false else a.s := by
    intro r
    by_cases hr : r = 0 <;> simp [hr]
  simp only [fpFixOp, Nat.shiftRight_eq_div_pow, Nat.shiftLeft_eq, hsign]
  rfl

theorem floatAndFix : Clause.FloatAndFix := by
  intro m s t ea h a r
  have hflt : exec (.flt m) s = .next (t.fpFinish m.sgn (fpFloatOp m a)) := by
    rw [← State.fpUnary_done h]
    rfl
  have hfix : exec (.fix m) s = .next (t.fpFinish m.sgn (fpFixOp a)) := by
    rw [← State.fpUnary_done h]
    rfl
  have hfloat : fpFloatOp m a = (normalize m a.s 35 a.m false).map fun u => ⟨u.1, u.2, none⟩ := rfl
  rw [hflt, hfix, hfloat, fpFixOp_eq]
  refine ⟨fun u g hn => ?_, fun k hn => ?_, fun hr => ?_, fun hr => ?_⟩
  · rw [hn]
    rfl
  · rw [hn]
    rfl
  · dsimp only
    rw [if_neg (Nat.not_le.mpr hr)]
    rfl
  · dsimp only
    rw [if_pos hr]
    rfl

/-- A register reads as a zero mantissa when both of its parts are zero (R51). -/
theorem FpReg.unpack_m_eq_zero (r : FpReg) : r.unpack.m = 0 ↔ r.hi = 0 ∧ r.lo = 0 := by
  rw [FpReg.unpack, ← BitVec.toNat_inj, ← BitVec.toNat_inj]
  change r.hi.toNat * 262144 + r.lo.toNat = 0 ↔ r.hi.toNat = 0 ∧ r.lo.toNat = 0
  omega

/-- BR's test as R335 words it. -/
theorem brTest_iff (c : BrConds) (r : FpReg) (guard : Bool) :
    brTest c r.unpack guard = true ↔
      let zero := r.hi = 0 ∧ r.lo = 0
      let cond := (c.zero = true ∧ zero) ∨ (c.positive = true ∧ ¬zero ∧ r.s = false)
        ∨ (c.negative = true ∧ ¬zero ∧ r.s = true) ∨ (c.grd = true ∧ guard = true)
      if c.reverse then ¬cond else cond := by
  have hcond : ((c.zero && r.unpack.m == 0) || (c.positive && r.unpack.m != 0 && !r.unpack.s)
      || (c.negative && r.unpack.m != 0 && r.unpack.s) || (c.grd && guard)) = true ↔
      (c.zero = true ∧ r.unpack.m = 0) ∨ (c.positive = true ∧ ¬r.unpack.m = 0 ∧ r.s = false)
        ∨ (c.negative = true ∧ ¬r.unpack.m = 0 ∧ r.s = true) ∨ (c.grd = true ∧ guard = true) := by
    simp [or_assoc, and_assoc, show r.unpack.s = r.s from rfl]
  rw [← r.unpack_m_eq_zero]
  unfold brTest
  cases c.reverse
  · exact hcond
  · exact (iff_of_eq (Bool.not_eq_true' _)).trans (Bool.eq_false_iff.trans (not_congr hcond))

/-- JEA with its address resolved: the load or the store of the control register (R333). -/
theorem execJea_done {s t : State} {ea : Addr} (h : s.fpAddress = .done ea t) (m : FpMods) :
    exec (.jea m) s = .next (if m.dp then fpSettle (t.fpWrite ea t.jeaWord) fun _ u => u
      else fpSettle (t.fpRead ea) fun w u => u.jeaLoad w) := by
  change Host.Outcome.next (fpSettle s.fpAddress _) = _
  rw [h, fpSettle_done]

/-- BR with its address resolved (R335, R390). -/
theorem execBr_done {s t : State} {ea : Addr} (h : s.fpAddress = .done ea t) (c : BrConds) :
    exec (.br c) s = .next (if brTest c t.fma.unpack t.fguard then { t.pcqPush with pc := ea } else t) := by
  change Host.Outcome.next (fpSettle s.fpAddress _) = _
  rw [h, fpSettle_done]

theorem State.fpRead_ok {s : State} {va pa : Addr} (h : s.translate va .read = .ok pa) :
    s.fpRead va = .done (s.wordAt pa.toNat) s := by
  rw [State.fpRead, h]
  rfl

theorem State.fpWrite_ok {s : State} {va pa : Addr} (h : s.translate va .write = .ok pa) (v : Word) :
    s.fpWrite va v = .done () { s with mem := s.mem.write pa.toNat v } := by
  rw [State.fpWrite, h]

theorem floatingControl : Clause.FloatingControl := by
  intro m c s t ea h
  obtain rfl : t = s.advance := State.fpAddress_done h
  have htest := brTest_iff c s.fma s.fguard
  refine ⟨?_, fun pa hdp htranslate => ?_, fun pa hdp htranslate => ?_, fun htaken => ?_, fun htaken => ?_⟩
  · change Host.Outcome.next (fpSettle s.fpAddress _) = _
    rw [h]
    rfl
  · rw [execJea_done h, hdp, State.fpRead_ok htranslate]
    rfl
  · rw [execJea_done h, hdp, State.fpWrite_ok htranslate]
    rfl
  · rw [execBr_done h, State.advance_fma, State.advance_fguard, htest.mpr htaken]
    rfl
  · rw [execBr_done h, State.advance_fma, State.advance_fguard, Bool.eq_false_iff.mpr (htaken ∘ htest.mp)]
    rfl

/-- Settles O54: each instruction on its resolved address. -/
theorem conversionAndControl : Obligations.ConversionAndControl := ⟨floatAndFix, floatingControl⟩

end Sys2Proof.Machine
end

section
/-! The moves of the device agent and of the host (R39, R365, R366, R375, R402, R404 to R406). -/

namespace Sys2Proof.Machine

/-! ## The move at the head of the list -/

theorem step_agent {s : State} {m : ReqMove} {rest : List Move} (h : s.moves = .agent m :: rest) :
    step s = .next { s with moves := rest, intReq := s.intReq.apply m } := by
  simp only [step, State.nextMove, h]

/-- The host acts on a stopped machine. -/
theorem step_host_stopped {s : State} {a : HostAction} {rest : List Move} {reason : StopReason}
    (hs : s.runState = .stopped reason) (h : s.moves = .host a :: rest) :
    step s = { s with moves := rest }.hostActStopped a := by
  simp only [step, State.nextMove, h, State.hostAct, hs]

/-- The host acts on a running machine (R375, R406). -/
theorem step_host_running {s : State} {a : HostAction} {rest : List Move} (hs : s.runState = .running)
    (h : s.moves = .host a :: rest) :
    step s = if a = .stop then .next { s with moves := rest, runState := .stopped .hostStop }
      else .refused .hostAccessWhileRunning := by
  simp only [step, State.nextMove, h, State.hostAct, hs]
  cases a <;> rfl

/-! ## The agent -/

/-- The mask of one request line. -/
theorem getLsbD_lineMask (k : Nat) {n : Nat} (hn : n < 32) : (1#32 <<< k).getLsbD n = decide (n = k) := by
  rw [BitVec.getLsbD_shiftLeft, BitVec.getLsbD_one, Bool.eq_iff_iff]
  simp only [Bool.and_eq_true, Bool.not_eq_true', decide_eq_true_eq, decide_eq_false_iff_not]
  omega

theorem getLsbD_setLine (v : BitVec 32) (line : BitVec 5) (b : Bool) {n : Nat} (hn : n < 32) :
    (setLine v line b).getLsbD n = if n = line.toNat then b else v.getLsbD n := by
  unfold setLine
  cases b
  · rw [if_neg Bool.false_ne_true, BitVec.getLsbD_and, BitVec.getLsbD_not, getLsbD_lineMask _ hn]
    by_cases hline : n = line.toNat <;> simp [hline, hn]
  · rw [if_pos rfl, BitVec.getLsbD_or, getLsbD_lineMask _ hn]
    by_cases hline : n = line.toNat <;> simp [hline]

theorem agentMovesOneLine : Clause.AgentMovesOneLine := by
  intro s m rest h
  refine ⟨s.intReq.apply m, step_agent h, fun n hn => ?_, ?_⟩
  · obtain ⟨level, line, asserted⟩ := m
    cases level <;> exact getLsbD_setLine _ _ _ hn
  · obtain ⟨level, line, asserted⟩ := m
    cases level <;> simp [RequestLines.apply]

/-! ## The host -/

theorem hostActions : Clause.HostActions := by
  intro s rest
  refine ⟨fun r pa v hs h => ?_, fun r a hs h => step_host_stopped hs h, fun r hs h hvalid => ?_, fun hs h => ?_,
    fun a hs h ha => ?_⟩
  · rw [step_host_stopped hs h, State.hostActStopped, State.hostLoadWord]
  · rw [step_host_stopped hs h, State.hostActStopped, State.hostRun, if_pos hvalid]
    rfl
  · rw [step_host_running hs h, if_pos rfl]
  · rw [step_host_running hs h, if_neg ha]

theorem hostAccess : Clause.HostAccess := by
  intro s reason rest r v pa hs t
  refine ⟨fun h hrun => ?_, fun h => ?_, fun h => ?_, fun h hpa => ?_⟩
  · rw [step_host_stopped hs h, State.hostActStopped, if_neg (by tauto)]
  · rw [step_host_stopped hs h, State.hostActStopped, if_pos ⟨rfl, rfl⟩]
    rfl
  · rw [step_host_stopped hs h]
    cases r <;> rfl
  · rw [step_host_stopped hs h, State.hostActStopped, State.physRead, if_pos hpa]
    rfl

theorem hostBreakpoints : Clause.HostBreakpoints := by
  intro s reason rest a hs
  refine ⟨fun h => ⟨a :: s.breakpoints, step_host_stopped hs h, List.mem_cons_self, fun b hb => ?_⟩,
    fun h => ⟨s.breakpoints.filter (· != a), step_host_stopped hs h, ?_, fun b hb => ?_⟩⟩
  · exact ⟨fun hmem => (List.mem_cons.mp hmem).resolve_left hb, List.mem_cons_of_mem a⟩
  · simp
  · simp [hb]

/-! ## The dispatch table -/

/-- Within the table, the mask's slots are `base` to `base + count - 1` (R366). -/
theorem getLsbD_slotMask {base count n : Nat} (hfit : base + count ≤ 64) (hn : n < 64) :
    (slotMask base count).getLsbD n = decide (base ≤ n ∧ n < base + count) := by
  unfold slotMask
  rw [BitVec.getLsbD_shiftLeft, BitVec.getLsbD_ushiftRight, BitVec.getLsbD_allOnes, Bool.eq_iff_iff]
  simp only [Bool.and_eq_true, Bool.not_eq_true', decide_eq_true_eq, decide_eq_false_iff_not]
  omega

/-- A registration conflicts exactly when one of its slots is taken (R366, R405). -/
theorem devices_conflict_iff {d : BitVec 64} {base count : Nat} (hfit : base + count ≤ 64) :
    d &&& slotMask base count ≠ 0 ↔ ∃ n < 64, (base ≤ n ∧ n < base + count) ∧ d.getLsbD n = true := by
  have hbit : ∀ n < 64, (d &&& slotMask base count).getLsbD n = true ↔
      (base ≤ n ∧ n < base + count) ∧ d.getLsbD n = true := by
    intro n hn
    rw [BitVec.getLsbD_and, getLsbD_slotMask hfit hn, Bool.and_eq_true, decide_eq_true_eq, and_comm]
  constructor
  · intro hne
    by_contra hfree
    refine hne (BitVec.eq_of_getLsbD_eq fun n hn => ?_)
    rw [Bool.eq_false_iff.mpr fun h => hfree ⟨n, hn, (hbit n hn).mp h⟩]
    exact BitVec.getLsbD_zero.symm
  · rintro ⟨n, hn, hslot⟩ hzero
    have hset := (hbit n hn).mpr hslot
    rw [hzero] at hset
    exact Bool.false_ne_true (BitVec.getLsbD_zero.symm.trans hset)

theorem State.registerDevice_conflict {s : State} {base count : Nat}
    (h : 64 < base + count ∨ ∃ n < 64, (base ≤ n ∧ n < base + count) ∧ s.devices.getLsbD n = true) :
    s.registerDevice base count = .fault .deviceSlotConflict := by
  refine if_pos ?_
  by_cases hfit : 64 < base + count
  · exact .inl hfit
  · exact .inr ((devices_conflict_iff (Nat.not_lt.mp hfit)).mpr (h.resolve_left hfit))

theorem State.registerDevice_free {s : State} {base count : Nat}
    (h : ¬(64 < base + count ∨ ∃ n < 64, (base ≤ n ∧ n < base + count) ∧ s.devices.getLsbD n = true)) :
    s.registerDevice base count = .next { s with devices := s.devices ||| slotMask base count } := by
  obtain ⟨hfit, hfree⟩ := not_or.mp h
  exact if_neg (not_or.mpr ⟨hfit, fun hd => hfree ((devices_conflict_iff (Nat.not_lt.mp hfit)).mp hd)⟩)

theorem hostConfigures : Clause.HostConfigures := by
  intro s reason rest base count hs within conflict
  refine ⟨fun h hvalid => ?_, fun h hc => ?_, fun h hfree => ⟨s.devices ||| slotMask base count, ?_, fun n hn => ?_⟩,
    fun h hfit => ⟨_, step_host_stopped hs h, fun n hn => ?_⟩, fun answers h => step_host_stopped hs h,
    fun words h => step_host_stopped hs h⟩
  · rw [step_host_stopped hs h, State.hostActStopped, State.hostRun, if_neg (Bool.eq_false_iff.mp hvalid)]
  · rw [step_host_stopped hs h]
    exact State.registerDevice_conflict hc
  · rw [step_host_stopped hs h]
    exact State.registerDevice_free hfree
  · have hfit : base + count ≤ 64 := Nat.not_lt.mp (not_or.mp hfree).1
    rw [BitVec.getLsbD_or, getLsbD_slotMask hfit hn, Bool.or_comm]
  · rw [BitVec.getLsbD_and, BitVec.getLsbD_not, getLsbD_slotMask hfit hn, decide_eq_true hn, Bool.true_and,
      Bool.and_comm]

/-- Settles O17: each move of the agent and each action of the host, as the head of the moves to come. -/
theorem hostAndAgentMoves : Obligations.HostAndAgentMoves :=
  ⟨agentMovesOneLine, hostActions, hostAccess, hostBreakpoints, hostConfigures⟩

end Sys2Proof.Machine
end

section
/-! Translation on numbers: the bound, the rounded base and the window's choice (R90 to R97). -/

namespace Sys2Proof.Machine

/-- Translation is the scheme's address checked against the installed memory (R90, R97). -/
theorem State.translate_of_schemeAddr {s : State} {va pa : Addr} {k : AccessKind} (h : s.schemeAddr va k = some pa) :
    s.translate va k = if pa.toNat < s.cfg.memSize then .ok pa else .nonExistent := by
  rw [State.translate, h]

theorem State.translate_violation {s : State} {va : Addr} {k : AccessKind} (h : s.schemeAddr va k = none) :
    s.translate va k = .violation := by
  rw [State.translate, h]

/-- Translation under the bounds scheme in user mode (R93). -/
theorem State.translate_bounds {s : State} (hu : s.usmd = true) (hp : s.cfg.protScheme = .bounds) (va : Addr)
    (k : AccessKind) :
    s.translate va k =
      if s.brLimit.toNat < va.toNat then .violation
      else if va.toNat < s.cfg.memSize then .ok va else .nonExistent := by
  have hscheme : s.schemeAddr va k = if s.brLimit.toNat < va.toNat then none else some va := by
    simp only [State.schemeAddr, hu, hp, if_true]
  split
  · next h => exact State.translate_violation (by rw [hscheme, if_pos h])
  · next h => exact State.translate_of_schemeAddr (by rw [hscheme, if_neg h])

/-- The address that relocation gives below the bound (R94). -/
def State.relocated (s : State) (va : Addr) : Addr :=
  (va + (s.rr &&& ~~~(s.cfg.protGranule - 1)).setWidth 17) &&& amask s.cfg

/-- Translation by base and length relocation, wherever the scheme comes to it (R94, R95). -/
theorem State.translate_relocate {s : State} {va : Addr} {k : AccessKind} (h : s.schemeAddr va k = s.relocate va) :
    s.translate va k =
      if s.brLimit.toNat < va.toNat then .violation
      else if (s.relocated va).toNat < s.cfg.memSize then .ok (s.relocated va) else .nonExistent := by
  unfold State.relocate at h
  split
  · next hlim => exact State.translate_violation (by rw [h, if_pos hlim])
  · next hlim => exact State.translate_of_schemeAddr (by rw [h, if_neg hlim]; rfl)

theorem State.schemeAddr_reloc {s : State} (hu : s.usmd = true) (hp : s.cfg.protScheme = .reloc) (va : Addr)
    (k : AccessKind) : s.schemeAddr va k = s.relocate va := by
  simp only [State.schemeAddr, hu, hp, if_true]

theorem State.schemeAddr_xvm {s : State} (hu : s.usmd = true) (hp : s.cfg.protScheme = .xvm) (va : Addr)
    (k : AccessKind) : s.schemeAddr va k = s.xvm va k := by
  simp only [State.schemeAddr, hu, hp, if_true]

theorem passThroughTranslation : Clause.PassThroughTranslation := by
  intro s va k h
  refine State.translate_of_schemeAddr ?_
  unfold State.schemeAddr
  split
  · next hu =>
    have hp : s.cfg.protScheme = .none := h.resolve_left (by simp [hu])
    simp only [hp]
  · rfl

/-! ## The granule -/

/-- One less than a granule of `2 ^ g` words is a mask of low bits. -/
theorem granuleMask_toNat {g : Nat} (hg : g < 18) : (1#18 <<< g - 1).toNat = 2 ^ g - 1 := by
  have hpow : 2 ^ g < 2 ^ 18 := Nat.pow_lt_pow_right (by decide) hg
  have hone : (1#18 <<< g).toNat = 2 ^ g := by
    rw [BitVec.toNat_shiftLeft, BitVec.toNat_ofNat, Nat.one_mod_two_pow_eq_one.mpr (by decide), Nat.shiftLeft_eq, Nat.one_mul,
      Nat.mod_eq_of_lt hpow]
  have hle : (1 : Word) ≤ 1#18 <<< g := by
    rw [BitVec.le_def, hone]
    exact Nat.one_le_two_pow
  rw [BitVec.toNat_sub_of_le hle, hone]
  rfl

/-- `BRlim` is the last word of BR's granule (R93). -/
theorem State.brLimit_toNat {s : State} {g : Nat} (hg : g < 18) (hgran : s.cfg.protGranule = 1#18 <<< g) :
    s.brLimit.toNat = s.br.toNat / 2 ^ g * 2 ^ g + (2 ^ g - 1) := by
  have hmask := granuleMask_toNat hg
  have hlow : 2 ^ g - 1 < 2 ^ g := Nat.sub_lt (Nat.two_pow_pos g) Nat.one_pos
  rw [State.brLimit, hgran, BitVec.toNat_or, toNat_and_not_lowMask _ hmask, hmask, Nat.mul_comm,
    Nat.two_pow_add_eq_or_of_lt hlow]

/-- Relocation adds RR rounded down to the granule (R94). -/
theorem State.relocated_eq {s : State} {g : Nat} (hg : g < 18) (hgran : s.cfg.protGranule = 1#18 <<< g) (va : Addr) :
    s.relocated va = BitVec.ofNat 17 (va.toNat + s.rr.toNat / 2 ^ g * 2 ^ g) &&& amask s.cfg := by
  have hsum : va + (s.rr &&& ~~~(1#18 <<< g - 1)).setWidth 17 =
      BitVec.ofNat 17 (va.toNat + s.rr.toNat / 2 ^ g * 2 ^ g) := by
    refine BitVec.eq_of_toNat_eq ?_
    rw [BitVec.toNat_add, BitVec.toNat_setWidth, toNat_and_not_lowMask _ (granuleMask_toNat hg), Nat.add_mod_mod,
      BitVec.toNat_ofNat]
  rw [State.relocated, hgran, hsum]

theorem boundsAndRelocation : Clause.BoundsAndRelocation := by
  intro s va k g hg hgran hu brLim moved
  have hlim : s.brLimit.toNat = brLim := State.brLimit_toNat hg hgran
  have hmoved : s.relocated va = moved := State.relocated_eq hg hgran va
  refine ⟨fun hp => ?_, fun hp => ?_⟩
  · rw [State.translate_bounds hu hp, hlim]
  · rw [State.translate_relocate (State.schemeAddr_reloc hu hp va k), hlim, hmoved]

/-! ## The shared window -/

/-- The window's entry is chosen by MMR<7> and MMR<8> (R49, R95). -/
theorem State.window_eq (s : State) :
    s.window = if s.mmr.getMsbD 7 then if s.mmr.getMsbD 8 then s.cfg.xvmTable.w3 else s.cfg.xvmTable.w2
      else if s.mmr.getMsbD 8 then s.cfg.xvmTable.w1 else s.cfg.xvmTable.w0 := by
  have hfield : s.mmr.extractLsb' 9 2 = BitVec.ofBool (s.mmr.getMsbD 7) ++ BitVec.ofBool (s.mmr.getMsbD 8) := by
    change s.mmr.extractLsb' 9 (1 + 1) = _
    ext i hi
    rw [BitVec.getElem_append]
    obtain rfl | rfl : i = 0 ∨ i = 1 := by omega
    · simp [BitVec.getMsbD]
    · simp [BitVec.getMsbD]
  unfold State.window
  rw [hfield]
  cases s.mmr.getMsbD 7 <;> cases s.mmr.getMsbD 8 <;> rfl

theorem State.inWindow_iff (s : State) (va : Addr) :
    s.inWindow va = true ↔
      s.mmr.getMsbD 6 = true ∧ s.window.vstart ≤ va.toNat ∧ va.toNat < s.window.vstart + s.window.length := by
  simp only [State.inWindow, State.windowOn, Bool.and_eq_true, decide_eq_true_eq, and_assoc]

theorem xvmTranslation : Clause.XvmTranslation := by
  intro s va k hu hp w inside shared installed
  have hw : s.window = w := s.window_eq
  have hin : s.inWindow va = true ↔ inside := by rw [s.inWindow_iff, hw]
  have hscheme := State.schemeAddr_xvm hu hp va k
  refine ⟨fun hbypass => ?_, fun hmapped hinside => ?_, fun hmapped houtside => ?_⟩
  · exact State.translate_of_schemeAddr (by rw [hscheme, State.xvm, State.rdis, if_pos hbypass])
  · rw [State.xvm, State.rdis, hmapped, if_neg Bool.false_ne_true, if_pos (hin.mpr hinside), hw,
      State.windowProtected] at hscheme
    split
    · next hprot => exact State.translate_violation (by rw [hscheme, if_pos hprot])
    · next hopen => exact State.translate_of_schemeAddr (by rw [hscheme, if_neg hopen])
  · rw [State.xvm, State.rdis, hmapped, if_neg Bool.false_ne_true, if_neg (houtside ∘ hin.mp)] at hscheme
    have hreloc := State.schemeAddr_reloc (s := { s with cfg := { s.cfg with protScheme := .reloc } }) hu rfl va k
    exact (State.translate_relocate hscheme).trans (State.translate_relocate hreloc).symm

/-- Settles O19: the scheme's address, then the check against the installed memory. -/
theorem addressTranslation : Obligations.AddressTranslation :=
  ⟨passThroughTranslation, boundsAndRelocation, xvmTranslation⟩

end Sys2Proof.Machine
end

section
/-! One equation for each answer of translation that an access of the processor or of the FP15 meets (R97, R98, R346). -/

namespace Sys2Proof.Machine

theorem State.nxmTraps_iff (s : State) : s.nxmTraps = true ↔ s.usmd = true ∨ s.cfg.execNxmTraps = true := by
  rw [State.nxmTraps, Bool.or_eq_true]

theorem State.nxmTraps_eq_false_iff (s : State) : s.nxmTraps = false ↔ s.usmd = false ∧ s.cfg.execNxmTraps = false := by
  rw [State.nxmTraps, Bool.or_eq_false_iff]

/-- Where non-existent memory does not trap the machine is in executive mode, and translation asks nothing of the kind of the
access (R91, R97). -/
theorem State.translate_kind {s : State} (h : s.usmd = false) (va : Addr) (k k' : AccessKind) :
    s.translate va k = s.translate va k' := by
  rw [passThroughTranslation s va k (.inl h), passThroughTranslation s va k' (.inl h)]

/-! ## The processor's reads and writes -/

theorem State.cpuRead_ok {s : State} {va pa : Addr} {k : AccessKind} (h : s.translate va k = .ok pa) :
    s.cpuRead va k = .done (s.wordAt pa.toNat) s := by
  rw [State.cpuRead, h]
  rfl

theorem State.cpuRead_violation {s : State} {va : Addr} {k : AccessKind} (h : s.translate va k = .violation) :
    s.cpuRead va k = .abandoned { s with prvn := true, trapPending := true } := by
  rw [State.cpuRead, h]
  rfl

theorem State.cpuRead_nonExistent_traps {s : State} {va : Addr} {k : AccessKind} (h : s.translate va k = .nonExistent)
    (ht : s.nxmTraps = true) : s.cpuRead va k = .abandoned { s with nexm := true, trapPending := true } := by
  rw [← State.nonExistent_of_traps ht, State.cpuRead, h]
  exact if_pos ht

theorem State.cpuRead_nonExistent {s : State} {va : Addr} {k : AccessKind} (h : s.translate va k = .nonExistent)
    (ht : s.nxmTraps = false) : s.cpuRead va k = .done s.cfg.faultReadValue { s with nexm := true } := by
  rw [← State.nonExistent_of_not_traps ht, State.cpuRead, h]
  exact if_neg (Bool.eq_false_iff.mp ht)

theorem State.cpuWrite_ok {s : State} {va pa : Addr} (h : s.translate va .write = .ok pa) (v : Word) :
    s.cpuWrite va v = .done () { s with mem := s.mem.write pa.toNat v } := by
  rw [State.cpuWrite, h]

theorem State.cpuWrite_violation {s : State} {va : Addr} (h : s.translate va .write = .violation) (v : Word) :
    s.cpuWrite va v = .abandoned { s with prvn := true, trapPending := true } := by
  rw [State.cpuWrite, h]
  rfl

theorem State.cpuWrite_nonExistent_traps {s : State} {va : Addr} (h : s.translate va .write = .nonExistent)
    (ht : s.nxmTraps = true) (v : Word) : s.cpuWrite va v = .abandoned { s with nexm := true, trapPending := true } := by
  rw [← State.nonExistent_of_traps ht, State.cpuWrite, h]
  exact if_pos ht

theorem State.cpuWrite_nonExistent {s : State} {va : Addr} (h : s.translate va .write = .nonExistent)
    (ht : s.nxmTraps = false) (v : Word) : s.cpuWrite va v = .done () { s with nexm := true } := by
  rw [← State.nonExistent_of_not_traps ht, State.cpuWrite, h]
  exact if_neg (Bool.eq_false_iff.mp ht)

/-! ## The FP15's -/

theorem State.fpRead_fault {s : State} {va : Addr} {f : Translation} (hf : f = .violation ∨ f = .nonExistent)
    (h : s.translate va .read = f) : s.fpRead va = .abandoned (s.fpFault f) := by
  rw [State.fpRead, h]
  rcases hf with rfl | rfl <;> rfl

theorem State.fpWrite_fault {s : State} {va : Addr} {f : Translation} (hf : f = .violation ∨ f = .nonExistent)
    (h : s.translate va .write = f) (v : Word) : s.fpWrite va v = .abandoned (s.fpFault f) := by
  rw [State.fpWrite, h]
  rcases hf with rfl | rfl <;> rfl

end Sys2Proof.Machine
end

section
/-! The effective address of a memory reference as the rules word it (R84 to R89): the addressing in force, the direct address,
the auto-index window, and where a pointer leads. -/

namespace Sys2Proof.Machine

/-! ## The addressing in force -/

/-- Bank addressing: every variant but VD, and VD with memm 1 (R85, R87). -/
theorem State.bankMode_iff (s : State) : s.bankMode = true ↔ s.cfg.variant ≠ .VD ∨ s.memm = true := by
  simp [State.bankMode, Cfg.hasPageMode]

/-- A pointer reaches its block: memm 1, and never on VA (R86). -/
theorem State.extendActive_iff (s : State) : s.extendActive = true ↔ s.cfg.variant ≠ .VA ∧ s.memm = true := by
  simp [State.extendActive]

/-! ## The direct address and the window -/

/-- The low twelve bits of the address field, cut out or masked. -/
theorem pageOffset_eq (y : BitVec 13) : (y.extractLsb' 0 12).setWidth 17 = (y &&& 0o07777).setWidth 17 := by
  refine BitVec.eq_of_toNat_eq ?_
  rw [BitVec.toNat_setWidth, BitVec.toNat_setWidth, BitVec.extractLsb'_toNat, Nat.shiftRight_zero,
    toNat_and_lowMask (n := 12) y (by decide)]

theorem State.directAddr_eq (s : State) (base : Addr) (ind : Bool) (y : BitVec 13) :
    s.directAddr base ⟨ind, y⟩ =
      if s.cfg.variant ≠ .VD ∨ s.memm = true then (base &&& ~~~0o17777 &&& amask s.cfg) ||| y.setWidth 17
      else (base &&& ~~~0o7777 &&& amask s.cfg) ||| (y &&& 0o07777).setWidth 17 := by
  simp only [State.directAddr, State.bankMode_iff, pageOffset_eq, fldMask, pageMask]

/-- The window is the offsets 0o10 to 0o17 of the field or the page (R89). -/
theorem State.autoIndex_iff (s : State) (d : Addr) :
    s.autoIndex d = true ↔
      let off : Addr := if s.cfg.variant ≠ .VD ∨ s.memm = true then d &&& 0o17777 else d &&& 0o7777
      0o10 ≤ off ∧ off ≤ 0o17 := by
  simp only [State.autoIndex, State.bankMode_iff, Bool.and_eq_true, decide_eq_true_eq, BitVec.le_def]
  rfl

theorem State.autoIndex_eq_false_iff (s : State) (d : Addr) :
    s.autoIndex d = false ↔
      let off : Addr := if s.cfg.variant ≠ .VD ∨ s.memm = true then d &&& 0o17777 else d &&& 0o7777
      off < 0o10 ∨ 0o17 < off := by
  rw [← Bool.not_eq_true, s.autoIndex_iff]
  simp only [not_and_or, BitVec.not_le]

/-- The pointer lies in field zero, or where the direct address says (R89). -/
theorem State.autoLoc_eq (s : State) (d : Addr) :
    s.autoLoc d = if s.cfg.autoIndexScope = .fieldZero then d &&& 0o17 else d := by
  unfold State.autoLoc
  cases s.cfg.autoIndexScope <;> rfl

/-! ## Where a pointer leads -/

/-- The reach of a pointer, with the index (R86, R88): in bank addressing its field, or the block where extend or bank mode is
on; in page addressing what the reference's own form gives, XR then added where IR<5> asks for it. -/
theorem State.indexed_indirectAddr (s : State) (ind : Bool) (y : BitVec 13) (base d : Addr) (ptr : Word) :
    s.indexed ⟨ind, y⟩ (s.indirectAddr base d ptr) =
      let block : Addr := (base &&& ~~~blkMask s.cfg &&& amask s.cfg) ||| (ptr.setWidth 17 &&& 0o77777)
      let field : Addr := (base &&& ~~~0o17777 &&& amask s.cfg) ||| (ptr.setWidth 17 &&& 0o17777)
      let paged : Addr := if s.autoIndex d then ptr.setWidth 17 &&& amask s.cfg else block
      if s.cfg.variant ≠ .VD ∨ s.memm = true then if s.cfg.variant ≠ .VA ∧ s.memm = true then block else field
      else if y.getMsbD 0 then (paged + s.xr.setWidth 17) &&& amask s.cfg else paged := by
  by_cases hbank : s.cfg.variant ≠ .VD ∨ s.memm = true
  · have hb : s.bankMode = true := s.bankMode_iff.mpr hbank
    simp only [State.indexed, State.indirectAddr, hb, hbank, s.extendActive_iff, Bool.not_true, Bool.false_and,
      Bool.false_eq_true, if_true, if_false, fldMask]
  · have hb : s.bankMode = false := Bool.eq_false_iff.mpr (hbank ∘ s.bankMode_iff.mp)
    simp only [State.indexed, State.indirectAddr, hb, hbank, Bool.not_false, Bool.true_and, Bool.false_eq_true, if_false,
      wordAddr]

/-! ## Resolution -/

theorem State.resolve_direct (s : State) (y : BitVec 13) :
    s.resolve ⟨false, y⟩ = .done ⟨s.indexed ⟨false, y⟩ (s.directAddr s.pc ⟨false, y⟩), 0⟩ s := rfl

/-- An indirect reference is its pointer, and then the address that the pointer gives (R86, R88). -/
theorem State.resolve_indirect (s : State) (y : BitVec 13) :
    s.resolve ⟨true, y⟩ = (s.pointer (s.directAddr s.pc ⟨true, y⟩)).andThen fun ptr t =>
      .done ⟨s.indexed ⟨true, y⟩ (s.indirectAddr s.pc (s.directAddr s.pc ⟨true, y⟩) ptr), ptr⟩ t := rfl

theorem State.resolve_of_pointer_done {s t : State} {y : BitVec 13} {ptr : Word}
    (h : s.pointer (s.directAddr s.pc ⟨true, y⟩) = .done ptr t) :
    s.resolve ⟨true, y⟩ =
      .done ⟨s.indexed ⟨true, y⟩ (s.indirectAddr s.pc (s.directAddr s.pc ⟨true, y⟩) ptr), ptr⟩ t := by
  rw [State.resolve_indirect, h, Access.andThen_done]

theorem State.resolve_of_pointer_abandoned {s t : State} {y : BitVec 13}
    (h : s.pointer (s.directAddr s.pc ⟨true, y⟩) = .abandoned t) : s.resolve ⟨true, y⟩ = .abandoned t := by
  rw [State.resolve_indirect, h, Access.andThen_abandoned]

/-- Outside the window the pointer is read where it stands (R86, R88). -/
theorem State.pointer_outside {s : State} {d : Addr} (h : s.autoIndex d = false) : s.pointer d = s.cpuRead d .read := by
  rw [State.pointer, h]
  rfl

/-- In the window it is read, incremented and written back (R89). -/
theorem State.pointer_window {s : State} {d : Addr} (h : s.autoIndex d = true) :
    s.pointer d = (s.cpuRead (s.autoLoc d) .read).andThen fun v t =>
      (t.cpuWrite (s.autoLoc d) (v + 1)).andThen fun _ u => .done (v + 1) u := by
  rw [State.pointer, h]
  rfl

theorem directReferenceAddress : Clause.DirectReferenceAddress := by
  intro s y
  refine ⟨fun hbank => ?_, fun hvd hmemm => ?_⟩
  · have hb : s.bankMode = true := s.bankMode_iff.mpr hbank
    rw [State.resolve_direct, State.directAddr_eq, if_pos hbank]
    simp only [State.indexed, hb, Bool.not_true, Bool.false_and, Bool.false_eq_true, if_false]
  · have hpage : ¬(s.cfg.variant ≠ .VD ∨ s.memm = true) := by simp [hvd, hmemm]
    have hb : s.bankMode = false := Bool.eq_false_iff.mpr (hpage ∘ s.bankMode_iff.mp)
    rw [State.resolve_direct, State.directAddr_eq, if_neg hpage]
    simp only [State.indexed, hb, Bool.not_false, Bool.true_and]

theorem indirectReferenceAddress : Clause.IndirectReferenceAddress := by
  intro s y pa bank d off hoff hread ptr block field ea
  have hd : s.directAddr s.pc ⟨true, y⟩ = d := s.directAddr_eq _ _ _
  have hauto : s.autoIndex d = false := (s.autoIndex_eq_false_iff d).mpr hoff
  have hptr : s.pointer (s.directAddr s.pc ⟨true, y⟩) = .done ptr s := by
    rw [hd, State.pointer_outside hauto, State.cpuRead_ok hread]
  rw [State.resolve_of_pointer_done hptr, State.indexed_indirectAddr, hd, hauto]
  rfl

/-- Settles O21: the direct address, and the address that a pointer outside the window gives. -/
theorem referenceAddress : Obligations.ReferenceAddress := ⟨directReferenceAddress, indirectReferenceAddress⟩

/-- Settles O22: the pointer is read, written back incremented, and used. -/
theorem autoIndexedReference : Obligations.AutoIndexedReference := by
  intro s y pr pw bank d off loc hlow hhigh hread hwrite ptr block field full ea
  have hd : s.directAddr s.pc ⟨true, y⟩ = d := s.directAddr_eq _ _ _
  have hloc : s.autoLoc d = loc := s.autoLoc_eq d
  have hauto : s.autoIndex d = true := (s.autoIndex_iff d).mpr ⟨hlow, hhigh⟩
  have hptr : s.pointer (s.directAddr s.pc ⟨true, y⟩) = .done ptr { s with mem := s.mem.write pw.toNat ptr } := by
    rw [hd, State.pointer_window hauto, hloc, State.cpuRead_ok hread, Access.andThen_done, State.cpuWrite_ok hwrite,
      Access.andThen_done]
  refine ⟨?_, ?_⟩
  · simp only [State.autoCell, hd, hauto, hloc, hwrite, Bool.and_self, if_true]
  · rw [State.resolve_of_pointer_done hptr, State.indexed_indirectAddr, hd, hauto]
    rfl

end Sys2Proof.Machine
end

section
/-! What a Fault of the pointer or of the operand does to a memory reference (R86, R88, R89, R97, R98, R172, R178, R180). -/

namespace Sys2Proof.Machine

/-! ## The pointer -/

theorem faultedPointer : Clause.FaultedPointer := by
  intro s y bank d off traps ptr block field ea hoff
  have hd : s.directAddr s.pc ⟨true, y⟩ = d := s.directAddr_eq _ _ _
  have hauto : s.autoIndex d = false := (s.autoIndex_eq_false_iff d).mpr hoff
  have hptr : s.pointer (s.directAddr s.pc ⟨true, y⟩) = s.cpuRead d .read := by rw [hd, State.pointer_outside hauto]
  refine ⟨fun hread => ?_, fun hread htraps => ?_, fun hread htraps => ?_⟩
  · exact State.resolve_of_pointer_abandoned (hptr.trans (State.cpuRead_violation hread))
  · exact State.resolve_of_pointer_abandoned
      (hptr.trans (State.cpuRead_nonExistent_traps hread (s.nxmTraps_iff.mpr htraps)))
  · have hnot : s.nxmTraps = false := Bool.eq_false_iff.mpr (htraps ∘ s.nxmTraps_iff.mp)
    rw [State.resolve_of_pointer_done (hptr.trans (State.cpuRead_nonExistent hread hnot)), State.indexed_indirectAddr, hd,
      hauto]
    rfl

theorem faultedAutoPointer : Clause.FaultedAutoPointer := by
  intro s y bank d off loc traps ptr block field full ea hlow hhigh
  have hd : s.directAddr s.pc ⟨true, y⟩ = d := s.directAddr_eq _ _ _
  have hloc : s.autoLoc d = loc := s.autoLoc_eq d
  have hauto : s.autoIndex d = true := (s.autoIndex_iff d).mpr ⟨hlow, hhigh⟩
  have hptr : s.pointer (s.directAddr s.pc ⟨true, y⟩) = (s.cpuRead loc .read).andThen fun v t =>
      (t.cpuWrite loc (v + 1)).andThen fun _ u => .done (v + 1) u := by rw [hd, State.pointer_window hauto, hloc]
  refine ⟨fun hread => ?_, fun hread htraps => ?_, fun pr hread hwrite => ?_, fun hread htraps => ?_⟩
  · refine State.resolve_of_pointer_abandoned (hptr.trans ?_)
    rw [State.cpuRead_violation hread, Access.andThen_abandoned]
  · refine State.resolve_of_pointer_abandoned (hptr.trans ?_)
    rw [State.cpuRead_nonExistent_traps hread (s.nxmTraps_iff.mpr htraps), Access.andThen_abandoned]
  · refine State.resolve_of_pointer_abandoned (hptr.trans ?_)
    rw [State.cpuRead_ok hread, Access.andThen_done, State.cpuWrite_violation hwrite, Access.andThen_abandoned]
  · have hnot : s.nxmTraps = false := Bool.eq_false_iff.mpr (htraps ∘ s.nxmTraps_iff.mp)
    have hexec : s.usmd = false := (s.nxmTraps_eq_false_iff.mp hnot).1
    have hwrite : ({ s with nexm := true } : State).translate loc .write = .nonExistent :=
      (State.translate_kind hexec loc .write .read).trans hread
    have hdone : s.pointer (s.directAddr s.pc ⟨true, y⟩) = .done ptr { s with nexm := true } := by
      rw [hptr, State.cpuRead_nonExistent hread hnot, Access.andThen_done, State.cpuWrite_nonExistent hwrite hnot,
        Access.andThen_done]
    rw [State.resolve_of_pointer_done hdone, State.indexed_indirectAddr, hd, hauto]
    rfl

/-! ## The stores and the jumps as their accesses -/

theorem exec_dac (m : MemOperand) (s : State) : exec (.dac m) s = .next ((s.storeOperand m s.ac).finish fun _ t => t) := rfl

theorem exec_dzm (m : MemOperand) (s : State) : exec (.dzm m) s = .next ((s.storeOperand m 0).finish fun _ t => t) := rfl

theorem exec_jms (m : MemOperand) (s : State) :
    exec (.jms m) s = .next ((s.resolve m).finish fun r t => t.jumpSubroutine r.ea t.retWord) := rfl

theorem exec_isz (m : MemOperand) (s : State) :
    exec (.isz m) s = .next (((s.resolve m).andThen fun r s1 =>
      (s1.cpuRead r.ea .read).andThen fun v s2 =>
        (s2.cpuWrite r.ea (v + 1)).andThen fun _ s3 => .done (v + 1) s3).finish fun v t => t.skipIf (v == 0)) := rfl

/-! ## An abandoned access ends the instruction -/

/-- Every instruction that reads its operand ends where that read, or the address before it, is abandoned (R98). -/
theorem exec_of_loadOperand_abandoned {s t : State} {m : MemOperand} (h : s.loadOperand m = .abandoned t) :
    ∀ i ∈ [Instr.lac m, .xor m, .and m, .add m, .tad m, .sad m, .xct m, .isz m], exec i s = .next t := by
  have hload : ∀ f : Word → State → State,
      .next ((s.loadOperand m).finish f) = (.next t : Host.Outcome State Fault Refusal) := by
    intro f
    rw [h, Access.finish_abandoned]
  have hisz : exec (.isz m) s = .next t := by
    unfold State.loadOperand at h
    rw [exec_isz]
    cases hr : s.resolve m with
    | abandoned u =>
      rw [hr, Access.andThen_abandoned] at h
      rw [Access.andThen_abandoned, Access.finish_abandoned]
      cases h
      rfl
    | done r u =>
      rw [hr, Access.andThen_done] at h
      rw [Access.andThen_done, h, Access.andThen_abandoned, Access.finish_abandoned]
  simp only [List.forall_mem_cons]
  exact ⟨hload _, hload _, hload _, hload _, hload _, hload _, execXct_abandoned h, hisz,
    fun _ hi => absurd hi List.not_mem_nil⟩

/-- So does every instruction that writes it (R98, R172). -/
theorem exec_of_write_abandoned {s t u : State} {m : MemOperand} {r : Resolved} (h : s.resolve m = .done r t)
    (hwrite : ∀ v, t.cpuWrite r.ea v = .abandoned u) :
    ∀ i ∈ [Instr.dac m, .dzm m, .jms m], exec i s = .next u := by
  have hstore : ∀ v, s.storeOperand m v = .abandoned u := fun v => (State.storeOperand_of_resolve h v).trans (hwrite v)
  have hjms : exec (.jms m) s = .next u := by
    rw [exec_jms, h, Access.finish_done, State.jumpSubroutine, hwrite, Access.finish_abandoned]
  simp only [List.forall_mem_cons]
  refine ⟨?_, ?_, hjms, fun _ hi => absurd hi List.not_mem_nil⟩
  · rw [exec_dac, hstore, Access.finish_abandoned]
  · rw [exec_dzm, hstore, Access.finish_abandoned]

/-- And every instruction whose address is not resolved (R98). -/
theorem exec_of_resolve_abandoned {s t : State} {m : MemOperand} (h : s.resolve m = .abandoned t) :
    ∀ i ∈ [Instr.dac m, .jms m, .dzm m, .lac m, .xor m, .add m, .tad m, .xct m, .isz m, .and m, .sad m, .jmp m],
      exec i s = .next t := by
  have hload : s.loadOperand m = .abandoned t := by rw [State.loadOperand, h, Access.andThen_abandoned]
  have hloads := exec_of_loadOperand_abandoned hload
  have hstore : ∀ v, .next ((s.storeOperand m v).finish fun _ t => t) = (.next t : Host.Outcome State Fault Refusal) := by
    intro v
    rw [State.storeOperand, h, Access.andThen_abandoned, Access.finish_abandoned]
  have hresolve : ∀ f : Resolved → State → State,
      .next ((s.resolve m).finish f) = (.next t : Host.Outcome State Fault Refusal) := by
    intro f
    rw [h, Access.finish_abandoned]
  simp only [List.forall_mem_cons] at hloads ⊢
  obtain ⟨hlac, hxor, hand, hadd, htad, hsad, hxct, hisz, hnone⟩ := hloads
  exact ⟨hstore _, hresolve _, hstore _, hlac, hxor, hadd, htad, hxct, hisz, hand, hsad, hresolve _, hnone⟩

/-- ISZ reads, and then writes the word incremented (R180). -/
theorem execIsz_of_read {s t u : State} {m : MemOperand} {r : Resolved} {v : Word} (h : s.resolve m = .done r t)
    (hread : t.cpuRead r.ea .read = .done v u) :
    exec (.isz m) s = .next ((u.cpuWrite r.ea (v + 1)).finish fun _ w => w.skipIf (v + 1 == 0)) := by
  rw [exec_isz, h, Access.andThen_done, hread, Access.andThen_done]
  cases u.cpuWrite r.ea (v + 1) <;> rfl

theorem trappingFaults : Clause.TrappingFaults := by
  intro m s t r traps
  refine ⟨exec_of_resolve_abandoned, fun h => ?_⟩
  have hload := State.loadOperand_of_resolve h
  have htraps : traps → t.nxmTraps = true := by
    obtain ⟨_, _, _, _, rfl⟩ := State.resolve_done_frame h
    exact s.nxmTraps_iff.mpr
  refine ⟨fun i hi => ⟨fun hread => ?_, fun hread hyes => ?_⟩, fun i hi => ⟨fun hwrite => ?_, fun hwrite hyes => ?_⟩,
    fun pa hread hwrite => ?_⟩
  · exact exec_of_loadOperand_abandoned (hload.trans (State.cpuRead_violation hread)) i hi
  · exact exec_of_loadOperand_abandoned (hload.trans (State.cpuRead_nonExistent_traps hread (htraps hyes))) i hi
  · exact exec_of_write_abandoned h (State.cpuWrite_violation hwrite) i hi
  · exact exec_of_write_abandoned h (State.cpuWrite_nonExistent_traps hwrite (htraps hyes)) i hi
  · rw [execIsz_of_read h (State.cpuRead_ok hread), State.cpuWrite_violation hwrite, Access.finish_abandoned]

/-! ## Non-existent memory that does not trap -/

/-- A word joined to another, as a number. -/
theorem toNat_append_eq_add {k n : Nat} (x : BitVec k) (y : BitVec n) : (x ++ y).toNat = x.toNat * 2 ^ n + y.toNat := by
  rw [BitVec.toNat_append, ← Nat.shiftLeft_add_eq_or_of_lt y.isLt, Nat.shiftLeft_eq]

theorem lacWord_toNat (x : BitVec 19) : (lacWord x).toNat = x.toNat % 2 ^ 18 := by
  rw [lacWord, BitVec.extractLsb'_toNat, Nat.shiftRight_zero]

theorem lacLink_eq (x : BitVec 19) : lacLink x = (x.toNat / 2 ^ 18 % 2 == 1) := by
  rw [lacLink, BitVec.getMsbD_eq_getLsbD, ← BitVec.testBit_toNat, Nat.testBit_eq_decide_div_mod_eq]
  rfl

theorem tadSum_toNat (l : Bool) (a v : Word) :
    (tadSum (BitVec.ofBool l ++ a) v).toNat = (l.toNat * 2 ^ 18 + (a.toNat + v.toNat)) % 2 ^ 19 := by
  rw [tadSum, BitVec.toNat_add, toNat_append_eq_add, BitVec.toNat_ofBool, BitVec.toNat_setWidth,
    Nat.mod_eq_of_lt (v.isLt.trans (by decide)), Nat.add_assoc]

/-- TAD's sum split into its word and its carry (R177). -/
theorem tadSum_eq (l : Bool) (a v : Word) :
    let two := l.toNat * 2 ^ 18 + (a.toNat + v.toNat)
    lacWord (tadSum (BitVec.ofBool l ++ a) v) = BitVec.ofNat 18 two
      ∧ lacLink (tadSum (BitVec.ofBool l ++ a) v) = (two / 2 ^ 18 % 2 == 1) := by
  intro two
  have hword : ∀ n : Nat, n % 2 ^ 19 % 2 ^ 18 = n % 2 ^ 18 := by omega
  have hcarry : ∀ n : Nat, n % 2 ^ 19 / 2 ^ 18 % 2 = n / 2 ^ 18 % 2 := by omega
  refine ⟨BitVec.eq_of_toNat_eq ?_, ?_⟩
  · rw [lacWord_toNat, tadSum_toNat, hword, BitVec.toNat_ofNat]
  · rw [lacLink_eq, tadSum_toNat, hcarry]

/-- ISZ skips when the word was all ones (R180). -/
theorem word_succ_eq_zero_iff (v : Word) : v + 1 = 0 ↔ v = 0o777777 := by
  rw [show (0 : Word) = 0o777777 + 1 from rfl, BitVec.add_left_inj]

/-- XCT of an operand that some access gave (R145, R178, log entries 15 and 30). -/
theorem execXct_of_loadOperand_done {s u : State} {m : MemOperand} {v : Word} (h : s.loadOperand m = .done v u) :
    let deeper := { u with xctDepth := s.xctDepth + 1, ir := v }
    (s.xctDepth < s.cfg.xctMax →
      (∀ i, decode s.cfg v = .ok i → ∃ w, exec (.xct m) s = .next w ∧ exec i deeper = .next w)
      ∧ ∀ e, decode s.cfg v = .error e →
        exec (.xct m) s = .next (match s.cfg.unimplPolicy with
          | .stop => { deeper with runState := .stopped .unimplemented }
          | .nop => deeper))
    ∧ (s.cfg.xctMax ≤ s.xctDepth →
      exec (.xct m) s = .next { u with xctDepth := s.xctDepth + 1, runState := .stopped .xctLimit }) := by
  intro deeper
  have hframe : s.accessFrame u := Access.done_state h ▸ s.loadOperand_frame m
  have hcfg : deeper.cfg = s.cfg := by
    obtain ⟨_, _, _, _, rfl⟩ := hframe
    rfl
  refine ⟨fun hdepth => ⟨fun i hdecode => ?_, fun e hdecode => ?_⟩, fun hdepth => ?_⟩
  · obtain ⟨w, hw, -⟩ := exec_answers i deeper
    exact ⟨w, (execXct_done h hdepth).trans ((executeWord_ok (hcfg ▸ hdecode)).trans hw), hw⟩
  · rw [← hcfg] at hdecode ⊢
    exact (execXct_done h hdepth).trans (executeWord_error hdecode)
  · refine (execXct_limit h hdepth).trans ?_
    obtain ⟨_, _, _, _, rfl⟩ := hframe
    rfl

/-- What the loading references do with an operand, whatever access gave it (R174 to R181). -/
theorem exec_of_loadOperand_done {s u : State} {m : MemOperand} {v : Word} (h : s.loadOperand m = .done v u) :
    let sum := s.ac.toNat + v.toNat
    let ones : Word := BitVec.ofNat 18 (if 0o777777 < sum then sum + 1 else sum)
    let two := s.l.toNat * 2 ^ 18 + sum
    exec (.lac m) s = .next { u with ac := v }
    ∧ exec (.xor m) s = .next { u with ac := s.ac ^^^ v }
    ∧ exec (.and m) s = .next { u with ac := s.ac &&& v }
    ∧ exec (.sad m) s = .next { u with pc := if s.ac ≠ v then incPC s.cfg s.pc else s.pc }
    ∧ exec (.add m) s = .next
      { u with ac := ones, l := s.l || (s.ac.getMsbD 0 == v.getMsbD 0 && ones.getMsbD 0 != s.ac.getMsbD 0) }
    ∧ exec (.tad m) s = .next { u with ac := BitVec.ofNat 18 two, l := two / 2 ^ 18 % 2 == 1 } := by
  intro sum ones two
  have hexec : ∀ f : Word → State → State,
      .next ((s.loadOperand m).finish f) = (.next (f v u) : Host.Outcome State Fault Refusal) := by
    intro f
    rw [h, Access.finish_done]
  obtain ⟨_, _, _, _, rfl⟩ := (Access.done_state h ▸ s.loadOperand_frame m : s.accessFrame u)
  obtain ⟨hword, hlink⟩ := tadSum_eq s.l s.ac v
  refine ⟨hexec _, hexec _, hexec _, (hexec _).trans ?_, hexec _, (hexec _).trans ?_⟩
  · simp only [State.skipIf, bne_iff_ne]
  · rw [← hword, ← hlink]
    rfl

theorem flaggedFaults : Clause.FlaggedFaults := by
  intro m s t r h husmd htraps v u sum ones two deeper
  have hframe := State.resolve_done_frame h
  have hcfg : t.cfg = s.cfg := by
    obtain ⟨_, _, _, _, rfl⟩ := hframe
    rfl
  have hpc : t.pc = s.pc := by
    obtain ⟨_, _, _, _, rfl⟩ := hframe
    rfl
  have hexec : t.usmd = false := by
    obtain ⟨_, _, _, _, rfl⟩ := hframe
    exact husmd
  have hnot : t.nxmTraps = false := t.nxmTraps_eq_false_iff.mpr ⟨hexec, by rwa [hcfg]⟩
  refine ⟨fun hwrite => ?_, fun hread => ?_⟩
  · have hstore : ∀ w, s.storeOperand m w = .done () u := fun w =>
      (State.storeOperand_of_resolve h w).trans (State.cpuWrite_nonExistent hwrite hnot w)
    refine ⟨?_, ?_, ?_⟩
    · rw [exec_dac, hstore, Access.finish_done]
    · rw [exec_dzm, hstore, Access.finish_done]
    · rw [exec_jms, h, Access.finish_done, State.jumpSubroutine, State.cpuWrite_nonExistent hwrite hnot, Access.finish_done]
      obtain ⟨_, _, _, _, rfl⟩ := hframe
      rfl
  · have hoperand : t.cpuRead r.ea .read = .done v u := 
      (State.cpuRead_nonExistent hread hnot).trans (congrArg (fun c : Cfg => Access.done c.faultReadValue u) hcfg)
    have hload : s.loadOperand m = .done v u := (State.loadOperand_of_resolve h).trans hoperand
    have hwrite : u.translate r.ea .write = .nonExistent := (State.translate_kind hexec r.ea .write .read).trans hread
    have hisz : exec (.isz m) s = .next (u.skipIf (v + 1 == 0)) := by
      rw [execIsz_of_read h hoperand, State.cpuWrite_nonExistent hwrite hnot, Access.finish_done]
    have hskip : u.skipIf (v + 1 == 0) = { u with pc := if v = 0o777777 then incPC s.cfg s.pc else s.pc } := by
      simp only [State.skipIf, beq_iff_eq, word_succ_eq_zero_iff]
      rw [show u.cfg = s.cfg from hcfg, show u.pc = s.pc from hpc]
    obtain ⟨hlac, hxor, hand, hsad, hadd, htad⟩ := exec_of_loadOperand_done hload
    obtain ⟨hxct, hlimit⟩ := execXct_of_loadOperand_done hload
    exact ⟨hlac, hxor, hand, hsad, hadd, htad, hisz.trans (congrArg _ hskip), hxct, hlimit⟩

/-- Settles O20: the Faults of the pointer, those that end the instruction, and those it goes on from. -/
theorem faultedOperands : Obligations.FaultedOperands :=
  ⟨faultedPointer, faultedAutoPointer, trappingFaults, flaggedFaults⟩

end Sys2Proof.Machine
end

section
/-! The frame of the loading references, and the return through a saved return word (R86, R88, R98, R174 to R182, R364,
R373). -/

namespace Sys2Proof.Machine

/-! ## The loading references -/

/-- Reading an operand changes at most the pointer that the reference increments (R89, R98). -/
theorem State.loadOperand_wordAt (s : State) (m : MemOperand) {a : Nat} (h : s.autoCell s.pc m ≠ some a) :
    (s.loadOperand m).state.wordAt a = s.wordAt a := by
  have hresolve : (s.resolve m).state.wordAt a = s.wordAt a := s.resolveFrom_wordAt s.pc m h
  rw [State.loadOperand, ← hresolve]
  cases s.resolve m with
  | abandoned t => rfl
  | done r t => exact congrArg (·.read a) (t.cpuRead_mem r.ea .read)

/-- Settles O24: each instruction on an operand that was read, or abandoned with the frame of its accesses. -/
theorem loadingReferencesFrame : Obligations.LoadingReferencesFrame := by
  intro m s t i hi h
  have hframe := s.loadOperand_frame m
  have hword := fun a => s.loadOperand_wordAt m (a := a)
  cases hload : s.loadOperand m with
  | abandoned u =>
    have hsubset : i ∈ [Instr.lac m, .xor m, .and m, .add m, .tad m, .sad m, .xct m, .isz m] := by
      simp only [List.mem_cons, List.not_mem_nil] at hi ⊢
      tauto
    rw [exec_of_loadOperand_abandoned hload i hsubset] at h
    cases h
    rw [hload, Access.state_abandoned] at hframe hword
    obtain ⟨mem, n, v, q, rfl⟩ := hframe
    exact ⟨⟨s.ac, s.l, s.pc, mem, n, v, q, rfl⟩, fun _ => rfl, fun _ => rfl, fun _ _ => rfl, hword⟩
  | done w u =>
    obtain ⟨hlac, hxor, hand, hsad, hadd, htad⟩ := exec_of_loadOperand_done hload
    rw [hload, Access.state_done] at hframe hword
    obtain ⟨mem, n, v, q, rfl⟩ := hframe
    have hmem : ∀ a, s.autoCell s.pc m ≠ some a → mem.read a = s.wordAt a := hword
    simp only [List.mem_cons, List.not_mem_nil, or_false] at hi
    rcases hi with rfl | rfl | rfl | rfl | rfl | rfl
    · cases hlac.symm.trans h
      exact ⟨⟨_, s.l, s.pc, mem, n, v, q, rfl⟩, nofun, fun _ => rfl, fun _ _ => rfl, hmem⟩
    · cases hxor.symm.trans h
      exact ⟨⟨_, s.l, s.pc, mem, n, v, q, rfl⟩, nofun, fun _ => rfl, fun _ _ => rfl, hmem⟩
    · cases hand.symm.trans h
      exact ⟨⟨_, s.l, s.pc, mem, n, v, q, rfl⟩, nofun, fun _ => rfl, fun _ _ => rfl, hmem⟩
    · cases hsad.symm.trans h
      exact ⟨⟨s.ac, s.l, _, mem, n, v, q, rfl⟩, fun _ => rfl, fun hne => absurd rfl hne, fun _ _ => rfl, hmem⟩
    · cases hadd.symm.trans h
      exact ⟨⟨_, _, s.pc, mem, n, v, q, rfl⟩, nofun, fun _ => rfl, fun hne => absurd rfl hne, hmem⟩
    · cases htad.symm.trans h
      exact ⟨⟨_, _, s.pc, mem, n, v, q, rfl⟩, nofun, fun _ => rfl, fun _ hne => absurd rfl hne, hmem⟩

/-! ## The return word -/

/-- The top three bits of the return word are the link and the two modes (R183). -/
theorem State.retWord_flags (s : State) :
    s.retWord.getMsbD 0 = s.l ∧ s.retWord.getMsbD 1 = s.memm ∧ s.retWord.getMsbD 2 = s.usmd := by
  have htop : ∀ i < 3,
      s.retWord.getMsbD i = (BitVec.ofBool s.l ++ BitVec.ofBool s.memm ++ BitVec.ofBool s.usmd).getMsbD i :=
    fun i hi => BitVec.getMsbD_append.trans (if_neg (Nat.not_le.mpr hi))
  have hflags : ∀ l m u : Bool, (BitVec.ofBool l ++ BitVec.ofBool m ++ BitVec.ofBool u).getMsbD 0 = l
      ∧ (BitVec.ofBool l ++ BitVec.ofBool m ++ BitVec.ofBool u).getMsbD 1 = m
      ∧ (BitVec.ofBool l ++ BitVec.ofBool m ++ BitVec.ofBool u).getMsbD 2 = u := by decide
  rw [htop 0 (by decide), htop 1 (by decide), htop 2 (by decide)]
  exact hflags s.l s.memm s.usmd

/-- Its low fifteen bits are those of the PC (R183). -/
theorem State.retWord_pc (s : State) : s.retWord.setWidth 17 &&& 0o77777 = s.pc &&& 0o77777 := by
  refine BitVec.eq_of_toNat_eq ?_
  have hlow : ∀ a : Addr, (a &&& 0o77777).toNat = a.toNat % 2 ^ 15 := fun a => toNat_and_lowMask a (by decide)
  rw [hlow, hlow, BitVec.toNat_setWidth, State.retWord, toNat_append_eq_add, BitVec.toNat_setWidth,
    Nat.mod_mod_of_dvd _ (by decide), Nat.mul_add_mod_self_right, Nat.mod_mod]

/-- An address joined from a base above a mask and an offset below it has the offset below it. -/
theorem joined_and_mask {k : Nat} (base off mask reach : BitVec k) :
    ((base &&& ~~~reach &&& mask) ||| (off &&& reach)) &&& reach = off &&& reach := by
  ext i hi
  simp only [BitVec.getElem_and, BitVec.getElem_or, BitVec.getElem_not]
  cases base[i] <;> cases off[i] <;> cases mask[i] <;> cases reach[i] <;> rfl

/-- With the base's part of an address and the address's own offset it is the address. -/
theorem joined_eq {k : Nat} {base a mask reach : BitVec k} (h : base &&& mask &&& ~~~reach = a &&& ~~~reach) :
    (base &&& ~~~reach &&& mask) ||| (a &&& reach) = a := by
  rw [BitVec.and_assoc, BitVec.and_comm (~~~reach), ← BitVec.and_assoc, h]
  ext i hi
  simp only [BitVec.getElem_and, BitVec.getElem_or, BitVec.getElem_not]
  cases a[i] <;> cases reach[i] <;> rfl

/-! ## The restoring JMP -/

theorem exec_jmp (m : MemOperand) (s : State) :
    exec (.jmp m) s = .next ((s.resolve m).finish fun r t =>
      let t1 := if m.ind && t.restPending then t.restoreFrom r.ptr else t
      let t2 := { t1.pcqPush with pc := r.ea }
      if t2.selfLoop r.ea then t2.stop .selfLoop else t2) := rfl

/-- What an indirect JMP with `restPending` leaves, whether or not it stops the run as a jump to itself (R182, R364). -/
theorem execJmp_restores {u t : State} {y : BitVec 13} {r : Resolved} (h : u.resolve ⟨true, y⟩ = .done r t)
    (hrest : t.restPending = true) :
    ∃ v run, exec (.jmp ⟨true, y⟩) u = .next v
      ∧ v = { (t.restoreFrom r.ptr).pcqPush with pc := r.ea, runState := run } := by
  have hexec : exec (.jmp ⟨true, y⟩) u = .next
      (let t2 := { (t.restoreFrom r.ptr).pcqPush with pc := r.ea }
       if t2.selfLoop r.ea then t2.stop .selfLoop else t2) := by
    rw [exec_jmp, h, Access.finish_done, hrest]
    rfl
  rw [hexec]
  dsimp only
  split
  · exact ⟨_, .stopped .selfLoop, rfl, rfl⟩
  · exact ⟨_, t.runState, rfl, rfl⟩

/-- Beyond VA the block is 32K words (R13). -/
theorem blkMask_of_ne_VA {c : Cfg} (h : c.variant ≠ .VA) : blkMask c = 0o77777 := by
  unfold blkMask
  cases hv : c.variant with
  | VA => exact absurd hv h
  | _ => rfl

/-- The bits of the PC that an unindexed pointer outside the window gives: its field in bank addressing with memm 0 and on VA,
else its block (R86, R88). -/
def State.pointerReach (s : State) : Addr :=
  if (s.cfg.variant ≠ .VD ∨ s.memm = true) ∧ (s.cfg.variant = .VA ∨ s.memm = false) then 0o17777 else 0o77777

theorem State.pointerReach_in_word (s : State) : 0o77777 &&& s.pointerReach = s.pointerReach := by
  unfold State.pointerReach
  split <;> rfl

theorem State.indexed_indirectAddr_eq_join {s : State} {y : BitVec 13} {d : Addr} (hauto : s.autoIndex d = false)
    (hindex : (s.cfg.variant ≠ .VD ∨ s.memm = true) ∨ y.getMsbD 0 = false) (base : Addr) (ptr : Word) :
    s.indexed ⟨true, y⟩ (s.indirectAddr base d ptr) =
      (base &&& ~~~s.pointerReach &&& amask s.cfg) ||| (ptr.setWidth 17 &&& s.pointerReach) := by
  rw [s.indexed_indirectAddr, hauto]
  unfold State.pointerReach
  by_cases hbank : s.cfg.variant ≠ .VD ∨ s.memm = true
  · simp only [if_pos hbank]
    by_cases hext : s.cfg.variant ≠ .VA ∧ s.memm = true
    · have hfar : ¬((s.cfg.variant ≠ .VD ∨ s.memm = true) ∧ (s.cfg.variant = .VA ∨ s.memm = false)) := by simp [hext]
      rw [if_pos hext, if_neg hfar, blkMask_of_ne_VA hext.1]
    · have hnear : s.cfg.variant = .VA ∨ s.memm = false := by
        rwa [not_and_or, not_not, Bool.not_eq_true] at hext
      rw [if_neg hext, if_pos ⟨hbank, hnear⟩]
  · have hvd : s.cfg.variant = .VD := not_not.mp fun h => hbank (.inl h)
    have hy : y.getMsbD 0 = false := hindex.resolve_left hbank
    have hne : s.cfg.variant ≠ .VA := by simp [hvd]
    have hfar : ¬((s.cfg.variant ≠ .VD ∨ s.memm = true) ∧ (s.cfg.variant = .VA ∨ s.memm = false)) := fun h => hbank h.1
    rw [if_neg hfar]
    simp only [hbank, hy, Bool.false_eq_true, if_false, blkMask_of_ne_VA hne]

/-- Settles O31: the pointer word is the interrupted state's return word, and the JMP takes each part of it back. -/
theorem returnRestoresEntry : Obligations.ReturnRestoresEntry := by
  intro s u y pa hcfg hpc hva hscheme hrest d hauto hread hword bank reach
  have hptr : u.pointer (u.directAddr u.pc ⟨true, y⟩) = .done s.retWord u := by
    rw [State.pointer_outside hauto, State.cpuRead_ok hread, hword]
  obtain ⟨v, run, hexec, rfl⟩ := execJmp_restores (State.resolve_of_pointer_done hptr) hrest
  obtain ⟨hl, hmemm, husmd⟩ := s.retWord_flags
  refine ⟨_, hexec, hl, rfl, ?_, ?_, rfl, fun hindex => ?_⟩
  · change (u.cfg.variant != .VA && s.retWord.getMsbD 1) = s.memm
    rw [hcfg, hmemm]
    by_cases hv : s.cfg.variant = .VA
    · rw [hva hv, Bool.and_false]
    · rw [bne_iff_ne.mpr hv, Bool.true_and]
  · change (u.cfg.protScheme != .none && s.retWord.getMsbD 2) = s.usmd
    rw [hcfg, husmd]
    by_cases hp : s.cfg.protScheme = .none
    · rw [hscheme hp, Bool.and_false]
    · rw [bne_iff_ne.mpr hp, Bool.true_and]
  · have hreach : u.pointerReach = reach := rfl
    have hoff : s.retWord.setWidth 17 &&& reach = s.pc &&& reach := by
      rw [← hreach, ← u.pointerReach_in_word, ← BitVec.and_assoc, s.retWord_pc, BitVec.and_assoc]
    have hea := State.indexed_indirectAddr_eq_join hauto hindex u.pc s.retWord
    rw [hreach, hoff, hcfg] at hea
    change u.indexed ⟨true, y⟩ (u.indirectAddr u.pc d s.retWord) &&& reach = s.pc &&& reach
      ∧ (_ → u.indexed ⟨true, y⟩ (u.indirectAddr u.pc d s.retWord) = s.pc)
    rw [hea]
    exact ⟨joined_and_mask _ _ _ _, joined_eq⟩

end Sys2Proof.Machine
end

section
/-! The FP15's accesses: the address word, the formats of an operand and what they unpack to, and operand B (R101, R311 to R313,
R346). -/

namespace Sys2Proof.Machine

/-! ## The address word -/

theorem State.fpAddress_direct {s : State} {pa : Addr} (h : s.translate s.pc .read = .ok pa)
    (hbit : (s.wordAt pa.toNat).getMsbD 0 = false) :
    s.fpAddress = .done (wordAddr s.cfg (s.wordAt pa.toNat)) s.advance := by
  have hread : s.advance.fpRead s.pc = .done (s.wordAt pa.toNat) s.advance := State.fpRead_ok (s := s.advance) h
  rw [State.fpAddress, hread, Access.andThen_done, hbit]
  rfl

/-- With bit 0 set the address word is a pointer, and its own address is read next (R311). -/
theorem State.fpAddress_pointer {s : State} {pa : Addr} (h : s.translate s.pc .read = .ok pa)
    (hbit : (s.wordAt pa.toNat).getMsbD 0 = true) :
    s.fpAddress = (s.advance.fpRead (wordAddr s.cfg (s.wordAt pa.toNat))).andThen fun p t =>
      .done (wordAddr t.cfg p) t := by
  have hread : s.advance.fpRead s.pc = .done (s.wordAt pa.toNat) s.advance := State.fpRead_ok (s := s.advance) h
  rw [State.fpAddress, hread, Access.andThen_done, hbit]
  rfl

theorem State.fpAddress_fault {s : State} {f : Translation} (hf : f = .violation ∨ f = .nonExistent)
    (h : s.translate s.pc .read = f) : s.fpAddress = .abandoned (s.advance.fpFault f) := by
  rw [State.fpAddress, State.fpRead_fault (s := s.advance) hf h, Access.andThen_abandoned]

theorem State.fpAddress_pointer_fault {s : State} {pa : Addr} {f : Translation}
    (hf : f = .violation ∨ f = .nonExistent) (h : s.translate s.pc .read = .ok pa)
    (hbit : (s.wordAt pa.toNat).getMsbD 0 = true) (hp : s.translate (wordAddr s.cfg (s.wordAt pa.toNat)) .read = f) :
    s.fpAddress = .abandoned (s.advance.fpFault f) := by
  rw [State.fpAddress_pointer h hbit, State.fpRead_fault (s := s.advance) hf hp, Access.andThen_abandoned]

theorem floatingAddress : Clause.FloatingAddress := by
  intro s pa h aw ea t
  refine ⟨State.fpAddress_direct h, fun pb hbit hp => ?_⟩
  have hread : s.advance.fpRead (wordAddr s.cfg aw) = .done (s.wordAt pb.toNat) s.advance :=
    State.fpRead_ok (s := s.advance) hp
  rw [State.fpAddress_pointer h hbit, hread, Access.andThen_done]
  rfl

/-! ## The words of an operand -/

/-- Two words in order (R101, R312). -/
theorem State.fpRead2_ok {s : State} {ea p0 p1 : Addr} (h0 : s.translate ea .read = .ok p0)
    (h1 : s.translate (nextAddr s.cfg ea) .read = .ok p1) :
    s.fpRead2 ea = .done (s.wordAt p0.toNat, s.wordAt p1.toNat) s := by
  rw [State.fpRead2, State.fpRead_ok h0, Access.andThen_done, State.fpRead_ok h1, Access.andThen_done]

theorem State.fpRead2_first_fault {s : State} {ea : Addr} {f : Translation} (hf : f = .violation ∨ f = .nonExistent)
    (h0 : s.translate ea .read = f) : s.fpRead2 ea = .abandoned (s.fpFault f) := by
  rw [State.fpRead2, State.fpRead_fault hf h0, Access.andThen_abandoned]

theorem State.fpRead2_second_fault {s : State} {ea p0 : Addr} {f : Translation}
    (hf : f = .violation ∨ f = .nonExistent) (h0 : s.translate ea .read = .ok p0)
    (h1 : s.translate (nextAddr s.cfg ea) .read = f) : s.fpRead2 ea = .abandoned (s.fpFault f) := by
  rw [State.fpRead2, State.fpRead_ok h0, Access.andThen_done, State.fpRead_fault hf h1, Access.andThen_abandoned]

/-- A Fault of the first word ends the load, whatever the format (R346). -/
theorem State.fpLoad_first_fault {s : State} {ea : Addr} {f : Translation} (hf : f = .violation ∨ f = .nonExistent)
    (fmt : FpFormat) (h0 : s.translate ea .read = f) : s.fpLoad fmt ea = .abandoned (s.fpFault f) := by
  cases fmt <;> rw [State.fpLoad]
  case singleInt => rw [State.fpRead_fault hf h0, Access.andThen_abandoned]
  all_goals rw [State.fpRead2_first_fault hf h0, Access.andThen_abandoned]

theorem State.fpLoad_second_fault {s : State} {ea p0 : Addr} {f : Translation}
    (hf : f = .violation ∨ f = .nonExistent) {fmt : FpFormat} (hfmt : fmt ≠ .singleInt)
    (h0 : s.translate ea .read = .ok p0) (h1 : s.translate (nextAddr s.cfg ea) .read = f) :
    s.fpLoad fmt ea = .abandoned (s.fpFault f) := by
  cases fmt <;> rw [State.fpLoad]
  case singleInt => exact absurd rfl hfmt
  all_goals rw [State.fpRead2_second_fault hf h0 h1, Access.andThen_abandoned]

theorem State.fpLoad_third_fault {s : State} {ea p0 p1 : Addr} {f : Translation}
    (hf : f = .violation ∨ f = .nonExistent) (h0 : s.translate ea .read = .ok p0)
    (h1 : s.translate (nextAddr s.cfg ea) .read = .ok p1)
    (h2 : s.translate (nextAddr s.cfg (nextAddr s.cfg ea)) .read = f) :
    s.fpLoad .doubleFloat ea = .abandoned (s.fpFault f) := by
  rw [State.fpLoad, State.fpRead2_ok h0 h1, Access.andThen_done, State.fpRead_fault hf h2, Access.andThen_abandoned]

/-! ## What the words unpack to -/

/-- A double integer fits but for the least one (R312). -/
theorem unpackDoubleInt_eq (w0 w1 : Word) :
    unpackDoubleInt w0 w1 =
      let v := (w0 ++ w1).toInt
      if v = -2 ^ 35 then .error .ovf else .ok ⟨decide (v < 0), 35, v.natAbs⟩ := by
  have hlow : -2 ^ 35 ≤ (w0 ++ w1).toInt := (w0 ++ w1).le_toInt
  have hhigh : (w0 ++ w1).toInt < 2 ^ 35 := (w0 ++ w1).toInt_lt
  unfold unpackDoubleInt fpF
  dsimp only
  by_cases hv : (w0 ++ w1).toInt = -2 ^ 35
  · rw [if_pos hv, if_neg (by omega)]
  · rw [if_neg hv, if_pos (by omega)]
    rfl

theorem mantissaWord_toNat (w : Word) : (w.extractLsb' 0 17).toNat = w.toNat % 2 ^ 17 := by
  rw [BitVec.extractLsb'_toNat, Nat.shiftRight_zero]

theorem unpackSingleFloat_eq (w0 w1 : Word) :
    unpackSingleFloat w0 w1 =
      ⟨w1.getMsbD 0, (w0.extractLsb' 0 9).toInt, w1.toNat % 2 ^ 17 * 2 ^ 18 + w0.toNat / 2 ^ 9 * 2 ^ 9⟩ := by
  have hexp : ((w0.extractLsb' 0 9).signExtend 18).toInt = (w0.extractLsb' 0 9).toInt :=
    BitVec.toInt_signExtend_of_le (by decide)
  have hlow : (w0.extractLsb' 9 9 ++ 0#9).toNat = w0.toNat / 2 ^ 9 * 2 ^ 9 := by
    have hw : w0.toNat < 2 ^ 18 := w0.isLt
    rw [toNat_append_eq_add, BitVec.extractLsb'_toNat, Nat.shiftRight_eq_div_pow, BitVec.toNat_ofNat, Nat.zero_mod,
      Nat.mod_eq_of_lt (by omega), Nat.add_zero]
  simp only [unpackSingleFloat, FpReg.unpack, hexp]
  exact congrArg (Unpacked.mk _ _) (congrArg₂ (fun a b : Nat => a * 262144 + b) (mantissaWord_toNat w1) hlow)

theorem unpackDoubleFloat_eq (w0 w1 w2 : Word) :
    unpackDoubleFloat w0 w1 w2 = ⟨w1.getMsbD 0, w0.toInt, w1.toNat % 2 ^ 17 * 2 ^ 18 + w2.toNat⟩ := by
  rw [unpackDoubleFloat, FpReg.unpack, mantissaWord_toNat]
  rfl

theorem floatingOperandFormats : Clause.FloatingOperandFormats := by
  intro s ea p0 p1 p2 h0 w0 w1 w2 second third v
  refine ⟨?_, fun h1 => ?_, fun h1 => ?_, fun h1 h2 => ?_⟩
  · rw [State.fpLoad, State.fpRead_ok h0, Access.andThen_done]
    rfl
  · rw [State.fpLoad, State.fpRead2_ok h0 h1, Access.andThen_done, unpackDoubleInt_eq]
  · rw [State.fpLoad, State.fpRead2_ok h0 h1, Access.andThen_done, unpackSingleFloat_eq]
  · rw [State.fpLoad, State.fpRead2_ok h0 h1, Access.andThen_done,
      State.fpRead_ok (va := nextAddr s.cfg (nextAddr s.cfg ea)) h2, Access.andThen_done, unpackDoubleFloat_eq]

/-! ## Operand B -/

/-- An operand that a register can hold: a 35-bit mantissa and an 18-bit exponent (R51). -/
structure Unpacked.Fits (u : Unpacked) : Prop where
  mantissa : u.m < 2 ^ 35
  lowExponent : -2 ^ 17 ≤ u.e
  highExponent : u.e < 2 ^ 17

/-- A register holds such an operand exactly (R51). -/
theorem Unpacked.Fits.unpack_pack {u : Unpacked} (h : u.Fits) : u.pack.unpack = u := by
  obtain ⟨hm, hlow, hhigh⟩ := h
  have hexp : (BitVec.ofInt 18 u.e).toInt = u.e := by
    rw [BitVec.toInt_ofInt]
    exact Int.bmod_eq_of_le (by omega) (by omega)
  have hmantissa : (BitVec.ofNat 17 (u.m / 262144)).toNat * 262144 + (BitVec.ofNat 18 u.m).toNat = u.m := by
    rw [BitVec.toNat_ofNat, BitVec.toNat_ofNat]
    omega
  simp only [Unpacked.pack, FpReg.unpack, hexp, hmantissa]

theorem FpReg.unpack_fits (r : FpReg) : r.unpack.Fits := by
  have hhi : r.hi.toNat < 2 ^ 17 := r.hi.isLt
  have hlo : r.lo.toNat < 2 ^ 18 := r.lo.isLt
  refine ⟨?_, r.e.le_toInt, r.e.toInt_lt⟩
  change r.hi.toNat * 262144 + r.lo.toNat < 2 ^ 35
  omega

theorem Unpacked.ofInt_fits {v : Int} (h : v.natAbs < 2 ^ 35) : (Unpacked.ofInt v).Fits :=
  ⟨h, (by decide : (-2 ^ 17 : Int) ≤ 35), (by decide : (35 : Int) < 2 ^ 17)⟩

/-- Every operand that a load unpacks fits a register (R312). -/
theorem State.fpLoad_fits {s t : State} {fmt : FpFormat} {ea : Addr} {u : Unpacked}
    (h : s.fpLoad fmt ea = .done (.ok u) t) : u.Fits := by
  cases fmt <;> rw [State.fpLoad] at h <;> obtain ⟨w, s1, -, h⟩ := Access.andThen_eq_done.mp h
  case singleInt =>
    cases h
    have hlow : -2 ^ 17 ≤ w.toInt := w.le_toInt
    have hhigh : w.toInt < 2 ^ 17 := w.toInt_lt
    exact Unpacked.ofInt_fits (by omega)
  case doubleInt =>
    obtain ⟨hv, -⟩ := Access.done.inj h
    unfold unpackDoubleInt at hv
    dsimp only at hv
    split at hv
    · next hfits =>
      cases hv
      exact Unpacked.ofInt_fits hfits
    · cases hv
  case singleFloat =>
    cases h
    exact FpReg.unpack_fits _
  case doubleFloat =>
    obtain ⟨w2, s2, -, h⟩ := Access.andThen_eq_done.mp h
    cases h
    exact FpReg.unpack_fits _

/-- Operand B is the loaded one when FMB is not asked for (R313). -/
theorem State.fpOperand_load {s : State} {m : FpMods} (h : m.noload = false) (ea : Addr) :
    s.fpOperand m ea = (s.fpLoad (fpFormat m) ea).andThen fun b t =>
      match b with
      | .ok u => .done b { t with fmb := u.pack }
      | .error _ => .done b t := by
  rw [State.fpOperand, h]
  rfl

theorem floatingOperandB : Clause.FloatingOperandB := by
  intro m s t ea
  refine ⟨fun h => ?_, fun b h hload => ?_⟩
  · rw [State.fpOperand, if_pos h]
  · have hoperand := State.fpOperand_load (s := s) h ea
    rw [hload, Access.andThen_done] at hoperand
    cases b with
    | ok u => exact ⟨hoperand, (State.fpLoad_fits hload).unpack_pack⟩
    | error k => exact hoperand

/-- Settles O48: the address word, the words of each format, and operand B. -/
theorem floatingOperands : Obligations.FloatingOperands := ⟨floatingAddress, floatingOperandFormats, floatingOperandB⟩

end Sys2Proof.Machine
end

section
/-! ST: the words it packs, the order it stores them in, and when it completes (R101, R312, R316, R328). -/

namespace Sys2Proof.Machine

/-! ## The stored words -/

theorem fpFormat_singleInt {m : FpMods} (hfp : m.fp = false) (hdp : m.dp = false) : fpFormat m = .singleInt := by
  rw [fpFormat, hfp, hdp]

theorem fpFormat_doubleInt {m : FpMods} (hfp : m.fp = false) (hdp : m.dp = true) : fpFormat m = .doubleInt := by
  rw [fpFormat, hfp, hdp]

theorem fpFormat_singleFloat {m : FpMods} (hfp : m.fp = true) (hdp : m.dp = false) : fpFormat m = .singleFloat := by
  rw [fpFormat, hfp, hdp]

theorem fpFormat_doubleFloat {m : FpMods} (hfp : m.fp = true) (hdp : m.dp = true) : fpFormat m = .doubleFloat := by
  rw [fpFormat, hfp, hdp]

/-- Only the single integer is one word (R312). -/
theorem fpFormat_ne_singleInt {m : FpMods} (h : m.fp = true ∨ m.dp = true) : fpFormat m ≠ .singleInt := by
  cases hfp : m.fp with
  | true =>
    cases hdp : m.dp with
    | true => rw [fpFormat_doubleFloat hfp hdp]; nofun
    | false => rw [fpFormat_singleFloat hfp hdp]; nofun
  | false =>
    have hdp : m.dp = true := h.resolve_left (by simp [hfp])
    rw [fpFormat_doubleInt hfp hdp]
    nofun

/-- A store writes one, two or three words, as the format says (R312). -/
theorem packWords_length {m : FpMods} {x : Unpacked} {ws : List Word} (h : packWords (fpFormat m) x = .ok ws) :
    ws.length = if m.fp = true ∧ m.dp = true then 3 else if m.fp = true ∨ m.dp = true then 2 else 1 := by
  cases hfp : m.fp <;> cases hdp : m.dp
  · rw [fpFormat_singleInt hfp hdp, packWords] at h
    split at h <;> cases h
    rfl
  · rw [fpFormat_doubleInt hfp hdp, packWords] at h
    cases h
    rfl
  · rw [fpFormat_singleFloat hfp hdp, packWords] at h
    split at h
    · cases h
    · split at h <;> cases h
      rfl
  · rw [fpFormat_doubleFloat hfp hdp, packWords] at h
    cases h
    rfl

theorem packWords_singleInt {x : Unpacked} (h : x.m < 2 ^ 17) : packWords .singleInt x = .ok [BitVec.ofInt 18 x.int] :=
  if_neg (Nat.not_le.mpr h)

theorem packWords_doubleInt (x : Unpacked) :
    packWords .doubleInt x =
      .ok [(BitVec.ofInt 36 x.int).extractLsb' 18 18, (BitVec.ofInt 36 x.int).extractLsb' 0 18] := rfl

theorem packWords_doubleFloat (x : Unpacked) :
    packWords .doubleFloat x =
      .ok [BitVec.ofInt 18 x.e, BitVec.ofBool x.s ++ BitVec.ofNat 17 (x.m / 2 ^ 18), BitVec.ofNat 18 x.m] := rfl

/-- The word of a single float: the high half of the mantissa's low word, and nine bits of the exponent (R312). -/
theorem floatWord_eq (lo e : Word) : lo.extractLsb' 9 9 ++ e.extractLsb' 0 9 = ((lo >>> 9) <<< 9) ||| (e &&& 0o777) := by
  have hlt : lo.toNat < 2 ^ 18 := lo.isLt
  have hhigh : ((lo >>> 9) <<< 9).toNat = 2 ^ 9 * (lo.toNat / 2 ^ 9) := by
    rw [BitVec.toNat_shiftLeft, BitVec.toNat_ushiftRight, Nat.shiftRight_eq_div_pow, Nat.shiftLeft_eq]
    omega
  have hlow : (e &&& 0o777).toNat = e.toNat % 2 ^ 9 := toNat_and_lowMask e (by decide)
  refine BitVec.eq_of_toNat_eq ?_
  rw [BitVec.toNat_or, hhigh, hlow, ← Nat.two_pow_add_eq_or_of_lt (Nat.mod_lt _ (Nat.two_pow_pos 9)), toNat_append_eq_add,
    BitVec.extractLsb'_toNat, BitVec.extractLsb'_toNat, Nat.shiftRight_zero, Nat.shiftRight_eq_div_pow, Nat.mul_comm,
    Nat.mod_eq_of_lt (by omega : lo.toNat / 2 ^ 9 < 2 ^ 9)]

/-- A single float whose exponent fits in nine bits (R328). -/
theorem packWords_singleFloat {x : Unpacked} (h : x.m = 0 ∨ -256 ≤ x.e ∧ x.e ≤ 255) :
    packWords .singleFloat x = .ok [((BitVec.ofNat 18 x.m >>> 9) <<< 9) ||| (BitVec.ofInt 18 x.e &&& 0o777),
      BitVec.ofBool x.s ++ BitVec.ofNat 17 (x.m / 2 ^ 18)] := by
  have hover : ¬(x.m ≠ 0 ∧ 255 < x.e) := by omega
  have hunder : ¬(x.m ≠ 0 ∧ x.e < -256) := by omega
  rw [packWords, if_neg hover, if_neg hunder, floatWord_eq]
  rfl

/-! ## The store of the words -/

/-- A word that can be written is written, and the store goes on at the next address (R101). -/
theorem State.fpStore_cons {s : State} {ea pa : Addr} (h : s.translate ea .write = .ok pa) (w : Word) (ws : List Word) :
    s.fpStore ea (w :: ws) = ({ s with mem := s.mem.write pa.toNat w } : State).fpStore (nextAddr s.cfg ea) ws := by
  rw [State.fpStore, State.fpWrite_ok h, Access.andThen_done]

theorem State.fpStore_one {s : State} {ea p0 : Addr} (h0 : s.translate ea .write = .ok p0) (w0 : Word) :
    s.fpStore ea [w0] = .done () { s with mem := s.mem.write p0.toNat w0 } := by
  rw [State.fpStore_cons h0, State.fpStore]

theorem State.fpStore_two {s : State} {ea p0 p1 : Addr} (h0 : s.translate ea .write = .ok p0)
    (h1 : s.translate (nextAddr s.cfg ea) .write = .ok p1) (w0 w1 : Word) :
    s.fpStore ea [w0, w1] = .done () { s with mem := (s.mem.write p0.toNat w0).write p1.toNat w1 } := by
  rw [State.fpStore_cons h0]
  exact State.fpStore_one (s := { s with mem := s.mem.write p0.toNat w0 }) h1 w1

theorem State.fpStore_three {s : State} {ea p0 p1 p2 : Addr} (h0 : s.translate ea .write = .ok p0)
    (h1 : s.translate (nextAddr s.cfg ea) .write = .ok p1)
    (h2 : s.translate (nextAddr s.cfg (nextAddr s.cfg ea)) .write = .ok p2) (w0 w1 w2 : Word) :
    s.fpStore ea [w0, w1, w2] =
      .done () { s with mem := ((s.mem.write p0.toNat w0).write p1.toNat w1).write p2.toNat w2 } := by
  rw [State.fpStore_cons h0]
  exact State.fpStore_two (s := { s with mem := s.mem.write p0.toNat w0 }) h1 h2 w1 w2

/-- A store that completes changes memory alone. -/
theorem State.fpStore_done_frame {ws : List Word} :
    ∀ {s u : State} {ea : Addr}, s.fpStore ea ws = .done () u → u = { s with mem := u.mem } := by
  induction ws with
  | nil =>
    intro s u ea h
    cases h
    rfl
  | cons w ws ih =>
    intro s u ea h
    obtain ⟨_, t, hwrite, hrest⟩ := Access.andThen_eq_done.mp h
    rcases s.fpWrite_cases ea w with ⟨pa, -, e⟩ | ⟨-, e⟩ | ⟨-, e⟩ <;> rw [e] at hwrite <;> cases hwrite
    exact ih (s := { s with mem := s.mem.write pa.toNat w }) hrest

/-! ## ST -/

/-- The value that ST stores is FMA's, which the reading of the address word leaves alone (R311, R316). -/
theorem State.storedValue_of_fpAddress {s t : State} {ea : Addr} (h : s.fpAddress = .done ea t) (m : FpMods) :
    t.storedValue m = applySgn m.sgn s.fma.unpack := by
  rw [State.storedValue, State.fpAddress_done h, State.advance_fma]

theorem execSt_noload {s t : State} {ea : Addr} {m : FpMods} (h : s.fpAddress = .done ea t) (hno : m.noload = true) :
    exec (.st m) s = .next { t with fmb := (applySgn m.sgn s.fma.unpack).pack } := by
  change Host.Outcome.next (fpSettle s.fpAddress _) = _
  rw [h, fpSettle_done, if_pos hno, State.storedValue_of_fpAddress h]

/-- With its address resolved ST packs, and an exception of the packing comes before any store (R328). -/
theorem execSt_error {s t : State} {ea : Addr} {m : FpMods} {k : FpExc} (h : s.fpAddress = .done ea t)
    (hno : m.noload = false) (hpack : packWords (fpFormat m) (applySgn m.sgn s.fma.unpack) = .error k) :
    exec (.st m) s = .next (t.fpException k) := by
  change Host.Outcome.next (fpSettle s.fpAddress _) = _
  rw [h, fpSettle_done, hno, if_neg Bool.false_ne_true, State.storedValue_of_fpAddress h, hpack]

theorem execSt_ok {s t : State} {ea : Addr} {m : FpMods} {ws : List Word} (h : s.fpAddress = .done ea t)
    (hno : m.noload = false) (hpack : packWords (fpFormat m) (applySgn m.sgn s.fma.unpack) = .ok ws) :
    exec (.st m) s = .next (fpSettle (t.fpStore ea ws) fun _ u => u) := by
  change Host.Outcome.next (fpSettle s.fpAddress _) = _
  rw [h, fpSettle_done, hno, if_neg Bool.false_ne_true, State.storedValue_of_fpAddress h, hpack]

/-- The address after another, in the state that the address word leaves (R101). -/
theorem State.nextAddr_of_fpAddress {s t : State} {ea : Addr} (h : s.fpAddress = .done ea t) (a : Addr) :
    nextAddr t.cfg a = (a + 1) &&& amask s.cfg := by
  rw [State.fpAddress_done h, State.advance_cfg, nextAddr]

theorem storeOfWords : Clause.StoreOfWords := by
  intro m s t ea h x ea1 ea2 apart
  have hea1 : nextAddr t.cfg ea = ea1 := State.nextAddr_of_fpAddress h ea
  have hea2 : nextAddr t.cfg ea1 = ea2 := State.nextAddr_of_fpAddress h ea1
  have hne : ∀ {pa pb : Addr}, pa ≠ pb → pa.toNat ≠ pb.toNat := fun hp he => hp (BitVec.eq_of_toNat_eq he)
  refine ⟨execSt_noload h, fun hno k hpack => execSt_error h hno hpack, fun hno ws u hpack hstore => ?_⟩
  refine ⟨?_, State.fpStore_done_frame hstore, packWords_length hpack, ?_, ?_, ?_⟩
  · rw [execSt_ok h hno hpack, hstore, fpSettle_done]
  · rintro pa w rfl hpa
    rw [State.fpStore_one hpa] at hstore
    cases hstore
    exact ⟨t.wordAt_write_same _ _, fun a ha => t.wordAt_write_ne w (ha pa hpa).symm⟩
  · rintro pa pb w v rfl hpa hpb
    rw [State.fpStore_two hpa (hea1 ▸ hpb)] at hstore
    cases hstore
    refine ⟨fun hab => ?_, Memory.read_write_same _ _ _, fun a ha hb => ?_⟩
    · exact (Memory.read_write_ne _ v (hne hab)).trans (Memory.read_write_same _ _ _)
    · exact (Memory.read_write_ne _ v (hb pb hpb).symm).trans (Memory.read_write_ne _ w (ha pa hpa).symm)
  · rintro pa pb pc w v z rfl hpa hpb hpc
    rw [State.fpStore_three hpa (hea1 ▸ hpb) (by rw [hea1, hea2]; exact hpc)] at hstore
    cases hstore
    refine ⟨fun hab hac => ?_, fun hbc => ?_, Memory.read_write_same _ _ _, fun a ha hb hc => ?_⟩
    · exact (Memory.read_write_ne _ z (hne hac)).trans
        ((Memory.read_write_ne _ v (hne hab)).trans (Memory.read_write_same _ _ _))
    · exact (Memory.read_write_ne _ z (hne hbc)).trans (Memory.read_write_same _ _ _)
    · exact (Memory.read_write_ne _ z (hc pc hpc).symm).trans
        ((Memory.read_write_ne _ v (hb pb hpb).symm).trans (Memory.read_write_ne _ w (ha pa hpa).symm))

theorem storeCompletes : Clause.StoreCompletes := by
  intro m s t ea p0 p1 p2 h hno x i hi lo ea1 ea2 one two three h0
  have hea1 : nextAddr t.cfg ea = ea1 := State.nextAddr_of_fpAddress h ea
  have hea2 : nextAddr t.cfg ea1 = ea2 := State.nextAddr_of_fpAddress h ea1
  have hexec : ∀ {ws u}, packWords (fpFormat m) x = .ok ws → t.fpStore ea ws = .done () u → exec (.st m) s = .next u := by
    intro ws u hpack hstore
    rw [execSt_ok h hno hpack, hstore, fpSettle_done]
  refine ⟨fun hfp hdp hfits => ?_, fun h1 => ⟨fun hfp hdp => ?_, fun hfp hdp hfits => ?_, fun h2 hfp hdp => ?_⟩⟩
  · exact hexec (by rw [fpFormat_singleInt hfp hdp]; exact packWords_singleInt hfits) (State.fpStore_one h0 _)
  · exact hexec (by rw [fpFormat_doubleInt hfp hdp]; exact packWords_doubleInt x) (State.fpStore_two h0 (hea1 ▸ h1) _ _)
  · exact hexec (by rw [fpFormat_singleFloat hfp hdp]; exact packWords_singleFloat hfits)
      (State.fpStore_two h0 (hea1 ▸ h1) _ _)
  · exact hexec (by rw [fpFormat_doubleFloat hfp hdp]; exact packWords_doubleFloat x)
      (State.fpStore_three h0 (hea1 ▸ h1) (by rw [hea1, hea2]; exact h2) _ _ _)

/-- Settles O52: what a store of the format's words leaves, and the values whose words there are. -/
theorem floatingStore : Obligations.FloatingStore := ⟨storeOfWords, storeCompletes⟩

end Sys2Proof.Machine
end

section
/-! The FP15's exceptions and the memory faults of each of its accesses (R97 to R99, R101, R345, R346). -/

namespace Sys2Proof.Machine

/-! ## Delivery -/

theorem floatingExceptionDelivery : Clause.FloatingExceptionDelivery := by
  intro s k pa base off traps
  have hoff : fpExcOffset s.cfg k = off := by cases k <;> rfl
  have hexc : s.fpException k = (s.cpuWrite base s.retWord).finish fun _ t =>
      { t.pcqPush with pc := (base + off) &&& amask s.cfg } := by rw [← hoff]; rfl
  refine ⟨fun h => ?_, fun h => ?_, fun h hyes => ?_, fun h hno => ?_⟩
  · rw [hexc, State.cpuWrite_ok h, Access.finish_done]
    rfl
  · rw [hexc, State.cpuWrite_violation h, Access.finish_abandoned]
  · rw [hexc, State.cpuWrite_nonExistent_traps h (s.nxmTraps_iff.mpr hyes), Access.finish_abandoned]
  · rw [hexc, State.cpuWrite_nonExistent h (Bool.eq_false_iff.mpr (hno ∘ s.nxmTraps_iff.mp)), Access.finish_done]
    rfl

/-! ## The address word -/

/-- Every FP15 instruction whose address word Faults delivers the memory-fault exception (R346). -/
theorem exec_of_fpAddress_abandoned {s t : State} (h : s.fpAddress = .abandoned t) (m : FpMods) (c : BrConds) :
    ∀ i ∈ [Instr.fpSub m, .fpRsub m, .fpMul m, .fpDiv m, .fpRdiv m, .ld m, .st m, .flt m, .fix m, .lfmq m, .jea m, .fpAdd m,
        .br c], exec i s = .next (t.fpException .mm) := by
  have hsettle : ∀ f : Addr → State → State,
      .next (fpSettle s.fpAddress f) = (.next (t.fpException .mm) : Host.Outcome State Fault Refusal) := by
    intro f
    rw [h, fpSettle_abandoned]
  have harith : ∀ op, .next (s.fpArith m op) = (.next (t.fpException .mm) : Host.Outcome State Fault Refusal) := by
    intro op
    rw [State.fpArith, h, Access.andThen_abandoned, fpSettle_abandoned]
  simp only [List.forall_mem_cons]
  exact ⟨harith _, harith _, harith _, harith _, harith _, harith _, hsettle _, hsettle _, hsettle _, hsettle _, hsettle _,
    harith _, hsettle _, fun _ hi => absurd hi List.not_mem_nil⟩

theorem mem_faults {f : Translation} (h : f ∈ [Translation.violation, .nonExistent]) :
    f = .violation ∨ f = .nonExistent := by
  simpa using h

/-- The flags of a FP15 Fault, as the statements write them (R346). -/
theorem State.fpFault_eq {f : Translation} (hf : f = .violation ∨ f = .nonExistent) (s : State) :
    s.fpFault f = if f = .violation then { s with prvn := true, trapPending := false }
      else { s with nexm := true, trapPending := false } := by
  rcases hf with rfl | rfl <;> rfl

theorem floatingAddressFault : Clause.FloatingAddressFault := by
  intro m c s t faulted i hi f hmem
  have hf := mem_faults hmem
  have hfault : s.advance.fpFault f = faulted f := State.fpFault_eq hf s.advance
  rw [← hfault]
  refine ⟨fun h => ?_, fun pa h hbit hp => ?_⟩
  · exact exec_of_fpAddress_abandoned (State.fpAddress_fault hf h) m c i hi
  · exact exec_of_fpAddress_abandoned (State.fpAddress_pointer_fault hf h hbit hp) m c i hi

/-! ## The operand -/

/-- The instructions on A and B deliver it where the loading of B is abandoned (R313, R346). -/
theorem exec_of_fpLoad_abandoned {s t u : State} {ea : Addr} {m : FpMods} (h : s.fpAddress = .done ea t)
    (hno : m.noload = false) (hload : t.fpLoad (fpFormat m) ea = .abandoned u) :
    ∀ i ∈ [Instr.fpSub m, .fpRsub m, .fpMul m, .fpDiv m, .fpRdiv m, .ld m, .fpAdd m],
      exec i s = .next (u.fpException .mm) := by
  have harith : ∀ op, .next (s.fpArith m op) = (.next (u.fpException .mm) : Host.Outcome State Fault Refusal) := by
    intro op
    rw [State.fpArith, h, Access.andThen_done, State.fpOperand_load hno, hload, Access.andThen_abandoned, fpSettle_abandoned]
  simp only [List.forall_mem_cons]
  exact ⟨harith _, harith _, harith _, harith _, harith _, harith _, harith _, fun _ hi => absurd hi List.not_mem_nil⟩

theorem floatingOperandFault : Clause.FloatingOperandFault := by
  intro m s t ea p0 p1 h ea1 ea2 faulted f hmem
  have hf := mem_faults hmem
  have hea1 : nextAddr t.cfg ea = ea1 := State.nextAddr_of_fpAddress h ea
  have hea2 : nextAddr t.cfg ea1 = ea2 := State.nextAddr_of_fpAddress h ea1
  have hfault : t.fpFault f = faulted f := State.fpFault_eq hf t
  rw [← hfault]
  refine ⟨fun hno i hi => ⟨fun h0 => ?_, fun hlong h0 h1 => ?_, fun hfp hdp h0 h1 h2 => ?_⟩, fun h0 => ?_⟩
  · exact exec_of_fpLoad_abandoned h hno (State.fpLoad_first_fault hf _ h0) i hi
  · exact exec_of_fpLoad_abandoned h hno
      (State.fpLoad_second_fault hf (fpFormat_ne_singleInt hlong) h0 (hea1 ▸ h1)) i hi
  · have hload : t.fpLoad (fpFormat m) ea = .abandoned (t.fpFault f) := by
      rw [fpFormat_doubleFloat hfp hdp]
      exact State.fpLoad_third_fault hf h0 (hea1 ▸ h1) (by rw [hea1, hea2]; exact h2)
    exact exec_of_fpLoad_abandoned h hno hload i hi
  · rw [execJea_done h]
    cases hdp : m.dp with
    | true =>
      rw [hdp] at h0
      rw [if_pos rfl, State.fpWrite_fault hf h0, fpSettle_abandoned]
    | false =>
      rw [hdp] at h0
      rw [if_neg Bool.false_ne_true, State.fpRead_fault hf h0, fpSettle_abandoned]

/-! ## The stored words -/

/-- A word that cannot be written ends the store, those before it being written (R328, R346). -/
theorem State.fpStore_fault {s : State} {ea : Addr} {f : Translation} (hf : f = .violation ∨ f = .nonExistent)
    (h : s.translate ea .write = f) (w : Word) (ws : List Word) : s.fpStore ea (w :: ws) = .abandoned (s.fpFault f) := by
  rw [State.fpStore, State.fpWrite_fault hf h, Access.andThen_abandoned]

theorem floatingStoreFault : Clause.FloatingStoreFault := by
  intro m s t ea p0 p1 ws h hno hpack ea1 ea2 faulted f hmem
  have hf := mem_faults hmem
  have hea1 : nextAddr t.cfg ea = ea1 := State.nextAddr_of_fpAddress h ea
  have hea2 : nextAddr t.cfg ea1 = ea2 := State.nextAddr_of_fpAddress h ea1
  have hfault : ∀ mem, ({ t with mem := mem } : State).fpFault f = faulted f mem := fun mem => State.fpFault_eq hf _
  have hexec : ∀ {u}, t.fpStore ea ws = .abandoned u → exec (.st m) s = .next (u.fpException .mm) := by
    intro u hstore
    rw [execSt_ok h hno hpack, hstore, fpSettle_abandoned]
  refine ⟨fun h0 => ?_, fun w v rest hws h0 h1 => ?_, fun w v z hws h0 h1 h2 => ?_⟩
  · cases ws with
    | nil =>
      have hlen := packWords_length hpack
      split at hlen
      · cases hlen
      · split at hlen <;> cases hlen
    | cons w rest =>
      rw [← hfault]
      exact hexec (State.fpStore_fault hf h0 w rest)
  · subst hws
    rw [← hfault]
    refine hexec ?_
    rw [State.fpStore_cons h0, hea1]
    exact State.fpStore_fault (s := { t with mem := t.mem.write p0.toNat w }) hf h1 v rest
  · subst hws
    rw [← hfault]
    refine hexec ?_
    rw [State.fpStore_cons h0, hea1, State.fpStore_cons (s := { t with mem := t.mem.write p0.toNat w }) h1]
    have hlast : t.translate (nextAddr t.cfg ea1) .write = f := by rw [hea2]; exact h2
    exact State.fpStore_fault (s := { t with mem := (t.mem.write p0.toNat w).write p1.toNat v }) hf hlast z []

/-- Settles O55: the delivery, and each access's Fault delivered. -/
theorem floatingExceptions : Obligations.FloatingExceptions :=
  ⟨floatingExceptionDelivery, floatingAddressFault, floatingOperandFault, floatingStoreFault⟩

end Sys2Proof.Machine
end

section
/-! Isolation under the bounds scheme: an instruction run in user mode writes no word above the bound, but for the word that CAL
saves in (R93, R170, R363). -/

namespace Sys2Proof.Machine

/-! ## Changes that respect the bound -/

/-- User mode under the bounds scheme (R92, R93). -/
structure State.Bounded (s : State) : Prop where
  user : s.usmd = true
  scheme : s.cfg.protScheme = .bounds

/-- A change made in user mode under the bounds scheme that keeps it so, with the same bound, and writes nothing above it. -/
def State.Confined (s t : State) : Prop :=
  s.Bounded → t.Bounded ∧ t.brLimit = s.brLimit ∧ ∀ a, s.brLimit.toNat < a → t.wordAt a = s.wordAt a

/-- The end of an instruction that writes nothing above the bound but the word 0o20, whatever it does to the mode. -/
def State.IsolatedFrom (s t : State) : Prop :=
  s.Bounded → ∀ a, s.brLimit.toNat < a → a ≠ 0o20 → t.wordAt a = s.wordAt a

namespace State.Confined

theorem refl (s : State) : s.Confined s := fun h => ⟨h, rfl, fun _ _ => rfl⟩

theorem trans {s t u : State} (h : s.Confined t) (h' : t.Confined u) : s.Confined u := by
  intro hs
  obtain ⟨ht, hlim, hmem⟩ := h hs
  obtain ⟨hu, hlim', hmem'⟩ := h' ht
  exact ⟨hu, hlim'.trans hlim, fun a ha => (hmem' a (by rwa [hlim])).trans (hmem a ha)⟩

/-- A change of neither the mode, the configuration, BR nor memory. -/
theorem registers {s t : State} (h : (t.usmd, t.cfg, t.br, t.mem) = (s.usmd, s.cfg, s.br, s.mem)) : s.Confined t := by
  simp only [Prod.mk.injEq] at h
  obtain ⟨huser, hcfg, hbr, hmem⟩ := h
  intro hs
  refine ⟨⟨huser.trans hs.user, hcfg ▸ hs.scheme⟩, ?_, fun a _ => ?_⟩
  · rw [State.brLimit, State.brLimit, hbr, hcfg]
  · rw [State.wordAt, State.wordAt, hmem]

/-- A word written where translation allows a write. -/
theorem write {s : State} {va pa : Addr} (h : s.translate va .write = .ok pa) (v : Word) :
    s.Confined { s with mem := s.mem.write pa.toNat v } := by
  intro hs
  refine ⟨⟨hs.user, hs.scheme⟩, rfl, fun a ha => s.wordAt_write_ne v ?_⟩
  have hle : pa.toNat ≤ s.brLimit.toNat := by
    rw [State.translate_bounds hs.user hs.scheme] at h
    split at h
    · cases h
    · next hin =>
      split at h <;> cases h
      exact Nat.not_lt.mp hin
  omega

theorem isolated {s t : State} (h : s.Confined t) : s.IsolatedFrom t := fun hs a ha _ => (h hs).2.2 a ha

/-- The rest of an instruction after a confined change. -/
theorem isolated_trans {s t u : State} (h : s.Confined t) (h' : t.IsolatedFrom u) : s.IsolatedFrom u := by
  intro hs a ha hne
  obtain ⟨ht, hlim, hmem⟩ := h hs
  exact (h' ht a (by rwa [hlim]) hne).trans (hmem a ha)

end State.Confined

/-! ## Accesses -/

theorem State.confined_of_accessFrame {s t : State} (h : s.accessFrame t) (hm : t.mem = s.mem) : s.Confined t := by
  obtain ⟨_, _, _, _, rfl⟩ := h
  cases hm
  exact .registers rfl

theorem State.confined_cpuRead (s : State) (va : Addr) (k : AccessKind) : s.Confined (s.cpuRead va k).state :=
  State.confined_of_accessFrame (s.cpuRead_frame va k) (s.cpuRead_mem va k)

theorem State.confined_fpRead (s : State) (va : Addr) : s.Confined (s.fpRead va).state :=
  State.confined_of_accessFrame (s.fpRead_frame va) (s.fpRead_mem va)

theorem State.confined_cpuWrite (s : State) (va : Addr) (v : Word) : s.Confined (s.cpuWrite va v).state := by
  rcases s.cpuWrite_cases va v with ⟨pa, ht, e⟩ | ⟨_, e⟩ | ⟨_, _, e⟩ | ⟨_, _, e⟩ <;> rw [e]
  · exact .write ht v
  all_goals exact .registers rfl

theorem State.confined_fpWrite (s : State) (va : Addr) (v : Word) : s.Confined (s.fpWrite va v).state := by
  rcases s.fpWrite_cases va v with ⟨pa, ht, e⟩ | ⟨_, e⟩ | ⟨_, e⟩ <;> rw [e]
  · exact .write ht v
  all_goals exact .registers rfl

theorem Access.confined_andThen {α β : Type} {s : State} {x : Access α} {f : α → State → Access β}
    (hx : s.Confined x.state) (hf : ∀ (v : α) (t : State), t.Confined (f v t).state) : s.Confined (x.andThen f).state :=
  Access.state_andThen (R := State.Confined) .trans hx hf

theorem Access.confined_finish {α : Type} {s : State} {x : Access α} {f : α → State → State} (hx : s.Confined x.state)
    (hf : ∀ v (t : State), t.Confined (f v t)) : s.Confined (x.finish f) := by
  cases x with
  | done v t => exact hx.trans (hf v t)
  | abandoned t => exact hx

/-! ## Operand forms -/

theorem State.confined_pointer (s : State) (d : Addr) : s.Confined (s.pointer d).state := by
  unfold State.pointer
  split
  · exact Access.confined_andThen (s.confined_cpuRead _ _) fun _ t =>
      Access.confined_andThen (t.confined_cpuWrite _ _) fun _ u => .refl u
  · exact s.confined_cpuRead _ _

theorem State.confined_resolve (s : State) (m : MemOperand) : s.Confined (s.resolve m).state := by
  unfold State.resolve State.resolveFrom
  dsimp only
  split
  · exact Access.confined_andThen (s.confined_pointer _) fun _ t => .refl t
  · exact .refl s

theorem State.confined_loadOperand (s : State) (m : MemOperand) : s.Confined (s.loadOperand m).state :=
  Access.confined_andThen (s.confined_resolve m) fun _ t => t.confined_cpuRead _ _

theorem State.confined_storeOperand (s : State) (m : MemOperand) (v : Word) : s.Confined (s.storeOperand m v).state :=
  Access.confined_andThen (s.confined_resolve m) fun _ t => t.confined_cpuWrite _ _

theorem State.confined_skipIf (s : State) (b : Bool) : s.Confined (s.skipIf b) := .registers rfl

theorem State.confined_inlineOperand (s : State) : s.Confined s.inlineOperand.state :=
  .trans (.registers rfl : s.Confined s.advance) (s.advance.confined_cpuRead _ _)

theorem State.confined_fpAddress (s : State) : s.Confined s.fpAddress.state :=
  .trans (.registers rfl : s.Confined s.advance) (State.confined_of_accessFrame s.fpAddress_frame s.fpAddress_mem)

theorem State.confined_fpOperand (s : State) (md : FpMods) (ea : Addr) : s.Confined (s.fpOperand md ea).state := by
  unfold State.fpOperand
  split
  · exact .refl s
  · refine Access.confined_andThen (State.confined_of_accessFrame (s.fpLoad_frame _ _) (s.fpLoad_mem _ _)) fun b t => ?_
    cases b with
    | ok u => exact .registers rfl
    | error k => exact .refl t

theorem State.confined_fpStore (ws : List Word) : ∀ (s : State) (ea : Addr), s.Confined (s.fpStore ea ws).state := by
  induction ws with
  | nil => exact fun s _ => .refl s
  | cons w ws ih => exact fun s ea => Access.confined_andThen (s.confined_fpWrite _ _) fun _ t => ih t _

/-! ## The shared operations of the instruction classes -/

theorem State.confined_jumpSubroutine (s : State) (ea : Addr) (ret : Word) : s.Confined (s.jumpSubroutine ea ret) :=
  Access.confined_finish (s.confined_cpuWrite _ _) fun _ _ => .registers rfl

theorem State.confined_fpException (s : State) (k : FpExc) : s.Confined (s.fpException k) :=
  Access.confined_finish (s.confined_cpuWrite _ _) fun _ _ => .registers rfl

theorem confined_fpSettle {α : Type} {s : State} {x : Access α} {f : α → State → State} (hx : s.Confined x.state)
    (hf : ∀ v (t : State), t.Confined (f v t)) : s.Confined (fpSettle x f) := by
  cases x with
  | done v t => exact hx.trans (hf v t)
  | abandoned t => exact hx.trans (t.confined_fpException .mm)

theorem State.confined_unimplemented (s : State) : s.Confined s.unimplemented := by
  rcases s.unimplemented_cases with ⟨-, e⟩ | ⟨-, e⟩ <;> rw [e]
  · exact .registers rfl
  · exact .refl s

theorem State.confined_operate (s : State) (o : OperateOps) : s.Confined (s.operate o) := by
  unfold State.operate
  dsimp only
  split
  · exact .registers rfl
  · split <;> exact .registers rfl

theorem State.confined_eaeDivide (s : State) (signed : Bool) (n : BitVec 6) (mb : Word) :
    s.Confined (s.eaeDivide signed n mb) := by
  unfold State.eaeDivide
  dsimp only
  generalize (if (signed && mb.getMsbD 0) = true then ~~~mb else mb) = divisor
  generalize (if s.eaeAcSign = true then ~~~s.mq else s.mq) = mq
  split
  · exact .registers rfl
  · split <;> exact .registers rfl

theorem State.confined_eae (s : State) (p : EaePre) (cmd : EaeCmd) (n : BitVec 6) : s.Confined (s.eae p cmd n) := by
  refine .trans (.registers rfl : s.Confined (s.eaePre p)) ?_
  cases cmd
  case multiply => exact Access.confined_finish (State.confined_inlineOperand _) fun _ _ => .registers rfl
  case divide => exact Access.confined_finish (State.confined_inlineOperand _) fun _ t => t.confined_eaeDivide _ _ _
  all_goals exact .registers rfl

/-- An IOT-class word traps in user mode (R230). -/
theorem State.confined_iot (s : State) (claimed : Bool) (dev code : BitVec 6) (cla : Bool) (effect : State → State) :
    s.Confined (s.iot claimed dev code cla effect) := by
  intro hs
  rw [State.iot, if_pos hs.user]
  exact State.Confined.registers (t := s.violation) rfl hs

theorem State.confined_fpFinish (s : State) (sgn : BitVec 2) (r : Except FpExc FpResult) : s.Confined (s.fpFinish sgn r) := by
  cases r with
  | ok x => exact .registers rfl
  | error k => exact s.confined_fpException k

theorem State.confined_fpArith (s : State) (md : FpMods) (op : FpMods → Unpacked → Unpacked → Except FpExc FpResult) :
    s.Confined (s.fpArith md op) :=
  confined_fpSettle (Access.confined_andThen s.confined_fpAddress fun _ t => t.confined_fpOperand _ _) fun _ t =>
    t.confined_fpFinish _ _

theorem State.confined_fpUnary (s : State) (md : FpMods) (op : Unpacked → Except FpExc FpResult) :
    s.Confined (s.fpUnary md op) :=
  confined_fpSettle s.confined_fpAddress fun _ t => t.confined_fpFinish _ _

/-! ## Every instruction -/

/-- The answer's state, if it is a next one, is isolated. -/
def AnswersIsolated (s : State) (o : Host.Outcome State Fault Refusal) : Prop := ∀ t, o = .next t → s.IsolatedFrom t

theorem State.Confined.answers {s t : State} (h : s.Confined t) : AnswersIsolated s (.next t) := by
  intro u hu
  cases hu
  exact h.isolated

theorem answersIsolated_registers {s t : State} (h : (t.usmd, t.cfg, t.br, t.mem) = (s.usmd, s.cfg, s.br, s.mem)) :
    AnswersIsolated s (.next t) := (State.Confined.registers h).answers

/-- An instruction that loads an operand and then changes registers. -/
theorem answersIsolated_load {s : State} {m : MemOperand} {f : Word → State → State}
    (hf : ∀ v (t : State), t.Confined (f v t)) : AnswersIsolated s (.next ((s.loadOperand m).finish f)) :=
  (Access.confined_finish (s.confined_loadOperand m) hf).answers

theorem answersIsolated_store {s : State} {m : MemOperand} {v : Word} :
    AnswersIsolated s (.next ((s.storeOperand m v).finish fun _ t => t)) :=
  (Access.confined_finish (s.confined_storeOperand m v) fun _ t => .refl t).answers

/-- A forced entry writes its save location alone (R170, R362). -/
theorem State.enter_wordAt (s : State) {save a : Nat} (target : Addr) (h : a ≠ save) :
    (s.enter save target).wordAt a = s.wordAt a := by
  rcases s.enter_cases save target with ⟨-, e⟩ | ⟨-, e⟩ <;> rw [e]
  · exact Memory.read_write_ne _ _ h
  · rfl

/-- CAL saves in the word 0o20, which no scheme forbids, and leaves user mode (R170). -/
theorem execCal_isolated (ign : BitVec 14) (s : State) : AnswersIsolated s (execCal ign s) := by
  intro t h _ a _ hne
  cases h
  exact State.enter_wordAt _ _ hne

theorem execIsz_isolated (m : MemOperand) (s : State) : AnswersIsolated s (execIsz m s) :=
  State.Confined.answers <| Access.confined_finish
    (Access.confined_andThen (s.confined_resolve m) fun _ t =>
      Access.confined_andThen (t.confined_cpuRead _ _) fun _ u =>
        Access.confined_andThen (u.confined_cpuWrite _ _) fun _ v => .refl v)
    fun _ t => t.confined_skipIf _

/-- JMP writes no memory, and the modes it restores wait for the next commit (R182, R373). -/
theorem execJmp_isolated (m : MemOperand) (s : State) : AnswersIsolated s (execJmp m s) := by
  refine State.Confined.answers (Access.confined_finish (s.confined_resolve m) fun r t => ?_)
  dsimp only
  split <;> split <;> exact .registers rfl

theorem execSt_isolated (m : FpMods) (s : State) : AnswersIsolated s (execSt m s) := by
  refine State.Confined.answers (confined_fpSettle s.confined_fpAddress fun ea t => ?_)
  split
  · exact .registers rfl
  · split
    · exact t.confined_fpException _
    · exact confined_fpSettle (State.confined_fpStore _ t ea) fun _ u => .refl u

theorem execLfmq_isolated (m : FpMods) (s : State) : AnswersIsolated s (execLfmq m s) :=
  State.Confined.answers (confined_fpSettle s.confined_fpAddress fun _ _ => .registers rfl)

theorem execJea_isolated (m : FpMods) (s : State) : AnswersIsolated s (execJea m s) := by
  refine State.Confined.answers (confined_fpSettle s.confined_fpAddress fun ea t => ?_)
  split
  · exact confined_fpSettle (t.confined_fpWrite _ _) fun _ u => .refl u
  · exact confined_fpSettle (t.confined_fpRead _) fun _ u => .registers rfl

theorem execBr_isolated (c : BrConds) (s : State) : AnswersIsolated s (execBr c s) := by
  refine State.Confined.answers (confined_fpSettle s.confined_fpAddress fun ea t => ?_)
  split
  · exact .registers rfl
  · exact .refl t

/-- Every instruction is isolated, if XCT is. -/
theorem execWith_isolated {xct : MemOperand → State → Host.Outcome State Fault Refusal}
    (hx : ∀ m s, AnswersIsolated s (xct m s)) (i : Instr) (s : State) : AnswersIsolated s (execWith xct i s) := by
  cases i
  case cal ign => exact execCal_isolated ign s
  case dac | dzm => exact answersIsolated_store
  case jms m =>
    exact (Access.confined_finish (s.confined_resolve m) fun _ t => t.confined_jumpSubroutine _ _).answers
  case lac | xor | add | tad | and => exact answersIsolated_load fun _ _ => .registers rfl
  case xct m => exact hx m s
  case isz m => exact execIsz_isolated m s
  case sad => exact answersIsolated_load fun _ t => t.confined_skipIf _
  case jmp m => exact execJmp_isolated m s
  case opr | nop | cma | cml | oas | ral | rar | iac | hlt | sma | sza | smaSza | snl | skp | spa | sna | spaSna | szl | rtl | rtr
      | bsw | cll | stl | rcl | rcr | cla | clc | las | glk => exact (s.confined_operate _).answers
  case law | pax | pal | aac | pxa | axs | pxl | pla | plx | clac | clx | cllr | axr =>
    exact answersIsolated_registers rfl
  case iot | iof | ion | iors | caf | dbk | dbr | mpsk | mpcne | mpcv | mpld | mplr | mplmr | mprmr | mpsne | mpeu | semSba | eem
      | lem | eba | dba | emirRes | spi | isa | rpl => exact (s.confined_iot _ _ _ _ _).answers
  case eae | osc | omq | cmq | lacs | lacq | abs | clq | lmq | gsm | mul | muls | div | divs | idiv | idivs | frdiv | frdivs | norm
      | norms | lrs | lrss | lls | llss | als | alss => exact (s.confined_eae _ _ _).answers
  case fpSub | fpRsub | fpMul | fpDiv | fpRdiv | ld | fpAdd => exact (s.confined_fpArith _ _).answers
  case st m => exact execSt_isolated m s
  case flt | fix => exact (s.confined_fpUnary _ _).answers
  case lfmq m => exact execLfmq_isolated m s
  case jea m => exact execJea_isolated m s
  case br c => exact execBr_isolated c s

/-- The chain of an XCT is confined accesses, and at its end an isolated instruction (R178). -/
theorem xctChain_isolated (n : Nat) : ∀ (m : MemOperand) (s : State), AnswersIsolated s (xctChain n m s) := by
  induction n with
  | zero => exact fun m s => answersIsolated_load fun _ _ => .registers rfl
  | succ n ih =>
    intro m s
    have hload := s.confined_loadOperand m
    unfold xctChain
    split
    · next t ht => exact State.Confined.answers (by rwa [ht] at hload)
    · next w t ht =>
      rw [ht] at hload
      have hdepth : s.Confined { t with xctDepth := t.xctDepth + 1, ir := w } := hload.trans (.registers rfl)
      unfold executeWord
      split
      · exact fun u hu => hdepth.isolated_trans (execWith_isolated ih _ _ u hu)
      · exact (hdepth.trans (State.confined_unimplemented _)).answers

/-- Settles O59: every instruction is confined accesses and register changes, CAL's saved word apart. -/
theorem boundsSchemeIsolatesMemory : Obligations.BoundsSchemeIsolatesMemory := by
  intro i s t huser hscheme h
  rw [exec_eq_execWith] at h
  exact execWith_isolated (fun m s => xctChain_isolated _ m s) i s t h ⟨huser, hscheme⟩

end Sys2Proof.Machine
end

section
/-! The loops of the extended-arithmetic element on numbers, and its shifts as windows on the pair and the link (R285, R287,
R289, R290). -/

namespace Sys2Proof.Machine

/-! ## A word's bits as numbers -/

theorem toNat_getMsbD_zero (w : Word) : (w.getMsbD 0).toNat = w.toNat / 2 ^ 17 := by
  have hlt : w.toNat < 2 ^ 18 := w.isLt
  have hbit : w.getMsbD 0 = w.toNat.testBit 17 := BitVec.getMsbD_eq_getLsbD w 0
  rw [hbit, Nat.toNat_testBit]
  omega

theorem getMsbD_last_eq (w : Word) : w.getMsbD 17 = decide (w.toNat % 2 = 1) := by
  rw [BitVec.getMsbD_eq_getLsbD, ← BitVec.testBit_toNat, Nat.testBit_eq_decide_div_mod_eq]
  change decide (w.toNat / 2 ^ 0 % 2 = 1) = _
  rw [Nat.pow_zero, Nat.div_one]

theorem toNat_dropLow (w : Word) : (w.extractLsb' 1 17).toNat = w.toNat / 2 := by
  have hlt : w.toNat < 2 ^ 18 := w.isLt
  rw [BitVec.extractLsb'_toNat, Nat.shiftRight_eq_div_pow]
  omega

/-! ## Repetition -/

/-- Repeating a step once more is taking it first. -/
theorem repeat_succ_start {α : Type} (f : α → α) (n : Nat) (a : α) : Nat.repeat f (n + 1) a = Nat.repeat f n (f a) := by
  induction n with
  | zero => rfl
  | succ n ih => exact congrArg f ih

/-! ## Multiply -/

/-- One step of a multiply on numbers (R285). -/
def mulStepNat (md : Nat) (q : Nat × Nat) : Nat × Nat :=
  let sum := q.1 + (if q.2 % 2 = 1 then md else 0)
  (sum / 2, sum % 2 * 2 ^ 17 + q.2 / 2)

theorem mulStep_toNat (mb ac mq : Word) :
    ((mulStep mb ac mq).1.toNat, (mulStep mb ac mq).2.toNat) = mulStepNat mb.toNat (ac.toNat, mq.toNat) := by
  have hac : ac.toNat < 2 ^ 18 := ac.isLt
  have hmb : mb.toNat < 2 ^ 18 := mb.isLt
  have hsum : ac.toNat + (if mq.toNat % 2 = 1 then mb.toNat else 0) < 2 ^ 19 := by split <;> omega
  simp only [mulStep, mulStepNat, getMsbD_last_eq, decide_eq_true_eq]
  generalize ac.toNat + (if mq.toNat % 2 = 1 then mb.toNat else 0) = sum at hsum
  have hbit : (BitVec.ofBool (sum % 2 == 1)).toNat = sum % 2 := by
    rcases Nat.mod_two_eq_zero_or_one sum with h | h <;> rw [h] <;> rfl
  refine Prod.ext ?_ ?_
  · rw [BitVec.toNat_ofNat]
    omega
  · exact (toNat_append_eq_add _ _).trans (by rw [hbit, toNat_dropLow])

/-- The multiply loop is the rule's repetition on numbers (R285). -/
theorem mulLoop_toNat (mb : Word) (n : Nat) : ∀ ac mq : Word,
    ((mulLoop mb n ac mq).1.toNat, (mulLoop mb n ac mq).2.toNat)
      = Nat.repeat (mulStepNat mb.toNat) n (ac.toNat, mq.toNat) := by
  induction n with
  | zero => exact fun _ _ => rfl
  | succ n ih =>
    intro ac mq
    rw [mulLoop, ih, mulStep_toNat, repeat_succ_start]

theorem mulLoop_eq (mb : Word) (n : Nat) (ac mq : Word) :
    let r := Nat.repeat (mulStepNat mb.toNat) n (ac.toNat, mq.toNat)
    mulLoop mb n ac mq = (BitVec.ofNat 18 r.1, BitVec.ofNat 18 r.2) := by
  intro r
  have hr : r = ((mulLoop mb n ac mq).1.toNat, (mulLoop mb n ac mq).2.toNat) := (mulLoop_toNat mb n ac mq).symm
  rw [hr, BitVec.ofNat_toNat, BitVec.ofNat_toNat, BitVec.setWidth_eq, BitVec.setWidth_eq]

/-! ## Divide -/

/-- One quotient step of a divide on numbers (R287). -/
def divStepNat (dv : Nat) (q : Nat × Nat) : Nat × Nat :=
  let rem := 2 * q.1 + q.2 / 2 ^ 17
  let quo := 2 * q.2 % 2 ^ 18
  if dv ≤ rem then (rem - dv, quo + 1) else (rem, quo)

theorem divStep_toNat (dv r : Nat) (q : Word) :
    ((divStep dv r q).1, (divStep dv r q).2.toNat) = divStepNat dv (r, q.toNat) := by
  have hshift : (q <<< 1).toNat = 2 * q.toNat % 2 ^ 18 := by
    rw [BitVec.toNat_shiftLeft, Nat.shiftLeft_eq, Nat.pow_one, Nat.mul_comm]
  have hone : (q <<< 1 ||| 1).toNat = 2 * q.toNat % 2 ^ 18 + 1 := by
    have heven : 2 * q.toNat % 2 ^ 18 = 2 ^ 1 * (q.toNat % 2 ^ 17) := by omega
    rw [BitVec.toNat_or, hshift, heven]
    exact (Nat.two_pow_add_eq_or_of_lt (by decide) _).symm
  simp only [divStep, divStepNat, toNat_getMsbD_zero]
  split
  · rw [hone]
  · rw [hshift]

/-- The divide loop is the rule's repetition on numbers (R287). -/
theorem divLoop_toNat (dv n : Nat) : ∀ (r : Nat) (q : Word),
    ((divLoop dv n r q).1, (divLoop dv n r q).2.toNat) = Nat.repeat (divStepNat dv) n (r, q.toNat) := by
  induction n with
  | zero => exact fun _ _ => rfl
  | succ n ih =>
    intro r q
    rw [divLoop, ih, divStep_toNat, repeat_succ_start]

theorem divLoop_eq (dv n r : Nat) (q : Word) :
    let x := Nat.repeat (divStepNat dv) n (r, q.toNat)
    divLoop dv n r q = (x.1, BitVec.ofNat 18 x.2) := by
  intro x
  have hx : x = ((divLoop dv n r q).1, (divLoop dv n r q).2.toNat) := (divLoop_toNat dv n r q).symm
  rw [hx, BitVec.ofNat_toNat, BitVec.setWidth_eq]

/-! ## Shifts -/

/-- The link repeated, as a shift of up to 63 places fills with it (R290). -/
def linkFill (l : Bool) : BitVec 63 := if l then BitVec.allOnes 63 else 0

/-- The pair after `k` left shifts: a window on the pair with the link repeated below it. -/
def pairLeft (l : Bool) (ac mq : Word) (k : Nat) : BitVec 36 := (ac ++ mq ++ linkFill l).extractLsb' (63 - k) 36

/-- The pair after `k` right shifts: a window on the pair with the link repeated above it. -/
def pairRight (l : Bool) (ac mq : Word) (k : Nat) : BitVec 36 := (linkFill l ++ ac ++ mq).extractLsb' k 36

/-- AC alone after `k` left shifts. -/
def wordLeft (l : Bool) (ac : Word) (k : Nat) : Word := (ac ++ linkFill l).extractLsb' (63 - k) 18

/-- The halves of a pair. -/
def pairHigh (w : BitVec 36) : Word := w.extractLsb' 18 18
def pairLow (w : BitVec 36) : Word := w.extractLsb' 0 18

/-- A bit of the fill is the link. -/
theorem linkFill_div (l : Bool) {j : Nat} (hj : j < 63) : (linkFill l).toNat / 2 ^ j % 2 = l.toNat := by
  cases l with
  | false =>
    change 0 / 2 ^ j % 2 = 0
    rw [Nat.zero_div]
  | true =>
    rw [linkFill, if_pos rfl, BitVec.toNat_allOnes, ← Nat.toNat_testBit, Nat.testBit_two_pow_sub_one, decide_eq_true hj]

/-- A window on a wider word, as a number. -/
theorem window_toNat {k : Nat} (x : BitVec k) (start len : Nat) :
    (x.extractLsb' start len).toNat = x.toNat / 2 ^ start % 2 ^ len := by
  rw [BitVec.extractLsb'_toNat, Nat.shiftRight_eq_div_pow]

/-- Moving a window one place down doubles what stands above it and takes one more bit in. -/
theorem div_pow_eq_double (x m : Nat) : x / 2 ^ m = 2 * (x / 2 ^ (m + 1)) + x / 2 ^ m % 2 := by
  rw [Nat.pow_succ, ← Nat.div_div_eq_div_mul]
  omega

/-- The bits below a joined word's boundary are those of its low part. -/
theorem append_bit_low {k n : Nat} (x : BitVec k) (y : BitVec n) {j : Nat} (hj : j < n) :
    (x ++ y).toNat / 2 ^ j % 2 = y.toNat / 2 ^ j % 2 := by
  rw [toNat_append_eq_add, ← Nat.toNat_testBit, ← Nat.toNat_testBit, Nat.mul_comm, Nat.testBit_two_pow_mul_add _ y.isLt,
    if_pos hj]

/-- Those above it are those of its high part. -/
theorem append_div_high {k n : Nat} (x : BitVec k) (y : BitVec n) (j : Nat) :
    (x ++ y).toNat / 2 ^ (n + j) = x.toNat / 2 ^ j := by
  rw [toNat_append_eq_add, Nat.pow_add, ← Nat.div_div_eq_div_mul, Nat.mul_comm,
    Nat.mul_add_div (Nat.two_pow_pos n), Nat.div_eq_of_lt y.isLt, Nat.add_zero]

theorem shiftLeftStep_toNat (l : Bool) (ac mq : Word) :
    (shiftLeftStep l ac mq).1.toNat = (2 * ac.toNat + mq.toNat / 2 ^ 17) % 2 ^ 18
      ∧ (shiftLeftStep l ac mq).2.toNat = (2 * mq.toNat + l.toNat) % 2 ^ 18 := by
  have hac : ac.toNat < 2 ^ 18 := ac.isLt
  have hmq : mq.toNat < 2 ^ 18 := mq.isLt
  have htop : mq.toNat / 2 ^ 17 < 2 := by omega
  have hl : l.toNat < 2 := l.toNat_lt
  have hhigh := toNat_append_eq_add (ac.extractLsb' 0 17) (BitVec.ofBool (mq.getMsbD 0))
  have hlow := toNat_append_eq_add (mq.extractLsb' 0 17) (BitVec.ofBool l)
  rw [window_toNat, BitVec.toNat_ofBool, toNat_getMsbD_zero] at hhigh
  rw [window_toNat, BitVec.toNat_ofBool] at hlow
  exact ⟨hhigh.trans (by omega), hlow.trans (by omega)⟩

theorem shiftRightStep_toNat (l : Bool) (ac mq : Word) :
    (shiftRightStep l ac mq).1.toNat = l.toNat * 2 ^ 17 + ac.toNat / 2
      ∧ (shiftRightStep l ac mq).2.toNat = ac.toNat % 2 * 2 ^ 17 + mq.toNat / 2 := by
  have hhigh := toNat_append_eq_add (BitVec.ofBool l) (ac.extractLsb' 1 17)
  have hlow := toNat_append_eq_add (BitVec.ofBool (ac.getMsbD 17)) (mq.extractLsb' 1 17)
  have hbit : (BitVec.ofBool (ac.getMsbD 17)).toNat = ac.toNat % 2 := by
    rw [getMsbD_last_eq]
    rcases Nat.mod_two_eq_zero_or_one ac.toNat with h | h <;> rw [h] <;> rfl
  rw [BitVec.toNat_ofBool, toNat_dropLow] at hhigh
  rw [hbit, toNat_dropLow] at hlow
  exact ⟨hhigh, hlow⟩

theorem shiftAcStep_toNat (l : Bool) (ac mq : Word) :
    (shiftAcStep l ac mq).1.toNat = (2 * ac.toNat + l.toNat) % 2 ^ 18 := by
  have hl : l.toNat < 2 := l.toNat_lt
  have hhigh := toNat_append_eq_add (ac.extractLsb' 0 17) (BitVec.ofBool l)
  rw [window_toNat, BitVec.toNat_ofBool] at hhigh
  exact hhigh.trans (by omega)

theorem pairHigh_toNat (w : BitVec 36) : (pairHigh w).toNat = w.toNat / 2 ^ 18 := by
  have hw : w.toNat < 2 ^ 36 := w.isLt
  rw [pairHigh, window_toNat]
  omega

theorem pairLow_toNat (w : BitVec 36) : (pairLow w).toNat = w.toNat % 2 ^ 18 := by
  rw [pairLow, window_toNat, Nat.pow_zero, Nat.div_one]

/-- One left shift moves the window one place down (R290). -/
theorem shiftLeftStep_pairLeft (l : Bool) (ac mq : Word) {k : Nat} (hk : k < 63) :
    shiftLeftStep l (pairHigh (pairLeft l ac mq k)) (pairLow (pairLeft l ac mq k))
      = (pairHigh (pairLeft l ac mq (k + 1)), pairLow (pairLeft l ac mq (k + 1))) := by
  have hmove := div_pow_eq_double (ac ++ mq ++ linkFill l).toNat (63 - (k + 1))
  rw [append_bit_low _ _ (by omega), linkFill_div l (by omega), show 63 - (k + 1) + 1 = 63 - k by omega] at hmove
  have hnow : (pairLeft l ac mq k).toNat = (ac ++ mq ++ linkFill l).toNat / 2 ^ (63 - k) % 2 ^ 36 := window_toNat _ _ _
  have hnext : (pairLeft l ac mq (k + 1)).toNat = (ac ++ mq ++ linkFill l).toNat / 2 ^ (63 - (k + 1)) % 2 ^ 36 :=
    window_toNat _ _ _
  obtain ⟨hhigh, hlow⟩ := shiftLeftStep_toNat l (pairHigh (pairLeft l ac mq k)) (pairLow (pairLeft l ac mq k))
  rw [pairHigh_toNat, pairLow_toNat, hnow] at hhigh
  rw [pairLow_toNat, hnow] at hlow
  rw [hmove] at hnext
  have hl : l.toNat < 2 := l.toNat_lt
  generalize (ac ++ mq ++ linkFill l).toNat / 2 ^ (63 - k) = above at hhigh hlow hnext
  refine Prod.ext (BitVec.eq_of_toNat_eq ?_) (BitVec.eq_of_toNat_eq ?_)
  · rw [hhigh, pairHigh_toNat, hnext]
    omega
  · rw [hlow, pairLow_toNat, hnext]
    omega

/-- One right shift moves the window one place up (R290). -/
theorem shiftRightStep_pairRight (l : Bool) (ac mq : Word) {k : Nat} (hk : k < 63) :
    shiftRightStep l (pairHigh (pairRight l ac mq k)) (pairLow (pairRight l ac mq k))
      = (pairHigh (pairRight l ac mq (k + 1)), pairLow (pairRight l ac mq (k + 1))) := by
  have htop : (linkFill l ++ ac ++ mq).toNat / 2 ^ k / 2 ^ 36 % 2 = l.toNat := by
    rw [Nat.div_div_eq_div_mul, ← Nat.pow_add, show k + 36 = 18 + (18 + k) by omega, append_div_high, append_div_high,
      linkFill_div l hk]
  have hnow : (pairRight l ac mq k).toNat = (linkFill l ++ ac ++ mq).toNat / 2 ^ k % 2 ^ 36 := window_toNat _ _ _
  have hnext : (pairRight l ac mq (k + 1)).toNat = (linkFill l ++ ac ++ mq).toNat / 2 ^ k / 2 % 2 ^ 36 := by
    rw [Nat.div_div_eq_div_mul, ← Nat.pow_succ]
    exact window_toNat _ _ _
  obtain ⟨hhigh, hlow⟩ := shiftRightStep_toNat l (pairHigh (pairRight l ac mq k)) (pairLow (pairRight l ac mq k))
  rw [pairHigh_toNat, hnow] at hhigh
  rw [pairHigh_toNat, pairLow_toNat, hnow] at hlow
  generalize (linkFill l ++ ac ++ mq).toNat / 2 ^ k = below at hhigh hlow hnext htop
  refine Prod.ext (BitVec.eq_of_toNat_eq ?_) (BitVec.eq_of_toNat_eq ?_)
  · rw [hhigh, pairHigh_toNat, hnext]
    omega
  · rw [hlow, pairLow_toNat, hnext]
    omega

/-- One left shift of AC alone moves its window one place down, MQ staying (R290). -/
theorem shiftAcStep_wordLeft (l : Bool) (ac mq : Word) {k : Nat} (hk : k < 63) :
    shiftAcStep l (wordLeft l ac k) mq = (wordLeft l ac (k + 1), mq) := by
  have hmove := div_pow_eq_double (ac ++ linkFill l).toNat (63 - (k + 1))
  rw [append_bit_low _ _ (by omega), linkFill_div l (by omega), show 63 - (k + 1) + 1 = 63 - k by omega] at hmove
  have hstep := shiftAcStep_toNat l (wordLeft l ac k) mq
  rw [wordLeft, window_toNat] at hstep
  refine Prod.ext (BitVec.eq_of_toNat_eq ?_) rfl
  rw [wordLeft, wordLeft, hstep, window_toNat, hmove]
  omega

/-- A shift that moves a pair from each place of a sequence to the next, repeated. -/
theorem shiftLoop_eq {step : Word → Word → Word × Word} {hi lo : Nat → Word} {bound : Nat}
    (hstep : ∀ k < bound, step (hi k) (lo k) = (hi (k + 1), lo (k + 1))) (n : Nat) :
    ∀ k, k + n ≤ bound → shiftLoop step n (hi k) (lo k) = (hi (k + n), lo (k + n)) := by
  induction n with
  | zero => exact fun _ _ => rfl
  | succ n ih =>
    intro k hk
    rw [shiftLoop, hstep k (by omega), ih (k + 1) (by omega), Nat.add_right_comm, Nat.add_assoc]

/-- The normalize loop stops at the first place of such a sequence whose top two bits differ, or when its steps are used
up (R289). -/
theorem normLoop_eq {l : Bool} {hi lo : Nat → Word} {bound : Nat}
    (hstep : ∀ k < bound, shiftLeftStep l (hi k) (lo k) = (hi (k + 1), lo (k + 1))) (n : Nat) :
    ∀ k, k + n ≤ bound → ∃ j ≤ n, normLoop l n (hi k) (lo k) = (n - j, hi (k + j), lo (k + j))
      ∧ (∀ i < j, (hi (k + i)).getMsbD 0 = (hi (k + i)).getMsbD 1)
      ∧ (j < n → (hi (k + j)).getMsbD 0 ≠ (hi (k + j)).getMsbD 1) := by
  induction n with
  | zero =>
    exact fun k _ => ⟨0, Nat.le_refl 0, rfl, fun i hi => absurd hi (Nat.not_lt_zero i), fun h => absurd h (Nat.lt_irrefl 0)⟩
  | succ n ih =>
    intro k hk
    by_cases hsame : (hi k).getMsbD 0 = (hi k).getMsbD 1
    · obtain ⟨j, hj, hloop, hbefore, hafter⟩ := ih (k + 1) (by omega)
      have hplace : ∀ i, k + (i + 1) = k + 1 + i := fun i => by omega
      refine ⟨j + 1, Nat.succ_le_succ hj, ?_, fun i hi => ?_, fun h => ?_⟩
      · rw [normLoop, if_pos hsame, hstep k (by omega), hloop, Nat.add_sub_add_right, hplace j]
      · cases i with
        | zero => exact hsame
        | succ i => rw [hplace i]; exact hbefore i (Nat.lt_of_succ_lt_succ hi)
      · rw [hplace j]
        exact hafter (Nat.lt_of_succ_lt_succ h)
    · refine ⟨0, Nat.zero_le _, ?_, fun i hi => absurd hi (Nat.not_lt_zero i), fun _ => hsame⟩
      rw [normLoop, if_neg hsame]
      rfl

/-! ## The windows at the start, and their top bits -/

theorem halves_of_toNat {w : BitVec 36} {ac mq : Word} (h : w.toNat = ac.toNat * 2 ^ 18 + mq.toNat) :
    pairHigh w = ac ∧ pairLow w = mq := by
  have hmq : mq.toNat < 2 ^ 18 := mq.isLt
  refine ⟨BitVec.eq_of_toNat_eq ?_, BitVec.eq_of_toNat_eq ?_⟩
  · rw [pairHigh_toNat, h]
    omega
  · rw [pairLow_toNat, h]
    omega

theorem pairLeft_zero (l : Bool) (ac mq : Word) :
    pairHigh (pairLeft l ac mq 0) = ac ∧ pairLow (pairLeft l ac mq 0) = mq := by
  have hwindow : (pairLeft l ac mq 0).toNat = ac.toNat * 2 ^ 18 + mq.toNat := by
    rw [pairLeft, window_toNat, show 63 - 0 = 63 + 0 by rfl, append_div_high, Nat.pow_zero, Nat.div_one, toNat_append_eq_add]
    exact Nat.mod_eq_of_lt (toNat_append_eq_add ac mq ▸ (ac ++ mq).isLt)
  exact halves_of_toNat hwindow

theorem pairRight_zero (l : Bool) (ac mq : Word) :
    pairHigh (pairRight l ac mq 0) = ac ∧ pairLow (pairRight l ac mq 0) = mq := by
  have hwindow : (pairRight l ac mq 0).toNat = ac.toNat * 2 ^ 18 + mq.toNat := by
    have hac : ac.toNat < 2 ^ 18 := ac.isLt
    have hmq : mq.toNat < 2 ^ 18 := mq.isLt
    rw [pairRight, window_toNat, Nat.pow_zero, Nat.div_one, toNat_append_eq_add, toNat_append_eq_add]
    omega
  exact halves_of_toNat hwindow

theorem wordLeft_zero (l : Bool) (ac : Word) : wordLeft l ac 0 = ac := by
  refine BitVec.eq_of_toNat_eq ?_
  rw [wordLeft, window_toNat, show 63 - 0 = 63 + 0 by rfl, append_div_high, Nat.pow_zero, Nat.div_one, Nat.mod_eq_of_lt ac.isLt]

/-- The top bits of a pair are those of its high half. -/
theorem pairHigh_getMsbD (w : BitVec 36) {i : Nat} (hi : i < 18) : (pairHigh w).getMsbD i = w.getMsbD i := by
  simp only [pairHigh, BitVec.getMsbD_eq_getLsbD, BitVec.getLsbD_extractLsb']
  have hplace : 18 + (18 - 1 - i) = 36 - 1 - i := by omega
  simp [hplace, hi, show i < 36 by omega, show 18 - 1 - i < 18 by omega]

theorem shiftLoop_left (l : Bool) (ac mq : Word) {n : Nat} (hn : n ≤ 63) :
    shiftLoop (shiftLeftStep l) n ac mq = (pairHigh (pairLeft l ac mq n), pairLow (pairLeft l ac mq n)) := by
  have hloop := shiftLoop_eq (hi := fun k => pairHigh (pairLeft l ac mq k)) (lo := fun k => pairLow (pairLeft l ac mq k))
    (fun k hk => shiftLeftStep_pairLeft l ac mq hk) n 0 (by omega)
  obtain ⟨hhigh, hlow⟩ := pairLeft_zero l ac mq
  rwa [hhigh, hlow, Nat.zero_add] at hloop

theorem shiftLoop_right (l : Bool) (ac mq : Word) {n : Nat} (hn : n ≤ 63) :
    shiftLoop (shiftRightStep l) n ac mq = (pairHigh (pairRight l ac mq n), pairLow (pairRight l ac mq n)) := by
  have hloop := shiftLoop_eq (hi := fun k => pairHigh (pairRight l ac mq k)) (lo := fun k => pairLow (pairRight l ac mq k))
    (fun k hk => shiftRightStep_pairRight l ac mq hk) n 0 (by omega)
  obtain ⟨hhigh, hlow⟩ := pairRight_zero l ac mq
  rwa [hhigh, hlow, Nat.zero_add] at hloop

theorem shiftLoop_ac (l : Bool) (ac mq : Word) {n : Nat} (hn : n ≤ 63) :
    shiftLoop (shiftAcStep l) n ac mq = (wordLeft l ac n, mq) := by
  have hloop := shiftLoop_eq (hi := fun k => wordLeft l ac k) (lo := fun _ => mq)
    (fun k hk => shiftAcStep_wordLeft l ac mq hk) n 0 (by omega)
  rwa [wordLeft_zero, Nat.zero_add] at hloop

/-- Normalizing makes the least number of left shifts, at most the count, that leaves the top two bits different (R289). -/
theorem normLoop_left (l : Bool) (ac mq : Word) {n : Nat} (hn : n ≤ 63) :
    ∃ k ≤ n, normLoop l n ac mq = (n - k, pairHigh (pairLeft l ac mq k), pairLow (pairLeft l ac mq k))
      ∧ (∀ j < k, (pairLeft l ac mq j).getMsbD 0 = (pairLeft l ac mq j).getMsbD 1)
      ∧ (k < n → (pairLeft l ac mq k).getMsbD 0 ≠ (pairLeft l ac mq k).getMsbD 1) := by
  obtain ⟨k, hk, hloop, hbefore, hafter⟩ :=
    normLoop_eq (hi := fun k => pairHigh (pairLeft l ac mq k)) (lo := fun k => pairLow (pairLeft l ac mq k))
      (fun k hk => shiftLeftStep_pairLeft l ac mq hk) n 0 (by omega)
  have htop : ∀ j, ∀ i < 18, (pairHigh (pairLeft l ac mq j)).getMsbD i = (pairLeft l ac mq j).getMsbD i :=
    fun j i hi => pairHigh_getMsbD _ hi
  obtain ⟨hhigh, hlow⟩ := pairLeft_zero l ac mq
  simp only [Nat.zero_add, hhigh, hlow, htop _ 0 (by decide), htop _ 1 (by decide)] at hloop hbefore hafter
  exact ⟨k, hk, hloop, hbefore, hafter⟩

end Sys2Proof.Machine
end

section
/-! Every EAE word: the pre-steps, the operand with its Faults, the command (R98, R280 to R291). -/

namespace Sys2Proof.Machine

/-! ## The pre-steps and the operand -/

/-- The pre-steps as the rules write them (R281): AC takes its magnitude only where MQ does not take it. -/
def State.preStepped (s : State) (p : EaePre) : State :=
  let neg := p.sign && s.ac.getMsbD 0
  let mq1 := if p.clq then 0 else s.mq
  { s with
    l := if p.sgnl then s.ac.getMsbD 0 else s.l
    eaeAcSign := neg
    mq := if p.acmq then mq1 ||| s.ac else mq1
    ac := if p.cla then 0 else if p.acmq then s.ac else if neg then ~~~s.ac else s.ac }

theorem State.eaePre_eq (s : State) (p : EaePre) : s.eaePre p = s.preStepped p := by
  unfold State.eaePre State.preStepped
  cases p.acmq with
  | true => rfl
  | false => simp only [Bool.not_false, Bool.true_and, Bool.false_eq_true, if_false]

/-- The state in which a multiply or a divide has its operand word (R284). -/
def State.atOperand (s : State) (p : EaePre) : State := { s.preStepped p with pc := incPC s.cfg s.pc }

/-- The processor read that gives a word of the class its operand. -/
theorem State.inlineOperand_eq (s : State) (p : EaePre) :
    (s.eaePre p).inlineOperand = (s.atOperand p).cpuRead s.pc .read := by
  rw [s.eaePre_eq]
  rfl

/-- The commands that read no operand, after the pre-steps. -/
theorem exec_eae_registers (p : EaePre) (n : BitVec 6) (s : State) :
    exec (.eae p .setup n) s = .next ((s.preStepped p).eaeSetup n)
    ∧ exec (.eae p .normalize n) s = .next ((s.preStepped p).eaeNormalize n)
    ∧ exec (.eae p .lrs n) s = .next ((s.preStepped p).eaeShift shiftRightStep n)
    ∧ exec (.eae p .lls n) s = .next ((s.preStepped p).eaeShift shiftLeftStep n)
    ∧ exec (.eae p .als n) s = .next ((s.preStepped p).eaeShift shiftAcStep n) := by
  rw [← s.eaePre_eq p]
  exact ⟨rfl, rfl, rfl, rfl, rfl⟩

theorem exec_eae_multiply (p : EaePre) (n : BitVec 6) (s : State) :
    exec (.eae p .multiply n) s =
      .next (((s.atOperand p).cpuRead s.pc .read).finish fun mb u => u.eaeMultiply p.sign n mb) := by
  rw [← s.inlineOperand_eq p]
  rfl

theorem exec_eae_divide (p : EaePre) (n : BitVec 6) (s : State) :
    exec (.eae p .divide n) s =
      .next (((s.atOperand p).cpuRead s.pc .read).finish fun mb u => u.eaeDivide p.sign n mb) := by
  rw [← s.inlineOperand_eq p]
  rfl

/-- With its operand there, a multiply and a divide run on it. -/
theorem exec_eae_of_operand {p : EaePre} {s u : State} {mb : Word} (n : BitVec 6)
    (h : (s.atOperand p).cpuRead s.pc .read = .done mb u) :
    exec (.eae p .multiply n) s = .next (u.eaeMultiply p.sign n mb)
      ∧ exec (.eae p .divide n) s = .next (u.eaeDivide p.sign n mb) := by
  rw [exec_eae_multiply, exec_eae_divide, h, Access.finish_done, Access.finish_done]
  exact ⟨rfl, rfl⟩

/-- Where the read of the operand is abandoned the word ends (R98). -/
theorem exec_eae_of_abandoned {p : EaePre} {s u : State} (n : BitVec 6)
    (h : (s.atOperand p).cpuRead s.pc .read = .abandoned u) :
    ∀ cmd ∈ [EaeCmd.multiply, .divide], exec (.eae p cmd n) s = .next u := by
  simp only [List.forall_mem_cons]
  refine ⟨?_, ?_, fun _ hi => absurd hi List.not_mem_nil⟩
  · rw [exec_eae_multiply, h, Access.finish_abandoned]
  · rw [exec_eae_divide, h, Access.finish_abandoned]

theorem eaeSequence : Clause.EaeSequence := by
  intro p n s neg mq1 t cmq omq
  obtain ⟨hsetup, hnormalize, hlrs, hlls, hals⟩ := exec_eae_registers p n s
  exact ⟨hsetup, hnormalize, hlrs, hlls, hals,
    fun pa h => exec_eae_of_operand n (State.cpuRead_ok (s := s.atOperand p) h),
    fun h => exec_eae_of_abandoned n (State.cpuRead_violation (s := s.atOperand p) h)⟩

/-! ## The commands -/

/-- A word, or its complement. -/
def flipIf (b : Bool) (w : Word) : Word := if b then ~~~w else w

theorem ite_not_eq_flipIf (b : Bool) (w : Word) : (if b then ~~~w else w) = flipIf b w := rfl

/-- The sign of a product or a quotient: where nothing is signed there is none. -/
theorem signed_bne (signed a b : Bool) :
    (signed && ((signed && a) != (signed && b))) = ((signed && a) != (signed && b)) := by
  cases signed <;> rfl

/-- A multiply as the rule repeats it on numbers, from a state that the pre-steps left (R281, R285). -/
theorem State.eaeMultiply_eq {u : State} {signed acneg : Bool} (hneg : u.eaeAcSign = (signed && acneg)) (n : BitVec 6)
    (mb : Word) :
    u.eaeMultiply signed n mb =
      let neg := signed && acneg
      let mneg := signed && mb.getMsbD 0
      let r := Nat.repeat (mulStepNat (flipIf mneg mb).toNat) n.toNat (u.ac.toNat, (flipIf neg u.mq).toNat)
      let psign := neg != mneg
      { u with ac := flipIf psign (BitVec.ofNat 18 r.1), mq := flipIf psign (BitVec.ofNat 18 r.2), l := psign, sc := 0 } := by
  unfold State.eaeMultiply
  simp only [hneg, mulLoop_eq, signed_bne]
  rfl

/-- A divide as the rule repeats it on numbers (R281, R287). -/
theorem State.eaeDivide_eq {u : State} {signed acneg : Bool} (hneg : u.eaeAcSign = (signed && acneg)) (n : BitVec 6)
    (mb : Word) :
    u.eaeDivide signed n mb =
      let neg := signed && acneg
      let mq := flipIf neg u.mq
      let dneg := signed && mb.getMsbD 0
      let dv := (flipIf dneg mb).toNat
      let r := Nat.repeat (divStepNat dv) (n.toNat - 1) (u.ac.toNat, mq.toNat)
      if dv ≤ u.ac.toNat then { u with mq := mq, l := true }
      else if u.ac = 0 ∧ mq = 0 then { u with mq := 0, l := false, sc := 0 }
      else
        { u with
          ac := flipIf neg (BitVec.ofNat 18 r.1), mq := flipIf (neg != dneg) (BitVec.ofNat 18 r.2), l := false, sc := 0 } := by
  unfold State.eaeDivide
  simp only [hneg, divLoop_eq, signed_bne, ite_not_eq_flipIf]
  split
  · rfl
  · split
    · next hzero =>
      rw [hzero.2]
    · rfl

theorem eaeCommandLoops : Clause.EaeCommandLoops := by
  intro p n s neg mq1 t flip mq multiplied divided u traps v ones right left
  have hoperand : ∀ (b : Bool) (mb : Word), u.cpuRead s.pc .read = .done mb { u with nexm := b } →
      exec (.eae p .multiply n) s = .next (multiplied { u with nexm := b } mb)
      ∧ exec (.eae p .divide n) s = .next (divided { u with nexm := b } mb) := by
    intro b mb h
    obtain ⟨hm, hd⟩ := exec_eae_of_operand (p := p) n h
    exact ⟨hm.trans (congrArg _ (State.eaeMultiply_eq rfl n mb)), hd.trans (congrArg _ (State.eaeDivide_eq rfl n mb))⟩
  have htraps : u.nxmTraps = true ↔ traps := s.nxmTraps_iff
  have hn : n.toNat ≤ 63 := Nat.le_of_lt_succ n.isLt
  obtain ⟨-, hnormalize, hlrs, hlls, hals⟩ := exec_eae_registers p n s
  refine ⟨fun pa h => ?_, fun h hno => ?_, fun h hyes => ?_, ?_, ?_, ?_, ?_⟩
  · exact hoperand s.nexm _ (State.cpuRead_ok (s := u) h)
  · exact hoperand true v (State.cpuRead_nonExistent (s := u) h (Bool.eq_false_iff.mpr (hno ∘ htraps.mp)))
  · exact exec_eae_of_abandoned n (State.cpuRead_nonExistent_traps (s := u) h (htraps.mpr hyes))
  · obtain ⟨k, hk, hloop, hbefore, hafter⟩ := normLoop_left t.l t.ac t.mq hn
    refine ⟨k, hk, hnormalize.trans ?_, hbefore, hafter⟩
    change Host.Outcome.next (t.eaeNormalize n) = _
    rw [State.eaeNormalize, hloop]
    rfl
  · refine hlrs.trans ?_
    change Host.Outcome.next (t.eaeShift shiftRightStep n) = _
    rw [State.eaeShift, shiftLoop_right t.l t.ac t.mq hn]
    rfl
  · refine hlls.trans ?_
    change Host.Outcome.next (t.eaeShift shiftLeftStep n) = _
    rw [State.eaeShift, shiftLoop_left t.l t.ac t.mq hn]
    rfl
  · refine hals.trans ?_
    change Host.Outcome.next (t.eaeShift shiftAcStep n) = _
    rw [State.eaeShift, shiftLoop_ac t.l t.ac t.mq hn]
    rfl

/-! ## The named words -/

/-- The count of an EAE word is its low six bits (R140). -/
theorem eaeWord_count (p : EaePre) (cmd : EaeCmd) (n : BitVec 6) : eaeWord p cmd n = eaeWord p cmd 0 ||| n.setWidth 18 := by
  refine BitVec.eq_of_toNat_eq ?_
  have hn : n.toNat < 2 ^ 6 := n.isLt
  obtain ⟨top, hword⟩ : ∃ top, ∀ k : BitVec 6, (eaeWord p cmd k).toNat = 2 ^ 6 * top + k.toNat :=
    ⟨_, fun k => (toNat_append_eq_add _ k).trans (congrArg (· + k.toNat) (Nat.mul_comm _ _))⟩
  rw [BitVec.toNat_or, BitVec.toNat_setWidth, Nat.mod_eq_of_lt (hn.trans (by decide)), hword n, hword 0,
    show (0 : BitVec 6).toNat = 0 from rfl, Nat.add_zero]
  exact Nat.two_pow_add_eq_or_of_lt hn _

theorem namedEaeWords : Clause.NamedEaeWords := by
  intro n s
  have hcount : ∀ (p : EaePre) (cmd : EaeCmd) (w : Word), eaeWord p cmd 0 = w → eaeWord p cmd n = w ||| n.setWidth 18 := by
    rintro p cmd w rfl
    exact eaeWord_count p cmd n
  simp only [List.forall_mem_cons]
  iterate 19 refine ⟨⟨by decide, by decide, rfl⟩, ?_⟩
  iterate 6 refine ⟨⟨hcount _ _ _ (by decide), hcount _ _ _ (by decide), rfl⟩, ?_⟩
  exact fun _ hi => absurd hi List.not_mem_nil

/-- Settles O41: the pre-steps and the operand, the loops of the commands, and the named words. -/
theorem extendedArithmeticSequence : Obligations.ExtendedArithmeticSequence :=
  ⟨eaeSequence, eaeCommandLoops, namedEaeWords⟩

end Sys2Proof.Machine
end

section
/-! The formats of a word, read both ways: a word is a format's word exactly when its fields are the format's operands (R131 to
R140). A mask test is a test of the field under the mask. -/

namespace Sys2Proof

/-! ## Fields -/

/-- The bits of `w` from bit `s` (counted from the least significant) are `x`. -/
def FieldIs (w : Word) (s : Nat) {n : Nat} (x : BitVec n) : Prop := w.extractLsb' s n = x

theorem eq_iff_fieldIs {w x : Word} : x = w ↔ FieldIs w 0 x := by
  rw [FieldIs, BitVec.extractLsb'_eq_self, eq_comm]

theorem fieldIs_append {w : Word} {s m n : Nat} {x : BitVec m} {y : BitVec n} :
    FieldIs w s (x ++ y) ↔ FieldIs w (s + n) x ∧ FieldIs w s y := by
  have hsplit : w.extractLsb' s (m + n) = w.extractLsb' (s + n) m ++ w.extractLsb' s n :=
    (BitVec.extractLsb'_append_extractLsb'_eq_extractLsb' rfl).symm
  rw [FieldIs, hsplit]
  refine ⟨fun h => ⟨?_, ?_⟩, ?_⟩
  · have hhigh := congrArg (BitVec.extractLsb' n m) h
    rwa [BitVec.extractLsb'_append_eq_left, BitVec.extractLsb'_append_eq_left] at hhigh
  · have hlow := congrArg (BitVec.extractLsb' 0 n) h
    rwa [BitVec.extractLsb'_append_eq_right, BitVec.extractLsb'_append_eq_right] at hlow
  · rintro ⟨rfl, rfl⟩
    rfl

/-- A field of one bit, by the bit's number in the spec (R14). -/
theorem fieldIs_ofBool {w : Word} {s : Nat} {b : Bool} (hs : s < 18) :
    FieldIs w s (BitVec.ofBool b) ↔ w.getMsbD (17 - s) = b := by
  have hbit : w.getMsbD (17 - s) = (w.extractLsb' s 1 == 1#1) := by
    rw [BitVec.getMsbD_eq_getLsbD, decide_eq_true (show 17 - s < 18 by omega), Bool.true_and,
      show 18 - 1 - (17 - s) = s by omega, BitVec.getLsbD_eq_extractLsb']
  rw [FieldIs, hbit]
  generalize w.extractLsb' s 1 = x
  revert x b
  decide

/-- The opcode with IR<4>. -/
theorem fieldIs_opcode_bit {w : Word} (op : BitVec 4) (b : Bool) :
    FieldIs w 13 (op ++ BitVec.ofBool b) ↔ w.extractLsb' 14 4 = op ∧ w.getMsbD 4 = b := by
  rw [fieldIs_append, fieldIs_ofBool (by decide)]
  rfl

/-- An index operate is opcode 14 with IR<4> (R142). -/
theorem fieldIs_index {w : Word} : FieldIs w 13 0b11101#5 ↔ w.extractLsb' 14 4 = 14 ∧ w.getMsbD 4 = true :=
  fieldIs_opcode_bit 14 true

/-- The operate group is opcode 15 without IR<4>, LAW with it (R133). -/
theorem fieldIs_operate {w : Word} : FieldIs w 13 0b11110#5 ↔ w.extractLsb' 14 4 = 15 ∧ w.getMsbD 4 = false :=
  fieldIs_opcode_bit 15 false

theorem fieldIs_law {w : Word} : FieldIs w 13 0b11111#5 ↔ w.extractLsb' 14 4 = 15 ∧ w.getMsbD 4 = true :=
  fieldIs_opcode_bit 15 true

/-- An FP15 word is opcode 14 with 01 in IR<4:5> (R138, R142). -/
theorem fieldIs_fp15 {w : Word} : FieldIs w 12 0b111001#6 ↔ w.extractLsb' 14 4 = 14 ∧ w.extractLsb' 12 2 = 1 :=
  fieldIs_append (x := 14#4) (y := 1#2)

/-- IR<4> is the first of IR<4:5>. -/
theorem getMsbD_of_field (w : Word) : (w.extractLsb' 12 2).getMsbD 0 = w.getMsbD 4 := by
  simp [BitVec.getMsbD_eq_getLsbD]

/-- A word masked to a field has the field's value there exactly when the field is that value. -/
theorem and_fieldMask_eq_iff {w mask value : Word} (s : Nat) {n : Nat} (x : BitVec n)
    (hmask : mask = (BitVec.allOnes n).setWidth 18 <<< s) (hvalue : value = x.setWidth 18 <<< s) (hs : s + n ≤ 18) :
    w &&& mask = value ↔ w.extractLsb' s n = x := by
  subst hmask hvalue
  refine ⟨fun h => ?_, ?_⟩
  · ext i hi
    have := congrArg (BitVec.getLsbD · (s + i)) h
    simpa [hi, show s + i < 18 by omega, show i < 18 by omega] using this
  · rintro rfl
    ext i hi
    by_cases hlow : i < s
    · simp [hlow]
    · simp [hi, hlow, Nat.add_sub_cancel' (Nat.not_lt.mp hlow), Bool.and_comm]

/-! ## The formats -/

theorem calWord_eq_iff {ign : BitVec 14} {w : Word} :
    0#4 ++ ign = w ↔ w.extractLsb' 14 4 = 0 ∧ w.extractLsb' 0 14 = ign :=
  eq_iff_fieldIs.trans fieldIs_append

theorem memWord_eq_iff {op : BitVec 4} {m : MemOperand} {w : Word} :
    memWord op m = w ↔ w.extractLsb' 14 4 = op ∧ memOperandOf w = m := by
  obtain ⟨ind, y⟩ := m
  rw [eq_iff_fieldIs, memWord]
  repeat rw [fieldIs_append]
  simp only [fieldIs_ofBool, memOperandOf, MemOperand.mk.injEq, and_assoc, Nat.reduceLT, Nat.reduceSub,
    Nat.reduceAdd]
  rfl

theorem operateWord_eq_iff {o : OperateOps} {w : Word} :
    operateWord o = w ↔ w.extractLsb' 14 4 = 15 ∧ w.getMsbD 4 = false ∧ operateOpsOf w = o := by
  obtain ⟨cla, cll, rtwo, skp, snl, sza, sma, hlt, rar, ral, oas, cml, cma⟩ := o
  rw [eq_iff_fieldIs, operateWord]
  repeat rw [fieldIs_append]
  simp only [fieldIs_ofBool, fieldIs_operate, operateOpsOf, OperateOps.mk.injEq, and_assoc, Nat.reduceLT, Nat.reduceSub,
    Nat.reduceAdd]

theorem lawWord_eq_iff {n : BitVec 13} {w : Word} :
    0b11111#5 ++ n = w ↔ w.extractLsb' 14 4 = 15 ∧ w.getMsbD 4 = true ∧ w.extractLsb' 0 13 = n :=
  eq_iff_fieldIs.trans (fieldIs_append.trans ((and_congr_left' fieldIs_law).trans and_assoc))

theorem indexWord_eq_iff {sub : BitVec 4} {imm : BitVec 9} {w : Word} :
    indexWord sub imm = w ↔
      w.extractLsb' 14 4 = 14 ∧ w.getMsbD 4 = true ∧ w.extractLsb' 9 4 = sub ∧ w.extractLsb' 0 9 = imm := by
  rw [eq_iff_fieldIs, indexWord]
  repeat rw [fieldIs_append]
  simp only [fieldIs_index, and_assoc, Nat.reduceAdd]
  rfl

theorem iotWord_eq_iff {o : IotWord} {w : Word} : iotWord o = w ↔ w.extractLsb' 14 4 = 14 ∧ iotWordOf w = o := by
  obtain ⟨ign, dev, sdev, cla, pulse⟩ := o
  rw [eq_iff_fieldIs, iotWord]
  repeat rw [fieldIs_append]
  simp only [fieldIs_ofBool, iotWordOf, IotWord.mk.injEq, and_assoc, Nat.reduceLT, Nat.reduceSub,
    Nat.reduceAdd]
  rfl

theorem eaeWord_eq_iff {p : EaePre} {cmd : EaeCmd} {n : BitVec 6} {w : Word} :
    eaeWord p cmd n = w ↔
      w.extractLsb' 14 4 = 13 ∧ eaePreOf w = p ∧ w.extractLsb' 6 3 = cmd.bits ∧ w.extractLsb' 0 6 = n := by
  obtain ⟨sgnl, clq, sign, acmq, cla⟩ := p
  rw [eq_iff_fieldIs, eaeWord]
  repeat rw [fieldIs_append]
  simp only [fieldIs_ofBool, eaePreOf, EaePre.mk.injEq, and_assoc, Nat.reduceLT, Nat.reduceSub,
    Nat.reduceAdd]
  rfl

theorem fpWord_eq_iff {subop : BitVec 4} {m : FpMods} {w : Word} :
    fpWord subop m = w ↔
      w.extractLsb' 14 4 = 14 ∧ w.extractLsb' 12 2 = 1 ∧ w.extractLsb' 8 4 = subop ∧ w.getMsbD 15 = false
        ∧ fpModsOf w = m := by
  obtain ⟨noload, dp, fp, nonorm, nornd, sgn⟩ := m
  rw [eq_iff_fieldIs, fpWord]
  repeat rw [fieldIs_append]
  simp only [fieldIs_ofBool, fieldIs_fp15, fpModsOf, FpMods.mk.injEq, and_assoc, Nat.reduceLT, Nat.reduceSub,
    Nat.reduceAdd, show 0#1 = BitVec.ofBool false from rfl]
  tauto

theorem brWord_eq_iff {b : BrConds} {w : Word} :
    brWord b = w ↔
      w.extractLsb' 14 4 = 14 ∧ w.extractLsb' 12 2 = 1 ∧ w.extractLsb' 8 4 = 0o15 ∧ w.getMsbD 15 = false
        ∧ brCondsOf w = b := by
  obtain ⟨ign, zero, positive, negative, grd, reverse⟩ := b
  rw [eq_iff_fieldIs, brWord]
  repeat rw [fieldIs_append]
  simp only [fieldIs_ofBool, fieldIs_fp15, brCondsOf, BrConds.mk.injEq, and_assoc, Nat.reduceLT, Nat.reduceSub,
    Nat.reduceAdd, show 0#1 = BitVec.ofBool false from rfl]
  tauto

end Sys2Proof
end

section
/-! The names of an operate, EAE and IOT word: each is an instruction with that word, well-formed where the class is (R137,
R207, R230, R291). -/

namespace Sys2Proof

theorem mem_of_lookup_eq_some {κ ι : Type} [BEq κ] [LawfulBEq κ] {rows : List (κ × ι)} {k : κ} {i : ι}
    (h : rows.lookup k = some i) : (k, i) ∈ rows := by
  obtain ⟨before, after, rfl, -⟩ := List.lookup_eq_some_iff.mp h
  simp

/-! ## Operate words -/

/-- A row of R207: its word, its name, and the variant it needs (R143). -/
theorem operateRows_spec : ∀ row ∈ operateRows,
    encode row.2 = operateWord row.1 ∧ nameOperate row.1 = row.2
      ∧ ∀ c, WellFormed c row.2 = (!row.1.rotExtra || c.variant == .VD) := by
  simp only [operateRows, List.forall_mem_cons]
  iterate 28 refine ⟨⟨by decide, by decide, fun _ => rfl⟩, ?_⟩
  exact fun _ h => absurd h List.not_mem_nil

theorem nameOperate_spec (o : OperateOps) :
    encode (nameOperate o) = operateWord o
      ∧ ∀ c, WellFormed c (nameOperate o) = (!o.rotExtra || c.variant == .VD) := by
  cases h : operateRows.lookup o with
  | none =>
    have hname : nameOperate o = .opr o := by rw [nameOperate, h]; rfl
    rw [hname]
    exact ⟨rfl, fun c => by rw [WellFormed, hname, beq_self_eq_true, Bool.and_true]⟩
  | some i =>
    obtain ⟨hword, hname, hwf⟩ := operateRows_spec _ (mem_of_lookup_eq_some h)
    rw [hname]
    exact ⟨hword, hwf⟩

/-! ## EAE words -/

/-- A row of R291: its word, its name, and the option it needs (R145). -/
theorem eaeRows_spec : ∀ row ∈ eaeRows,
    encode row.2 = eaeWord row.1.1 row.1.2.1 row.1.2.2 ∧ nameEae row.1.1 row.1.2.1 row.1.2.2 = row.2
      ∧ ∀ c, WellFormed c row.2 = c.hasEAE := by
  simp only [eaeRows, List.forall_mem_cons]
  iterate 19 refine ⟨⟨by decide, by decide, fun _ => rfl⟩, ?_⟩
  exact fun _ h => absurd h List.not_mem_nil

theorem nameEae_spec (p : EaePre) (cmd : EaeCmd) (n : BitVec 6) :
    encode (nameEae p cmd n) = eaeWord p cmd n ∧ ∀ c, WellFormed c (nameEae p cmd n) = c.hasEAE := by
  by_cases hgeneral : nameEae p cmd n = .eae p cmd n
  · rw [hgeneral]
    exact ⟨rfl, fun c => by rw [WellFormed, hgeneral, beq_self_eq_true, Bool.and_true]⟩
  · generalize hname : nameEae p cmd n = i at hgeneral ⊢
    cases h : eaeRows.lookup (p, cmd, n) with
    | some row =>
      obtain ⟨hword, hrow, hwf⟩ := eaeRows_spec _ (mem_of_lookup_eq_some h)
      rw [← hname, hrow]
      exact ⟨hword, hwf⟩
    | none =>
      rw [nameEae, h] at hname
      iterate 6
        split at hname
        next hshift =>
          obtain ⟨rfl, rfl⟩ := hshift
          exact hname ▸ ⟨rfl, fun _ => rfl⟩
      exact absurd hname.symm hgeneral

/-! ## IOT words -/

/-- The pulse code has the subdevice above a 0 and the pulses (R136), so it names both. -/
theorem IotWord.code_toNat (o : IotWord) : o.code.toNat = o.sdev.toNat * 16 + o.pulse.toNat := by
  rw [IotWord.code, Machine.toNat_append_eq_add, Machine.toNat_append_eq_add, BitVec.toNat_ofNat]
  omega

theorem IotWord.eq_of_code {o : IotWord} {d k : Nat} (hdev : o.dev.toNat = d) (hcode : o.code.toNat = k) :
    o = ⟨o.ign, BitVec.ofNat 6 d, BitVec.ofNat 2 (k / 16), o.cla, BitVec.ofNat 3 (k % 16)⟩ := by
  rw [IotWord.code_toNat] at hcode
  subst hdev hcode
  obtain ⟨ign, dev, sdev, cla, pulse⟩ := o
  have hpulse : pulse.toNat < 8 := pulse.isLt
  have hsubdevice : (sdev.toNat * 16 + pulse.toNat) / 16 = sdev.toNat := by omega
  have hpulses : (sdev.toNat * 16 + pulse.toNat) % 16 = pulse.toNat := by omega
  simp only [hsubdevice, hpulses, BitVec.ofNat_toNat, BitVec.setWidth_eq]

theorem nameIot_spec (o : IotWord) :
    encode (nameIot o) = iotWord o ∧ ∀ c, WellFormed c (nameIot o) = iotIgnOk c o.ign := by
  by_cases hgeneral : nameIot o = .iot o
  · rw [hgeneral]
    exact ⟨rfl, fun c => by rw [WellFormed, hgeneral, beq_self_eq_true, Bool.and_true]⟩
  · generalize hname : nameIot o = i at hgeneral ⊢
    unfold nameIot at hname
    split at hname
    -- no name: excluded by the case split
    case h_24 => exact absurd hname.symm hgeneral
    -- MPCV and MPRMR differ in the clear bit alone (R251, R255)
    case h_23 hdev hcode =>
      have ho := IotWord.eq_of_code hdev hcode
      cases hclear : o.cla <;> rw [hclear] at ho hname <;>
        exact hname ▸ ⟨congrArg iotWord ho.symm, fun _ => rfl⟩
    all_goals
      next hdev hcode =>
        exact hname ▸ ⟨congrArg iotWord (IotWord.eq_of_code hdev hcode).symm, fun _ => rfl⟩

end Sys2Proof
end

section
/-! The decoder: to each word it gives the instruction whose word it is, or rejects it as malformed, and to a format's word the
instruction of its operands (R131 to R145). -/

namespace Sys2Proof

/-! ## What the decoder answers -/

/-- The malformed words, by their fields (R142, R143, R145, R222, R292; log entry 28). -/
def Malformed (c : Cfg) (w : Word) : Prop :=
  (w.extractLsb' 14 4 = 13 ∧ (c.hasEAE = false ∨ w.extractLsb' 6 3 = 2))
  ∨ ((w.extractLsb' 14 4 = 14 ∧ w.extractLsb' 12 2 = 1) ∧ c.hasFP15 = true
      ∧ (w.getMsbD 15 = true ∨ w.extractLsb' 8 4 = 0 ∨ w.extractLsb' 8 4 = 0o16 ∨ w.extractLsb' 8 4 = 0o17))
  ∨ ((w.extractLsb' 14 4 = 14 ∧ w.getMsbD 4 = true) ∧ c.hasIndex = true
      ∧ (w.extractLsb' 9 4 = 0 ∨ w.extractLsb' 9 4 = 0o07 ∨ w.extractLsb' 9 4 = 0o12 ∨ w.extractLsb' 9 4 = 0o13))
  ∨ ((w.extractLsb' 14 4 = 15 ∧ w.getMsbD 4 = false) ∧ c.variant ≠ .VD ∧ (operateOpsOf w).rotExtra = true)

/-- The right answer to a word: an instruction whose word it is and which is well-formed, or a rejection of a malformed word. -/
inductive Answers (c : Cfg) (w : Word) : Except Reject Instr → Prop where
  | ok {i : Instr} (hformed : ¬ Malformed c w) (hword : encode i = w) (hwf : WellFormed c i = true) : Answers c w (.ok i)
  | error {e : Reject} (hmalformed : Malformed c w) : Answers c w (.error e)

section
variable {c : Cfg} {w : Word}

theorem Answers.error_iff {r : Except Reject Instr} (h : Answers c w r) : (∃ e, r = .error e) ↔ Malformed c w := by
  cases h with
  | ok hformed => exact iff_of_false (fun ⟨_, h⟩ => nomatch h) hformed
  | error hmalformed => exact iff_of_true ⟨_, rfl⟩ hmalformed

theorem not_malformed_of_memory (hop : (w.extractLsb' 14 4).toNat < 13) : ¬ Malformed c w := by
  rintro (⟨h, -⟩ | ⟨⟨h, -⟩, -⟩ | ⟨⟨h, -⟩, -⟩ | ⟨⟨h, -⟩, -⟩) <;> simp [h] at hop

theorem malformed_eae_iff (hop : w.extractLsb' 14 4 = 13) :
    Malformed c w ↔ c.hasEAE = false ∨ w.extractLsb' 6 3 = 2 := by
  simp [Malformed, hop]

theorem malformed_fp15_iff (hop : w.extractLsb' 14 4 = 14) (hfp : w.extractLsb' 12 2 = 1) (hc : c.hasFP15 = true) :
    Malformed c w ↔
      w.getMsbD 15 = true ∨ w.extractLsb' 8 4 = 0 ∨ w.extractLsb' 8 4 = 0o16 ∨ w.extractLsb' 8 4 = 0o17 := by
  have hbit : w.getMsbD 4 = false := by rw [← getMsbD_of_field, hfp]; rfl
  simp [Malformed, hop, hfp, hc, hbit]

/-- A word with IR<4> is no FP15 word (R142). -/
theorem not_fp15_of_bit (hbit : w.getMsbD 4 = true) : w.extractLsb' 12 2 ≠ 1#2 := fun h => by
  rw [← getMsbD_of_field, h] at hbit
  cases hbit

theorem malformed_index_iff (hop : w.extractLsb' 14 4 = 14) (hbit : w.getMsbD 4 = true) (hc : c.hasIndex = true) :
    Malformed c w ↔
      w.extractLsb' 9 4 = 0 ∨ w.extractLsb' 9 4 = 0o07 ∨ w.extractLsb' 9 4 = 0o12 ∨ w.extractLsb' 9 4 = 0o13 := by
  simp [Malformed, hop, hbit, hc, not_fp15_of_bit hbit]

theorem malformed_operate_iff (hop : w.extractLsb' 14 4 = 15) (hbit : w.getMsbD 4 = false) :
    Malformed c w ↔ c.variant ≠ .VD ∧ (operateOpsOf w).rotExtra = true := by
  simp [Malformed, hop, hbit]

/-- The values of the command field: the reserved one, or a command's. -/
theorem eaeCmd_of_field (x : BitVec 3) : x = 2 ∨ ∃ cmd : EaeCmd, x = cmd.bits := by
  have hall : ∀ x : BitVec 3,
      x = 2 ∨ x ∈ [EaeCmd.setup, .multiply, .divide, .normalize, .lrs, .lls, .als].map EaeCmd.bits := by decide
  refine (hall x).imp_right fun h => ?_
  obtain ⟨cmd, -, hcmd⟩ := List.mem_map.mp h
  exact ⟨cmd, hcmd.symm⟩

theorem decodeEae_of_reserved (h : w.extractLsb' 6 3 = 2) : decodeEae w = .error .eaeCmdReserved := by
  rw [decodeEae, h]
  rfl

theorem decodeEae_of_cmd {cmd : EaeCmd} (h : w.extractLsb' 6 3 = cmd.bits) :
    decodeEae w = .ok (nameEae (eaePreOf w) cmd (w.extractLsb' 0 6)) := by
  rw [decodeEae, h]
  cases cmd <;> rfl

theorem decodeEae_answers (hop : w.extractLsb' 14 4 = 13) (hc : c.hasEAE = true) : Answers c w (decodeEae w) := by
  have hbad := malformed_eae_iff (c := c) hop
  obtain hcmd | ⟨cmd, hcmd⟩ := eaeCmd_of_field (w.extractLsb' 6 3)
  · rw [decodeEae_of_reserved hcmd]
    exact .error (hbad.mpr (.inr hcmd))
  · obtain ⟨hword, hwf⟩ := nameEae_spec (eaePreOf w) cmd (w.extractLsb' 0 6)
    rw [decodeEae_of_cmd hcmd]
    refine .ok ?_ (hword.trans (eaeWord_eq_iff.mpr ⟨hop, rfl, hcmd, rfl⟩)) ((hwf c).trans hc)
    rw [hbad, hc, hcmd]
    cases cmd <;> decide

theorem decodeFp15_answers (hop : w.extractLsb' 14 4 = 14) (hfp : w.extractLsb' 12 2 = 1) (hc : c.hasFP15 = true) :
    Answers c w (decodeFp15 w) := by
  have hbad := malformed_fp15_iff hop hfp hc
  unfold decodeFp15
  split
  next hbit => exact .error (hbad.mpr (.inl hbit))
  next hbit =>
    rw [Bool.not_eq_true] at hbit
    split
    case h_14 =>
      refine .error (hbad.mpr (.inr ?_))
      simp only [← BitVec.toNat_inj]
      have hlt : (w.extractLsb' 8 4).toNat < 16 := (w.extractLsb' 8 4).isLt
      change _ = 0 ∨ _ = 14 ∨ _ = 15
      simp only [imp_false] at *
      omega
    case h_13 hsub =>
      have hsub := BitVec.eq_of_toNat_eq (y := 0o15) hsub
      exact .ok (by simp [hbad, hbit, hsub]) (brWord_eq_iff.mpr ⟨hop, hfp, hsub, hbit, rfl⟩) hc
    all_goals
      next hsub =>
        refine .ok ?_ (fpWord_eq_iff.mpr ⟨hop, hfp, BitVec.eq_of_toNat_eq hsub, hbit, rfl⟩) hc
        rw [hbad]
        simp [hbit, ← BitVec.toNat_inj, hsub]

theorem decodeIndex_answers (hop : w.extractLsb' 14 4 = 14) (hbit : w.getMsbD 4 = true) (hc : c.hasIndex = true) :
    Answers c w (decodeIndex w) := by
  have hbad := malformed_index_iff hop hbit hc
  unfold decodeIndex
  split
  case h_13 =>
    refine .error (hbad.mpr ?_)
    simp only [← BitVec.toNat_inj]
    have hlt : (w.extractLsb' 9 4).toNat < 16 := (w.extractLsb' 9 4).isLt
    change _ = 0 ∨ _ = 7 ∨ _ = 10 ∨ _ = 11
    simp only [imp_false] at *
    omega
  all_goals
    next hsub =>
      refine .ok ?_ (indexWord_eq_iff.mpr ⟨hop, hbit, BitVec.eq_of_toNat_eq hsub, rfl⟩) hc
      rw [hbad]
      simp [← BitVec.toNat_inj, hsub]

theorem decodeOperate_answers (hop : w.extractLsb' 14 4 = 15) (hbit : w.getMsbD 4 = false) :
    Answers c w (decodeOperate c (operateOpsOf w)) := by
  have hbad := malformed_operate_iff (c := c) hop hbit
  obtain ⟨hword, hwf⟩ := nameOperate_spec (operateOpsOf w)
  unfold decodeOperate
  split
  next hrot =>
    rw [Bool.and_eq_true, bne_iff_ne] at hrot
    exact .error (hbad.mpr hrot.symm)
  next hrot =>
    refine .ok (fun h => hrot ?_) (hword.trans (operateWord_eq_iff.mpr ⟨hop, hbit, rfl⟩)) ((hwf c).trans ?_)
    · rw [Bool.and_eq_true, bne_iff_ne]
      exact (hbad.mp h).symm
    · simpa [imp_iff_not_or] using hrot

/-! ## Where the decoder goes -/

theorem decode_opcode13 (hop : w.extractLsb' 14 4 = 13) :
    decode c w = if c.hasEAE then decodeEae w else .error .eaeAbsent := by
  rw [decode, hop]
  rfl

theorem decode_opcode14 (hop : w.extractLsb' 14 4 = 14) :
    decode c w =
      if c.hasFP15 && w.extractLsb' 12 2 == 1#2 then decodeFp15 w
      else if c.hasIndex && w.getMsbD 4 then decodeIndex w
      else .ok (nameIot (iotWordOf w)) := by
  rw [decode, hop]
  rfl

theorem decode_opcode15 (hop : w.extractLsb' 14 4 = 15) :
    decode c w =
      if w.getMsbD 4 then .ok (.law (w.extractLsb' 0 13)) else decodeOperate c (operateOpsOf w) := by
  rw [decode, hop]
  rfl

/-- The ignored bits of an IOT are free exactly where the decoder reaches the IOT branch (R142, R144). -/
theorem iotIgnOk_iff :
    iotIgnOk c (w.extractLsb' 12 2) = true ↔
      ¬(c.hasFP15 && w.extractLsb' 12 2 == 1#2) = true ∧ ¬(c.hasIndex && w.getMsbD 4) = true := by
  rw [iotIgnOk, getMsbD_of_field]
  cases c.hasFP15 <;> cases c.hasIndex <;> simp

theorem decode_memory_answers (hop : (w.extractLsb' 14 4).toNat < 13) : Answers c w (decode c w) := by
  have hformed : ¬ Malformed c w := not_malformed_of_memory hop
  unfold decode
  split
  case h_1 hop => exact .ok hformed (calWord_eq_iff.mpr ⟨BitVec.eq_of_toNat_eq hop, rfl⟩) rfl
  case h_14 h | h_15 h => exact absurd hop (by rw [h]; decide)
  case h_16 => simp only [imp_false] at *; omega
  all_goals
    next hop => exact .ok hformed (memWord_eq_iff.mpr ⟨BitVec.eq_of_toNat_eq hop, rfl⟩) rfl

theorem decode_transfer_answers (hop : w.extractLsb' 14 4 = 14) : Answers c w (decode c w) := by
  rw [decode_opcode14 hop]
  split
  next hfp =>
    rw [Bool.and_eq_true, beq_iff_eq] at hfp
    exact decodeFp15_answers hop hfp.2 hfp.1
  next hfp =>
    split
    next hindex =>
      rw [Bool.and_eq_true] at hindex
      exact decodeIndex_answers hop hindex.2 hindex.1
    next hindex =>
      obtain ⟨hword, hwf⟩ := nameIot_spec (iotWordOf w)
      refine .ok ?_ (hword.trans (iotWord_eq_iff.mpr ⟨hop, rfl⟩)) ((hwf c).trans (iotIgnOk_iff.mpr ⟨hfp, hindex⟩))
      rintro (⟨h, -⟩ | ⟨⟨-, h⟩, hc, -⟩ | ⟨⟨-, h⟩, hc, -⟩ | ⟨⟨h, -⟩, -⟩)
      · exact absurd (hop.symm.trans h) (by decide)
      · exact hfp (by rw [hc, h]; rfl)
      · exact hindex (by rw [hc, h]; rfl)
      · exact absurd (hop.symm.trans h) (by decide)

theorem decode_answers (c : Cfg) (w : Word) : Answers c w (decode c w) := by
  have hopcodes : ∀ x : BitVec 4, x.toNat < 13 ∨ x = 13 ∨ x = 14 ∨ x = 15 := by decide
  obtain hop | hop | hop | hop := hopcodes (w.extractLsb' 14 4)
  · exact decode_memory_answers hop
  · rw [decode_opcode13 hop]
    split
    next hc => exact decodeEae_answers hop hc
    next hc => exact .error ((malformed_eae_iff hop).mpr (.inl (Bool.not_eq_true _ ▸ hc)))
  · exact decode_transfer_answers hop
  · rw [decode_opcode15 hop]
    split
    next hbit => exact .ok (by simp [Malformed, hop, hbit]) (lawWord_eq_iff.mpr ⟨hop, hbit, rfl⟩) rfl
    next hbit => exact decodeOperate_answers hop (Bool.not_eq_true _ ▸ hbit)

end

/-! ## Decoding a word of a format -/

section
variable {c : Cfg} {i : Instr}

/-- The word of a format decodes to what every word with its fields decodes to. -/
theorem decode_memWord {op : BitVec 4} {m : MemOperand}
    (h : ∀ w, w.extractLsb' 14 4 = op → memOperandOf w = m → decode c w = .ok i) : decode c (memWord op m) = .ok i := by
  obtain ⟨hop, hm⟩ := memWord_eq_iff.mp (Eq.refl (memWord op m))
  exact h _ hop hm

theorem decode_indexWord {sub : BitVec 4} {imm : BitVec 9} (hc : c.hasIndex = true)
    (h : ∀ w, w.extractLsb' 9 4 = sub → w.extractLsb' 0 9 = imm → decodeIndex w = .ok i) :
    decode c (indexWord sub imm) = .ok i := by
  obtain ⟨hop, hbit, hsub, himm⟩ := indexWord_eq_iff.mp (Eq.refl (indexWord sub imm))
  rw [decode_opcode14 hop, beq_false_of_ne (not_fp15_of_bit hbit), hc, hbit, Bool.and_false]
  exact h _ hsub himm

theorem decode_fp15 {w : Word} (hop : w.extractLsb' 14 4 = 14) (hfp : w.extractLsb' 12 2 = 1) (hc : c.hasFP15 = true) :
    decode c w = decodeFp15 w := by
  rw [decode_opcode14 hop, hfp, hc]
  rfl

theorem decode_fpWord {sub : BitVec 4} {m : FpMods} (hc : c.hasFP15 = true)
    (h : ∀ w, w.extractLsb' 8 4 = sub → w.getMsbD 15 = false → fpModsOf w = m → decodeFp15 w = .ok i) :
    decode c (fpWord sub m) = .ok i := by
  obtain ⟨hop, hfp, hsub, hbit, hm⟩ := fpWord_eq_iff.mp (Eq.refl (fpWord sub m))
  exact (decode_fp15 hop hfp hc).trans (h _ hsub hbit hm)

theorem decode_brWord (b : BrConds) (hc : c.hasFP15 = true) : decode c (brWord b) = .ok (.br b) := by
  obtain ⟨hop, hfp, hsub, hbit, hb⟩ := brWord_eq_iff.mp (Eq.refl (brWord b))
  rw [decode_fp15 hop hfp hc, decodeFp15, hbit, hsub, hb]
  rfl

theorem decode_iotWord {o : IotWord} (hc : iotIgnOk c o.ign = true) (hname : nameIot o = i) :
    decode c (iotWord o) = .ok i := by
  obtain ⟨hop, ho⟩ := iotWord_eq_iff.mp (Eq.refl (iotWord o))
  have hign : iotIgnOk c ((iotWord o).extractLsb' 12 2) = true := (congrArg (iotIgnOk c ·.ign) ho).trans hc
  obtain ⟨hfp, hindex⟩ := iotIgnOk_iff.mp hign
  rw [decode_opcode14 hop, if_neg hfp, if_neg hindex, ho, hname]

theorem decode_eaeWord {p : EaePre} {cmd : EaeCmd} {n : BitVec 6} (hc : c.hasEAE = true) (hname : nameEae p cmd n = i) :
    decode c (eaeWord p cmd n) = .ok i := by
  obtain ⟨hop, hp, hcmd, hn⟩ := eaeWord_eq_iff.mp (Eq.refl (eaeWord p cmd n))
  rw [decode_opcode13 hop, if_pos hc, decodeEae_of_cmd hcmd, hp, hn, hname]

theorem decode_operateWord {o : OperateOps} (hc : (!o.rotExtra || c.variant == .VD) = true) (hname : nameOperate o = i) :
    decode c (operateWord o) = .ok i := by
  obtain ⟨hop, hbit, ho⟩ := operateWord_eq_iff.mp (Eq.refl (operateWord o))
  have hrot : ¬(o.rotExtra && c.variant != .VD) = true := by simpa [imp_iff_not_or] using hc
  rw [decode_opcode15 hop, hbit, ho, decodeOperate, if_neg hrot, hname]
  rfl

theorem decode_lawWord (n : BitVec 13) : decode c (0b11111#5 ++ n) = .ok (.law n) := by
  obtain ⟨hop, hbit, hn⟩ := lawWord_eq_iff.mp (Eq.refl (0b11111#5 ++ n))
  rw [decode_opcode15 hop, if_pos hbit, hn]

theorem decode_calWord (ign : BitVec 14) : decode c (0#4 ++ ign) = .ok (.cal ign) := by
  obtain ⟨hop, hign⟩ := calWord_eq_iff.mp (Eq.refl (0#4 ++ ign))
  rw [decode, hop, hign]
  rfl

theorem decode_encode_of_operateRow (hrow : i ∈ operateRows.map Prod.snd) (hwf : WellFormed c i = true) :
    decode c (encode i) = .ok i := by
  obtain ⟨row, hmem, rfl⟩ := List.mem_map.mp hrow
  obtain ⟨hword, hname, hvariant⟩ := operateRows_spec row hmem
  rw [hword, decode_operateWord (hvariant c ▸ hwf) hname]

theorem decode_encode_of_eaeRow (hrow : i ∈ eaeRows.map Prod.snd) (hwf : WellFormed c i = true) :
    decode c (encode i) = .ok i := by
  obtain ⟨row, hmem, rfl⟩ := List.mem_map.mp hrow
  obtain ⟨hword, hname, hoption⟩ := eaeRows_spec row hmem
  rw [hword, decode_eaeWord (hoption c ▸ hwf) hname]

end

/-! ## The round trips -/

/-- Settles O1: by the instruction's format, whose word decodes by its fields. -/
theorem decodeOfEncode : Obligations.DecodeOfEncode := by
  intro c i hwf
  cases i with
  | cal ign => exact decode_calWord ign
  | dac m | jms m | dzm m | lac m | xor m | add m | tad m | xct m | isz m | and m | sad m | jmp m =>
    exact decode_memWord fun w hop hm => by rw [decode, hop, hm]; rfl
  | opr o =>
    obtain ⟨hvariant, hname⟩ := Bool.and_eq_true_iff.mp hwf
    exact decode_operateWord hvariant (beq_iff_eq.mp hname)
  | nop | cma | cml | oas | ral | rar | iac | hlt | sma | sza | smaSza | snl | skp | spa | sna | spaSna | szl | rtl | rtr | bsw
  | cll | stl | rcl | rcr | cla | clc | las | glk => exact decode_encode_of_operateRow (by decide) hwf
  | law n => exact decode_lawWord n
  | pax imm | pal imm | aac imm | pxa imm | axs imm | pxl imm | pla imm | plx imm | clac imm | clx imm | cllr imm | axr imm =>
    exact decode_indexWord hwf fun w hsub himm => by rw [decodeIndex, hsub, himm]; rfl
  | iot o =>
    obtain ⟨hign, hname⟩ := Bool.and_eq_true_iff.mp hwf
    exact decode_iotWord hign (beq_iff_eq.mp hname)
  | iof f | ion f | iors f | caf f | dbk f | dbr f | mpsk f | mpcne f | mpld f | mplr f | mplmr f | mpsne f | mpeu f | semSba f
  | eem f | lem f | eba f | dba f | emirRes f | spi f | isa f | rpl f | mpcv ign | mprmr ign =>
    exact decode_iotWord hwf (by rw [nameIot, IotWord.code_toNat]; rfl)
  | eae p cmd n =>
    obtain ⟨hoption, hname⟩ := Bool.and_eq_true_iff.mp hwf
    exact decode_eaeWord hoption (beq_iff_eq.mp hname)
  | osc | omq | cmq | lacs | lacq | abs | clq | lmq | gsm | mul | muls | div | divs | idiv | idivs | frdiv | frdivs | norm
  | norms => exact decode_encode_of_eaeRow (by decide) hwf
  | lrs n | lrss n | lls n | llss n | als n | alss n => exact decode_eaeWord hwf rfl
  | fpSub m | fpRsub m | fpMul m | fpDiv m | fpRdiv m | ld m | st m | flt m | fix m | lfmq m | jea m | fpAdd m =>
    exact decode_fpWord hwf fun w hsub hbit hm => by rw [decodeFp15, hbit, hsub, hm]; rfl
  | br b => exact decode_brWord b hwf

/-- Settles O2: the decoder's answer is the right one. -/
theorem encodeOfDecode : Obligations.EncodeOfDecode := by
  intro c w i h
  have hanswer := decode_answers c w
  rw [h] at hanswer
  obtain ⟨-, hword, hwf⟩ := hanswer
  exact ⟨hword, hwf⟩

/-! ## The malformed words as the rules write them -/

theorem rotExtra_iff_mask (w : Word) : (operateOpsOf w).rotExtra = true ↔ w &&& 0o000030 = 0o000030 := by
  have hbits : FieldIs w 3 0b11#2 ↔ w.getMsbD 13 = true ∧ w.getMsbD 14 = true := by
    refine (fieldIs_append (x := BitVec.ofBool true) (y := BitVec.ofBool true)).trans ?_
    rw [fieldIs_ofBool (by decide), fieldIs_ofBool (by decide)]
  exact Bool.and_eq_true_iff.trans (hbits.symm.trans (and_fieldMask_eq_iff 3 0b11#2 (by decide) (by decide) (by decide)).symm)

theorem bit15_iff_mask (w : Word) : w.getMsbD 15 = true ↔ w &&& 0o000004 ≠ 0 := by
  rw [← Bool.not_eq_false]
  refine not_congr ((fieldIs_ofBool (s := 2) (b := false) (by decide)).symm.trans ?_)
  exact (and_fieldMask_eq_iff 2 0#1 (by decide) (by decide) (by decide)).symm

theorem fpSubop_iff_mask (w : Word) (x : BitVec 4) : w.extractLsb' 8 4 = x ↔ w &&& 0o007400 = x.setWidth 18 <<< 8 :=
  (and_fieldMask_eq_iff 8 x (by decide) rfl (by decide)).symm

theorem indexSub_iff_mask (w : Word) (x : BitVec 4) : w.extractLsb' 9 4 = x ↔ w &&& 0o017000 = x.setWidth 18 <<< 9 :=
  (and_fieldMask_eq_iff 9 x (by decide) rfl (by decide)).symm

theorem opcodeBit_iff_mask (w : Word) (x : BitVec 5) : FieldIs w 13 x ↔ w &&& 0o760000 = x.setWidth 18 <<< 13 :=
  (and_fieldMask_eq_iff 13 x (by decide) rfl (by decide)).symm

/-- Settles O4: the decoder rejects the malformed words and no others, and each test of a field is a mask test. -/
theorem malformedWordsRejected : Obligations.MalformedWordsRejected := by
  intro c w
  have hopcode : w.extractLsb' 14 4 = 13 ↔ w &&& 0o740000 = 0o640000 :=
    (and_fieldMask_eq_iff 14 13 (by decide) (by decide) (by decide)).symm
  have hcmd : w.extractLsb' 6 3 = 2 ↔ w &&& 0o000700 = 0o000200 :=
    (and_fieldMask_eq_iff 6 2 (by decide) (by decide) (by decide)).symm
  have hfp15 : FieldIs w 12 0b111001#6 ↔ w &&& 0o770000 = 0o710000 :=
    (and_fieldMask_eq_iff 12 0b111001 (by decide) (by decide) (by decide)).symm
  refine (decode_answers c w).error_iff.trans (or_congr ?_ (or_congr ?_ (or_congr ?_ ?_)))
  · rw [hopcode, hcmd]
  · rw [← fieldIs_fp15, hfp15, bit15_iff_mask, fpSubop_iff_mask, fpSubop_iff_mask, fpSubop_iff_mask]
    rfl
  · rw [← fieldIs_index, opcodeBit_iff_mask, indexSub_iff_mask, indexSub_iff_mask, indexSub_iff_mask, indexSub_iff_mask]
    rfl
  · rw [← fieldIs_operate, opcodeBit_iff_mask, rotExtra_iff_mask]
    rfl

/-! ## Words written out -/

/-- Each standard memory-management word is the word of a well-formed instruction, whatever the configuration. -/
theorem memoryManagementWords : Clause.MemoryManagementWords := by
  intro c
  have hign : iotIgnOk c 0 = true := by simp [iotIgnOk]
  exact ⟨decodeOfEncode c (.mpsk {}) hign, decodeOfEncode c (.mpcne {}) hign, decodeOfEncode c (.mpcv 0) hign,
    decodeOfEncode c (.mpld {}) hign, decodeOfEncode c (.mplr {}) hign, decodeOfEncode c (.mplmr {}) hign,
    decodeOfEncode c (.mprmr 0) hign, decodeOfEncode c (.mpsne {}) hign, decodeOfEncode c (.mpeu {}) hign⟩

theorem specWordsDecode : Clause.SpecWordsDecode := by
  unfold Clause.SpecWordsDecode
  decide

/-- Settles O3: the words of the full configuration by evaluation, those of every configuration by O1. -/
theorem writtenWordsDecode : Obligations.WrittenWordsDecode := ⟨specWordsDecode, memoryManagementWords⟩

end Sys2Proof
end

section
/-! The memory references on an operand that is there, as the rules word them (R170 to R183): the loads and XCT, the sum of
ADD, the stores, and the jumps. -/

namespace Sys2Proof.Machine

/-! ## The operand that is read -/

/-- The operand of a reference whose address is resolved and installed (R84). -/
theorem State.loadOperand_ok {s t : State} {m : MemOperand} {r : Resolved} {pa : Addr} (h : s.resolve m = .done r t)
    (hread : t.translate r.ea .read = .ok pa) : s.loadOperand m = .done (t.wordAt pa.toNat) t :=
  (State.loadOperand_of_resolve h).trans (State.cpuRead_ok hread)

/-- Settles O23: the loading references on an operand that the read gave. -/
theorem loadingReferences : Obligations.LoadingReferences := fun _ _ _ _ _ h hread =>
  exec_of_loadOperand_done (State.loadOperand_ok h hread)

/-- Settles O30: XCT on an operand that the read gave. (`executeWord` is the model's own name.) -/
theorem executeWordInPlace : Obligations.ExecuteWord := by
  intro m s t r pa h hread w u
  obtain ⟨hbelow, hlimit⟩ := execXct_of_loadOperand_done (State.loadOperand_ok h hread)
  exact ⟨fun i hdepth => (hbelow hdepth).1 i, fun e hdepth => (hbelow hdepth).2 e, hlimit⟩

/-! ## The sum of ADD -/

/-- The end-around carry casts out 2^18 - 1 (R176). -/
theorem onesSum_toNat (a m : Word) :
    (onesSum a m).toNat =
      if 0o777777 < a.toNat + m.toNat then a.toNat + m.toNat - 0o777777 else a.toNat + m.toNat := by
  have ha : a.toNat < 2 ^ 18 := a.isLt
  have hm : m.toNat < 2 ^ 18 := m.isLt
  dsimp only [onesSum]
  rw [BitVec.toNat_ofNat]
  split <;> omega

theorem onesSum_modEq (a m : Word) : (onesSum a m).toNat % (2 ^ 18 - 1) = (a.toNat + m.toNat) % (2 ^ 18 - 1) := by
  rw [onesSum_toNat]
  split
  · next hcarry => exact (Nat.mod_eq_sub_mod hcarry.le).symm
  · rfl

theorem onesSum_eq_zero_iff (a m : Word) : onesSum a m = 0 ↔ a = 0 ∧ m = 0 := by
  have hzero : ∀ w : Word, w = 0 ↔ w.toNat = 0 := fun _ => BitVec.toNat_eq
  rw [hzero, hzero, hzero, onesSum_toNat]
  split <;> omega

theorem onesSum_comm (a m : Word) : onesSum a m = onesSum m a := by
  rw [onesSum, onesSum, Nat.add_comm]

/-- Overflow asks that the operands have one sign, so either of them can be compared with the result. -/
theorem onesOverflow_comm (a m : Word) : onesOverflow a m = onesOverflow m a := by
  have hsign : ∀ x y z : Bool, (x == y && z != x) = (y == x && z != y) := by decide
  rw [onesOverflow, onesOverflow, onesSum_comm m a]
  exact hsign _ _ _

/-- Settles O25: the four properties of the sum. -/
theorem onesComplementSum : Obligations.OnesComplementSum := fun a m =>
  ⟨onesSum_modEq a m, onesSum_eq_zero_iff a m, onesSum_comm a m, onesOverflow_comm a m⟩

/-! ## The stores -/

/-- A store after a resolution leaves every word but the one stored and the pointer that the reference increments (R89). -/
theorem State.wordAt_write_of_resolve {s t : State} {m : MemOperand} {r : Resolved} (h : s.resolve m = .done r t)
    (v : Word) {a b : Nat} (hne : a ≠ b) (hauto : s.autoCell s.pc m ≠ some a) :
    { t with mem := t.mem.write b v }.wordAt a = s.wordAt a :=
  (t.wordAt_write_ne v hne).trans (State.resolve_wordAt h hauto)

theorem storingReferences : Clause.StoringReferences := by
  intro m s t r pa h hwrite
  have hstore : ∀ v, .next ((s.storeOperand m v).finish fun _ u => u) =
      (.next { t with mem := t.mem.write pa.toNat v } : Host.Outcome State Fault Refusal) := by
    intro v
    rw [State.storeOperand_of_resolve h, State.cpuWrite_ok hwrite, Access.finish_done]
  have hframe : ∀ v, ({ t with mem := t.mem.write pa.toNat v } : State) =
      { s with mem := t.mem.write pa.toNat v, nexm := t.nexm, prvn := t.prvn, trapPending := t.trapPending } := by
    obtain ⟨_, _, _, _, rfl⟩ := State.resolve_done_frame h
    exact fun _ => rfl
  have hkept := fun v a => State.wordAt_write_of_resolve h v (a := a) (b := pa.toNat)
  simp only [List.forall_mem_cons]
  refine ⟨?_, ?_, fun _ hp => absurd hp List.not_mem_nil⟩
  · exact ⟨_, (exec_dac m s).trans (hstore s.ac), hframe s.ac, t.wordAt_write_same _ _, hkept s.ac⟩
  · exact ⟨_, (exec_dzm m s).trans (hstore 0), hframe 0, t.wordAt_write_same _ _, hkept 0⟩

theorem incrementAndSkip : Clause.IncrementAndSkip := by
  intro m s t r pr pw h hread hwrite
  have hexec : exec (.isz m) s = .next
      (State.skipIf (t.wordAt pr.toNat + 1 == 0) { t with mem := t.mem.write pw.toNat (t.wordAt pr.toNat + 1) }) := by
    rw [execIsz_of_read h (State.cpuRead_ok hread), State.cpuWrite_ok hwrite, Access.finish_done]
  refine ⟨_, hexec, ?_, t.wordAt_write_same _ _, fun a => State.wordAt_write_of_resolve h _⟩
  simp only [State.skipIf, beq_iff_eq, word_succ_eq_zero_iff]
  obtain ⟨_, _, _, _, rfl⟩ := State.resolve_done_frame h
  rfl

/-- Settles O26: DAC and DZM, and ISZ. -/
theorem storesAndIncrement : Obligations.StoresAndIncrement := ⟨storingReferences, incrementAndSkip⟩

/-! ## JMS -/

/-- The return word as a number (R183). -/
theorem State.retWord_toNat (s : State) :
    s.retWord.toNat =
      s.l.toNat * 2 ^ 17 + s.memm.toNat * 2 ^ 16 + s.usmd.toNat * 2 ^ 15 + s.pc.toNat % 2 ^ 15 := by
  simp only [State.retWord, toNat_append_eq_add, BitVec.toNat_ofBool, BitVec.toNat_setWidth]
  omega

/-- Settles O27: the word stored is the return word of the state before, which the resolution leaves. -/
theorem subroutineJump : Obligations.SubroutineJump := by
  intro m s t r pa h hwrite
  have hexec : exec (.jms m) s = .next
      { t with
        mem := t.mem.write pa.toNat t.retWord, pcq := t.pc :: t.pcq.take (t.cfg.pcqDepth - 1), pc := incPC t.cfg r.ea } := by
    rw [exec_jms, h, Access.finish_done, State.jumpSubroutine, State.cpuWrite_ok hwrite, Access.finish_done]
    rfl
  have hret : t.retWord = s.retWord := by
    obtain ⟨_, _, _, _, rfl⟩ := State.resolve_done_frame h
    rfl
  refine ⟨_, hexec, ?_, ?_, fun a => State.wordAt_write_of_resolve h _⟩
  · obtain ⟨_, _, _, _, rfl⟩ := State.resolve_done_frame h
    rfl
  · calc ((t.mem.write pa.toNat t.retWord).read pa.toNat).toNat
      _ = s.retWord.toNat := by rw [Memory.read_write_same, hret]
      _ = _ := s.retWord_toNat

/-! ## JMP -/

/-- What the restore takes from its pointer word, with the cases of a variant or a machine that lacks a mode (R182, R364). -/
theorem State.restoreFrom_eq (s : State) (ptr : Word) :
    s.restoreFrom ptr =
      { s with
        l := ptr.getMsbD 0
        memmBuf := if s.cfg.variant = .VA then false else ptr.getMsbD 1
        usmdBuf := if s.cfg.protScheme = .none then false else ptr.getMsbD 2
        modeDefer := 1, restPending := false } := by
  have hmasked : ∀ (p : Prop) [Decidable p] (b : Bool), (!decide p && b) = if p then false else b := by
    intro p _ b
    by_cases hp : p <;> simp [hp]
  rw [← hmasked, ← hmasked]
  rfl

/-- The test for a jump to self that nothing can end, as the rule lists its conditions (R182). -/
theorem State.selfLoop_iff (s : State) (ea : Addr) :
    s.selfLoop ea = true ↔
      ea = s.instrAddr ∧ s.xctDepth = 0 ∧ s.cfg.stopOnSelfLoop = true ∧ s.ion = false
        ∧ (s.cfg.hasAPI = false ∨ s.apiEnb = false) ∧ s.trapPending = false := by
  simp only [State.selfLoop, Bool.and_eq_true, beq_iff_eq, Bool.not_eq_true', Bool.and_eq_false_iff, and_assoc]

/-- Settles O28: the jump made, with the restore where it is due, and then the test for a jump to self, which sees nothing of
what the jump changed. -/
theorem jump : Obligations.Jump := by
  intro m s t r h u w stuck
  have hframe := State.resolve_done_frame h
  have hdue : (m.ind && t.restPending) = true ↔ m.ind = true ∧ s.restPending = true := by
    obtain ⟨_, _, _, _, rfl⟩ := hframe
    exact Bool.and_eq_true_iff
  have hjump : { (if m.ind && t.restPending then t.restoreFrom r.ptr else t).pcqPush with pc := r.ea } = w := by
    by_cases hback : m.ind = true ∧ s.restPending = true
    · refine Eq.trans ?_ (if_pos hback).symm
      rw [if_pos (hdue.mpr hback), State.restoreFrom_eq]
      obtain ⟨_, _, _, _, rfl⟩ := hframe
      rfl
    · refine Eq.trans ?_ (if_neg hback).symm
      rw [if_neg (hback ∘ hdue.mp)]
      obtain ⟨_, _, _, _, rfl⟩ := hframe
      rfl
  have hstuck : w.selfLoop r.ea = true ↔ stuck := by
    have hsame : w.selfLoop r.ea = t.selfLoop r.ea := by
      dsimp only [w]
      split <;> rfl
    rw [hsame, State.selfLoop_iff]
    obtain ⟨_, _, _, _, rfl⟩ := hframe
    exact Iff.rfl
  rw [exec_jmp, h, Access.finish_done]
  dsimp only
  rw [hjump]
  exact congrArg _ (if_congr hstuck rfl rfl)

/-! ## CAL -/

theorem exec_cal (ign : BitVec 14) (s : State) :
    exec (.cal ign) s = .next
      ({ s with apiAct := if s.cfg.hasAPI && s.apiEnb then s.apiAct ||| 0o010 else s.apiAct }.enter 0o20 0o21) := rfl

/-- Settles O29: the forced entry at 0o20, with level 4 active where the API is on. -/
theorem callExecutive : Obligations.CallExecutive := by
  intro ign s u
  have hact : (if s.cfg.hasAPI && s.apiEnb then s.apiAct ||| 0o010 else s.apiAct) = u.apiAct := by
    simp only [u, Bool.and_eq_true]
  rw [exec_cal, hact]
  rcases State.enter_cases { s with apiAct := u.apiAct } 0o20 0o21 with ⟨hmem, hentered⟩ | ⟨hmem, hentered⟩
  · exact congrArg Host.Outcome.next (hentered.trans (if_pos hmem).symm)
  · exact congrArg Host.Outcome.next (hentered.trans (if_neg (Nat.not_lt.mpr hmem)).symm)

end Sys2Proof.Machine
end

section
/-! The operate group, LAW and the index operates (R200 to R221): L:AC as a link joined to a word, the one operation behind every
operate word, its named combinations, and the instructions that trap in user mode. -/

namespace Sys2Proof.Machine

/-! ## Privileged instructions in user mode -/

theorem State.iot_of_userMode {s : State} (h : s.usmd = true) (claimed : Bool) (dev code : BitVec 6) (cla : Bool)
    (effect : State → State) : s.iot claimed dev code cla effect = s.violation := if_pos h

theorem State.operate_of_suppressed {s : State} {o : OperateOps} (hhlt : o.hlt = true) (h : s.usmd = true) :
    s.operate o = s.violation := if_pos (Bool.and_eq_true_iff.mpr ⟨hhlt, h⟩)

theorem exec_opr (o : OperateOps) (s : State) : exec (.opr o) s = .next (s.operate o) := rfl

theorem exec_hlt (s : State) : exec .hlt s = .next (s.operate { hlt := true }) := rfl

theorem haltTrapsInUserMode : Clause.HaltTrapsInUserMode := fun o s h =>
  ⟨fun hhlt => (exec_opr o s).trans (congrArg _ (State.operate_of_suppressed hhlt h)),
    (exec_hlt s).trans (congrArg _ (State.operate_of_suppressed rfl h))⟩

/-- The instructions of the IOT class are the one IOT operation at their device and code (R230). -/
theorem exec_transfer_eq_iot (w : IotWord) (f : IotForm) (ign : BitVec 2) (s : State) :
    ∀ i ∈ [Instr.iot w, .iof f, .ion f, .iors f, .caf f, .dbk f, .dbr f, .mpsk f, .mpcne f, .mpcv ign, .mpld f, .mplr f,
        .mplmr f, .mprmr ign, .mpsne f, .mpeu f, .semSba f, .eem f, .lem f, .eba f, .dba f, .emirRes f, .spi f, .isa f,
        .rpl f],
      ∃ claimed dev code cla effect, exec i s = .next (s.iot claimed dev code cla effect) := by
  simp only [List.forall_mem_cons]
  iterate 25 refine ⟨⟨_, _, _, _, _, rfl⟩, ?_⟩
  exact fun _ hi => absurd hi List.not_mem_nil

theorem transfersTrapInUserMode : Clause.TransfersTrapInUserMode := by
  intro w f ign s h i hi
  obtain ⟨claimed, dev, code, cla, effect, hexec⟩ := exec_transfer_eq_iot w f ign s i hi
  exact hexec.trans (congrArg _ (State.iot_of_userMode h claimed dev code cla effect))

/-- Settles O34: an operate word with HLT is suppressed, and the IOT class is one operation that traps. -/
theorem privilegedInstructionsTrap : Obligations.PrivilegedInstructionsTrap :=
  ⟨haltTrapsInUserMode, transfersTrapInUserMode⟩

/-! ## Words with an immediate field -/

/-- A word whose low field is `y` is its base with that field added. -/
theorem append_eq_or_setWidth {k n : Nat} (x : BitVec k) (y : BitVec n) :
    x ++ y = (x ++ 0#n) ||| y.setWidth (k + n) := by
  simp [BitVec.append_def]

/-- Settles O35: the word decodes as the LAW that it encodes, and its number is that of its two fields. -/
theorem loadImmediate : Obligations.LoadImmediate := by
  intro n s
  have hword : (0b11111#5 ++ n : Word) = 0o760000 ||| n.setWidth 18 := append_eq_or_setWidth 0b11111#5 n
  have hnumber : (0b11111#5 ++ n : Word).toNat = 31 * 2 ^ 13 + n.toNat := toNat_append_eq_add 0b11111#5 n
  rw [← hword]
  refine ⟨decodeOfEncode s.cfg (.law n) rfl, rfl, ?_⟩
  rw [BitVec.toInt_eq_toNat_cond, hnumber, if_neg (by omega)]
  omega

/-- A skip on a condition given as a proposition. -/
theorem State.skipIf_eq_of_iff {b : Bool} {p : Prop} [Decidable p] (s : State) (h : b = true ↔ p) :
    s.skipIf b = { s with pc := if p then incPC s.cfg s.pc else s.pc } :=
  congrArg (fun a : Addr => { s with pc := a }) (if_congr h rfl rfl)

/-- Settles O36: each word is the one that its instruction encodes to, and AXS skips on a signed comparison. -/
theorem indexOperates : Obligations.IndexOperates := by
  intro imm s h word nw
  have hdecode : ∀ (sub : BitVec 4) (base : Word) (i : Instr), encode i = indexWord sub imm → WellFormed s.cfg i = true →
      indexWord sub 0 = base → decode s.cfg (word base) = .ok i := by
    rintro sub base i hword hwf rfl
    have hfield : word (indexWord sub 0) = encode i :=
      ((append_eq_or_setWidth (0b11101#5 ++ sub) imm).symm).trans hword.symm
    rw [hfield, decodeOfEncode s.cfg i hwf]
  refine ⟨⟨hdecode 0o01 _ (.pax imm) rfl h rfl, rfl⟩, ⟨hdecode 0o02 _ (.pal imm) rfl h rfl, rfl⟩,
    ⟨hdecode 0o03 _ (.aac imm) rfl h rfl, rfl⟩, ⟨hdecode 0o04 _ (.pxa imm) rfl h rfl, rfl⟩,
    ⟨hdecode 0o05 _ (.axs imm) rfl h rfl, ?_⟩, ⟨hdecode 0o06 _ (.pxl imm) rfl h rfl, rfl⟩,
    ⟨hdecode 0o10 _ (.pla imm) rfl h rfl, rfl⟩, ⟨hdecode 0o11 _ (.plx imm) rfl h rfl, rfl⟩,
    ⟨hdecode 0o14 _ (.clac imm) rfl h rfl, rfl⟩, ⟨hdecode 0o15 _ (.clx imm) rfl h rfl, rfl⟩,
    ⟨hdecode 0o16 _ (.cllr imm) rfl h rfl, rfl⟩, ⟨hdecode 0o17 _ (.axr imm) rfl h rfl, rfl⟩⟩
  exact congrArg Host.Outcome.next (State.skipIf_eq_of_iff { s with xr := s.xr + nw } decide_eq_true_iff)

/-! ## The rotates of L:AC -/

/-- RAL takes the top bit round to the bottom (R203). -/
theorem ral1_append (b : Bool) (y : BitVec 18) : ral1 (BitVec.ofBool b ++ y) = y ++ BitVec.ofBool b := by
  refine BitVec.eq_of_getLsbD_eq fun i hi => ?_
  rw [ral1, BitVec.getLsbD_rotateLeft, BitVec.getLsbD_append, BitVec.getLsbD_append, BitVec.getLsbD_append]
  cases i with
  | zero => simp
  | succ k => simp [show k < 18 by omega, hi]

/-- RAR takes the bottom bit round to the top (R203). -/
theorem rar1_append (b : Bool) (y : BitVec 18) : rar1 (y ++ BitVec.ofBool b) = BitVec.ofBool b ++ y := by
  refine BitVec.eq_of_getLsbD_eq fun i hi => ?_
  rw [rar1, BitVec.getLsbD_rotateRight, BitVec.getLsbD_append, BitVec.getLsbD_append, BitVec.getLsbD_append]
  by_cases h : i < 18
  · simp [h]
  · simp [show i = 18 by omega]

theorem ral1_eq_or (x : BitVec 19) : ral1 x = (x <<< 1) ||| (x >>> 18) := rfl

theorem rar1_eq_or (x : BitVec 19) : rar1 x = (x >>> 1) ||| ((x &&& 1) <<< 18) := by
  have hbottom : (x &&& 1) <<< 18 = x <<< 18 := by
    refine BitVec.eq_of_toNat_eq ?_
    rw [BitVec.toNat_shiftLeft, BitVec.toNat_shiftLeft, toNat_and_lowMask (n := 1) x rfl, Nat.shiftLeft_eq, Nat.shiftLeft_eq]
    omega
  rw [hbottom]
  rfl

theorem swapHalves_append (b : Bool) (y : BitVec 18) :
    swapHalves (BitVec.ofBool b ++ y) = BitVec.ofBool b ++ y.extractLsb' 0 9 ++ y.extractLsb' 9 9 := by
  have hlink : (BitVec.ofBool b ++ y).extractLsb' 18 1 = BitVec.ofBool b := BitVec.extractLsb'_append_eq_left
  have hhalf : ∀ i, i + 9 ≤ 18 → (BitVec.ofBool b ++ y).extractLsb' i 9 = y.extractLsb' i 9 :=
    fun _ hi => BitVec.extractLsb'_append_eq_of_add_le hi
  rw [swapHalves, hlink, hhalf 0 (by decide), hhalf 9 (by decide)]

theorem lacWord_append (b : Bool) (y : BitVec 18) : lacWord (BitVec.ofBool b ++ y) = y := BitVec.extractLsb'_append_eq_right

theorem lacLink_append (b : Bool) (y : BitVec 18) : lacLink (BitVec.ofBool b ++ y) = b := by
  refine (BitVec.getMsbD_append (x := BitVec.ofBool b) (y := y)).trans ?_
  cases b <;> rfl

/-! ## The results of the rotate group as a link and a word -/

theorem extractLsb'_one_eq {n : Nat} (w : BitVec n) (i : Nat) : w.extractLsb' i 1 = BitVec.ofBool (w.getLsbD i) := by
  refine BitVec.eq_of_getLsbD_eq fun j hj => ?_
  obtain rfl : j = 0 := Nat.lt_one_iff.mp hj
  simp

/-- A field and the bit above it. -/
theorem append_bit_above (w : Word) (k n : Nat) :
    BitVec.ofBool (w.getLsbD (k + n)) ++ w.extractLsb' k n = w.extractLsb' k (1 + n) := by
  rw [← extractLsb'_one_eq, BitVec.extractLsb'_append_extractLsb'_eq_extractLsb' rfl]

/-- A field and the bit below it. -/
theorem append_bit_below (w : Word) (k n : Nat) :
    w.extractLsb' (k + 1) n ++ BitVec.ofBool (w.getLsbD k) = w.extractLsb' k (n + 1) := by
  rw [← extractLsb'_one_eq, BitVec.extractLsb'_append_extractLsb'_eq_extractLsb' rfl]

/-- A word is its top bit and the rest, and the rest and its bottom bit. -/
theorem eq_top_append (w : Word) : w = BitVec.ofBool (w.getMsbD 0) ++ w.extractLsb' 0 17 :=
  BitVec.extractLsb'_eq_self.symm.trans (append_bit_above w 0 17).symm

theorem eq_append_bottom (w : Word) : w = w.extractLsb' 1 17 ++ BitVec.ofBool (w.getLsbD 0) :=
  BitVec.extractLsb'_eq_self.symm.trans (append_bit_below w 0 17).symm

/-- Shifting a field in from below. -/
theorem shiftLeft_or_setWidth {k n : Nat} (w : BitVec (k + n)) (y : BitVec n) :
    (w <<< n) ||| y.setWidth (k + n) = w.extractLsb' 0 k ++ y := by
  have hshift : w <<< n = w.extractLsb' 0 k ++ 0#n := by
    refine BitVec.eq_of_toNat_eq ?_
    rw [toNat_append_eq_add, window_toNat, BitVec.toNat_shiftLeft, Nat.shiftLeft_eq, Nat.pow_add, Nat.mul_mod_mul_right]
    simp
  rw [hshift, ← append_eq_or_setWidth]

/-- RAL's link is the old top bit (R203). -/
theorem ral1_lac (l : Bool) (ac : Word) :
    ral1 (BitVec.ofBool l ++ ac) = BitVec.ofBool (ac.getMsbD 0) ++ (ac.extractLsb' 0 17 ++ BitVec.ofBool l) :=
  calc ral1 (BitVec.ofBool l ++ ac)
    _ = ac ++ BitVec.ofBool l := ral1_append l ac
    _ = BitVec.ofBool (ac.getMsbD 0) ++ ac.extractLsb' 0 17 ++ BitVec.ofBool l :=
      congrArg (fun w : Word => w ++ BitVec.ofBool l) (eq_top_append ac)
    _ = _ := BitVec.append_assoc

/-- RAL's result with AC as a shift. -/
theorem ral1_lac_shift (l : Bool) (ac : Word) :
    ral1 (BitVec.ofBool l ++ ac) = BitVec.ofBool (ac.getMsbD 0) ++ ((ac <<< 1) ||| (BitVec.ofBool l).setWidth 18) := by
  have hshift : (ac <<< 1) ||| (BitVec.ofBool l).setWidth 18 = ac.extractLsb' 0 17 ++ BitVec.ofBool l :=
    shiftLeft_or_setWidth (k := 17) (n := 1) ac _
  rw [hshift]
  exact ral1_lac l ac

/-- RAR's link is the old bottom bit (R203). -/
theorem rar1_lac (l : Bool) (ac : Word) :
    rar1 (BitVec.ofBool l ++ ac) = BitVec.ofBool (ac.getLsbD 0) ++ (BitVec.ofBool l ++ ac.extractLsb' 1 17) :=
  calc rar1 (BitVec.ofBool l ++ ac)
    _ = rar1 (BitVec.ofBool l ++ (ac.extractLsb' 1 17 ++ BitVec.ofBool (ac.getLsbD 0))) :=
      congrArg (fun w : Word => rar1 (BitVec.ofBool l ++ w)) (eq_append_bottom ac)
    _ = rar1 (BitVec.ofBool l ++ ac.extractLsb' 1 17 ++ BitVec.ofBool (ac.getLsbD 0)) :=
      congrArg rar1 BitVec.append_assoc.symm
    _ = _ := rar1_append _ _

/-- Two steps bring the link and the old top bit in below (R203). -/
theorem rtl_lac (l : Bool) (ac : Word) :
    ral1 (ral1 (BitVec.ofBool l ++ ac)) =
      BitVec.ofBool (ac.getMsbD 1) ++ (ac.extractLsb' 0 16 ++ BitVec.ofBool l ++ BitVec.ofBool (ac.getMsbD 0)) :=
  calc ral1 (ral1 (BitVec.ofBool l ++ ac))
    _ = ac.extractLsb' 0 17 ++ BitVec.ofBool l ++ BitVec.ofBool (ac.getMsbD 0) :=
      (congrArg ral1 (ral1_lac l ac)).trans (ral1_append _ _)
    _ = BitVec.ofBool (ac.getMsbD 1) ++ ac.extractLsb' 0 16 ++ BitVec.ofBool l ++ BitVec.ofBool (ac.getMsbD 0) :=
      congrArg (fun w : BitVec 17 => w ++ BitVec.ofBool l ++ BitVec.ofBool (ac.getMsbD 0)) (append_bit_above ac 0 16).symm
    _ = _ := (congrArg (fun w : Word => w ++ BitVec.ofBool (ac.getMsbD 0)) BitVec.append_assoc).trans BitVec.append_assoc

/-- Two steps bring the old bottom bit and the link in above (R203). -/
theorem rtr_lac (l : Bool) (ac : Word) :
    rar1 (rar1 (BitVec.ofBool l ++ ac)) =
      BitVec.ofBool (ac.getLsbD 1) ++ (BitVec.ofBool (ac.getLsbD 0) ++ BitVec.ofBool l ++ ac.extractLsb' 2 16) :=
  calc rar1 (rar1 (BitVec.ofBool l ++ ac))
    _ = rar1 (BitVec.ofBool (ac.getLsbD 0) ++ (BitVec.ofBool l ++ ac.extractLsb' 1 17)) := congrArg rar1 (rar1_lac l ac)
    _ = rar1 (BitVec.ofBool (ac.getLsbD 0) ++ BitVec.ofBool l ++ ac.extractLsb' 1 17) :=
      congrArg rar1 BitVec.append_assoc.symm
    _ = rar1 (BitVec.ofBool (ac.getLsbD 0) ++ BitVec.ofBool l ++ (ac.extractLsb' 2 16 ++ BitVec.ofBool (ac.getLsbD 1))) :=
      congrArg (fun w : BitVec 17 => rar1 (BitVec.ofBool (ac.getLsbD 0) ++ BitVec.ofBool l ++ w)) (append_bit_below ac 1 16).symm
    _ = rar1 (BitVec.ofBool (ac.getLsbD 0) ++ BitVec.ofBool l ++ ac.extractLsb' 2 16 ++ BitVec.ofBool (ac.getLsbD 1)) :=
      congrArg rar1 BitVec.append_assoc.symm
    _ = _ := rar1_append _ _

/-- IAC carries into the link from a word of ones alone (R204). -/
theorem iac_lac (l : Bool) (ac : Word) :
    (BitVec.ofBool l ++ ac + 1 : BitVec 19) = BitVec.ofBool (if ac = 0o777777 then !l else l) ++ (ac + 1) := by
  have hjoin : ∀ (b : Bool) (w : Word), (BitVec.ofBool b ++ w : BitVec 19).toNat = b.toNat * 2 ^ 18 + w.toNat :=
    fun b w => (toNat_append_eq_add _ _).trans (by rw [BitVec.toNat_ofBool])
  have hone : (1 : BitVec 19).toNat = 1 := rfl
  refine BitVec.eq_of_toNat_eq ((BitVec.toNat_add _ _).trans ?_)
  rw [hjoin, hjoin, hone]
  by_cases h : ac = 0o777777
  · rw [if_pos h, h]
    cases l <;> rfl
  · have hlt : ac.toNat < 0o777777 := by
      have hne : ac.toNat ≠ 0o777777 := fun hac => h (BitVec.eq_of_toNat_eq hac)
      omega
    have hsucc : (ac + 1).toNat = ac.toNat + 1 := BitVec.toNat_add_of_lt (Nat.add_lt_of_lt_sub hlt)
    have hl : l.toNat < 2 := l.toNat_lt
    rw [if_neg h, hsucc]
    omega

/-- BSW leaves the link (R204). -/
theorem bsw_lac (l : Bool) (ac : Word) :
    swapHalves (BitVec.ofBool l ++ ac) = BitVec.ofBool l ++ ((ac <<< 9) ||| (ac >>> 9)) := by
  have hhigh : ac >>> 9 = (ac.extractLsb' 9 9).setWidth 18 := by
    refine BitVec.eq_of_toNat_eq ?_
    have hlt := ac.isLt
    rw [BitVec.toNat_ushiftRight, Nat.shiftRight_eq_div_pow, BitVec.toNat_setWidth, window_toNat]
    omega
  have hswap : (ac <<< 9) ||| (ac >>> 9) = ac.extractLsb' 0 9 ++ ac.extractLsb' 9 9 := by
    rw [hhigh]
    exact shiftLeft_or_setWidth (k := 9) (n := 9) ac _
  rw [hswap, swapHalves_append]
  exact BitVec.append_assoc

/-! ## The operate words -/

/-- What an operate word that runs does, as one whole state (R200 to R206). -/
theorem State.operate_eq {s : State} {o : OperateOps} (h : o.hlt = false ∨ s.usmd = false) :
    s.operate o =
      { s with
        ac := lacWord (operateLac o s.l s.ac s.sr), l := lacLink (operateLac o s.l s.ac s.sr)
        pc := if skipTest o s.ac s.l then incPC s.cfg s.pc else s.pc
        runState := if o.hlt then .stopped .halt else s.runState } := by
  have hruns : ¬(o.hlt && s.usmd) = true := Bool.not_eq_true _ ▸ Bool.and_eq_false_iff.mpr h
  rw [State.operate, if_neg hruns]
  cases o.hlt <;> rfl

/-- Settles O32: the rotate group at each of its codes, on what the clears, the complements and OAS leave. -/
theorem operateOrder : Obligations.OperateOrder := by
  intro o s h cond skip ac1 l1 ac2 l2 ac3 x ral rar z
  have hrotate : operateLac o s.l s.ac s.sr = z := by
    change rotateGroup o.rot x = z
    dsimp only [z, OperateOps.rot]
    match o.rtwo, o.rar, o.ral with
    | false, false, false | true, false, false => rfl
    | false, false, true => exact ral1_eq_or x
    | false, true, false => exact rar1_eq_or x
    | false, true, true => rfl
    | true, false, true => exact (congrArg ral1 (ral1_eq_or x)).trans (ral1_eq_or _)
    | true, true, false => exact (congrArg rar1 (rar1_eq_or x)).trans (rar1_eq_or _)
    | true, true, true => exact swapHalves_append l2 ac3
  have hword : lacWord z = z.setWidth 18 := (BitVec.setWidth_eq_extractLsb' (by decide)).symm
  rw [exec_opr, State.operate_eq h, hrotate, hword]
  rfl

/-! ## The named combinations -/

/-- The words of R207 are those that its instructions encode to, and all but IAC and BSW are well-formed on every variant. -/
theorem operateWords : Clause.OperateWords := by
  intro c
  have hd := decodeOfEncode c
  have hvd : ∀ i, WellFormed c i = (c.variant == .VD) → c.variant = .VD → decode c (encode i) = .ok i :=
    fun i hwf hv => hd i (hwf.trans (beq_iff_eq.mpr hv))
  exact ⟨hd .nop rfl, hd .cma rfl, hd .cml rfl, hd .oas rfl, hd .ral rfl, hd .rar rfl, hvd .iac rfl, hd .hlt rfl, hd .sma rfl,
    hd .sza rfl, hd .smaSza rfl, hd .snl rfl, hd .skp rfl, hd .spa rfl, hd .sna rfl, hd .spaSna rfl, hd .szl rfl, hd .rtl rfl,
    hd .rtr rfl, hvd .bsw rfl, hd .cll rfl, hd .stl rfl, hd .rcl rfl, hd .rcr rfl, hd .cla rfl, hd .clc rfl, hd .las rfl,
    hd .glk rfl⟩

/-- An operate word that runs, by what it makes of L:AC. -/
theorem State.operate_eq_of_lac {s : State} {o : OperateOps} {l : Bool} {ac : Word} (h : o.hlt = false ∨ s.usmd = false)
    (hlac : operateLac o s.l s.ac s.sr = BitVec.ofBool l ++ ac) :
    s.operate o =
      { s with
        ac := ac, l := l
        pc := if skipTest o s.ac s.l then incPC s.cfg s.pc else s.pc
        runState := if o.hlt then .stopped .halt else s.runState } := by
  rw [State.operate_eq h, hlac, lacWord_append, lacLink_append]

/-- A combination that neither skips nor halts. -/
theorem exec_of_operateLac {i : Instr} {s : State} {o : OperateOps} {l : Bool} {ac : Word}
    (hexec : exec i s = .next (s.operate o)) (hlac : operateLac o s.l s.ac s.sr = BitVec.ofBool l ++ ac)
    (hhlt : o.hlt = false) (hskip : skipTest o s.ac s.l = false) : exec i s = .next { s with ac := ac, l := l } := by
  rw [hexec, State.operate_eq_of_lac (.inl hhlt) hlac, hhlt, hskip]
  rfl

/-- A combination that only skips. -/
theorem exec_of_skipTest {i : Instr} {s : State} {o : OperateOps} {p : Prop} [Decidable p]
    (hexec : exec i s = .next (s.operate o)) (hskip : skipTest o s.ac s.l = true ↔ p) (hhlt : o.hlt = false)
    (hlac : operateLac o s.l s.ac s.sr = BitVec.ofBool s.l ++ s.ac) :
    exec i s = .next { s with pc := if p then incPC s.cfg s.pc else s.pc } := by
  rw [hexec, State.operate_eq_of_lac (.inl hhlt) hlac, hhlt]
  exact congrArg Host.Outcome.next (State.skipIf_eq_of_iff s hskip)

/-- Each combination through what it does to L:AC, or through its skip test. -/
theorem operateMeanings : Clause.OperateMeanings := by
  intro s skip ac0
  refine ⟨?nop, ?cma, ?cml, ?oas, ?ral, ?rar, fun _ => ?iac, fun h => ?hlt, ?sma, ?sza, ?smaSza, ?snl, ?skp, ?spa, ?sna,
    ?spaSna, ?szl, ?rtl, ?rtr, fun _ => ?bsw, ?cll, ?stl, ?rcl, ?rcr, ?cla, ?clc, ?las, ?glk⟩
  case nop | cma | cml | oas | cll | stl | cla => exact exec_of_operateLac rfl rfl rfl rfl
  case clc =>
    have hones : ~~~(0 : Word) = 0o777777 := by decide
    exact exec_of_operateLac rfl (congrArg (fun w : Word => BitVec.ofBool s.l ++ w) hones) rfl rfl
  case las => exact exec_of_operateLac rfl (congrArg (fun w : Word => BitVec.ofBool s.l ++ w) BitVec.zero_or) rfl rfl
  case ral => exact exec_of_operateLac rfl (ral1_lac_shift s.l s.ac) rfl rfl
  case rcl =>
    have hzero : (s.ac <<< 1) ||| (BitVec.ofBool false).setWidth 18 = s.ac <<< 1 := BitVec.or_zero
    exact exec_of_operateLac rfl (hzero ▸ ral1_lac_shift false s.ac) rfl rfl
  case glk =>
    have hzero : ((0 : Word) <<< 1) ||| (BitVec.ofBool s.l).setWidth 18 = (BitVec.ofBool s.l).setWidth 18 := BitVec.zero_or
    exact exec_of_operateLac rfl (hzero ▸ ral1_lac_shift s.l 0) rfl rfl
  case rar => exact exec_of_operateLac rfl (rar1_lac s.l s.ac) rfl rfl
  case rcr =>
    have hright : BitVec.ofBool false ++ s.ac.extractLsb' 1 17 = s.ac >>> 1 :=
      (BitVec.ushiftRight_eq_extractLsb'_of_lt (by decide)).symm
    exact exec_of_operateLac rfl (hright ▸ rar1_lac false s.ac) rfl rfl
  case rtl => exact exec_of_operateLac rfl (rtl_lac s.l s.ac) rfl rfl
  case rtr => exact exec_of_operateLac rfl (rtr_lac s.l s.ac) rfl rfl
  case iac => exact exec_of_operateLac rfl (iac_lac s.l s.ac) rfl rfl
  case bsw => exact exec_of_operateLac rfl (bsw_lac s.l s.ac) rfl rfl
  case hlt =>
    rw [exec_hlt, State.operate_eq_of_lac (.inr h) rfl]
    rfl
  case sma | sza | smaSza | snl | skp | spa | sna | spaSna | szl => exact exec_of_skipTest rfl (by simp [skipTest, ac0]) rfl rfl

/-- Settles O33: the words by O1, and the meanings by what an operate word does. -/
theorem operateTable : Obligations.OperateTable := ⟨operateWords, operateMeanings⟩

end Sys2Proof.Machine
end

section
/-! The I/O transfers (R230 to R264): an IOT-class word that the processor claims, one that goes to its device, and what the
processor's own words do. -/

namespace Sys2Proof.Machine

/-! ## Words that the processor claims, and words that it does not -/

/-- A word that the processor claims runs its effect after the clear bit and the deferral (R230, R371). -/
theorem exec_of_claimed {i : Instr} {s t : State} {claimed : Bool} {dev code : BitVec 6} {cla : Bool} {effect : State → State}
    (hi : exec i s = .next (s.iot claimed dev code cla effect)) (hexec : s.usmd = false) (hclaimed : claimed = true)
    (ht : effect (s.iotStart cla) = t := by rfl) : exec i s = .next t := by
  rw [hi, State.iot, hexec, hclaimed, ← ht]
  rfl

/-- A word that the processor does not claim is the general word of its device and pulse code, in either mode (R136, R230). -/
theorem exec_of_unclaimed {i : Instr} {s : State} {claimed : Bool} {dev code : BitVec 6} {cla : Bool}
    {effect : State → State} {w : IotWord} (hi : exec i s = .next (s.iot claimed dev code cla effect))
    (hclaimed : claimed = false)
    (hw : w.dev = dev ∧ w.sdev.toNat * 16 + w.pulse.toNat = code.toNat ∧ w.cla = cla := by exact ⟨rfl, rfl, rfl⟩) :
    exec i s = exec (.iot w) s := by
  obtain ⟨rfl, hcode, rfl⟩ := hw
  rw [hi, hclaimed, ← BitVec.eq_of_toNat_eq (w.code_toNat.trans hcode)]
  rfl

/-- The ignored bits of a standard word are zeros, which every configuration takes (R144). -/
theorem iotIgnOk_zero (c : Cfg) : iotIgnOk c 0 = true := by simp [iotIgnOk]

/-! ## Interrupt control -/

theorem interruptEnable : Clause.InterruptEnable := fun _ s h =>
  ⟨decodeOfEncode s.cfg (.iof {}) (iotIgnOk_zero _), decodeOfEncode s.cfg (.ion {}) (iotIgnOk_zero _),
    exec_of_claimed rfl h rfl, exec_of_claimed rfl h rfl⟩

/-- The PI enable as the status word's bit 0 (R244). -/
theorem enableBit_eq_ite (b : Bool) : (BitVec.ofBool b ++ 0#17 : Word) = if b then 0o400000 else 0 := by
  cases b <;> rfl

theorem statusAndClearFlags : Clause.StatusAndClearFlags := by
  intro f s h a poll
  refine ⟨decodeOfEncode s.cfg (.iors { cla := true }) (iotIgnOk_zero _), decodeOfEncode s.cfg (.caf {}) (iotIgnOk_zero _),
    ?_, fun hapi => ?_, fun hapi => ?_⟩
  · rw [← enableBit_eq_ite]
    exact exec_of_claimed rfl h rfl
  · refine exec_of_claimed rfl h rfl ?_
    simp only [State.iotStart_cfg, hapi]
    rfl
  · refine exec_of_claimed rfl h rfl ?_
    simp only [State.iotStart_cfg, hapi]
    rfl

/-- Settles O37: each word is claimed on every configuration, and CAF's effect depends on the API. -/
theorem interruptControlTransfers : Obligations.InterruptControlTransfers := ⟨interruptEnable, statusAndClearFlags⟩

/-! ## Memory management and addressing modes -/

theorem hasMM_iff {c : Cfg} : hasMM c = true ↔ c.protScheme ≠ .none := bne_iff_ne

theorem hasReloc_iff {c : Cfg} : hasReloc c = true ↔ c.protScheme = .reloc ∨ c.protScheme = .xvm := by
  rw [hasReloc, Bool.or_eq_true_iff, beq_iff_eq, beq_iff_eq]

theorem hasXvm_iff {c : Cfg} : hasXvm c = true ↔ c.protScheme = .xvm := beq_iff_eq

theorem hasExtend_iff {c : Cfg} : hasExtend c = true ↔ c.variant = .VB ∨ c.variant = .VC := by
  rw [hasExtend, Bool.or_eq_true_iff, beq_iff_eq, beq_iff_eq]

theorem memoryManagementTransfers : Clause.MemoryManagementTransfers := by
  intro f ign s h t
  refine ⟨fun hscheme => ?_, fun hscheme => ?_, fun hscheme => ?_⟩
  · have hmm := hasMM_iff.mpr hscheme
    refine ⟨?_, ?_, ?_, ?_, ?_, ?_⟩ <;> exact exec_of_claimed rfl h hmm
  · exact exec_of_claimed rfl h (hasReloc_iff.mpr hscheme)
  · have hxvm := hasXvm_iff.mpr hscheme
    refine ⟨exec_of_claimed rfl h hxvm, exec_of_claimed rfl h hxvm ?_⟩
    have hac : (s.iotStart true).ac ||| (s.iotStart true).mmr = s.mmr := BitVec.zero_or
    rw [hac]
    rfl

theorem addressModeTransfers : Clause.AddressModeTransfers := by
  intro f s h t
  refine ⟨fun hvariant => ?_, fun hvariant => ?_, fun hvariant => ?_⟩
  · have hva := bne_iff_ne.mpr hvariant
    exact ⟨exec_of_claimed rfl h hva, exec_of_claimed rfl h hva⟩
  · have hextend := hasExtend_iff.mpr hvariant
    exact ⟨exec_of_claimed rfl h hextend, exec_of_claimed rfl h hextend⟩
  · have hvd := beq_iff_eq.mpr hvariant
    exact ⟨exec_of_claimed rfl h hvd, exec_of_claimed rfl h hvd⟩

theorem addressModeWords : Clause.AddressModeWords := by
  intro c
  have hign := iotIgnOk_zero c
  exact ⟨decodeOfEncode c (.semSba {}) hign, decodeOfEncode c (.eem {}) hign, decodeOfEncode c (.lem {}) hign,
    decodeOfEncode c (.eba {}) hign, decodeOfEncode c (.dba {}) hign, decodeOfEncode c (.emirRes {}) hign⟩

/-- Settles O38: the words by O1, and each word claimed where its scheme or variant has it. -/
theorem modeAndProtectionTransfers : Obligations.ModeAndProtectionTransfers :=
  ⟨memoryManagementWords, memoryManagementTransfers, addressModeWords, addressModeTransfers⟩

/-! ## The API -/

theorem apiWords : Clause.ApiWords := by
  intro c
  have hign := iotIgnOk_zero c
  exact ⟨decodeOfEncode c (.dbk {}) hign, decodeOfEncode c (.dbr {}) hign, decodeOfEncode c (.spi {}) hign,
    decodeOfEncode c (.isa {}) hign, decodeOfEncode c (.rpl { cla := true }) hign⟩

/-- The top level of a mask is its first bit that is 1 (R247, R367). -/
theorem topLevel_eq {m : BitVec 8} {k : Nat} (hk : k < 8) (habove : ∀ j < k, m.getMsbD j = false)
    (hlevel : m.getMsbD k = true) : topLevel m = k := by
  have hfind : (List.range 8).find? (fun j => m.getMsbD j) = some k :=
    List.find?_range_eq_some.mpr ⟨hlevel, List.mem_range.mpr hk, fun j hj => by simp [habove j hj]⟩
  rw [topLevel, hfind]
  rfl

/-- The API enable after ISA: the set bit wins over the clear bit (R263). -/
theorem isaEnable_eq_ite (ac : Word) (enb : Bool) :
    isaEnable ac enb = if ac.getMsbD 0 then true else if ac.getMsbD 1 then false else enb := by
  unfold isaEnable
  cases ac.getMsbD 0 <;> cases ac.getMsbD 1 <;> rfl

/-- A field of four bits of AC names the levels 4 to 7 of a mask, in its order (R18, R263). -/
theorem softwareField_getMsbD (ac : Word) {n k : Nat} (hn : n ≤ 10) (hk : k < 8) :
    ((ac.extractLsb' n 4).setWidth 8).getMsbD k = (decide (4 ≤ k) && ac.getMsbD (10 - n + k)) := by
  rw [BitVec.getMsbD_setWidth]
  by_cases hsoftware : 4 ≤ k
  · obtain ⟨j, rfl⟩ := Nat.exists_eq_add_of_le hsoftware
    have hinField : 4 + j + 4 - 8 = j ∧ j < 4 := by omega
    have hinWord : n + 4 - j ≤ 18 ∧ 18 - (n + 4 - j) = 10 - n + (4 + j) := by omega
    simp [BitVec.getMsbD_extractLsb', hinField, hinWord]
  · simp [hsoftware]

/-- The requests after ISA, level by level: only software levels change, and a request wins over a withdrawal (R263). -/
theorem isaRequests_getMsbD (ac : Word) (req : BitVec 8) {k : Nat} (hk : k < 8) :
    (isaRequests ac req).getMsbD k =
      if 4 ≤ k ∧ ac.getMsbD (6 + k) = true then true
      else if 4 ≤ k ∧ ac.getMsbD (10 + k) = true then false
      else req.getMsbD k := by
  have hrequested := softwareField_getMsbD ac (n := 4) (by decide) hk
  have hwithdrawn := softwareField_getMsbD ac (n := 0) (by decide) hk
  rw [isaRequests, BitVec.getMsbD_or, BitVec.getMsbD_and, BitVec.getMsbD_not, hrequested, hwithdrawn, decide_eq_true hk]
  by_cases hsoftware : 4 ≤ k
  · cases ac.getMsbD (6 + k) <;> cases ac.getMsbD (10 + k) <;> simp [hsoftware]
  · simp [hsoftware]

theorem apiMeanings : Clause.ApiMeanings := by
  intro f s h hapi t
  refine ⟨⟨s.apiAct &&& ~~~levelBit (topLevel s.apiAct), exec_of_claimed rfl h hapi,
      exec_of_claimed rfl h hapi, fun hnone => ?_, fun k hk habove hlevel => ?_⟩,
    ?_, ⟨isaRequests t.ac s.apiReq, ?_, fun k hk => isaRequests_getMsbD _ _ hk⟩, exec_of_claimed rfl h hapi⟩
  · rw [hnone]
    exact BitVec.zero_and
  · rw [topLevel_eq hk habove hlevel]
    rfl
  · exact exec_of_claimed rfl h hapi (State.skipIf_eq_of_iff _ beq_iff_eq)
  · rw [← isaEnable_eq_ite]
    exact exec_of_claimed rfl h hapi

/-- Settles O39: the words by O1; the dismiss by the first active level, and ISA's requests level by level. -/
theorem apiTransfers : Obligations.ApiTransfers := ⟨apiWords, apiMeanings⟩

/-! ## Words that go to a device -/

/-- A word of a device that is there is its callback, after the clear bit and the deferral (R230, R231). -/
theorem exec_iot_of_device {w : IotWord} {s : State} (h : s.usmd = false) (hdev : s.devices.getLsbD w.dev.toNat = true) :
    exec (.iot w) s = .next ((s.iotStart w.cla).ioTransfer w.dev w.code) := by
  change Host.Outcome.next (s.iot false w.dev w.code w.cla id) = _
  rw [State.iot, h, hdev]
  rfl

/-- A word of a device that is not there is unimplemented (R145, R230). -/
theorem exec_iot_of_no_device {w : IotWord} {s : State} (h : s.usmd = false)
    (hdev : s.devices.getLsbD w.dev.toNat = false) : exec (.iot w) s = .next s.unimplemented := by
  change Host.Outcome.next (s.iot false w.dev w.code w.cla id) = _
  rw [State.iot, h, hdev]
  rfl

theorem deviceTransfers : Clause.DeviceTransfers := by
  intro w s h a r
  refine ⟨fun hdev => ?_, fun hdev => exec_iot_of_no_device h hdev⟩
  rw [exec_iot_of_device h hdev, ← Nat.shiftRight_eq_div_pow]
  rfl

theorem absentOptionsGoToTheDevice : Clause.AbsentOptionsGoToTheDevice := by
  intro f ign s word
  refine ⟨fun hapi => ?_, fun hscheme => ?_, fun hreloc hxvm => ?_, fun hxvm => ?_, fun hva => ?_, fun hvb hvc => ?_,
    fun hvd => ?_⟩
  · refine ⟨?_, ?_, ?_, ?_, ?_⟩ <;> exact exec_of_unclaimed rfl hapi
  · have hmm : hasMM s.cfg = false := bne_eq_false_iff_eq.mpr hscheme
    refine ⟨?_, ?_, ?_, ?_, ?_, ?_⟩ <;> exact exec_of_unclaimed rfl hmm
  · have hnone : hasReloc s.cfg = false := Bool.eq_false_iff.mpr fun h => (hasReloc_iff.mp h).elim hreloc hxvm
    exact exec_of_unclaimed rfl hnone
  · have hnone : hasXvm s.cfg = false := beq_false_of_ne hxvm
    exact ⟨exec_of_unclaimed rfl hnone, exec_of_unclaimed rfl hnone⟩
  · have hnone : (s.cfg.variant != .VA) = false := bne_eq_false_iff_eq.mpr hva
    exact ⟨exec_of_unclaimed rfl hnone, exec_of_unclaimed rfl hnone⟩
  · have hnone : hasExtend s.cfg = false := Bool.eq_false_iff.mpr fun h => (hasExtend_iff.mp h).elim hvb hvc
    exact ⟨exec_of_unclaimed rfl hnone, exec_of_unclaimed rfl hnone⟩
  · have hnone : (s.cfg.variant == .VD) = false := beq_false_of_ne hvd
    exact ⟨exec_of_unclaimed rfl hnone, exec_of_unclaimed rfl hnone⟩

/-- Settles O40: the callback's whole next state, and the words unclaimed where their option is absent. -/
theorem deviceCallbacks : Obligations.DeviceCallbacks := ⟨deviceTransfers, absentOptionsGoToTheDevice⟩

end Sys2Proof.Machine
end

section
/-! What an instruction run in user mode leaves as it is: the protection registers, the switches, the interrupt system's enables
and requests, and what the device agent holds (R230, R363, R380). -/

namespace Sys2Proof.Machine

/-! ## The registers that user mode cannot change -/

/-- What a program in user mode can neither change nor ask the device agent to change. -/
structure Reserved where
  br : Word
  rr : Word
  mmr : Word
  sr : Word
  ion : Bool
  ionDefer : Bool
  apiEnb : Bool
  apiReq : BitVec 8
  intReq : RequestLines
  draws : Nat
  ioAnswers : List IoAnswer
  statusPolls : List Word

/-- That part of a state. -/
def State.reserved (s : State) : Reserved where
  br := s.br
  rr := s.rr
  mmr := s.mmr
  sr := s.sr
  ion := s.ion
  ionDefer := s.ionDefer
  apiEnb := s.apiEnb
  apiReq := s.apiReq
  intReq := s.intReq
  draws := s.draws
  ioAnswers := s.ioAnswers
  statusPolls := s.statusPolls

/-- FMB is not reserved. (Stated for any value, so that no check of a use evaluates the value written.) -/
theorem State.reserved_fmb (s : State) (b : FpReg) : ({ s with fmb := b } : State).reserved = s.reserved := rfl

/-- The answer's state, if it is a next one, has the reserved part of `s`. -/
def KeepsReserved (s : State) (o : Host.Outcome State Fault Refusal) : Prop := ∀ t, o = .next t → t.reserved = s.reserved

theorem KeepsReserved.next {s t : State} (h : t.reserved = s.reserved) : KeepsReserved s (.next t) := by
  rintro _ ⟨⟩
  exact h

/-! ## Accesses -/

/-- An access changes memory and fault flags, which are not reserved. -/
theorem State.reserved_of_accessFrame {s t : State} (h : s.accessFrame t) : t.reserved = s.reserved := by
  obtain ⟨_, _, _, _, rfl⟩ := h
  rfl

theorem Access.reserved_finish {α : Type} {g : Reserved} {x : Access α} {f : α → State → State} (hx : x.state.reserved = g)
    (hf : ∀ v t, (f v t).reserved = t.reserved) : (x.finish f).reserved = g := by
  cases x with
  | done v t => exact (hf v t).trans hx
  | abandoned t => exact hx

theorem State.reserved_resolve (s : State) (m : MemOperand) : (s.resolve m).state.reserved = s.reserved :=
  State.reserved_of_accessFrame (s.resolve_frame m)

theorem State.reserved_loadOperand (s : State) (m : MemOperand) : (s.loadOperand m).state.reserved = s.reserved :=
  State.reserved_of_accessFrame (s.loadOperand_frame m)

theorem State.reserved_inlineOperand (s : State) : s.inlineOperand.state.reserved = s.reserved :=
  State.reserved_of_accessFrame (s := s.advance) s.inlineOperand_frame

theorem State.reserved_fpAddress (s : State) : s.fpAddress.state.reserved = s.reserved :=
  State.reserved_of_accessFrame (s := s.advance) s.fpAddress_frame

/-- Operand B goes to FMB, which is not reserved (R313). -/
theorem State.reserved_fpOperand (s : State) (md : FpMods) (ea : Addr) : (s.fpOperand md ea).state.reserved = s.reserved := by
  unfold State.fpOperand
  split
  · rfl
  · have hload := State.reserved_of_accessFrame (s.fpLoad_frame (fpFormat md) ea)
    refine Access.state_andThen (R := fun a b => b.reserved = a.reserved) (fun h h' => h'.trans h) hload fun b t => ?_
    cases b with
    | ok u => exact t.reserved_fmb u.pack
    | error k => rfl

/-! ## The shared operations of the instruction classes -/

theorem reserved_ite {g : Reserved} {p : Prop} [Decidable p] {t u : State} (ht : t.reserved = g) (hu : u.reserved = g) :
    (if p then t else u).reserved = g := by
  split
  · exact ht
  · exact hu

/-- An IOT-class word traps in user mode, and its effect is not run (R230). -/
theorem State.reserved_iot {s : State} (huser : s.usmd = true) (claimed : Bool) (dev code : BitVec 6) (cla : Bool)
    (effect : State → State) : (s.iot claimed dev code cla effect).reserved = s.reserved :=
  (congrArg State.reserved (State.iot_of_userMode huser claimed dev code cla effect)).trans rfl

theorem State.reserved_operate (s : State) (o : OperateOps) : (s.operate o).reserved = s.reserved :=
  reserved_ite rfl (reserved_ite rfl rfl)

theorem State.reserved_eaeDivide (s : State) (signed : Bool) (n : BitVec 6) (mb : Word) :
    (s.eaeDivide signed n mb).reserved = s.reserved :=
  reserved_ite rfl (reserved_ite rfl rfl)

theorem State.reserved_eae (s : State) (p : EaePre) (cmd : EaeCmd) (n : BitVec 6) : (s.eae p cmd n).reserved = s.reserved := by
  cases cmd
  case multiply => exact Access.reserved_finish (s.eaePre p).reserved_inlineOperand fun _ _ => rfl
  case divide => exact Access.reserved_finish (s.eaePre p).reserved_inlineOperand fun mb t => t.reserved_eaeDivide _ n mb
  all_goals rfl

theorem State.reserved_enter (s : State) (save : Nat) (target : Addr) : (s.enter save target).reserved = s.reserved := by
  rcases s.enter_cases save target with ⟨-, e⟩ | ⟨-, e⟩ <;> rw [e] <;> rfl

theorem State.reserved_jumpSubroutine (s : State) (ea : Addr) (ret : Word) :
    (s.jumpSubroutine ea ret).reserved = s.reserved :=
  Access.reserved_finish (State.reserved_of_accessFrame (s.cpuWrite_frame _ _)) fun _ _ => rfl

theorem State.reserved_unimplemented (s : State) : s.unimplemented.reserved = s.reserved := by
  rcases s.unimplemented_cases with ⟨-, e⟩ | ⟨-, e⟩ <;> rw [e]
  rfl

theorem State.reserved_fpException (s : State) (k : FpExc) : (s.fpException k).reserved = s.reserved :=
  Access.reserved_finish (State.reserved_of_accessFrame (s.cpuWrite_frame _ _)) fun _ _ => rfl

theorem reserved_fpSettle {α : Type} {g : Reserved} {x : Access α} {f : α → State → State} (hx : x.state.reserved = g)
    (hf : ∀ v t, (f v t).reserved = t.reserved) : (fpSettle x f).reserved = g := by
  cases x with
  | done v t => exact (hf v t).trans hx
  | abandoned t => exact (t.reserved_fpException .mm).trans hx

theorem State.reserved_fpFinish (s : State) (sgn : BitVec 2) (r : Except FpExc FpResult) :
    (s.fpFinish sgn r).reserved = s.reserved := by
  cases r with
  | ok x => rfl
  | error k => exact s.reserved_fpException k

theorem State.reserved_fpArith (s : State) (md : FpMods) (op : FpMods → Unpacked → Unpacked → Except FpExc FpResult) :
    (s.fpArith md op).reserved = s.reserved := by
  refine reserved_fpSettle ?_ fun _ t => t.reserved_fpFinish _ _
  exact Access.state_andThen (R := fun a b => b.reserved = a.reserved) (fun h h' => h'.trans h) s.reserved_fpAddress
    fun ea t => t.reserved_fpOperand md ea

theorem State.reserved_fpUnary (s : State) (md : FpMods) (op : Unpacked → Except FpExc FpResult) :
    (s.fpUnary md op).reserved = s.reserved :=
  reserved_fpSettle s.reserved_fpAddress fun _ t => t.reserved_fpFinish _ _

/-! ## Instructions with a meaning of their own -/

/-- CAL activates an API level, which is not reserved, and leaves the API's enable and requests (R170). -/
theorem execCal_keepsReserved (ign : BitVec 14) (s : State) : KeepsReserved s (execCal ign s) :=
  .next (State.reserved_enter _ _ _)

theorem execIsz_keepsReserved (m : MemOperand) (s : State) : KeepsReserved s (execIsz m s) := by
  refine .next (Access.reserved_finish (State.reserved_of_accessFrame ?_) fun _ _ => rfl)
  exact Access.frame_andThen (s.resolve_frame m) fun _ t =>
    Access.frame_andThen (t.cpuRead_frame _ _) fun _ u =>
      Access.frame_andThen (u.cpuWrite_frame _ _) fun _ v => v.accessFrame_refl

theorem execJmp_keepsReserved (m : MemOperand) (s : State) : KeepsReserved s (execJmp m s) := by
  refine .next (Access.reserved_finish (s.reserved_resolve m) fun r t => ?_)
  dsimp only
  split <;> split <;> rfl

theorem execSt_keepsReserved (m : FpMods) (s : State) : KeepsReserved s (execSt m s) := by
  refine .next (reserved_fpSettle s.reserved_fpAddress fun ea t => ?_)
  split
  · exact t.reserved_fmb _
  · split
    · exact t.reserved_fpException _
    · next ws _ => exact reserved_fpSettle (State.reserved_of_accessFrame (State.fpStore_frame ws t ea)) fun _ _ => rfl

theorem execJea_keepsReserved (m : FpMods) (s : State) : KeepsReserved s (execJea m s) := by
  refine .next (reserved_fpSettle s.reserved_fpAddress fun ea t => ?_)
  split
  · exact reserved_fpSettle (State.reserved_of_accessFrame (t.fpWrite_frame _ _)) fun _ _ => rfl
  · exact reserved_fpSettle (State.reserved_of_accessFrame (t.fpRead_frame _)) fun _ _ => rfl

theorem execBr_keepsReserved (c : BrConds) (s : State) : KeepsReserved s (execBr c s) := by
  refine .next (reserved_fpSettle s.reserved_fpAddress fun ea t => ?_)
  split <;> rfl

/-! ## Every instruction -/

/-- In user mode every instruction keeps the reserved part, if XCT does. -/
theorem execWith_keepsReserved {xct : MemOperand → State → Host.Outcome State Fault Refusal}
    (hx : ∀ m s, s.usmd = true → KeepsReserved s (xct m s)) (i : Instr) (s : State) (huser : s.usmd = true) :
    KeepsReserved s (execWith xct i s) := by
  cases i
  case cal ign => exact execCal_keepsReserved ign s
  case dac m | dzm m =>
    exact .next (Access.reserved_finish (State.reserved_of_accessFrame (s.storeOperand_frame m _)) fun _ _ => rfl)
  case jms m => exact .next (Access.reserved_finish (s.reserved_resolve m) fun _ t => t.reserved_jumpSubroutine _ _)
  case lac m | xor m | add m | tad m | and m | sad m =>
    exact .next (Access.reserved_finish (s.reserved_loadOperand m) fun _ _ => rfl)
  case xct m => exact hx m s huser
  case isz m => exact execIsz_keepsReserved m s
  case jmp m => exact execJmp_keepsReserved m s
  case opr | nop | cma | cml | oas | ral | rar | iac | hlt | sma | sza | smaSza | snl | skp | spa | sna | spaSna | szl | rtl | rtr
      | bsw | cll | stl | rcl | rcr | cla | clc | las | glk => exact .next (s.reserved_operate _)
  case law | pax | pal | aac | pxa | axs | pxl | pla | plx | clac | clx | cllr | axr => exact .next rfl
  case iot | iof | ion | iors | caf | dbk | dbr | mpsk | mpcne | mpcv | mpld | mplr | mplmr | mprmr | mpsne | mpeu | semSba | eem
      | lem | eba | dba | emirRes | spi | isa | rpl => exact .next (State.reserved_iot huser _ _ _ _ _)
  case eae | osc | omq | cmq | lacs | lacq | abs | clq | lmq | gsm | mul | muls | div | divs | idiv | idivs | frdiv | frdivs | norm
      | norms | lrs | lrss | lls | llss | als | alss => exact .next (s.reserved_eae _ _ _)
  case fpSub | fpRsub | fpMul | fpDiv | fpRdiv | ld | fpAdd => exact .next (s.reserved_fpArith _ _)
  case st m => exact execSt_keepsReserved m s
  case flt | fix => exact .next (s.reserved_fpUnary _ _)
  case lfmq => exact .next (reserved_fpSettle s.reserved_fpAddress fun _ _ => rfl)
  case jea m => exact execJea_keepsReserved m s
  case br c => exact execBr_keepsReserved c s

/-- The executed words of an XCT are still run in user mode, since reading them is an access (R178). -/
theorem xctChain_keepsReserved (n : Nat) :
    ∀ (m : MemOperand) (s : State), s.usmd = true → KeepsReserved s (xctChain n m s) := by
  induction n with
  | zero => exact fun m s _ => .next (Access.reserved_finish (s.reserved_loadOperand m) fun _ _ => rfl)
  | succ n ih =>
    intro m s huser
    have hframe := s.loadOperand_frame m
    unfold xctChain
    split
    · next t ht => exact .next (State.reserved_of_accessFrame (Access.abandoned_state ht ▸ hframe))
    · next w t ht =>
      rw [Access.done_state ht] at hframe
      obtain ⟨mem, nexm, prvn, trap, rfl⟩ := hframe
      unfold executeWord
      split
      · exact execWith_keepsReserved ih _ _ huser
      · exact .next (State.reserved_unimplemented _)

/-- Settles O58: in user mode the IOT class traps, and no other instruction changes a reserved register. -/
theorem userModeCannotReconfigure : Obligations.UserModeCannotReconfigure := by
  intro i s t huser h
  rw [exec_eq_execWith] at h
  have hkeeps := execWith_keepsReserved (fun m s => xctChain_keepsReserved _ m s) i s huser t h
  simpa only [State.reserved, Reserved.mk.injEq] using hkeeps

end Sys2Proof.Machine
end

section
/-! The named EAE words (R291): what each setup word does, shifts and normalizes as windows on the pair, a multiply as a product,
and a divide as a quotient with its remainder. -/

namespace Sys2Proof.Machine

/-! ## The setup words -/

/-- Settles O42: each row is its word's pre-steps and setup micro-operations, an OR into a cleared register being a load. -/
theorem setupTable : Obligations.SetupTable := by
  intro s neg t
  have hlacs : exec .lacs s = .next { t with ac := 0#18 ||| s.sc.setWidth 18 } := rfl
  have hlacq : exec .lacq s = .next { t with ac := 0#18 ||| s.mq } := rfl
  have hlmq : exec .lmq s = .next { t with mq := 0#18 ||| s.ac } := rfl
  rw [BitVec.zero_or] at hlacs hlacq hlmq
  exact ⟨rfl, rfl, rfl, hlacs, hlacq, rfl, rfl, hlmq, rfl⟩

/-! ## The shifts -/

/-- Settles O43: a named shift is its command after the pre-steps, which give the link the fill and leave the pair. -/
theorem shiftsFillFromTheLink : Obligations.ShiftsFillFromTheLink := by
  intro n s signed fill ones right left t
  obtain ⟨-, -, -, -, hlrs, hlls, hals⟩ := eaeCommandLoops { sgnl := signed } n s
  have hnamed : exec (if signed then .lrss n else .lrs n) s = exec (.eae { sgnl := signed } .lrs n) s
      ∧ exec (if signed then .llss n else .lls n) s = exec (.eae { sgnl := signed } .lls n) s
      ∧ exec (if signed then .alss n else .als n) s = exec (.eae { sgnl := signed } .als n) s := by
    cases signed <;> exact ⟨rfl, rfl, rfl⟩
  obtain ⟨hlrsName, hllsName, halsName⟩ := hnamed
  exact ⟨hlrsName.trans hlrs, hllsName.trans hlls, halsName.trans hals⟩

/-! ## NORM and NORMS -/

/-- A fill of 36 places is enough for the 36 shifts of a normalize: the window of the pair with the longer fill is its window with
the shorter one. -/
theorem pairLeft_eq_shortFill (l : Bool) (ac mq : Word) {k : Nat} (hk : k ≤ 36) :
    pairLeft l ac mq k = (ac ++ mq ++ (if l then BitVec.allOnes 36 else 0)).extractLsb' (36 - k) 36 := by
  generalize hshort : (if l then BitVec.allOnes 36 else 0) = short
  obtain ⟨rest, hfill⟩ : ∃ rest : BitVec 27, (linkFill l).toNat = short.toNat * 2 ^ 27 + rest.toNat := by
    subst hshort
    cases l with
    | false => exact ⟨0, rfl⟩
    | true => exact ⟨BitVec.allOnes 27, rfl⟩
  have hsplit : (ac ++ mq ++ linkFill l).toNat = ((ac ++ mq ++ short) ++ rest).toNat := by
    rw [toNat_append_eq_add, hfill, toNat_append_eq_add (ac ++ mq ++ short), toNat_append_eq_add (ac ++ mq)]
    omega
  refine BitVec.eq_of_toNat_eq ?_
  rw [pairLeft, window_toNat, window_toNat, hsplit, show 63 - k = 27 + (36 - k) by omega, append_div_high]

/-- Settles O46: a normalize of count 36 after the pre-steps, which give the link the fill and leave the pair. -/
theorem normalizeShiftsUntilSignsDiffer : Obligations.NormalizeShiftsUntilSignsDiffer := by
  intro s signed fill ones shifted
  let t := s.preStepped { sgnl := signed }
  have hnamed : exec (if signed then .norms else .norm) s = .next (t.eaeNormalize 0o44) := by
    rw [← (exec_eae_registers { sgnl := signed } 0o44 s).2.1]
    cases signed <;> rfl
  have hshifted : ∀ k ≤ 36, pairLeft t.l t.ac t.mq k = shifted k := fun k hk => pairLeft_eq_shortFill fill s.ac s.mq hk
  obtain ⟨k, hk, hloop, hbefore, hafter⟩ := normLoop_left t.l t.ac t.mq (n := (0o44 : BitVec 6).toNat) (by decide)
  rw [hshifted k hk] at hloop hafter
  refine ⟨k, hk, hnamed.trans ?_, fun j hj => hshifted j (hj.le.trans hk) ▸ hbefore j hj, hafter⟩
  rw [State.eaeNormalize, hloop]
  rfl

/-! ## MUL and MULS -/

/-- The place of a word's first bit, where the word is cut after `n + 1` bits or before its last `m`. -/
theorem topPlace_split {n m : Nat} (hnm : n + 1 + m = 18) : 2 ^ 17 = 2 ^ m * 2 ^ n := by
  rw [← Nat.pow_add]
  congr 1
  omega

/-- One step of a multiply, on an MQ that holds the product's low bits so far above what is left of the multiplier: the
multiplier's last bit adds the multiplicand, and the sum's last bit joins the product (R285). -/
theorem mulStepNat_split {n m : Nat} (hnm : n + 1 + m = 18) (md a low mr : Nat) :
    let sum := a + mr % 2 * md
    mulStepNat md (a, low * 2 ^ (n + 1) + mr) = (sum / 2, (sum % 2 * 2 ^ m + low) * 2 ^ n + mr / 2) := by
  intro sum
  have hplace := topPlace_split hnm
  have hdouble : low * 2 ^ (n + 1) + mr = 2 * (low * 2 ^ n) + mr := by rw [Nat.pow_succ]; ring
  have hadd : (if mr % 2 = 1 then md else 0) = mr % 2 * md := by
    rcases Nat.mod_two_eq_zero_or_one mr with h | h <;> simp [h]
  rw [mulStepNat, hdouble, Nat.mul_add_mod, Nat.mul_add_div (by decide), hadd, hplace]
  refine Prod.ext rfl ?_
  change sum % 2 * (2 ^ m * 2 ^ n) + (low * 2 ^ n + mr / 2) = _
  ring

/-- `n` steps use up a multiplier of `n` bits: they add its product with the multiplicand, at the place that the steps made
before have reached (R285). -/
theorem mulSteps_value (md n : Nat) : ∀ m a low mr : Nat, n + m = 18 → low < 2 ^ m → mr < 2 ^ n →
    let x := Nat.repeat (mulStepNat md) n (a, low * 2 ^ n + mr)
    x.2 < 2 ^ 18 ∧ x.1 * 2 ^ 18 + x.2 = (a + mr * md) * 2 ^ m + low := by
  induction n with
  | zero =>
    intro m a low mr hm hlow hmr
    obtain rfl : m = 18 := by omega
    obtain rfl : mr = 0 := by omega
    change low * 2 ^ 0 + 0 < 2 ^ 18 ∧ a * 2 ^ 18 + (low * 2 ^ 0 + 0) = (a + 0 * md) * 2 ^ 18 + low
    omega
  | succ n ih =>
    intro m a low mr hm hlow hmr
    rw [repeat_succ_start, mulStepNat_split hm]
    generalize hsum : a + mr % 2 * md = sum
    have hbit : sum % 2 * 2 ^ m + low < 2 ^ (m + 1) := by
      rw [Nat.pow_succ]
      rcases Nat.mod_two_eq_zero_or_one sum with h | h <;> rw [h] <;> omega
    obtain ⟨hlt, hvalue⟩ := ih (m + 1) (sum / 2) (sum % 2 * 2 ^ m + low) (mr / 2) (by omega) hbit
      (by rw [Nat.pow_succ] at hmr; omega)
    refine ⟨hlt, hvalue.trans ?_⟩
    calc (sum / 2 + mr / 2 * md) * 2 ^ (m + 1) + (sum % 2 * 2 ^ m + low)
      _ = (2 * (sum / 2) + sum % 2 + 2 * (mr / 2) * md) * 2 ^ m + low := by ring
      _ = (a + (2 * (mr / 2) + mr % 2) * md) * 2 ^ m + low := by rw [Nat.div_add_mod, ← hsum]; ring
      _ = (a + mr * md) * 2 ^ m + low := by rw [Nat.div_add_mod]

/-- The multiply of the rule, from AC at 0, leaves the halves of the product (R285). -/
theorem mulSteps_product (md : Nat) {mr : Nat} (h : mr < 2 ^ 18) :
    Nat.repeat (mulStepNat md) 18 (0, mr) = (mr * md / 2 ^ 18, mr * md % 2 ^ 18) := by
  obtain ⟨hlt, hvalue⟩ := mulSteps_value md 18 0 0 0 mr rfl (by decide) h
  rw [Nat.zero_mul, Nat.zero_add] at hlt hvalue
  refine Prod.ext ?_ ?_ <;> omega

theorem pairHigh_complementIf (b : Bool) (w : BitVec 36) : pairHigh (if b then ~~~w else w) = flipIf b (pairHigh w) := by
  cases b with
  | false => rfl
  | true =>
    ext i hi
    simp [pairHigh, flipIf, show 18 + i < 36 by omega]

theorem pairLow_complementIf (b : Bool) (w : BitVec 36) : pairLow (if b then ~~~w else w) = flipIf b (pairLow w) := by
  cases b with
  | false => rfl
  | true =>
    ext i hi
    simp [pairLow, flipIf, show i < 36 by omega]

/-- The multiply loop at count 18, its multiplier and multiplicand words: the halves of their product. -/
theorem mulSteps_words (md low : Word) :
    let product := BitVec.ofNat 36 (low.toNat * md.toNat)
    Nat.repeat (mulStepNat md.toNat) (0o22 : BitVec 6).toNat ((0 : Word).toNat, low.toNat)
      = ((pairHigh product).toNat, (pairLow product).toNat) := by
  intro product
  have hproduct : product.toNat = low.toNat * md.toNat :=
    Nat.mod_eq_of_lt (show _ < 2 ^ 18 * 2 ^ 18 from Nat.mul_lt_mul'' low.isLt md.isLt)
  rw [pairHigh_toNat, pairLow_toNat, hproduct]
  exact mulSteps_product md.toNat low.isLt

/-- A multiply of count 18 from AC at 0: the product of the magnitudes, complemented where the signs differ (R281, R285). -/
theorem State.eaeMultiply_product {u : State} {signed acneg : Bool} {low : Word} (hneg : u.eaeAcSign = (signed && acneg))
    (hac : u.ac = 0) (hmq : flipIf (signed && acneg) u.mq = low) (mb : Word) :
    u.eaeMultiply signed 0o22 mb =
      let mneg := signed && mb.getMsbD 0
      let product := BitVec.ofNat 36 (low.toNat * (flipIf mneg mb).toNat)
      let psign := (signed && acneg) != mneg
      { u with ac := flipIf psign (pairHigh product), mq := flipIf psign (pairLow product), l := psign, sc := 0 } := by
  simp only [State.eaeMultiply_eq hneg, hac, hmq, mulSteps_words, BitVec.ofNat_toNat, BitVec.setWidth_eq]

/-- MULS and MUL on a readable operand: MULS sets the magnitude of AC against that of the operand (R284, R291). -/
theorem exec_namedMultiply {s : State} {pa : Addr} (h : s.translate s.pc .read = .ok pa) (signed : Bool) :
    exec (if signed then .muls else .mul) s =
      let mb := s.wordAt pa.toNat
      let neg := signed && s.ac.getMsbD 0
      let mneg := signed && mb.getMsbD 0
      let product := BitVec.ofNat 36 ((flipIf neg s.ac).toNat * (flipIf mneg mb).toNat)
      .next { s with
        pc := incPC s.cfg s.pc, ac := flipIf (neg != mneg) (pairHigh product), mq := flipIf (neg != mneg) (pairLow product)
        l := neg != mneg, sc := 0, eaeAcSign := neg } := by
  have hnamed : exec (if signed then .muls else .mul) s =
      exec (.eae { clq := true, sign := signed, acmq := true, cla := true } .multiply 0o22) s := by cases signed <;> rfl
  have hmq : (s.atOperand { clq := true, sign := signed, acmq := true, cla := true }).mq = s.ac := BitVec.zero_or
  rw [hnamed, (exec_eae_of_operand 0o22 (State.cpuRead_ok (s := s.atOperand _) h)).1,
    State.eaeMultiply_product rfl rfl (congrArg (flipIf (signed && s.ac.getMsbD 0)) hmq)]
  rfl

/-- Settles O44: MUL and MULS are one multiply, which takes magnitudes only where it is signed. -/
theorem multiplyIsTheProduct : Obligations.MultiplyIsTheProduct := by
  intro s pa h mb mag psign p q sq t
  refine ⟨exec_namedMultiply h false, (exec_namedMultiply h true).trans ?_⟩
  change _ = Host.Outcome.next { t with ac := pairHigh sq, mq := pairLow sq, l := psign, eaeAcSign := s.ac.getMsbD 0 }
  rw [pairHigh_complementIf, pairLow_complementIf]
  rfl

/-! ## The divides -/

/-- One step of a divide, on an MQ that holds what is left of the dividend above the quotient's bits so far (R287). -/
theorem divStepNat_split {n m : Nat} (hnm : n + 1 + m = 18) (dv r : Nat) {left quo : Nat} (hquo : quo < 2 ^ m) :
    let rem := 2 * r + left / 2 ^ n
    let more := if dv ≤ rem then 1 else 0
    divStepNat dv (r, left * 2 ^ m + quo) = (rem - more * dv, left % 2 ^ n * 2 ^ (m + 1) + (2 * quo + more)) := by
  intro rem more
  have hplace := topPlace_split hnm
  have htop : (left * 2 ^ m + quo) / 2 ^ 17 = left / 2 ^ n := by
    rw [hplace, ← Nat.div_div_eq_div_mul, Nat.mul_comm left, Nat.mul_add_div (Nat.two_pow_pos m), Nat.div_eq_of_lt hquo,
      Nat.add_zero]
  have hrest : 2 * (left * 2 ^ m + quo) % 2 ^ 18 = left % 2 ^ n * 2 ^ (m + 1) + 2 * quo := by
    have hmod := Nat.mod_lt left (Nat.two_pow_pos n)
    have hlow : left % 2 ^ n * 2 ^ m + quo < 2 ^ 17 := by
      calc left % 2 ^ n * 2 ^ m + quo
        _ < (left % 2 ^ n + 1) * 2 ^ m := by rw [Nat.succ_mul]; omega
        _ ≤ 2 ^ n * 2 ^ m := Nat.mul_le_mul_right _ hmod
        _ = 2 ^ 17 := by rw [hplace, Nat.mul_comm]
    have hwhole : 2 * (left * 2 ^ m + quo) = 2 ^ 18 * (left / 2 ^ n) + 2 * (left % 2 ^ n * 2 ^ m + quo) := by
      conv_lhs => rw [← Nat.div_add_mod left (2 ^ n)]
      rw [show 2 ^ 18 = 2 * 2 ^ 17 from rfl, hplace]
      ring
    rw [hwhole, Nat.mul_add_mod, Nat.mod_eq_of_lt (by omega)]
    ring
  rw [divStepNat, htop, hrest]
  dsimp only [more]
  split
  · rw [Nat.one_mul]; rfl
  · rw [Nat.zero_mul]; rfl

/-- `n` steps bring in the `n` bits left of the dividend: the remainder stays below the divisor, and with the quotient it makes
up the dividend (R287). -/
theorem divSteps_value (dv n : Nat) : ∀ m r left quo : Nat, n + m = 18 → r < dv → left < 2 ^ n → quo < 2 ^ m →
    let x := Nat.repeat (divStepNat dv) n (r, left * 2 ^ m + quo)
    x.1 < dv ∧ x.2 * dv + x.1 = quo * 2 ^ n * dv + (r * 2 ^ n + left) := by
  induction n with
  | zero =>
    intro m r left quo _ hr hleft _
    obtain rfl : left = 0 := by omega
    change r < dv ∧ (0 * 2 ^ m + quo) * dv + r = quo * 2 ^ 0 * dv + (r * 2 ^ 0 + 0)
    exact ⟨hr, by ring⟩
  | succ n ih =>
    intro m r left quo hm hr hleft hquo
    rw [repeat_succ_start, divStepNat_split hm dv r hquo]
    generalize hrem : 2 * r + left / 2 ^ n = rem
    generalize hmore : (if dv ≤ rem then 1 else 0) = more
    have hbit : left / 2 ^ n < 2 := Nat.div_lt_of_lt_mul (by rwa [← Nat.pow_succ])
    have hstep : more ≤ 1 ∧ more * dv ≤ rem ∧ rem - more * dv < dv := by
      split at hmore <;> subst hmore <;> omega
    obtain ⟨hone, hle, hlt⟩ := hstep
    obtain ⟨hbelow, hvalue⟩ := ih (m + 1) (rem - more * dv) (left % 2 ^ n) (2 * quo + more) (by omega) hlt
      (Nat.mod_lt left (Nat.two_pow_pos n)) (by rw [Nat.pow_succ]; omega)
    refine ⟨hbelow, hvalue.trans ?_⟩
    obtain ⟨rest, hrest⟩ := Nat.exists_eq_add_of_le hle
    rw [hrest, Nat.add_sub_cancel_left]
    calc (2 * quo + more) * 2 ^ n * dv + (rest * 2 ^ n + left % 2 ^ n)
      _ = quo * 2 ^ (n + 1) * dv + ((more * dv + rest) * 2 ^ n + left % 2 ^ n) := by ring
      _ = quo * 2 ^ (n + 1) * dv + (r * 2 ^ (n + 1) + (2 ^ n * (left / 2 ^ n) + left % 2 ^ n)) := by
        rw [← hrest, ← hrem]; ring
      _ = quo * 2 ^ (n + 1) * dv + (r * 2 ^ (n + 1) + left) := by rw [Nat.div_add_mod]

/-- The divide of the rule leaves the remainder and the quotient, where the quotient fits (R287, R288). -/
theorem divSteps_quotient {dv r q : Nat} (hr : r < dv) (hq : q < 2 ^ 18) :
    Nat.repeat (divStepNat dv) 18 (r, q) = ((r * 2 ^ 18 + q) % dv, (r * 2 ^ 18 + q) / dv) := by
  obtain ⟨hlt, hvalue⟩ := divSteps_value dv 18 0 r q 0 rfl hr hq (by decide)
  rw [Nat.pow_zero, Nat.mul_one, Nat.add_zero, Nat.zero_mul, Nat.zero_mul, Nat.zero_add, Nat.mul_comm _ dv] at hvalue
  rw [Nat.pow_zero, Nat.mul_one, Nat.add_zero] at hlt
  obtain ⟨hquo, hrem⟩ := (Nat.div_mod_unique (Nat.zero_lt_of_lt hr)).mpr ⟨(Nat.add_comm _ _).trans hvalue, hlt⟩
  exact Prod.ext hrem.symm hquo.symm

/-- A divide of count 19, whose 18 quotient steps take in the whole of MQ (R281, R287, R288). -/
theorem State.eaeDivide_quotient {u : State} {signed acneg : Bool} {low : Word} (hneg : u.eaeAcSign = (signed && acneg))
    (hmq : flipIf (signed && acneg) u.mq = low) (mb : Word) :
    u.eaeDivide signed 0o23 mb =
      let neg := signed && acneg
      let dneg := signed && mb.getMsbD 0
      let dv := (flipIf dneg mb).toNat
      let d := u.ac.toNat * 2 ^ 18 + low.toNat
      if dv ≤ u.ac.toNat then { u with mq := low, l := true }
      else if d = 0 then { u with ac := 0, mq := 0, l := false, sc := 0 }
      else
        { u with
          ac := flipIf neg (BitVec.ofNat 18 (d % dv)), mq := flipIf (neg != dneg) (BitVec.ofNat 18 (d / dv))
          l := false, sc := 0 } := by
  have hzero : u.ac = 0 ∧ low = 0 ↔ u.ac.toNat * 2 ^ 18 + low.toNat = 0 := by
    rw [BitVec.toNat_eq, BitVec.toNat_eq]
    change u.ac.toNat = 0 ∧ low.toNat = 0 ↔ _
    omega
  simp only [State.eaeDivide_eq hneg, hmq, hzero]
  split
  · rfl
  · next hover =>
    have hsteps : Nat.repeat (divStepNat _) ((0o23 : BitVec 6).toNat - 1) (u.ac.toNat, low.toNat) = _ :=
      divSteps_quotient (Nat.lt_of_not_le hover) low.isLt
    split
    · next hd => rw [(hzero.mpr hd).1]
    · rw [hsteps]

/-- A divide of count 19 on a readable operand, from the dividend that the pre-steps leave in AC and, its magnitude taken, in
MQ. -/
theorem exec_divide_of_operand {s : State} {pa : Addr} (h : s.translate s.pc .read = .ok pa) (p : EaePre) {high low : Word}
    (hac : (s.atOperand p).ac = high) (hmq : flipIf (p.sign && s.ac.getMsbD 0) (s.atOperand p).mq = low) :
    exec (.eae p .divide 0o23) s =
      let mb := s.wordAt pa.toNat
      let neg := p.sign && s.ac.getMsbD 0
      let dneg := p.sign && mb.getMsbD 0
      let dv := (flipIf dneg mb).toNat
      let d := high.toNat * 2 ^ 18 + low.toNat
      let u := s.atOperand p
      .next
        (if dv ≤ high.toNat then { u with ac := high, mq := low, l := true }
         else if d = 0 then { u with ac := 0, mq := 0, l := false, sc := 0 }
         else
          { u with
            ac := flipIf neg (BitVec.ofNat 18 (d % dv)), mq := flipIf (neg != dneg) (BitVec.ofNat 18 (d / dv))
            l := false, sc := 0 }) := by
  rw [(exec_eae_of_operand 0o23 (State.cpuRead_ok (s := s.atOperand p) h)).2,
    State.eaeDivide_quotient (u := s.atOperand p) rfl hmq]
  subst hac
  rfl

/-- Where nothing is signed a zero dividend is no case of its own: its quotient and its remainder are 0 (R287). -/
theorem exec_divide_unsigned {s : State} {pa : Addr} (h : s.translate s.pc .read = .ok pa) {p : EaePre} (hsign : p.sign = false)
    {high low : Word} (hac : (s.atOperand p).ac = high) (hmq : (s.atOperand p).mq = low) :
    exec (.eae p .divide 0o23) s =
      let mb := s.wordAt pa.toNat
      let d := high.toNat * 2 ^ 18 + low.toNat
      let u := s.atOperand p
      .next
        (if mb.toNat ≤ high.toNat then { u with ac := high, mq := low, l := true }
         else
          { u with ac := BitVec.ofNat 18 (d % mb.toNat), mq := BitVec.ofNat 18 (d / mb.toNat), l := false, sc := 0 }) := by
  have hflip : ∀ w, flipIf false w = w := fun _ => rfl
  have hlow : flipIf (p.sign && s.ac.getMsbD 0) (s.atOperand p).mq = low := by rw [hsign, hmq]; rfl
  rw [exec_divide_of_operand h p hac hlow]
  simp only [hsign, Bool.false_and, bne_self_eq_false, hflip]
  refine congrArg _ (if_congr Iff.rfl rfl ?_)
  split
  · next hd => rw [hd, Nat.zero_mod, Nat.zero_div]; rfl
  · rfl

theorem divideIsQuotientAndRemainder : Clause.DivideIsQuotientAndRemainder := by
  intro s pa h mb t
  have hidiv : 0 ||| s.ac = s.ac := BitVec.zero_or
  simp only [List.forall_mem_cons]
  refine ⟨?_, ?_, ?_, fun _ hp => absurd hp List.not_mem_nil⟩
  · exact exec_divide_unsigned h (p := {}) rfl rfl rfl
  · exact exec_divide_unsigned h (p := { clq := true, acmq := true, cla := true }) rfl rfl hidiv
  · exact exec_divide_unsigned h (p := { clq := true }) rfl rfl rfl

theorem signedDivide : Clause.SignedDivide := by
  intro s pa h mb neg flip dv t
  have hidivs : flipIf neg (0 ||| s.ac) = flipIf neg s.ac := congrArg _ BitVec.zero_or
  simp only [List.forall_mem_cons]
  refine ⟨?_, ?_, ?_, fun _ hp => absurd hp List.not_mem_nil⟩
  · exact exec_divide_of_operand h { sign := true } rfl rfl
  · exact exec_divide_of_operand h { clq := true, sign := true, acmq := true, cla := true } rfl hidivs
  · exact exec_divide_of_operand h { clq := true, sign := true } rfl rfl

/-- Settles O45: the six named divides are one divide of count 19. -/
theorem division : Obligations.Division := ⟨divideIsQuotientAndRemainder, signedDivide⟩

end Sys2Proof.Machine
end

section
/-! What an EAE word leaves unchanged: every word of the class is one operation, whose accesses only read (R280, R284). -/

namespace Sys2Proof.Machine

/-! ## The words of the class -/

theorem opcode_memWord (op : BitVec 4) (m : MemOperand) : (memWord op m).extractLsb' 14 4 = op := (memWord_eq_iff.mp rfl).1
theorem opcode_operateWord (o : OperateOps) : (operateWord o).extractLsb' 14 4 = 15 := (operateWord_eq_iff.mp rfl).1
theorem opcode_indexWord (sub : BitVec 4) (imm : BitVec 9) : (indexWord sub imm).extractLsb' 14 4 = 14 :=
  (indexWord_eq_iff.mp rfl).1
theorem opcode_iotWord (o : IotWord) : (iotWord o).extractLsb' 14 4 = 14 := (iotWord_eq_iff.mp rfl).1
theorem opcode_fpWord (sub : BitVec 4) (m : FpMods) : (fpWord sub m).extractLsb' 14 4 = 14 := (fpWord_eq_iff.mp rfl).1
theorem opcode_brWord (b : BrConds) : (brWord b).extractLsb' 14 4 = 14 := (brWord_eq_iff.mp rfl).1

/-- An instruction whose word is of the class is the class's one operation at some fields (R280, R291). -/
theorem exec_eq_eae_of_opcode {i : Instr} (h : (encode i).extractLsb' 14 4 = 13) (s : State) :
    ∃ p cmd n, exec i s = .next (s.eae p cmd n) := by
  cases i with
  | eae | osc | omq | cmq | lacs | lacq | abs | clq | lmq | gsm | mul | muls | div | divs | idiv | idivs | frdiv | frdivs | norm
  | norms | lrs | lrss | lls | llss | als | alss => exact ⟨_, _, _, rfl⟩
  | cal ign => exact absurd ((calWord_eq_iff.mp rfl).1.symm.trans h) (by decide)
  | law n => exact absurd ((lawWord_eq_iff.mp rfl).1.symm.trans h) (by decide)
  | dac m | jms m | dzm m | lac m | xor m | add m | tad m | xct m | isz m | and m | sad m | jmp m =>
    exact absurd ((opcode_memWord _ m).symm.trans h) (by decide)
  | opr o => exact absurd ((opcode_operateWord o).symm.trans h) (by decide)
  | nop | cma | cml | oas | ral | rar | iac | hlt | sma | sza | smaSza | snl | skp | spa | sna | spaSna | szl | rtl | rtr | bsw
  | cll | stl | rcl | rcr | cla | clc | las | glk => exact absurd h (by decide)
  | pax imm | pal imm | aac imm | pxa imm | axs imm | pxl imm | pla imm | plx imm | clac imm | clx imm | cllr imm | axr imm =>
    exact absurd ((opcode_indexWord _ imm).symm.trans h) (by decide)
  | iot | iof | ion | iors | caf | dbk | dbr | mpsk | mpcne | mpcv | mpld | mplr | mplmr | mprmr | mpsne | mpeu | semSba
  | eem | lem | eba | dba | emirRes | spi | isa | rpl =>
    exact absurd ((opcode_iotWord _).symm.trans h) (by decide)
  | fpSub m | fpRsub m | fpMul m | fpDiv m | fpRdiv m | ld m | st m | flt m | fix m | lfmq m | jea m | fpAdd m =>
    exact absurd ((opcode_fpWord _ m).symm.trans h) (by decide)
  | br b => exact absurd ((opcode_brWord b).symm.trans h) (by decide)

/-! ## The frame -/

/-- What a word of the class can change (R280). -/
def State.eaeFrame (s t : State) : Prop :=
  ∃ a l q c g p n v x, t = { s with
    ac := a, l := l, mq := q, sc := c, eaeAcSign := g, pc := p, nexm := n, prvn := v, trapPending := x }

theorem State.eaeFrame_registers (s : State) (a : Word) (l : Bool) (q : Word) (c : BitVec 6) (g : Bool) :
    s.eaeFrame { s with ac := a, l := l, mq := q, sc := c, eaeAcSign := g } := ⟨_, _, _, _, _, _, _, _, _, rfl⟩

theorem State.eaeFrame_trans {s t u : State} (h : s.eaeFrame t) (h' : t.eaeFrame u) : s.eaeFrame u := by
  obtain ⟨_, _, _, _, _, _, _, _, _, rfl⟩ := h
  obtain ⟨_, _, _, _, _, _, _, _, _, rfl⟩ := h'
  exact ⟨_, _, _, _, _, _, _, _, _, rfl⟩

/-- The operand is read from memory, so only the PC and the fault flags change (R98, R284). -/
theorem State.eaeFrame_inlineOperand (s : State) : s.eaeFrame s.inlineOperand.state := by
  obtain ⟨m, n, v, x, hframe⟩ := s.inlineOperand_frame
  have hmem : s.inlineOperand.state.mem = s.mem := s.advance.cpuRead_mem _ _
  rw [hframe] at hmem ⊢
  cases hmem
  exact ⟨_, _, _, _, _, _, _, _, _, rfl⟩

theorem Access.eaeFrame_finish {α : Type} {s : State} {x : Access α} {f : α → State → State} (hx : s.eaeFrame x.state)
    (hf : ∀ v (t : State), t.eaeFrame (f v t)) : s.eaeFrame (x.finish f) := by
  cases x with
  | done v t => exact State.eaeFrame_trans hx (hf v t)
  | abandoned t => exact hx

theorem State.eaeFrame_ite {s t u : State} {p : Prop} [Decidable p] (ht : s.eaeFrame t) (hu : s.eaeFrame u) :
    s.eaeFrame (if p then t else u) := by
  split
  · exact ht
  · exact hu

theorem State.eaeFrame_divide (s : State) (signed : Bool) (n : BitVec 6) (mb : Word) : s.eaeFrame (s.eaeDivide signed n mb) :=
  eaeFrame_ite (s.eaeFrame_registers _ _ _ _ _) (eaeFrame_ite (s.eaeFrame_registers _ _ _ _ _) (s.eaeFrame_registers _ _ _ _ _))

theorem State.eaeFrame_eae (s : State) (p : EaePre) (cmd : EaeCmd) (n : BitVec 6) : s.eaeFrame (s.eae p cmd n) := by
  refine State.eaeFrame_trans (t := s.eaePre p) (s.eaeFrame_registers _ _ _ _ _) ?_
  cases cmd with
  | multiply => exact Access.eaeFrame_finish (State.eaeFrame_inlineOperand _) fun _ t => t.eaeFrame_registers _ _ _ _ _
  | divide => exact Access.eaeFrame_finish (State.eaeFrame_inlineOperand _) fun mb t => t.eaeFrame_divide _ _ mb
  | setup | normalize | lrs | lls | als => exact (s.eaePre p).eaeFrame_registers _ _ _ _ _

/-- Settles O47: the class's one operation, whose accesses only read. -/
theorem extendedArithmeticFrame : Obligations.ExtendedArithmeticFrame := by
  intro i s t hword h
  have hopcode : (encode i).extractLsb' 14 4 = 13 := (and_fieldMask_eq_iff 14 13 (by decide) (by decide) (by decide)).mp hword
  obtain ⟨p, cmd, n, hexec⟩ := exec_eq_eae_of_opcode hopcode s
  cases hexec.symm.trans h
  exact s.eaeFrame_eae p cmd n

end Sys2Proof.Machine
end

section
/-! The FP15's shared routine `normalize`, with its exceptions and its rounding, and the sign modifier (R316 to R318). -/

namespace Sys2Proof.Machine

/-! ## The left shift -/

/-- A mantissa after `k` left shifts, the guard entering with the first (R317). -/
def shiftedMantissa (x : Nat) (g : Bool) (k : Nat) : Nat := if k = 0 then x else x * 2 ^ k + g.toNat * 2 ^ (k - 1)

theorem shiftedMantissa_succ (x : Nat) (g : Bool) (k : Nat) :
    shiftedMantissa x g (k + 1) = (2 * x + g.toNat) * 2 ^ k := by
  rw [shiftedMantissa, if_neg k.succ_ne_zero, Nat.add_sub_cancel, pow_succ]
  ring

theorem shiftedMantissa_false (x k : Nat) : shiftedMantissa x false k = x * 2 ^ k := by
  cases k with
  | zero => exact (Nat.mul_one x).symm
  | succ k =>
    rw [shiftedMantissa_succ, pow_succ, Bool.toNat_false]
    ring

theorem shift_le_of_lt {x k : Nat} (hx : x ≠ 0) (h : x * 2 ^ k < 2 ^ 35) : k ≤ 34 := by
  have hpow : 2 ^ k < 2 ^ 35 := (Nat.le_mul_of_pos_left _ (Nat.pos_of_ne_zero hx)).trans_lt h
  exact Nat.le_of_lt_succ ((Nat.pow_lt_pow_iff_right (by decide)).mp hpow)

/-- The guard does not carry out of the mantissa: it fills a place that the shift left empty. -/
theorem shiftedMantissa_bounds {x k : Nat} (g : Bool) (hlow : 2 ^ 34 ≤ x * 2 ^ k) (hhigh : x * 2 ^ k < 2 ^ 35) :
    2 ^ 34 ≤ shiftedMantissa x g k ∧ shiftedMantissa x g k < 2 ^ 35 := by
  cases k with
  | zero => exact ⟨(Nat.mul_one x) ▸ hlow, (Nat.mul_one x) ▸ hhigh⟩
  | succ k =>
    have hx : x ≠ 0 := by
      rintro rfl
      omega
    have hk : k + 1 ≤ 34 := shift_le_of_lt hx hhigh
    have hg : g.toNat ≤ 1 := g.toNat_le
    have hsplit : 2 ^ 35 = 2 ^ (34 - k) * 2 ^ (k + 1) := by
      rw [← pow_add]
      congr 1
      omega
    have hroom : x + 1 ≤ 2 ^ (34 - k) := Nat.lt_of_mul_lt_mul_right (hsplit ▸ hhigh)
    have hdouble : ∀ y : Nat, y * 2 ^ (k + 1) = 2 * y * 2 ^ k := fun y => by
      rw [pow_succ]
      ring
    rw [shiftedMantissa_succ]
    refine ⟨?_, ?_⟩
    · calc 2 ^ 34 ≤ x * 2 ^ (k + 1) := hlow
        _ = 2 * x * 2 ^ k := hdouble x
        _ ≤ (2 * x + g.toNat) * 2 ^ k := Nat.mul_le_mul_right _ (Nat.le_add_right _ _)
    · calc (2 * x + g.toNat) * 2 ^ k < 2 * (x + 1) * 2 ^ k :=
            Nat.mul_lt_mul_of_pos_right (by omega) (Nat.two_pow_pos k)
        _ = (x + 1) * 2 ^ (k + 1) := (hdouble _).symm
        _ ≤ 2 ^ (34 - k) * 2 ^ (k + 1) := Nat.mul_le_mul_right _ hroom
        _ = 2 ^ 35 := hsplit.symm

/-- The shifts that the routine makes: none under NONORM or of a zero, else those that bring the top bit up (R317). -/
def ShiftCount (m : FpMods) (x k : Nat) : Prop :=
  if m.nonorm = true ∨ x = 0 then k = 0 else 2 ^ 34 ≤ x * 2 ^ k ∧ x * 2 ^ k < 2 ^ 35

theorem shiftCount_iff {m : FpMods} {x k : Nat} (hnorm : m.nonorm = false) (hx : x ≠ 0) :
    ShiftCount m x k ↔ 2 ^ 34 ≤ x * 2 ^ k ∧ x * 2 ^ k < 2 ^ 35 := by
  rw [ShiftCount, if_neg (by simp [hnorm, hx])]

theorem exists_shift {x : Nat} (hx : x ≠ 0) (h : x < 2 ^ 35) : ∃ k, 2 ^ 34 ≤ x * 2 ^ k ∧ x * 2 ^ k < 2 ^ 35 := by
  have htop : Nat.log 2 x < 35 := Nat.log_lt_of_lt_pow hx h
  have hsplit : ∀ n, 2 ^ (Nat.log 2 x + n) * 2 ^ (34 - Nat.log 2 x) = 2 ^ (34 + n) := fun n => by
    rw [← pow_add]
    congr 1
    omega
  refine ⟨34 - Nat.log 2 x, ?_, ?_⟩
  · exact (hsplit 0).ge.trans (Nat.mul_le_mul_right _ (Nat.pow_log_le_self 2 hx))
  · exact (Nat.mul_lt_mul_of_pos_right (Nat.lt_pow_succ_log_self (by decide) x) (Nat.two_pow_pos _)).trans_le (hsplit 1).le

theorem exists_shiftCount (m : FpMods) {x : Nat} (h : x < 2 ^ 35) : ∃ k, ShiftCount m x k := by
  unfold ShiftCount
  split
  · exact ⟨0, rfl⟩
  · next hmoves => exact exists_shift (not_or.mp hmoves).2 h

/-- The loop stops where the top bit is up. -/
theorem leftNormalize_of_le {m : Nat} (h : 2 ^ 34 ≤ m) (n : Nat) (e : Int) (g : Bool) :
    leftNormalize n e m g = (e, m, g) := by
  cases n with
  | zero => rfl
  | succ n => exact if_neg fun hgoes => by omega

theorem leftNormalize_zero (n : Nat) (e : Int) (g : Bool) : leftNormalize n e 0 g = (e, 0, g) := by
  cases n with
  | zero => rfl
  | succ n => exact if_neg fun hgoes => hgoes.1 rfl

/-- The loop makes the `k` shifts that bring the top bit up, and a shift leaves no guard (R317). -/
theorem leftNormalize_eq {x k n : Nat} {e : Int} {g : Bool} (hk : k ≤ n) (hlow : 2 ^ 34 ≤ x * 2 ^ k)
    (hhigh : x * 2 ^ k < 2 ^ 35) : leftNormalize n e x g = (e - k, shiftedMantissa x g k, g && k == 0) := by
  induction k generalizing x n e g with
  | zero =>
    rw [leftNormalize_of_le ((Nat.mul_one x) ▸ hlow)]
    simp [shiftedMantissa]
  | succ k ih =>
    obtain ⟨n, rfl⟩ : ∃ j, n = j + 1 := ⟨n - 1, by omega⟩
    have hgoes : x ≠ 0 ∧ x < 2 ^ 34 := by
      have htwo : 2 ≤ 2 ^ (k + 1) := Nat.le_self_pow k.succ_ne_zero 2
      have hle : x * 2 ≤ x * 2 ^ (k + 1) := Nat.mul_le_mul_left x htwo
      refine ⟨?_, by omega⟩
      rintro rfl
      omega
    obtain ⟨hlow', hhigh'⟩ := shiftedMantissa_succ x g k ▸ shiftedMantissa_bounds g hlow hhigh
    have hstep : leftNormalize (n + 1) e x g = leftNormalize n (e - 1) (2 * x + g.toNat) false := if_pos hgoes
    rw [hstep, ih (by omega) hlow' hhigh', shiftedMantissa_false, shiftedMantissa_succ]
    have hexp : e - 1 - (k : Int) = e - (k + 1 : Nat) := by omega
    simp [hexp]

/-! ## Rounding and the range of the exponent -/

/-- Rounding, suppressed or not, as R317 words it. -/
theorem rounding_eq (nornd : Bool) (e : Int) (m : Nat) (g : Bool) :
    (if nornd then (e, m) else roundUp e m g) =
      let up := nornd = false ∧ g = true
      let carry := up ∧ m + 1 = 2 ^ 35
      (if carry then e + 1 else e, if carry then 2 ^ 34 else if up then m + 1 else m) := by
  cases nornd with
  | true => simp
  | false =>
    cases g with
    | false => simp [roundUp]
    | true =>
      by_cases hcarry : m + 1 = 2 ^ 35
      · simp [roundUp, fpF, hcarry]
      · have hno : ¬m = 34359738367 := by omega
        simp [roundUp, fpF, hno]

theorem rangeCheck_eq (u : Unpacked) :
    rangeCheck u =
      if u.m ≠ 0 ∧ 2 ^ 17 - 1 < u.e then .error .ovf else if u.m ≠ 0 ∧ u.e < -2 ^ 17 then .error .unf else .ok u := rfl

/-! ## The routine -/

/-- What the shift of the routine leaves, NONORM or not (R317). -/
theorem normalize_shift {m : FpMods} {x k : Nat} (e : Int) (g : Bool) (hk : ShiftCount m x k) :
    (if m.nonorm then (e, x, g) else leftNormalize 34 e x g) = (e - k, shiftedMantissa x g k, g && k == 0) := by
  unfold ShiftCount at hk
  split at hk
  next hstays =>
    subst hk
    have hsame : (if m.nonorm then (e, x, g) else leftNormalize 34 e x g) = (e, x, g) := by
      rcases hstays with hnonorm | rfl
      · rw [if_pos hnonorm]
      · rw [leftNormalize_zero, ite_self]
    rw [hsame]
    simp [shiftedMantissa]
  next hmoves =>
    obtain ⟨hnorm, hx⟩ := not_or.mp hmoves
    obtain ⟨hlow, hhigh⟩ := hk
    rw [if_neg hnorm, leftNormalize_eq (shift_le_of_lt hx hhigh) hlow hhigh]

/-- The routine after its shift: the true zero, rounding, and the check of the exponent (R317, R318). -/
theorem normalize_eq {m : FpMods} {x k : Nat} (s : Bool) (e : Int) (g : Bool) (hk : ShiftCount m x k) :
    normalize m s e x g =
      let shifted := shiftedMantissa x g k
      let guard := g && k == 0
      let exponent := if shifted = 0 ∧ guard = false then 0 else e - k
      let r := if m.nornd then (exponent, shifted) else roundUp exponent shifted guard
      (rangeCheck ⟨if shifted = 0 ∧ guard = false then false else s, r.1, r.2⟩).map fun u => (u, guard) := by
  rw [normalize, normalize_shift e g hk]

theorem normalizeResult : Clause.NormalizeResult := by
  intro m s e x k g _ hk shifted guard isZero sign exponent up carry mant rounded
  have hround : (if m.nornd then (exponent, shifted) else roundUp exponent shifted guard) = (rounded, mant) :=
    rounding_eq m.nornd exponent shifted guard
  have hrange : normalize m s e x g = (rangeCheck ⟨sign, rounded, mant⟩).map fun u => (u, guard) :=
    (normalize_eq s e g hk).trans
      (congrArg (fun r : Int × Nat => (rangeCheck ⟨sign, r.1, r.2⟩).map fun u => (u, guard)) hround)
  rw [hrange, rangeCheck_eq]
  split
  · rfl
  · split <;> rfl

/-! ## The results -/

/-- A zero without a guard is the true zero (R317). -/
theorem normalize_zero (m : FpMods) (s : Bool) (e : Int) : normalize m s e 0 false = .ok (⟨false, 0, 0⟩, false) := by
  simpa using normalizeResult m s e 0 0 false (by decide) (by simp)

/-- An answer of the check, and what it leaves of the guard, is the operand checked, with its exponent in range (R318). -/
theorem rangeCheck_map_ok {u v : Unpacked} {g h : Bool} (hok : (rangeCheck u).map (fun w => (w, g)) = .ok (v, h)) :
    v = u ∧ h = g ∧ (u.m ≠ 0 → -2 ^ 17 ≤ u.e ∧ u.e < 2 ^ 17) := by
  rw [rangeCheck_eq] at hok
  split at hok
  · cases hok
  · split at hok
    · cases hok
    · cases hok
      exact ⟨rfl, rfl, fun hne => by omega⟩

/-- A mantissa with its top bit up keeps it through the rounding (R317). -/
theorem rounding_bounds (nornd : Bool) (e : Int) {m : Nat} (g : Bool) (hlow : 2 ^ 34 ≤ m) (hhigh : m < 2 ^ 35) :
    2 ^ 34 ≤ (if nornd then (e, m) else roundUp e m g).2 ∧ (if nornd then (e, m) else roundUp e m g).2 < 2 ^ 35 := by
  rw [rounding_eq]
  dsimp only
  split
  · decide
  · next hcarry =>
    split
    · next hup =>
      have hno : m + 1 ≠ 2 ^ 35 := fun htop => hcarry ⟨hup, htop⟩
      omega
    · exact ⟨hlow, hhigh⟩

theorem normalizedResults : Clause.NormalizedResults := by
  intro m s e x g u h hx hguard hnorm hok
  by_cases hzero : x = 0
  · subst hzero
    obtain rfl : g = false := hguard.resolve_left (not_not_intro rfl)
    rw [normalize_zero] at hok
    cases hok
    exact ⟨fun _ => ⟨rfl, rfl, rfl⟩, fun hne => absurd rfl hne⟩
  · obtain ⟨k, hk⟩ := exists_shiftCount m hx
    obtain ⟨hlow, hhigh⟩ := (shiftCount_iff hnorm hzero).mp hk
    obtain ⟨hlow', hhigh'⟩ := shiftedMantissa_bounds g hlow hhigh
    rw [normalize_eq s e g hk] at hok
    obtain ⟨rfl, -, hexp⟩ := rangeCheck_map_ok hok
    obtain ⟨htop, hfits⟩ := rounding_bounds m.nornd _ (g && k == 0) hlow' hhigh'
    exact ⟨fun hm => absurd hm (Nat.ne_of_gt (htop.trans_lt' (by decide))), fun hm => ⟨htop, hfits, hexp hm⟩⟩

/-- Without a guard nothing is rounded: the mantissa is shifted, and the exponent lowered by as much (R317). -/
theorem normalize_exact {m : FpMods} {x k : Nat} (s : Bool) (e : Int) (hx : x ≠ 0) (hk : ShiftCount m x k) :
    normalize m s e x false = (rangeCheck ⟨s, e - k, x * 2 ^ k⟩).map fun u => (u, false) := by
  have hne : x * 2 ^ k ≠ 0 := Nat.mul_ne_zero hx (Nat.two_pow_pos k).ne'
  have hround : ∀ (b : Bool) (e : Int) (n : Nat), (if b then (e, n) else roundUp e n false) = (e, n) :=
    fun b e n => ite_self _
  rw [normalize_eq s e false hk]
  simp only [shiftedMantissa_false, Bool.false_and, hne, false_and, if_false, hround]

theorem normalizeKeepsTheValue : Clause.NormalizeKeepsTheValue := by
  intro m s e x u h hx hne hok
  obtain ⟨k, hk⟩ := exists_shiftCount m hx
  rw [normalize_exact s e hne hk] at hok
  obtain ⟨rfl, rfl, -⟩ := rangeCheck_map_ok hok
  have hshift : (e - (e - k : Int)).toNat = k := by omega
  refine ⟨rfl, rfl, by dsimp only; omega, ?_⟩
  dsimp only
  rw [hshift]

/-! ## The sign modifier -/

theorem signModifier : Clause.SignModifier := fun _ =>
  ⟨fun hzero _ => if_pos hzero, fun hne => ⟨if_neg hne, if_neg hne, if_neg hne, if_neg hne⟩⟩

/-- Settles O51: the routine by its shift, its rounding and its check, and the sign modifier. -/
theorem normalization : Obligations.Normalization :=
  ⟨normalizeResult, normalizedResults, normalizeKeepsTheValue, signModifier⟩

end Sys2Proof.Machine
end

section
/-! The FP15's arithmetic on unpacked operands: integers exactly, floats as what they hand to `normalize` (R314, R320 to R327,
R332). -/

namespace Sys2Proof.Machine

/-! ## Integer mode -/

/-- Division toward zero leaves a remainder of the dividend's sign, smaller than the divisor (R332). -/
theorem tdiv_remainder (a : Int) {b : Int} (hb : b ≠ 0) :
    a = a.tdiv b * b + (a - a.tdiv b * b) ∧ (a - a.tdiv b * b).natAbs < b.natAbs
      ∧ (a - a.tdiv b * b = 0 ∨ (a - a.tdiv b * b < 0 ↔ a < 0)) := by
  have hrem : a - a.tdiv b * b = a.tmod b := by rw [Int.tmod_def, Int.mul_comm]
  rw [hrem]
  refine ⟨(Int.tdiv_mul_add_tmod a b).symm, ?_, ?_⟩
  · rw [Int.natAbs_tmod]
    exact Nat.mod_lt _ (Int.natAbs_pos.mpr hb)
  · by_cases hdvd : b ∣ a
    · exact .inl (Int.tmod_eq_zero_of_dvd hdvd)
    · have hsign : (a.tmod b).sign = a.sign := by rw [Int.sign_tmod, if_neg hdvd]
      exact .inr (by rw [← Int.sign_eq_neg_one_iff_neg, hsign, Int.sign_eq_neg_one_iff_neg])

theorem integerOperations : Clause.IntegerOperations := by
  intro m x y hfp a b result
  have hinteger : ∀ {f g : Except FpExc FpResult}, (if m.fp then f else g) = g := by
    intro f g
    rw [hfp, if_neg Bool.false_ne_true]
  have hdiv : fpDivOp m x y = integerDiv a b := hinteger
  refine ⟨hinteger, hinteger, hinteger, hinteger, hinteger.trans hinteger.symm, fun hb => ?_, fun hb ha => ?_,
    fun hb ha => ?_, hinteger⟩
  · exact hdiv.trans (if_pos hb)
  · exact hdiv.trans ((if_neg hb).trans (if_pos ha))
  · obtain ⟨hsum, hlt, hsign⟩ := tdiv_remainder a hb
    exact ⟨a.tdiv b, a - a.tdiv b * b, hsum, hlt, hsign, hdiv.trans ((if_neg hb).trans (if_neg ha))⟩

/-! ## The aligned sum -/

/-- A magnitude with its sign. -/
def signedNat (neg : Bool) (n : Nat) : Int := if neg then -(n : Int) else n

/-- The sign and the magnitude of a magnitude with its sign. -/
theorem signedNat_parts {s z : Bool} {n : Nat} (hz : n = 0 → z = s) :
    (if signedNat s n = 0 then z else decide (signedNat s n < 0), (signedNat s n).natAbs) = (s, n) := by
  by_cases hn : n = 0
  · subst hn
    rw [hz rfl]
    cases s <;> rfl
  · cases s <;> simp [signedNat, hn, Nat.pos_of_ne_zero hn]

/-- Magnitudes with signs, added as R320 adds them, are the signed sum; a sum of zero keeps the first sign. -/
theorem signedNat_add (s t : Bool) (a b : Nat) :
    (if s = t then (s, a + b) else if b ≤ a then (s, a - b) else (t, b - a)) =
      let total := signedNat s a + signedNat t b
      (if total = 0 then s else decide (total < 0), total.natAbs) := by
  dsimp only
  by_cases hst : s = t
  · subst hst
    have htotal : signedNat s a + signedNat s b = signedNat s (a + b) := by
      cases s <;> simp only [signedNat, if_true, if_false, reduceCtorEq] <;> omega
    rw [if_pos rfl, htotal, signedNat_parts fun _ => rfl]
  · obtain rfl : t = !s := Bool.eq_not_of_ne (Ne.symm hst)
    rw [if_neg hst]
    by_cases hba : b ≤ a
    · have htotal : signedNat s a + signedNat (!s) b = signedNat s (a - b) := by
        cases s <;> simp only [signedNat, Bool.not_true, Bool.not_false, if_true, if_false, reduceCtorEq] <;> omega
      rw [if_pos hba, htotal, signedNat_parts fun _ => rfl]
    · have htotal : signedNat s a + signedNat (!s) b = signedNat (!s) (b - a) := by
        cases s <;> simp only [signedNat, Bool.not_true, Bool.not_false, if_true, if_false, reduceCtorEq] <;> omega
      rw [if_neg hba, htotal, signedNat_parts fun hzero => by omega]

/-- The operand that the sum aligns the other to (R320). -/
def largerExponent (x y : Unpacked) : Unpacked := if y.e ≤ x.e then x else y

/-- The operand that the sum shifts right (R320). -/
def smallerExponent (x y : Unpacked) : Unpacked := if y.e ≤ x.e then y else x

/-- The aligned operands added as signed numbers, with one place kept for the guard (R320). -/
def alignedTotal (x y : Unpacked) : Int :=
  let big := largerExponent x y
  let small := smallerExponent x y
  signedNat big.s (2 * big.m)
    + signedNat small.s (if big.e - small.e ≤ 35 then 2 * small.m / 2 ^ (big.e - small.e).toNat else 0)

theorem smallerExponent_le (x y : Unpacked) : (smallerExponent x y).e ≤ (largerExponent x y).e := by
  unfold smallerExponent largerExponent
  split <;> omega

/-- The aligned sum is the signed sum, a carry-out of it shifted back (R320). -/
theorem alignedSum_eq (x y : Unpacked) :
    alignedSum x y =
      let total := alignedTotal x y
      let carried := decide (2 ^ 36 ≤ total.natAbs)
      let big := largerExponent x y
      let r := if carried then total.natAbs / 2 else total.natAbs
      (⟨if total = 0 then big.s else decide (total < 0), if carried then big.e + 1 else big.e, r / 2⟩, r % 2 == 1) := by
  have hle := smallerExponent_le x y
  unfold alignedSum alignedTotal
  rw [← largerExponent, ← smallerExponent]
  generalize largerExponent x y = big at *
  generalize smallerExponent x y = small at *
  have hplaces : ((big.e - small.e).toNat ≤ 35) = (big.e - small.e ≤ 35) := propext (by omega)
  dsimp only
  rw [Nat.shiftRight_eq_div_pow, Nat.mul_comm big.m, Nat.mul_comm small.m, signedNat_add]
  simp only [hplaces, decide_eq_true_eq, show 2 * fpF = 2 ^ 36 from rfl]
  generalize signedNat big.s (2 * big.m) + _ = total
  by_cases hcarry : 2 ^ 36 ≤ total.natAbs
  · simp only [if_pos hcarry]
  · simp only [if_neg hcarry]

/-- A number less itself (R320). -/
theorem alignedSum_neg (x : Unpacked) : alignedSum x x.neg = (⟨x.s, x.e, 0⟩, false) := by
  simp [alignedSum, Unpacked.neg, fpF]

/-! ## The quotient -/

/-- The quotient is shifted right by the least number of places that brings it below 2F (R325). -/
theorem quotientShift_eq {n k q : Nat} {e : Int} (hk : k ≤ n) (hlt : q / 2 ^ k < 2 ^ 36)
    (hmin : k ≠ 0 → 2 ^ 36 ≤ q / 2 ^ (k - 1)) : quotientShift n e q = (e + k, q / 2 ^ k) := by
  induction k generalizing n e q with
  | zero =>
    rw [pow_zero, Nat.div_one] at hlt ⊢
    rw [Int.natCast_zero, Int.add_zero]
    cases n with
    | zero => rfl
    | succ n => exact if_neg (Nat.not_le.mpr hlt)
  | succ k ih =>
    obtain ⟨n, rfl⟩ : ∃ j, n = j + 1 := ⟨n - 1, by omega⟩
    have hhalf : ∀ j, q / 2 / 2 ^ j = q / 2 ^ (j + 1) := fun j => by rw [Nat.div_div_eq_div_mul, pow_succ']
    have hbig : 2 * fpF ≤ q := (hmin k.succ_ne_zero).trans (Nat.div_le_self _ _)
    have hstep : quotientShift (n + 1) e q = quotientShift n (e + 1) (q / 2) := if_pos hbig
    rw [hstep, ih (by omega) (hhalf k ▸ hlt) fun hk0 => ?_, hhalf]
    · rw [Int.add_assoc, Int.add_comm 1]
      rfl
    · rw [hhalf, Nat.sub_add_cancel (Nat.one_le_iff_ne_zero.mpr hk0)]
      exact hmin k.succ_ne_zero

/-- The shifts that a quotient of two mantissas needs are fewer than the loop can make. -/
theorem quotientShift_count {x y k : Nat} (hx : x < 2 ^ 35) (hmin : k ≠ 0 → 2 ^ 36 ≤ x * 2 ^ 36 / y / 2 ^ (k - 1)) :
    k ≤ 36 := by
  by_contra! hk
  have hbig : 2 ^ 36 ≤ x * 2 ^ 36 / y / 2 ^ (k - 1) := hmin (by omega)
  have hpow : 2 ^ 36 ≤ 2 ^ (k - 1) := Nat.pow_le_pow_right (by decide) (by omega)
  have hsmall : x * 2 ^ 36 / y / 2 ^ (k - 1) < 2 ^ 36 := by
    refine Nat.div_lt_of_lt_mul ?_
    calc x * 2 ^ 36 / y ≤ x * 2 ^ 36 := Nat.div_le_self _ _
      _ < 2 ^ 36 * 2 ^ 36 := Nat.mul_lt_mul_of_pos_right (by omega) (by decide)
      _ ≤ 2 ^ (k - 1) * 2 ^ 36 := Nat.mul_le_mul_right _ hpow
  omega

/-! ## Float mode -/

theorem floatAdd_right_zero {x y : Unpacked} (m : FpMods) (hy : y.m = 0) : floatAdd m x y = normalized m x false none :=
  if_pos hy

theorem floatAdd_left_zero {x y : Unpacked} (m : FpMods) (hx : x.m = 0) (hy : y.m ≠ 0) :
    floatAdd m x y = normalized m y false none :=
  (if_neg hy).trans (if_pos hx)

theorem floatAdd_nonzero {x y : Unpacked} (m : FpMods) (hx : x.m ≠ 0) (hy : y.m ≠ 0) :
    floatAdd m x y = normalized m (alignedSum x y).1 (alignedSum x y).2 none :=
  (if_neg hy).trans (if_neg hx)

/-- A product of two numbers, the bit below its high half as guard and its low half to FMQ (R324). -/
theorem floatMul_nonzero {x y : Unpacked} (m : FpMods) (hx : x.m ≠ 0) (hy : y.m ≠ 0) :
    floatMul m x y =
      normalized m ⟨x.s != y.s, x.e + y.e, x.m * y.m / 2 ^ 35⟩ (x.m * y.m / 2 ^ 34 % 2 == 1)
        (some (BitVec.ofNat 35 (x.m * y.m))) := by
  rw [show 2 ^ 35 = fpF from rfl, show 2 ^ 34 = 17179869184 from rfl]
  exact if_neg (not_or.mpr ⟨hx, hy⟩)

/-- A quotient of two numbers, shifted below 2F (R325). -/
theorem floatDiv_nonzero {x y : Unpacked} {k : Nat} (m : FpMods) (hx : x.m ≠ 0) (hy : y.m ≠ 0) (hfits : x.m < 2 ^ 35)
    (hlt : x.m * 2 ^ 36 / y.m / 2 ^ k < 2 ^ 36) (hmin : k ≠ 0 → 2 ^ 36 ≤ x.m * 2 ^ 36 / y.m / 2 ^ (k - 1)) :
    floatDiv m x y =
      normalized m ⟨x.s != y.s, x.e - y.e + k, x.m * 2 ^ 36 / y.m / 2 ^ k / 2⟩ (x.m * 2 ^ 36 / y.m / 2 ^ k % 2 == 1)
        none := by
  have hshift := quotientShift_eq (e := x.e - y.e) (quotientShift_count hfits hmin) hlt hmin
  rw [show 2 ^ 36 = 68719476736 from rfl] at hshift ⊢
  rw [floatDiv, if_neg hy, if_neg hx, hshift]

theorem floatCorners : Clause.FloatCorners := by
  intro m x y hfp
  have hfloat : ∀ {f g : Except FpExc FpResult}, (if m.fp then f else g) = f := if_pos hfp
  refine ⟨fun hy => ?_, fun hx => ?_, fun hzero => ?_, fun hy => ?_, fun hy hx => ?_, hfloat.trans hfloat.symm⟩
  · exact hfloat.trans (floatAdd_right_zero m hy)
  · refine hfloat.trans ((floatAdd_nonzero m hx (y := x.neg) hx).trans ?_)
    rw [alignedSum_neg, normalized, normalize_zero]
    rfl
  · exact hfloat.trans (if_pos hzero)
  · exact hfloat.trans (if_pos hy)
  · exact hfloat.trans ((if_neg hy).trans (if_pos hx))

theorem floatResults : Clause.FloatResults := by
  intro m x y hfp hx hy result sum negated
  have hfloat : ∀ {f g : Except FpExc FpResult}, (if m.fp then f else g) = f := if_pos hfp
  have hsum : ∀ {a b : Unpacked}, a.m ≠ 0 → b.m ≠ 0 → floatAdd m a b = sum a b := by
    intro a b ha hb
    rw [floatAdd_nonzero m ha hb, alignedSum_eq]
    rfl
  have hneg : ∀ {a : Unpacked}, a.m ≠ 0 → (negated a).m ≠ 0 := id
  refine ⟨fun hx0 hy0 => ⟨hfloat.trans (hsum hx0 hy0), hfloat.trans (hsum hx0 (hneg hy0)),
      hfloat.trans (hsum hy0 (hneg hx0)), ?_, ?_⟩, fun hx0 hy0 => ?_, fun hx0 hy0 => ?_, fun hx0 hy0 => ?_, hfloat⟩
  · exact hfloat.trans (floatMul_nonzero m hx0 hy0)
  · intro k q hlt hmin
    exact hfloat.trans (floatDiv_nonzero m hx0 hy0 hx hlt hmin)
  · exact ⟨hfloat.trans (floatAdd_left_zero m hx0 hy0), hfloat.trans (floatAdd_left_zero m hx0 (hneg hy0)),
      hfloat.trans (floatAdd_right_zero m hx0)⟩
  · rw [← hx0]
    refine ⟨hfloat.trans (floatAdd_right_zero m hy0), hfloat.trans (floatAdd_right_zero m hy0), ?_⟩
    rw [hx0, ← hy0]
    exact hfloat.trans (floatAdd_right_zero m hx0)
  · exact ⟨hfloat.trans (floatAdd_right_zero m hy0), hfloat.trans (floatAdd_left_zero m hy0 (hneg hx0))⟩

/-- Settles O50: the integer operations, and the float ones at their corners and through the shared routine. -/
theorem floatingOperations : Obligations.FloatingOperations := ⟨integerOperations, floatCorners, floatResults⟩

end Sys2Proof.Machine
end

section
/-! The words that ST writes in each format, and LD reading them back (R51, R312, R328). -/

namespace Sys2Proof.Machine

/-! ## The words -/

/-- A register's operand goes back into the register unchanged (R51). -/
theorem FpReg.unpack_pack (r : FpReg) : r.unpack.pack = r := by
  obtain ⟨s, e, hi, lo⟩ := r
  have hhi : hi.toNat < 2 ^ 17 := hi.isLt
  have hlo : lo.toNat < 2 ^ 18 := lo.isLt
  have hhigh : BitVec.ofNat 17 ((hi.toNat * 262144 + lo.toNat) / 262144) = hi := by
    refine BitVec.eq_of_toNat_eq ?_
    rw [BitVec.toNat_ofNat]
    omega
  have hlow : BitVec.ofNat 18 (hi.toNat * 262144 + lo.toNat) = lo := by
    refine BitVec.eq_of_toNat_eq ?_
    rw [BitVec.toNat_ofNat]
    omega
  simp only [FpReg.unpack, Unpacked.pack, BitVec.ofInt_toInt, hhigh, hlow]

theorem storeFormats : Clause.StoreFormats := by
  intro r x i
  refine ⟨rfl, rfl, ?_, ?_⟩
  · rw [packWords, r.unpack_pack, floatWord_eq]
    rfl
  · rw [packWords, r.unpack_pack]

/-! ## Reading them back -/

theorem Unpacked.int_ofInt (v : Int) : (Unpacked.ofInt v).int = v := by
  by_cases hv : v < 0
  · simp only [Unpacked.int, Unpacked.ofInt, hv, decide_true, if_true]
    omega
  · simp only [Unpacked.int, Unpacked.ofInt, hv, decide_false, Bool.false_eq_true, if_false]
    omega

/-- An operand's integer is its magnitude with a sign (R314). -/
theorem Unpacked.int_natAbs (u : Unpacked) : u.int.natAbs = u.m := by
  unfold Unpacked.int
  split <;> omega

/-- The second word of a float holds the sign and the mantissa's high half (R312). -/
theorem signWord_fields (s : Bool) (hi : BitVec 17) :
    (BitVec.ofBool s ++ hi : Word).getMsbD 0 = s ∧ (BitVec.ofBool s ++ hi : Word).extractLsb' 0 17 = hi := by
  refine ⟨?_, BitVec.extractLsb'_append_eq_right⟩
  rw [BitVec.getMsbD_append]
  cases s <;> rfl

theorem unpackDoubleFloat_words (r : FpReg) : unpackDoubleFloat r.e (BitVec.ofBool r.s ++ r.hi) r.lo = r.unpack := by
  obtain ⟨hsign, hhi⟩ := signWord_fields r.s r.hi
  rw [unpackDoubleFloat, hsign, hhi]

/-- A word is its two fields side by side. -/
theorem append_fields {m n : Nat} (w : BitVec (m + n)) : w.extractLsb' n m ++ w.extractLsb' 0 n = w := by
  rw [BitVec.extractLsb'_append_extractLsb'_eq_extractLsb' (by omega)]
  exact BitVec.extractLsb'_eq_self

/-- An exponent that fits in nine bits is its low nine bits extended (R312). -/
theorem signExtend_exponent {e : Word} (hlow : -256 ≤ e.toInt) (hhigh : e.toInt ≤ 255) :
    (e.extractLsb' 0 9).signExtend 18 = e := by
  refine BitVec.eq_of_toInt_eq ?_
  rw [BitVec.toInt_signExtend_of_le (by decide), BitVec.toInt_extractLsb', Nat.shiftRight_zero, Int.bmod_def]
  rw [BitVec.toInt_eq_toNat_cond] at hlow hhigh ⊢
  omega

/-- A low mantissa word whose low nine bits are 0 is its high nine bits (R312). -/
theorem append_zeros_of_and {lo : Word} (h : lo &&& 0o777 = 0) : lo.extractLsb' 9 9 ++ 0#9 = lo := by
  have hlow : lo.extractLsb' 0 9 = 0 := (and_fieldMask_eq_iff 0 0#9 (by decide) (by decide) (by decide)).mp h
  exact (congrArg (lo.extractLsb' 9 9 ++ ·) hlow.symm).trans (append_fields (m := 9) (n := 9) lo)

theorem unpackSingleFloat_words {r : FpReg} (hlo : r.lo &&& 0o777 = 0) (hlow : -256 ≤ r.e.toInt)
    (hhigh : r.e.toInt ≤ 255) :
    unpackSingleFloat (r.lo.extractLsb' 9 9 ++ r.e.extractLsb' 0 9) (BitVec.ofBool r.s ++ r.hi) = r.unpack := by
  obtain ⟨hsign, hhi⟩ := signWord_fields r.s r.hi
  rw [unpackSingleFloat, hsign, hhi, BitVec.extractLsb'_append_eq_right, BitVec.extractLsb'_append_eq_left,
    signExtend_exponent hlow hhigh, append_zeros_of_and hlo]

theorem storeThenLoad : Clause.StoreThenLoad := by
  intro r
  obtain ⟨-, -, -, hdouble⟩ := storeFormats r
  have habs := r.unpack.int_natAbs
  refine ⟨⟨_, _, _, hdouble, unpackDoubleFloat_words r⟩, fun hlo hlow hhigh => ?_, fun hm => ?_, ?_⟩
  · refine ⟨_, _, ?_, unpackSingleFloat_words hlo hlow hhigh⟩
    have hover : ¬(r.unpack.m ≠ 0 ∧ 255 < r.unpack.e) := fun h => Int.not_lt.mpr hhigh h.2
    have hunder : ¬(r.unpack.m ≠ 0 ∧ r.unpack.e < -256) := fun h => Int.not_lt.mpr hlow h.2
    rw [packWords, if_neg hover, if_neg hunder, r.unpack_pack]
  · refine ⟨_, packWords_singleInt hm, ?_⟩
    have hint : (BitVec.ofInt 18 r.unpack.int).toInt = r.unpack.int := by
      rw [BitVec.toInt_ofInt]
      exact Int.bmod_eq_of_le (by omega) (by omega)
    rw [unpackSingleInt, hint, Unpacked.int_ofInt]
  · have hm := r.unpack_fits.mantissa
    have hint : (BitVec.ofInt 36 r.unpack.int).toInt = r.unpack.int := by
      rw [BitVec.toInt_ofInt]
      exact Int.bmod_eq_of_le (by omega) (by omega)
    refine ⟨_, _, Unpacked.ofInt r.unpack.int, packWords_doubleInt _, ?_, Unpacked.int_ofInt _⟩
    rw [unpackDoubleInt, append_fields (m := 18) (n := 18), hint, habs]
    exact if_pos hm

/-- Settles O53: the words of each format, and each format read back. -/
theorem storedFormats : Obligations.StoredFormats := ⟨storeFormats, storeThenLoad⟩

end Sys2Proof.Machine
end

section
/-! The FP15's instructions on A and B: what they do with operand B once it is there, and with one that does not unpack (R311 to
R313, R316, R318, R345). -/

namespace Sys2Proof.Machine

/-! ## The reading of operand B -/

theorem State.fpRead_done {s t : State} {va : Addr} {w : Word} (h : s.fpRead va = .done w t) : t = s := by
  rcases s.fpRead_cases va with ⟨pa, -, e⟩ | ⟨-, e⟩ | ⟨-, e⟩ <;> rw [e] at h <;> cases h
  rfl

theorem State.fpRead2_done {s t : State} {ea : Addr} {w : Word × Word} (h : s.fpRead2 ea = .done w t) : t = s := by
  obtain ⟨w0, s1, h0, h⟩ := Access.andThen_eq_done.mp h
  obtain ⟨w1, s2, h1, h⟩ := Access.andThen_eq_done.mp h
  cases h
  rw [State.fpRead_done h1, State.fpRead_done h0]

/-- A load that completes changes nothing, and an exception is that of a double integer (R312). -/
theorem State.fpLoad_done {s t : State} {fmt : FpFormat} {ea : Addr} {b : Except FpExc Unpacked}
    (h : s.fpLoad fmt ea = .done b t) : t = s ∧ ∀ k, b = .error k → fmt = .doubleInt ∧ k = .ovf := by
  cases fmt <;> rw [State.fpLoad] at h <;> obtain ⟨w, s1, hread, h⟩ := Access.andThen_eq_done.mp h
  case singleInt =>
    cases h
    exact ⟨State.fpRead_done hread, nofun⟩
  case doubleInt =>
    obtain ⟨hv, rfl⟩ := Access.done.inj h
    refine ⟨State.fpRead2_done hread, fun k hk => ⟨rfl, ?_⟩⟩
    rw [← hv, unpackDoubleInt_eq] at hk
    dsimp only at hk
    split at hk <;> cases hk
    rfl
  case singleFloat =>
    cases h
    exact ⟨State.fpRead2_done hread, nofun⟩
  case doubleFloat =>
    obtain ⟨w2, s2, hlast, h⟩ := Access.andThen_eq_done.mp h
    cases h
    exact ⟨(State.fpRead_done hlast).trans (State.fpRead2_done hread), nofun⟩

theorem fpFormat_eq_doubleInt {m : FpMods} (h : fpFormat m = .doubleInt) : m.fp = false ∧ m.dp = true := by
  unfold fpFormat at h
  split at h
  case h_2 hfp hdp => exact ⟨hfp, hdp⟩
  all_goals cases h

/-- Taking operand B changes FMB alone, and only where a load gives a value (R313). -/
theorem State.fpOperand_done {s u : State} {m : FpMods} {ea : Addr} {b : Except FpExc Unpacked}
    (h : s.fpOperand m ea = .done b u) :
    u = { s with fmb := u.fmb } ∧ ∀ k, b = .error k → k = .ovf ∧ u = s ∧ m.noload = false ∧ fpFormat m = .doubleInt := by
  cases hno : m.noload with
  | true =>
    rw [State.fpOperand, if_pos hno] at h
    cases h
    exact ⟨rfl, nofun⟩
  | false =>
    rw [State.fpOperand_load hno] at h
    obtain ⟨b', t, hload, h⟩ := Access.andThen_eq_done.mp h
    obtain ⟨rfl, herror⟩ := State.fpLoad_done hload
    cases b' with
    | ok v =>
      cases h
      exact ⟨rfl, nofun⟩
    | error k =>
      cases h
      refine ⟨rfl, fun k' hk => ?_⟩
      obtain ⟨hfmt, hk'⟩ := herror k' hk
      exact ⟨hk', rfl, rfl, hfmt⟩

/-! ## The instructions -/

/-- With operand B there the operation's end follows (R311, R313). -/
theorem State.fpArith_done {s t u : State} {ea : Addr} {m : FpMods} {b : Except FpExc Unpacked} (h : s.fpAddress = .done ea t)
    (hb : t.fpOperand m ea = .done b u) (op : FpMods → Unpacked → Unpacked → Except FpExc FpResult) :
    s.fpArith m op = u.fpFinish m.sgn (b.bind fun v => op m s.fma.unpack v) := by
  have hfma : u.fma = s.fma := by rw [(State.fpOperand_done hb).1, State.fpAddress_done h, State.advance_fma]
  rw [State.fpArith, h, Access.andThen_done, hb, fpSettle_done, hfma]

/-- The instructions on A and B, each with its operation (R321 to R327). -/
def fpArithmetic (m : FpMods) : List (Instr × (Unpacked → Unpacked → Except FpExc FpResult)) :=
  [(.fpSub m, fpSubOp m), (.fpRsub m, fpRsubOp m), (.fpMul m, fpMulOp m), (.fpDiv m, fpDivOp m), (.fpRdiv m, fpRdivOp m),
    (.ld m, fpLoadOp m), (.fpAdd m, fpAddOp m)]

theorem exec_fpArithmetic_done {s t u : State} {ea : Addr} {m : FpMods} {b : Except FpExc Unpacked}
    (h : s.fpAddress = .done ea t) (hb : t.fpOperand m ea = .done b u) :
    ∀ p ∈ fpArithmetic m, exec p.1 s = .next (u.fpFinish m.sgn (b.bind fun v => p.2 s.fma.unpack v)) := by
  have hdone : ∀ op : FpMods → Unpacked → Unpacked → Except FpExc FpResult,
      (.next (s.fpArith m op) : Host.Outcome State Fault Refusal) =
        .next (u.fpFinish m.sgn (b.bind fun v => op m s.fma.unpack v)) :=
    fun op => congrArg _ (State.fpArith_done h hb op)
  simp only [fpArithmetic, List.forall_mem_cons]
  exact ⟨hdone _, hdone _, hdone _, hdone _, hdone _, hdone _, hdone _, fun _ hp => absurd hp List.not_mem_nil⟩

theorem arithmeticResults : Clause.ArithmeticResults := by
  intro m s t u ea b h hb p hp
  have hfmq : u.fmq = s.fmq := by rw [(State.fpOperand_done hb).1, State.fpAddress_done h, State.advance_fmq]
  rw [exec_fpArithmetic_done h hb p hp]
  refine ⟨fun x hx => ?_, fun k hk => ?_⟩
  · rw [Except.bind, hx, State.fpFinish, hfmq]
  · rw [Except.bind, hk, State.fpFinish]

theorem operandOverflow : Clause.OperandOverflow := by
  intro m s t ea h i hi
  obtain ⟨p, hp, rfl⟩ := List.mem_map.mp (show i ∈ (fpArithmetic m).map Prod.fst from hi)
  have hexec : ∀ {k u}, t.fpOperand m ea = .done (.error k) u → exec p.1 s = .next (u.fpException k) :=
    fun hb => exec_fpArithmetic_done h hb p hp
  refine ⟨fun k u hb => ?_, fun p0 p1 hno hfp hdp h0 h1 hw0 hw1 => ?_⟩
  · obtain ⟨-, herror⟩ := State.fpOperand_done hb
    obtain ⟨rfl, rfl, hno, hfmt⟩ := herror k rfl
    obtain ⟨hfp, hdp⟩ := fpFormat_eq_doubleInt hfmt
    exact ⟨rfl, rfl, hno, hfp, hdp, hexec hb⟩
  · rw [← State.nextAddr_of_fpAddress h] at h1
    refine hexec ?_
    have hvalue : unpackDoubleInt 0o400000 0 = .error .ovf := by decide
    rw [State.fpOperand_load hno, fpFormat_doubleInt hfp hdp, State.fpLoad, State.fpRead2_ok h0 h1, hw0, hw1,
      Access.andThen_done, hvalue, Access.andThen_done]

/-- Settles O49: an operand that is there runs the operation, and one that overflows delivers its exception. -/
theorem floatingArithmetic : Obligations.FloatingArithmetic := ⟨arithmeticResults, operandOverflow⟩

end Sys2Proof.Machine
end

section
/-! What an FP15 instruction leaves unchanged: its words decode to its own instructions, and each of those is accesses, register
changes and at most one delivered exception (R139, R310, R345, R346). -/

namespace Sys2Proof.Machine

/-! ## The words of the class -/

/-- The instructions of the FP15's words, but for ST and JEA, which write operands to memory. -/
def fpComputing (m : FpMods) (c : BrConds) : List Instr :=
  [.fpSub m, .fpRsub m, .fpMul m, .fpDiv m, .fpRdiv m, .ld m, .flt m, .fix m, .lfmq m, .fpAdd m, .br c]

/-- An FP15 word decodes to one of them, to ST or to JEA (R139). -/
theorem decodeFp15_ok {w : Word} {i : Instr} (h : decodeFp15 w = .ok i) :
    ∃ m c, i = .st m ∨ i = .jea m ∨ i ∈ fpComputing m c := by
  refine ⟨fpModsOf w, brCondsOf w, ?_⟩
  unfold decodeFp15 at h
  split at h
  · cases h
  · split at h <;> cases h <;> simp [fpComputing]

/-- A well-formed instruction with such a word is one of the class (R142). -/
theorem fp15_of_word {c : Cfg} {i : Instr} (hfp : c.hasFP15 = true) (hwf : WellFormed c i = true)
    (hword : encode i &&& 0o770000 = 0o710000) : ∃ m b, i = .st m ∨ i = .jea m ∨ i ∈ fpComputing m b := by
  have hfield : (encode i).extractLsb' 12 6 = 0b111001#6 :=
    (and_fieldMask_eq_iff 12 _ (by decide) (by decide) (by decide)).mp hword
  obtain ⟨hop, hbits⟩ := fieldIs_fp15.mp hfield
  exact decodeFp15_ok ((decode_fp15 hop hbits hfp).symm.trans (decodeOfEncode c i hwf))

/-! ## The frame -/

/-- What an FP15 instruction can change (R310). -/
def State.fpFrame (s t : State) : Prop :=
  ∃ a b q g j pc h m n v x, t = { s with
    fma := a, fmb := b, fmq := q, fguard := g, jeaBase := j, pc := pc, pcq := h, mem := m, nexm := n, prvn := v
    trapPending := x }

theorem State.fpFrame_refl (s : State) : s.fpFrame s := ⟨_, _, _, _, _, _, _, _, _, _, _, rfl⟩

theorem State.fpFrame_trans {s t u : State} (h : s.fpFrame t) (h' : t.fpFrame u) : s.fpFrame u := by
  obtain ⟨_, _, _, _, _, _, _, _, _, _, _, rfl⟩ := h
  obtain ⟨_, _, _, _, _, _, _, _, _, _, _, rfl⟩ := h'
  exact ⟨_, _, _, _, _, _, _, _, _, _, _, rfl⟩

theorem State.fpFrame_of_accessFrame {s t : State} (h : s.accessFrame t) : s.fpFrame t := by
  obtain ⟨_, _, _, _, rfl⟩ := h
  exact ⟨_, _, _, _, _, _, _, _, _, _, _, rfl⟩

/-- The registers of the FP15 are its own to change. -/
theorem State.fpFrame_registers (s : State) (a b : FpReg) (q : BitVec 35) (g : Bool) (j : BitVec 15) :
    s.fpFrame { s with fma := a, fmb := b, fmq := q, fguard := g, jeaBase := j } :=
  ⟨_, _, _, _, _, _, _, _, _, _, _, rfl⟩

theorem State.fpFrame_jump (s : State) (a : Addr) : s.fpFrame { s.pcqPush with pc := a } :=
  ⟨_, _, _, _, _, _, _, _, _, _, _, rfl⟩

theorem State.fpFrame_fpAddress (s : State) : s.fpFrame s.fpAddress.state :=
  State.fpFrame_trans (t := s.advance) ⟨_, _, _, _, _, _, _, _, _, _, _, rfl⟩
    (State.fpFrame_of_accessFrame s.fpAddress_frame)

theorem State.fpFrame_fpException (s : State) (k : FpExc) : s.fpFrame (s.fpException k) := by
  have hwrite := State.fpFrame_of_accessFrame (s.cpuWrite_frame s.fpBase s.retWord)
  unfold State.fpException
  revert hwrite
  cases s.cpuWrite s.fpBase s.retWord with
  | done v t => exact fun hwrite => State.fpFrame_trans hwrite (t.fpFrame_jump _)
  | abandoned t => exact id

theorem fpFrame_fpSettle {α : Type} {s : State} {x : Access α} {f : α → State → State} (hx : s.fpFrame x.state)
    (hf : ∀ (v : α) (t : State), t.fpFrame (f v t)) : s.fpFrame (fpSettle x f) := by
  cases x with
  | done v t => exact State.fpFrame_trans hx (hf v t)
  | abandoned t => exact State.fpFrame_trans hx (t.fpFrame_fpException .mm)

/-! ## The instructions that write operands to memory -/

theorem execSt_frame (m : FpMods) (s : State) : ∃ t, exec (.st m) s = .next t ∧ s.fpFrame t := by
  refine ⟨_, rfl, fpFrame_fpSettle s.fpFrame_fpAddress fun ea t => ?_⟩
  split
  · exact t.fpFrame_registers _ _ _ _ _
  · split
    · exact t.fpFrame_fpException _
    · exact fpFrame_fpSettle (State.fpFrame_of_accessFrame (State.fpStore_frame _ t ea)) fun _ u => u.fpFrame_refl

theorem execJea_frame (m : FpMods) (s : State) : ∃ t, exec (.jea m) s = .next t ∧ s.fpFrame t := by
  refine ⟨_, rfl, fpFrame_fpSettle s.fpFrame_fpAddress fun ea t => ?_⟩
  split
  · exact fpFrame_fpSettle (State.fpFrame_of_accessFrame (t.fpWrite_frame _ _)) fun _ u => u.fpFrame_refl
  · exact fpFrame_fpSettle (State.fpFrame_of_accessFrame (t.fpRead_frame _)) fun _ u => u.fpFrame_registers _ _ _ _ _

/-! ## The instructions that compute -/

/-- The accesses of an instruction that computes: they read, and the operand goes to FMB (R311 to R313). -/
def State.operandFrame (s t : State) : Prop := ∃ b n v x, t = { s with fmb := b, nexm := n, prvn := v, trapPending := x }

/-- The frame of an instruction that computes, from where its PC is past its words: at most the word that the exception base
translates to is written (R345). -/
structure State.ComputingFrame (s t : State) : Prop where
  registers : s.fpFrame t
  memory : ∀ a, (∀ pa, s.translate s.fpBase .write = .ok pa → pa.toNat ≠ a) → t.wordAt a = s.wordAt a

theorem State.operandFrame_of_accessFrame {s t : State} (h : s.accessFrame t) (hmem : t.mem = s.mem) : s.operandFrame t := by
  obtain ⟨_, _, _, _, rfl⟩ := h
  cases hmem
  exact ⟨_, _, _, _, rfl⟩

theorem State.operandFrame_trans {s t u : State} (h : s.operandFrame t) (h' : t.operandFrame u) : s.operandFrame u := by
  obtain ⟨_, _, _, _, rfl⟩ := h
  obtain ⟨_, _, _, _, rfl⟩ := h'
  exact ⟨_, _, _, _, rfl⟩

theorem State.operandFrame_fpAddress (s : State) : s.advance.operandFrame s.fpAddress.state :=
  State.operandFrame_of_accessFrame s.fpAddress_frame s.fpAddress_mem

theorem State.operandFrame_fpOperand (s : State) (m : FpMods) (ea : Addr) : s.operandFrame (s.fpOperand m ea).state := by
  cases hno : m.noload with
  | true =>
    rw [State.fpOperand, if_pos hno]
    exact ⟨_, _, _, _, rfl⟩
  | false =>
    rw [State.fpOperand_load hno]
    refine Access.state_andThen (R := State.operandFrame) State.operandFrame_trans
      (State.operandFrame_of_accessFrame (s.fpLoad_frame _ _) (s.fpLoad_mem _ _)) fun b t => ?_
    cases b with
    | ok u => exact ⟨_, _, _, _, rfl⟩
    | error k => exact ⟨_, _, _, _, rfl⟩

/-- What follows the accesses has the base and the translation that they started from. -/
theorem State.ComputingFrame.after {s t u : State} (h : s.operandFrame t) (h' : t.ComputingFrame u) : s.ComputingFrame u := by
  obtain ⟨_, _, _, _, rfl⟩ := h
  exact ⟨State.fpFrame_trans ⟨_, _, _, _, _, _, _, _, _, _, _, rfl⟩ h'.registers, h'.memory⟩

theorem State.ComputingFrame.of_mem {s t : State} (h : s.fpFrame t) (hmem : t.mem = s.mem) : s.ComputingFrame t :=
  ⟨h, fun a _ => congrArg (Memory.read · a) hmem⟩

theorem State.computingFrame_fpException (s : State) (k : FpExc) : s.ComputingFrame (s.fpException k) := by
  refine ⟨s.fpFrame_fpException k, fun a ha => ?_⟩
  rcases s.fpException_cases k with ⟨pa, htranslate, e⟩ | ⟨-, e⟩ | ⟨-, -, e⟩ | ⟨-, -, e⟩ <;> rw [e]
  · exact Memory.read_write_ne _ _ (ha pa htranslate).symm
  all_goals rfl

theorem computingFrame_fpSettle {α : Type} {s : State} {x : Access α} {f : α → State → State} (hx : s.operandFrame x.state)
    (hf : ∀ (v : α) (t : State), t.ComputingFrame (f v t)) : s.ComputingFrame (fpSettle x f) := by
  cases x with
  | done v t => exact .after hx (hf v t)
  | abandoned t => exact .after hx (t.computingFrame_fpException .mm)

theorem State.computingFrame_fpFinish (s : State) (sgn : BitVec 2) (r : Except FpExc FpResult) :
    s.ComputingFrame (s.fpFinish sgn r) := by
  cases r with
  | ok x => exact .of_mem (s.fpFrame_registers _ _ _ _ _) rfl
  | error k => exact s.computingFrame_fpException k

theorem State.computingFrame_fpArith (s : State) (m : FpMods)
    (op : FpMods → Unpacked → Unpacked → Except FpExc FpResult) : s.advance.ComputingFrame (s.fpArith m op) :=
  computingFrame_fpSettle
    (Access.state_andThen (R := State.operandFrame) State.operandFrame_trans s.operandFrame_fpAddress
      fun ea t => t.operandFrame_fpOperand m ea)
    fun _ t => t.computingFrame_fpFinish _ _

theorem State.computingFrame_fpUnary (s : State) (m : FpMods) (op : Unpacked → Except FpExc FpResult) :
    s.advance.ComputingFrame (s.fpUnary m op) :=
  computingFrame_fpSettle s.operandFrame_fpAddress fun _ t => t.computingFrame_fpFinish _ _

theorem execLfmq_frame (m : FpMods) (s : State) : ∃ t, exec (.lfmq m) s = .next t ∧ s.advance.ComputingFrame t :=
  ⟨_, rfl, computingFrame_fpSettle s.operandFrame_fpAddress fun _ t => .of_mem (t.fpFrame_registers _ _ _ _ _) rfl⟩

theorem execBr_frame (c : BrConds) (s : State) : ∃ t, exec (.br c) s = .next t ∧ s.advance.ComputingFrame t := by
  refine ⟨_, rfl, computingFrame_fpSettle s.operandFrame_fpAddress fun ea t => ?_⟩
  split
  · exact .of_mem (t.fpFrame_jump ea) rfl
  · exact .of_mem t.fpFrame_refl rfl

theorem fpComputing_frame (m : FpMods) (c : BrConds) (s : State) :
    ∀ i ∈ fpComputing m c, ∃ t, exec i s = .next t ∧ s.advance.ComputingFrame t := by
  have harith : ∀ op, ∃ t, (.next (s.fpArith m op) : Host.Outcome State Fault Refusal) = .next t
      ∧ s.advance.ComputingFrame t := fun op => ⟨_, rfl, s.computingFrame_fpArith m op⟩
  have hunary : ∀ op, ∃ t, (.next (s.fpUnary m op) : Host.Outcome State Fault Refusal) = .next t
      ∧ s.advance.ComputingFrame t := fun op => ⟨_, rfl, s.computingFrame_fpUnary m op⟩
  simp only [fpComputing, List.forall_mem_cons]
  exact ⟨harith _, harith _, harith _, harith _, harith _, harith _, hunary _, hunary _, execLfmq_frame m s, harith _,
    execBr_frame c s, fun _ hi => absurd hi List.not_mem_nil⟩

/-- Settles O56: the instruction is one of the class, and each of them keeps its frame. -/
theorem floatingFrame : Obligations.FloatingFrame := by
  intro i s t hfp hwf hword h p base
  obtain ⟨m, c, rfl | rfl | hi⟩ := fp15_of_word hfp hwf hword
  · obtain ⟨u, hexec, hframe⟩ := execSt_frame m s
    cases hexec.symm.trans h
    exact ⟨hframe, fun hst _ => absurd rfl (hst m)⟩
  · obtain ⟨u, hexec, hframe⟩ := execJea_frame m s
    cases hexec.symm.trans h
    exact ⟨hframe, fun _ hjea => absurd rfl (hjea m)⟩
  · obtain ⟨u, hexec, hframe⟩ := fpComputing_frame m c s i hi
    cases hexec.symm.trans h
    exact ⟨State.fpFrame_trans (t := s.advance) ⟨_, _, _, _, _, _, _, _, _, _, _, rfl⟩ hframe.registers,
      fun _ _ => hframe.memory⟩

end Sys2Proof.Machine
end

section
/-! What a trap and a program interrupt do when one is taken, and which interrupt the arbiter chooses (R361, R362, R367, R368,
R374). -/

namespace Sys2Proof.Machine

/-! ## Trap entry and PI delivery -/

/-- Where a cycle that runs no instruction begins: its move off the list, the modes committed (R370, R373). -/
theorem State.moved_started (s : State) :
    s.moved.started = { s.commitModes with moves := s.moves.tail, firstCycle := false } := by
  rw [State.started, s.moved_commitModes]

/-- A forced entry that has memory to save its return word in (R362, R368, R374). -/
theorem State.enter_installed {s : State} {save : Nat} (h : save < s.cfg.memSize) (target : Addr) :
    s.enter save target =
      { s with
        pcq := s.pc :: s.pcq.take (s.cfg.pcqDepth - 1)
        usmd := false, usmdBuf := false, memm := s.cfg.entryMemm, memmBuf := s.cfg.entryMemm, modeDefer := 0
        mem := s.mem.write save s.retWord, pc := target } := by
  rcases s.enter_cases save target with ⟨-, e⟩ | ⟨hnone, -⟩
  · exact e
  · exact absurd h (Nat.not_lt.mpr hnone)

/-- Trap entry with memory installed (R362). -/
theorem State.trapEntry_installed {s : State} (h : 0 < s.cfg.memSize) :
    s.trapEntry =
      { s with
        trapPending := false, ion := false
        pcq := s.pc :: s.pcq.take (s.cfg.pcqDepth - 1)
        usmd := false, usmdBuf := false, memm := s.cfg.entryMemm, memmBuf := s.cfg.entryMemm, modeDefer := 0
        mem := s.mem.write 0 s.retWord, pc := 2 } :=
  State.enter_installed (s := { s with trapPending := false, ion := false }) h 2

/-- PI delivery with memory installed (R368). -/
theorem State.piDelivery_installed {s : State} (h : 0 < s.cfg.memSize) :
    s.piDelivery =
      { s with
        ion := false
        pcq := s.pc :: s.pcq.take (s.cfg.pcqDepth - 1)
        usmd := false, usmdBuf := false, memm := s.cfg.entryMemm, memmBuf := s.cfg.entryMemm, modeDefer := 0
        mem := s.mem.write 0 s.retWord, pc := 1 } :=
  State.enter_installed (s := { s with ion := false }) h 1

/-- The return word of the interrupted state is that of the modes that the cycle commits (R183, R373). -/
theorem State.moved_started_retWord (s : State) : s.moved.started.retWord = s.commitModes.retWord := by
  rw [s.moved_started]
  rfl

theorem trapEntryIsTaken : Clause.TrapEntryIsTaken := by
  intro s hnext hrun htrap hmem
  rw [step_of_running hnext hrun, State.cycle_trap (s := s.moved) htrap, State.trapEntry_installed (by simpa using hmem),
    s.moved_started_retWord, s.moved_started]
  simp only [State.commitModes_cfg, State.commitModes_pc, State.commitModes_pcq, State.commitModes_mem]

theorem piDeliveryIsTaken : Clause.PiDeliveryIsTaken := by
  intro s hnext hrun htrap hdefer harbiter hmem
  rw [step_of_running hnext hrun, State.cycle_pi (s := s.moved) htrap hdefer (by simpa using harbiter),
    State.piDelivery_installed (by simpa using hmem), s.moved_started_retWord, s.moved_started]
  simp only [State.commitModes_cfg, State.commitModes_pc, State.commitModes_pcq, State.commitModes_mem]

/-- Settles O14: a forced entry with memory to save in. -/
theorem trapAndPiEntry : Obligations.TrapAndPiEntry := ⟨trapEntryIsTaken, piDeliveryIsTaken⟩

/-! ## The arbiter -/

/-- A level is above every level of a mask exactly when neither it nor one above it is of the mask (R367). -/
theorem lt_topLevel_iff {m : BitVec 8} {k : Nat} : k < topLevel m ↔ k < 8 ∧ ∀ j ≤ k, m.getMsbD j = false := by
  unfold topLevel
  cases hfind : (List.range 8).find? fun j => m.getMsbD j with
  | none =>
    have hclear : ∀ j < 8, m.getMsbD j = false := by simpa using hfind
    exact ⟨fun hk => ⟨hk, fun j hj => hclear j (hj.trans_lt hk)⟩, And.left⟩
  | some top =>
    obtain ⟨hset, hrange, hbelow⟩ := List.find?_range_eq_some.mp hfind
    have hlt : top < 8 := List.mem_range.mp hrange
    refine ⟨fun hk => ⟨lt_trans hk hlt, fun j hj => by simpa using hbelow j (lt_of_le_of_lt hj hk)⟩, fun ⟨_, hclear⟩ => ?_⟩
    by_contra hk
    rw [hclear top (Nat.not_lt.mp hk)] at hset
    cases hset

theorem pendingLevels : Clause.PendingLevels := by
  intro s k hk
  unfold State.pendingMask
  simp only [BitVec.getMsbD_append, BitVec.getMsbD_extractLsb']
  interval_cases k <;> simp

theorem apiCandidateIsLowestPending : Clause.ApiCandidateIsLowestPending := by
  intro s k
  have hon : s.apiOn = true ↔ s.cfg.hasAPI = true ∧ s.apiEnb = true := Bool.and_eq_true_iff
  unfold State.apiCandidate
  split
  · next h =>
    obtain ⟨hapi, henb⟩ := hon.mp h
    simp only [List.find?_range_eq_some, List.mem_range, lt_topLevel_iff, Bool.not_eq_true']
    exact ⟨fun ⟨hpending, ⟨hk, habove⟩, hlowest⟩ => ⟨hapi, henb, hk, hpending, habove, hlowest⟩,
      fun ⟨_, _, hk, hpending, habove, hlowest⟩ => ⟨hpending, ⟨hk, habove⟩, hlowest⟩⟩
  · next h => exact iff_of_false nofun fun ⟨hapi, henb, _⟩ => h (hon.mpr ⟨hapi, henb⟩)

/-- When a program interrupt is ready, variant by variant (R367). -/
theorem State.piReady_iff (s : State) :
    s.piReady = true ↔ s.ion = true ∧ s.intReq.pi ≠ 0 ∧ ¬(s.cfg.variant = .VC ∧ s.apiAct ≠ 0)
      ∧ ¬(s.cfg.variant = .VD ∧ s.apiAct &&& 0o360 ≠ 0) := by
  have hmasked : s.piMasked = false ↔ ¬(s.cfg.variant = .VC ∧ s.apiAct ≠ 0)
      ∧ ¬(s.cfg.variant = .VD ∧ s.apiAct &&& 0o360 ≠ 0) := by
    unfold State.piMasked
    cases s.cfg.variant <;> simp
  rw [State.piReady, Bool.and_eq_true, Bool.and_eq_true, Bool.not_eq_true', hmasked, bne_iff_ne, and_assoc]

theorem arbitrationOrder : Clause.ArbitrationOrder := by
  intro s piReady
  have hready : piReady ↔ s.piReady = true := s.piReady_iff.symm
  rw [hready]
  unfold State.arbitrate
  cases s.apiCandidate with
  | none => cases s.piReady <;> simp
  | some k =>
    by_cases hk : k < 4
    · have hne : ∀ j, 4 ≤ j → k ≠ j := fun j hj => (hk.trans_le hj).ne
      simp +contextual [hk, hne]
    · have hne : ∀ j < 4, k ≠ j := fun j hj => (hj.trans_le (Nat.not_lt.mp hk)).ne'
      cases s.piReady <;> simp +contextual [hk, hne, Nat.not_lt.mp hk]

/-- Settles O16: the pending levels bit by bit, the first of them above the active ones, and the arbiter's branches. -/
theorem arbitration : Obligations.Arbitration := ⟨pendingLevels, apiCandidateIsLowestPending, arbitrationOrder⟩

end Sys2Proof.Machine
end

section
/-! The delivery of an API level through its vector (R369, R374, R404). -/

namespace Sys2Proof.Machine

/-! ## The vector -/

/-- The highest line of a vector is its last bit that is 1 (R369). -/
theorem highestLine_eq {v : BitVec 32} {n : Nat} (hn : n < 32) (hline : v.getLsbD n = true)
    (habove : ∀ j, n < j → j < 32 → v.getLsbD j = false) : highestLine v = n := by
  have hfind : (List.range 32).find? (fun j => v.getMsbD j) = some (31 - n) := by
    refine List.find?_range_eq_some.mpr ⟨?_, List.mem_range.mpr (by omega), fun j hj => ?_⟩
    · rw [BitVec.getMsbD_eq_getLsbD, show 32 - 1 - (31 - n) = n by omega, hline, decide_eq_true (by omega), Bool.and_true]
    · rw [BitVec.getMsbD_eq_getLsbD, habove _ (by omega) (by omega), Bool.and_false, Bool.not_false]
  rw [highestLine, hfind, Option.getD_some]
  omega

theorem apiVectorOfLevel : Clause.ApiVectorOfLevel := by
  intro s k lines
  refine ⟨fun hk n hn hline habove => ?_, fun hk hk8 => ⟨_, if_neg (Nat.not_lt.mpr hk), ?_⟩⟩
  · have hlevel : s.intReq.level k = lines := by
      dsimp only [lines]
      interval_cases k <;> rfl
    rw [State.apiVector, if_pos hk, hlevel, highestLine_eq hn hline habove]
  · rw [BitVec.toNat_ofNat]
    omega

/-- A word is a JMS by its opcode (R131, R172). -/
theorem isJms_iff_mask (w : Word) : w &&& 0o740000 = 0o100000 ↔ w.extractLsb' 14 4 = 0b0010#4 :=
  and_fieldMask_eq_iff 14 0b0010#4 (by decide) (by decide) (by decide)

/-- An invalid vector stops the run in the state that the cycle began with (R369, R404, log entry 14). -/
theorem State.apiDelivery_invalid {s : State} (s0 : State) {k : Nat}
    (h : s.apiVector k = none ∨ ∃ vec, s.apiVector k = some vec ∧ vec.toNat < s.cfg.memSize
      ∧ s.wordAt vec.toNat &&& 0o740000 ≠ 0o100000) :
    s0.apiDelivery s k = s0.stop .invalidVector := by
  rw [State.apiDelivery]
  rcases h with hnone | ⟨vec, hvec, hmem, hword⟩
  · rw [hnone]
  · rw [hvec]
    dsimp only
    rw [State.physRead, if_pos hmem]
    exact if_pos (mt (isJms_iff_mask _).mpr hword)

theorem invalidVectorStops : Clause.InvalidVectorStops := by
  intro s k hnext hrun htrap hdefer harbiter hinvalid
  rw [step_of_running hnext hrun, State.cycle_api (s := s.moved) htrap hdefer (by simpa using harbiter), s.moved_started,
    State.apiDelivery_invalid]
  · rfl
  · simpa [State.wordAt, State.apiVector] using hinvalid

/-! ## The delivery -/

/-- Where the vector word of level k is executed: in the forced modes, the level active and a software request consumed, the
PC still the interrupted one (R369, R374). -/
def State.atLevel (s : State) (k : Nat) (w : Word) : State :=
  { s.forceEntryModes with
    apiAct := s.apiAct ||| levelBit k
    apiReq := if 4 ≤ k then s.apiReq &&& ~~~levelBit k else s.apiReq
    ir := w }

/-- A vector word that is a JMS is executed at its level, from the address after the vector (R369). -/
theorem State.apiDelivery_jms {s : State} (s0 : State) {k : Nat} {vec : Addr} (hvec : s.apiVector k = some vec)
    (hmem : vec.toNat < s.cfg.memSize) (hword : s.wordAt vec.toNat &&& 0o740000 = 0o100000) :
    s0.apiDelivery s k =
      ((s.atLevel k (s.wordAt vec.toNat)).resolveFrom (incPC s.cfg vec) (memOperandOf (s.wordAt vec.toNat))).finish
        fun r t => t.jumpSubroutine r.ea s.retWord := by
  rw [State.apiDelivery, hvec]
  dsimp only
  rw [State.physRead, if_pos hmem]
  exact if_neg (not_not.mpr ((isJms_iff_mask _).mp hword))

/-- The vector word is executed on the machine interrupted, but for its PC as the clause has it (R369, R373). -/
theorem State.moved_started_atLevel (s : State) (k : Nat) (w : Word) :
    s.moved.started.atLevel k w =
      { s.commitModes with
        moves := s.moves.tail, firstCycle := false
        usmd := false, usmdBuf := false, memm := s.cfg.entryMemm, memmBuf := s.cfg.entryMemm, modeDefer := 0
        apiAct := s.apiAct ||| (0o200#8 >>> k)
        apiReq := if 4 ≤ k then s.apiReq &&& ~~~(0o200#8 >>> k) else s.apiReq
        ir := w } := by
  rw [s.moved_started]
  simp only [State.atLevel, State.forceEntryModes, State.commitModes_cfg, State.commitModes_apiAct, State.commitModes_apiReq]
  rfl

/-- A delivery through a vector that holds a JMS, as a step (R369, R370). -/
theorem step_of_apiDelivery {s : State} {k : Nat} {vec : Addr} (hnext : s.processorNext) (hrun : s.runState = .running)
    (htrap : s.trapPending = false) (hdefer : s.ionDefer = false) (harbiter : s.commitModes.arbitrate = .api k)
    (hvec : s.commitModes.apiVector k = some vec) (hmem : vec.toNat < s.cfg.memSize)
    (hword : s.wordAt vec.toNat &&& 0o740000 = 0o100000) :
    step s = .next (((s.moved.started.atLevel k (s.wordAt vec.toNat)).resolveFrom (incPC s.cfg vec)
      (memOperandOf (s.wordAt vec.toNat))).finish fun r t => t.jumpSubroutine r.ea s.commitModes.retWord) := by
  have hvec' : s.moved.started.apiVector k = some vec := by rwa [s.moved_started]
  have hmem' : vec.toNat < s.moved.started.cfg.memSize := by simpa using hmem
  have hat : s.moved.started.wordAt vec.toNat = s.wordAt vec.toNat := by simp [State.wordAt]
  have hcfg : s.moved.started.cfg = s.cfg := State.started_cfg _
  rw [step_of_running hnext hrun, State.cycle_api (s := s.moved) htrap hdefer (by simpa using harbiter),
    State.apiDelivery_jms _ hvec' hmem' (by rwa [hat]), hat, hcfg, s.moved_started_retWord]

/-- Resolving the vector word's address leaves the forced mode and the interrupted PC (R369). -/
theorem State.kept_of_atLevel {s t : State} {k : Nat} {w : Word} (h : (s.atLevel k w).accessFrame t) :
    t.usmd = false ∧ t.cfg = s.cfg ∧ t.pc = s.pc ∧ t.pcq = s.pcq := by
  obtain ⟨_, _, _, _, rfl⟩ := h
  exact ⟨rfl, rfl, rfl, rfl⟩

/-- A JMS whose word can be written (R172). -/
theorem State.jumpSubroutine_ok {s : State} {ea pa : Addr} (h : s.translate ea .write = .ok pa) (ret : Word) :
    s.jumpSubroutine ea ret =
      { s with
        mem := s.mem.write pa.toNat ret, pcq := s.pc :: s.pcq.take (s.cfg.pcqDepth - 1), pc := incPC s.cfg ea } := by
  rw [State.jumpSubroutine, State.cpuWrite_ok h, Access.finish_done]
  rfl

/-- A JMS into non-existent memory that traps is abandoned (R98, R172). -/
theorem State.jumpSubroutine_nonExistent_traps {s : State} {ea : Addr} (h : s.translate ea .write = .nonExistent)
    (ht : s.nxmTraps = true) (ret : Word) : s.jumpSubroutine ea ret = { s with nexm := true, trapPending := true } := by
  rw [State.jumpSubroutine, State.cpuWrite_nonExistent_traps h ht, Access.finish_abandoned]

/-- One that does not trap discards the word and jumps (R98, R172). -/
theorem State.jumpSubroutine_nonExistent {s : State} {ea : Addr} (h : s.translate ea .write = .nonExistent)
    (ht : s.nxmTraps = false) (ret : Word) :
    s.jumpSubroutine ea ret =
      { s with nexm := true, pcq := s.pc :: s.pcq.take (s.cfg.pcqDepth - 1), pc := incPC s.cfg ea } := by
  rw [State.jumpSubroutine, State.cpuWrite_nonExistent h ht, Access.finish_done]
  rfl

theorem apiDeliveryIsTaken : Clause.ApiDeliveryIsTaken := by
  intro s t k vec pa r hnext hrun htrap hdefer harbiter hvec hmem hword atVector pushed
  have hat : atVector = { s.moved.started.atLevel k (s.wordAt vec.toNat) with pc := incPC s.cfg vec } := by
    rw [s.moved_started_atLevel]
  have hframe := (s.moved.started.atLevel k (s.wordAt vec.toNat)).resolveFrom_frame (incPC s.cfg vec)
    (memOperandOf (s.wordAt vec.toNat))
  rw [step_of_apiDelivery hnext hrun htrap hdefer harbiter hvec hmem hword, hat, State.resolve_atPc]
  revert hframe
  cases State.resolveFrom _ _ _ with
  | abandoned u =>
    intro hframe
    obtain ⟨-, -, hpc, -⟩ := State.kept_of_atLevel (t := u) hframe
    rw [State.started_pc] at hpc
    refine ⟨fun h => ?_, nofun⟩
    cases h
    rw [Access.finish_abandoned, ← show u.pc = s.pc from hpc]
  | done r' u =>
    intro hframe
    obtain ⟨husmd, hcfg, hpc, hpcq⟩ := State.kept_of_atLevel (t := u) hframe
    rw [State.started_cfg] at hcfg
    rw [State.started_pc] at hpc
    rw [State.started_pcq] at hpcq
    refine ⟨nofun, fun h => ?_⟩
    cases h
    have hpushed : pushed = u.pc :: u.pcq.take (u.cfg.pcqDepth - 1) := by rw [hpc, hpcq, hcfg]
    rw [Access.finish_done, hpushed, ← hcfg, ← hpc]
    refine ⟨fun hwrite => ?_, fun hwrite htraps => ?_, fun hwrite hno => ?_⟩
    · exact congrArg _ (State.jumpSubroutine_ok (s := u) hwrite _)
    · exact congrArg _ (State.jumpSubroutine_nonExistent_traps (s := u) hwrite (u.nxmTraps_iff.mpr (.inr htraps)) _)
    · exact congrArg _ (State.jumpSubroutine_nonExistent (s := u) hwrite (u.nxmTraps_eq_false_iff.mpr ⟨husmd, hno⟩) _)

/-- Settles O15: the vector word's JMS in the forced modes, the stop of an invalid vector, and where the vector lies. -/
theorem apiEntry : Obligations.ApiEntry := ⟨apiDeliveryIsTaken, invalidVectorStops, apiVectorOfLevel⟩

end Sys2Proof.Machine
end

section
/-! How user mode is entered: no instruction, entry or delivery turns `usmd` on, so only the commit of a cycle can (R363, R373,
R374, R380). -/

namespace Sys2Proof.Machine

/-! ## What keeps the mode -/

theorem State.usmd_of_accessFrame {s t : State} (h : s.accessFrame t) : t.usmd = s.usmd := by
  obtain ⟨_, _, _, _, rfl⟩ := h
  rfl

theorem State.usmd_of_eaeFrame {s t : State} (h : s.eaeFrame t) : t.usmd = s.usmd := by
  obtain ⟨_, _, _, _, _, _, _, _, _, rfl⟩ := h
  rfl

theorem State.usmd_of_fpFrame {s t : State} (h : s.fpFrame t) : t.usmd = s.usmd := by
  obtain ⟨_, _, _, _, _, _, _, _, _, _, _, rfl⟩ := h
  rfl

theorem Access.usmd_finish {α : Type} {s : State} {x : Access α} {f : α → State → State} (hx : s.accessFrame x.state)
    (hf : ∀ v t, (f v t).usmd = t.usmd) : (x.finish f).usmd = s.usmd := by
  cases x with
  | done v t => exact (hf v t).trans (State.usmd_of_accessFrame hx)
  | abandoned t => exact State.usmd_of_accessFrame hx

theorem State.usmd_unimplemented (s : State) : s.unimplemented.usmd = s.usmd := by
  rcases s.unimplemented_cases with ⟨-, e⟩ | ⟨-, e⟩ <;> rw [e]
  rfl

theorem State.usmd_jumpSubroutine (s : State) (ea : Addr) (ret : Word) : (s.jumpSubroutine ea ret).usmd = s.usmd :=
  Access.usmd_finish (s.cpuWrite_frame ea ret) fun _ _ => rfl

theorem State.usmd_operate (s : State) (o : OperateOps) : (s.operate o).usmd = s.usmd := by
  unfold State.operate
  dsimp only
  split
  · rfl
  · split <;> rfl

/-- An IOT-class word keeps the mode when its own effect does: MPEU writes the buffer alone (R230, R257). -/
theorem State.usmd_iot (s : State) (claimed : Bool) (dev code : BitVec 6) (cla : Bool) {effect : State → State}
    (heffect : ∀ t, (effect t).usmd = t.usmd) : (s.iot claimed dev code cla effect).usmd = s.usmd := by
  rcases s.iot_cases claimed dev code cla effect with ⟨-, e⟩ | ⟨-, -, e⟩ | ⟨-, -, -, e⟩ | ⟨-, -, -, e⟩ <;> rw [e]
  · rfl
  · exact heffect _
  · rfl
  · exact s.usmd_unimplemented

/-- A forced entry ends in executive mode (R374). -/
theorem State.usmd_enter (s : State) (save : Nat) (target : Addr) : (s.enter save target).usmd = false := by
  rcases s.enter_cases save target with ⟨-, e⟩ | ⟨-, e⟩ <;> rw [e]

/-! ## Every instruction -/

/-- The answer, if it is a next state, is not in user mode unless `s` is. -/
def StaysExecutive (s : State) (o : Host.Outcome State Fault Refusal) : Prop :=
  ∀ t, o = .next t → s.usmd = false → t.usmd = false

theorem StaysExecutive.next {s t : State} (h : t.usmd = s.usmd) : StaysExecutive s (.next t) := by
  rintro _ ⟨⟩ hs
  exact h.trans hs

theorem staysExecutive_of_fpFrame {s : State} {o : Host.Outcome State Fault Refusal}
    (h : ∃ t, o = .next t ∧ s.fpFrame t) : StaysExecutive s o := by
  obtain ⟨t, rfl, hframe⟩ := h
  exact .next (State.usmd_of_fpFrame hframe)

theorem staysExecutive_of_fpComputing {s : State} {o : Host.Outcome State Fault Refusal}
    (h : ∃ t, o = .next t ∧ s.advance.ComputingFrame t) : StaysExecutive s o := by
  obtain ⟨t, rfl, hframe⟩ := h
  exact .next (State.usmd_of_fpFrame hframe.registers)

/-- CAL goes to executive mode (R170). -/
theorem execCal_staysExecutive (ign : BitVec 14) (s : State) : StaysExecutive s (execCal ign s) := by
  rintro _ ⟨⟩ -
  exact State.usmd_enter _ _ _

theorem execIsz_staysExecutive (m : MemOperand) (s : State) : StaysExecutive s (execIsz m s) := by
  refine .next (Access.usmd_finish ?_ fun _ _ => rfl)
  exact Access.frame_andThen (s.resolve_frame m) fun _ t =>
    Access.frame_andThen (t.cpuRead_frame _ _) fun _ u =>
      Access.frame_andThen (u.cpuWrite_frame _ _) fun _ v => v.accessFrame_refl

/-- The mode that a JMP restores waits in its buffer (R182, R373). -/
theorem execJmp_staysExecutive (m : MemOperand) (s : State) : StaysExecutive s (execJmp m s) := by
  refine .next (Access.usmd_finish (s.resolve_frame m) fun r t => ?_)
  dsimp only
  split <;> split <;> rfl

/-- No instruction turns user mode on, if XCT does not. -/
theorem execWith_staysExecutive {xct : MemOperand → State → Host.Outcome State Fault Refusal}
    (hx : ∀ m s, StaysExecutive s (xct m s)) (i : Instr) (s : State) : StaysExecutive s (execWith xct i s) := by
  cases i
  case cal ign => exact execCal_staysExecutive ign s
  case dac m | dzm m => exact .next (Access.usmd_finish (s.storeOperand_frame m _) fun _ _ => rfl)
  case jms m => exact .next (Access.usmd_finish (s.resolve_frame m) fun _ t => t.usmd_jumpSubroutine _ _)
  case lac m | xor m | add m | tad m | and m | sad m =>
    exact .next (Access.usmd_finish (s.loadOperand_frame m) fun _ _ => rfl)
  case xct m => exact hx m s
  case isz m => exact execIsz_staysExecutive m s
  case jmp m => exact execJmp_staysExecutive m s
  case opr | nop | cma | cml | oas | ral | rar | iac | hlt | sma | sza | smaSza | snl | skp | spa | sna | spaSna | szl | rtl | rtr
      | bsw | cll | stl | rcl | rcr | cla | clc | las | glk => exact .next (s.usmd_operate _)
  case law | pax | pal | aac | pxa | axs | pxl | pla | plx | clac | clx | cllr | axr => exact .next rfl
  case iot | iof | ion | iors | caf | dbk | dbr | mpsk | mpcne | mpcv | mpld | mplr | mplmr | mprmr | mpsne | mpeu | semSba | eem
      | lem | eba | dba | emirRes | spi | isa | rpl => exact .next (s.usmd_iot _ _ _ _ fun _ => rfl)
  case eae | osc | omq | cmq | lacs | lacq | abs | clq | lmq | gsm | mul | muls | div | divs | idiv | idivs | frdiv | frdivs | norm
      | norms | lrs | lrss | lls | llss | als | alss => exact .next (State.usmd_of_eaeFrame (s.eaeFrame_eae _ _ _))
  case fpSub | fpRsub | fpMul | fpDiv | fpRdiv | ld | fpAdd =>
    exact staysExecutive_of_fpComputing ⟨_, rfl, s.computingFrame_fpArith _ _⟩
  case flt | fix => exact staysExecutive_of_fpComputing ⟨_, rfl, s.computingFrame_fpUnary _ _⟩
  case st m => exact staysExecutive_of_fpFrame (execSt_frame m s)
  case jea m => exact staysExecutive_of_fpFrame (execJea_frame m s)
  case lfmq m => exact staysExecutive_of_fpComputing (execLfmq_frame m s)
  case br c => exact staysExecutive_of_fpComputing (execBr_frame c s)

/-- An executed word stays out of user mode where its instruction does, malformed or not (R145). -/
theorem executeWord_staysExecutive {run : Instr → State → Host.Outcome State Fault Refusal} {w : Word} {s : State}
    (h : ∀ i, StaysExecutive s (run i s)) : StaysExecutive s (executeWord run w s) := by
  unfold executeWord
  split
  · exact h _
  · exact .next s.usmd_unimplemented

/-- Reading the words of an XCT keeps the mode in which the last of them runs (R178). -/
theorem xctChain_staysExecutive (n : Nat) : ∀ (m : MemOperand) (s : State), StaysExecutive s (xctChain n m s) := by
  induction n with
  | zero => exact fun m s => .next (Access.usmd_finish (s.loadOperand_frame m) fun _ _ => rfl)
  | succ n ih =>
    intro m s
    have hframe := s.loadOperand_frame m
    unfold xctChain
    split
    · next t ht => exact .next (State.usmd_of_accessFrame (Access.abandoned_state ht ▸ hframe))
    · next w t ht =>
      rw [Access.done_state ht] at hframe
      have hmode : t.usmd = s.usmd := State.usmd_of_accessFrame hframe
      exact fun u hu hs =>
        executeWord_staysExecutive (fun i => execWith_staysExecutive ih i _) u hu (hmode.trans hs)

theorem exec_staysExecutive (i : Instr) (s : State) : StaysExecutive s (exec i s) := by
  rw [exec_eq_execWith]
  exact execWith_staysExecutive (fun m s => xctChain_staysExecutive _ m s) i s

/-! ## Every cycle -/

theorem State.fetchExecute_staysExecutive (s : State) : StaysExecutive s s.fetchExecute := by
  have hexecute : ∀ w (t : State), t.usmd = s.usmd → StaysExecutive s (executeWord exec w t) := fun w t hmode u hu hs =>
    executeWord_staysExecutive (fun i => exec_staysExecutive i t) u hu (hmode.trans hs)
  rcases s.fetchExecute_cases with ⟨pa, -, e⟩ | ⟨-, e⟩ | ⟨-, -, e⟩ | ⟨-, -, e⟩ <;> rw [e]
  · exact hexecute _ _ rfl
  · exact .next rfl
  · exact .next rfl
  · exact hexecute _ _ rfl

theorem State.breakOrFetch_staysExecutive (s : State) (first : Bool) : StaysExecutive s (s.breakOrFetch first) := by
  unfold State.breakOrFetch
  split
  · exact .next rfl
  · exact s.fetchExecute_staysExecutive

/-- An API delivery runs its JMS in the forced mode, and the stop of an invalid vector keeps the mode the cycle began in (R369,
R374, R404). -/
theorem State.usmd_apiDelivery {s0 : State} (s : State) (k : Nat) (h : s0.usmd = false) :
    (s0.apiDelivery s k).usmd = false := by
  unfold State.apiDelivery
  split
  · exact h
  · dsimp only
    split
    · exact h
    · exact Access.usmd_finish (State.resolveFrom_frame _ _ _) fun r t => t.usmd_jumpSubroutine r.ea s.retWord

/-- A cycle whose commit leaves executive mode in force ends in it (R370, R373). -/
theorem State.cycle_staysExecutive {s : State} (hcommit : s.commitModes.usmd = false) : StaysExecutive s s.cycle := by
  intro t h hs
  unfold State.cycle at h
  dsimp only at h
  split at h
  · cases h
    exact State.usmd_enter _ _ _
  · split at h
    · exact State.breakOrFetch_staysExecutive _ _ t h hcommit
    · split at h
      · cases h
        exact State.usmd_apiDelivery _ _ hs
      · cases h
        exact State.usmd_enter _ _ _
      · exact State.breakOrFetch_staysExecutive _ _ t h hcommit

/-- The commit turns user mode on only from its buffer, and when it is due (R373). -/
theorem State.buffered_of_commitModes {s : State} (hoff : s.usmd = false) (hon : s.commitModes.usmd = true) :
    s.modeDefer = 1 ∧ s.usmdBuf = true := by
  unfold State.commitModes at hon
  split at hon
  · cases hoff.symm.trans hon
  · split at hon
    · next hdue => exact ⟨hdue, hon⟩
    · cases hoff.symm.trans hon

/-- Settles O57: a stopped processor keeps its mode, and in a cycle only the commit turns user mode on. -/
theorem userModeEnteredByCommitOnly : Obligations.UserModeEnteredByCommitOnly := by
  intro s t hnext hoff h hon
  cases hrun : s.runState with
  | stopped reason =>
    cases (stoppedProcessorStays s reason hnext hrun).1.symm.trans h
    cases hoff.symm.trans hon
  | running =>
    refine ⟨rfl, ?_⟩
    rw [step_of_running hnext hrun] at h
    have hcommit : s.moved.commitModes.usmd = true := by
      by_contra hno
      have hexec := State.cycle_staysExecutive (s := s.moved) (Bool.eq_false_iff.mpr hno) t h hoff
      cases hexec.symm.trans hon
    exact State.buffered_of_commitModes (s := s.moved) hoff hcommit

end Sys2Proof.Machine
end

section
/-! Power-on and the host's reset, and what the host reads back of a register it has written (R42 to R45, R57, R400, R401,
R406). -/

namespace Sys2Proof.Machine

/-! ## Power-on and reset -/

@[simp] theorem State.powerOn_wordAt (c : Cfg) (a : Nat) : (State.powerOn c).wordAt a = Config.powerOnWord a := rfl

/-- Each value of R400 and R401 is the one `State.powerOn` gives the field. -/
theorem powerOnValues : Clause.PowerOnValues := by
  intro c s
  and_intros
  on_goal -1 => exact State.powerOn_wordAt c
  all_goals rfl

theorem hostResetValues : Clause.HostResetValues := by
  intro s reason rest hstopped hmoves
  rw [step_host_stopped hstopped hmoves]
  rfl

/-- Settles O5: the power-on fields, and the host's reset as the next move of a stopped machine. -/
theorem resetValues : Obligations.ResetValues := ⟨powerOnValues, hostResetValues⟩

theorem State.powerOn_memoryOk (c : Cfg) : (State.powerOn c).memoryOk := ⟨.nil, nofun⟩

theorem State.powerOn_pcOk (c : Cfg) : (State.powerOn c).pcOk := BitVec.zero_and

/-- The modes are those of `memmInit`, which a valid configuration has 0 on VA (R11, R43). -/
theorem State.powerOn_modesOk {c : Cfg} (h : c.valid = true) : (State.powerOn c).modesOk := by
  have hinit : c.variant = .VA → c.memmInit = false := (Cfg.valid_modes h).2
  exact ⟨fun _ => ⟨rfl, rfl⟩, fun hv => ⟨hinit hv, hinit hv⟩, fun _ => ⟨rfl, rfl⟩, Nat.zero_le 2⟩

theorem State.powerOn_modesLeftAlone (c : Cfg) : (State.powerOn c).modesLeftAlone := nofun

theorem State.powerOn_apiOk (c : Cfg) : (State.powerOn c).apiOk := ⟨BitVec.zero_and, fun _ => ⟨rfl, rfl, rfl⟩⟩

/-- Settles O9: the invariants one by one; only the modes use that the configuration is valid. -/
theorem powerOnMeetsInvariants : Obligations.PowerOnMeetsInvariants := fun c h =>
  ⟨State.powerOn_memoryOk c, State.powerOn_pcOk c, State.powerOn_modesOk h, State.powerOn_modesLeftAlone c,
    State.powerOn_apiOk c⟩

/-! ## What a number becomes in a register -/

theorem lowBit_toNat (v : Nat) : (lowBit v).toNat = v % 2 := by
  unfold lowBit
  rcases Nat.mod_two_eq_zero_or_one v with h | h <;> rw [h] <;> rfl

/-- An address of the host is cut to AddrWidth bits (R13, R33). -/
theorem amask_ofNat_toNat (c : Cfg) (v : Nat) :
    (BitVec.ofNat 17 v &&& amask c).toNat = v % 2 ^ c.variant.addrWidth := by
  have hwidth : c.variant.addrWidth ≤ 17 := by cases c.variant <;> decide
  rw [toNat_and_lowMask _ (amask_toNat c), BitVec.toNat_ofNat, Nat.mod_mod_of_dvd _ (Nat.pow_dvd_pow 2 hwidth)]

/-- The software requests are the low 4 of the 8 bits (R42, log entry 19). -/
theorem softwareLevels_ofNat_toNat (v : Nat) : (BitVec.ofNat 8 v &&& 0o017).toNat = v % 16 := by
  have hmask : (0o017 : BitVec 8).toNat = 2 ^ 4 - 1 := rfl
  rw [toNat_and_lowMask _ hmask, BitVec.toNat_ofNat]
  exact Nat.mod_mod_of_dvd v (by decide : 2 ^ 4 ∣ 2 ^ 8)

/-- The number of a run state names it (R55, log entry 19). -/
theorem RunState.code_ofCode : ∀ n : Nat, (RunState.ofCode n).code = n
  | 0 | 1 | 2 | 3 | 4 | 5 | 6 | 7 => rfl
  | _ + 8 => rfl

/-- What examining a register gives after `v` has been deposited in it: `v` cut to the register's width (R30 to R55, R406). -/
def depositedValue (c : Cfg) (v : Nat) : RegName → Nat
  | .l | .eaeAcSign | .ion | .ionDefer | .apiEnb | .memm | .usmd | .memmBuf | .usmdBuf | .restPending | .nexm | .prvn
  | .trapPending | .fmaS | .fmbS | .fguard => v % 2
  | .modeDefer => v % 4
  | .sc => v % 64
  | .apiReq => v % 16
  | .apiAct => v % 256
  | .jeaBase => v % 32768
  | .fmaHi | .fmbHi => v % 131072
  | .pc | .pcq _ => v % 2 ^ c.variant.addrWidth
  | .intReq _ => v % 4294967296
  | .fmq => v % 34359738368
  | .runState => v
  | _ => v % 262144

/-! ## Writing a register -/

/-- Number 0 is Running, so a deposit of `runState` gives the run state of its number; one of 0 begins a run besides (R55, log
entry 19). -/
theorem State.putRegister_runState (s : State) (v : Nat) :
    s.putRegister .runState v =
      { s with runState := RunState.ofCode v, firstCycle := if v = 0 then true else s.firstCycle } := by
  unfold State.putRegister
  by_cases h : v = 0
  · subst h
    rfl
  · simp only [if_neg h]

/-- The register written: flags keep the low bit, PC and PCQ an address of the space, the others their low bits. -/
theorem State.examine_putRegister_same (s : State) {r : RegName} (v : Nat) (hpcq : ∀ i, r = .pcq i → i < s.pcq.length) :
    (s.putRegister r v).examine r = depositedValue s.cfg v r := by
  cases r
  case l | eaeAcSign | ion | ionDefer | apiEnb | memm | usmd | memmBuf | usmdBuf | restPending | nexm | prvn | trapPending
      | fmaS | fmbS | fguard =>
    exact lowBit_toNat v
  case pc => exact amask_ofNat_toNat s.cfg v
  case pcq i =>
    have hread : (s.pcq.set i (BitVec.ofNat 17 v &&& amask s.cfg)).getD i 0 = BitVec.ofNat 17 v &&& amask s.cfg := by
      rw [List.getD_eq_getElem?_getD, List.getElem?_set_self (hpcq i rfl), Option.getD_some]
    exact (congrArg BitVec.toNat hread).trans (amask_ofNat_toNat s.cfg v)
  case apiReq => exact softwareLevels_ofNat_toNat v
  case intReq level => cases level <;> exact BitVec.toNat_ofNat v 32
  case runState =>
    rw [s.putRegister_runState]
    exact RunState.code_ofCode v
  all_goals exact BitVec.toNat_ofNat v _

/-- Writing one request vector leaves the other four (R39). -/
theorem State.examine_putRegister_intReq_other (s : State) (level : ReqLevel) {r' : RegName} (v : Nat)
    (h : r' ≠ .intReq level) : (s.putRegister (.intReq level) v).examine r' = s.examine r' := by
  cases r'
  case intReq level' =>
    cases level <;> cases level'
    any_goals exact absurd rfl h
    all_goals rfl
  all_goals rfl

/-- Writing one entry of PCQ leaves the others (R54). -/
theorem State.examine_putRegister_pcq_other (s : State) (i : Nat) {r' : RegName} (v : Nat) (h : r' ≠ .pcq i) :
    (s.putRegister (.pcq i) v).examine r' = s.examine r' := by
  cases r'
  case pcq j =>
    have hne : i ≠ j := fun e => h (e ▸ rfl)
    have hread : (s.pcq.set i (BitVec.ofNat 17 v &&& amask s.cfg)).getD j 0 = s.pcq.getD j 0 := by
      rw [List.getD_eq_getElem?_getD, List.getElem?_set_ne hne, List.getD_eq_getElem?_getD]
    exact congrArg BitVec.toNat hread
  case intReq level => cases level <;> rfl
  all_goals rfl

theorem State.examine_putRegister_runState_other (s : State) {r' : RegName} (v : Nat) (h : r' ≠ .runState) :
    (s.putRegister .runState v).examine r' = s.examine r' := by
  rw [s.putRegister_runState]
  cases r'
  case runState => exact absurd rfl h
  case intReq level => cases level <;> rfl
  all_goals rfl

/-- No other register changes: but for the three above, each name stands for a field that no other name reads. -/
theorem State.examine_putRegister_other (s : State) {r r' : RegName} (v : Nat) (h : r' ≠ r) :
    (s.putRegister r v).examine r' = s.examine r' := by
  cases r
  case intReq level => exact s.examine_putRegister_intReq_other level v h
  case pcq i => exact s.examine_putRegister_pcq_other i v h
  case runState => exact s.examine_putRegister_runState_other v h
  all_goals
    cases r'
    case intReq level => cases level <;> rfl
    any_goals exact absurd rfl h
    all_goals rfl

theorem State.runState_putRegister_of_ne (s : State) {r : RegName} (v : Nat) (h : r ≠ .runState) :
    (s.putRegister r v).runState = s.runState := by
  cases r
  case runState => exact absurd rfl h
  all_goals rfl

/-! ## Which registers a configuration has -/

/-- The registers of a configuration, in the terms of 10_state.md (R37, R42 to R44, R47 to R49, R51 to R53). -/
def HasRegister (c : Cfg) : RegName → Prop
  | .xr | .lr => c.variant = .VD
  | .apiEnb | .apiReq | .apiAct => c.hasAPI = true
  | .memm | .memmBuf => c.variant ≠ .VA
  | .usmd | .usmdBuf | .br => c.protScheme ≠ .none
  | .rr => c.protScheme = .reloc ∨ c.protScheme = .xvm
  | .mmr => c.protScheme = .xvm
  | .fmaS | .fmaE | .fmaHi | .fmaLo | .fmbS | .fmbE | .fmbHi | .fmbLo | .fmq | .fguard | .jeaBase => c.hasFP15 = true
  | _ => True

theorem hasRegister_iff {c : Cfg} {r : RegName} : hasRegister c r = true ↔ HasRegister c r := by
  cases r <;> simp [hasRegister, HasRegister, Cfg.hasIndex]

theorem State.deposit_of_hasRegister {s : State} {r : RegName} (v : Nat) (h : HasRegister s.cfg r) :
    s.deposit r v = s.putRegister r v := if_pos (hasRegister_iff.mpr h)

theorem State.deposit_of_absent {s : State} {r : RegName} (v : Nat) (h : ¬HasRegister s.cfg r) : s.deposit r v = s :=
  if_neg (mt hasRegister_iff.mp h)

/-! ## Deposit, then examine -/

theorem depositOfARegister : Clause.DepositOfARegister := by
  intro s r v hpcq c present hpresent
  have hput : s.deposit r v = s.putRegister r v := State.deposit_of_hasRegister v hpresent
  obtain ⟨-, hmem, -⟩ := s.deposit_frame r v
  refine ⟨?_, fun r' hne => ?_, hmem, fun hne => ?_⟩ <;> rw [hput]
  · exact s.examine_putRegister_same v hpcq
  · exact s.examine_putRegister_other v hne
  · exact s.runState_putRegister_of_ne v hne

theorem depositOfAnAbsentRegister : Clause.DepositOfAnAbsentRegister := by
  intro s r v c
  refine ⟨fun h => ?_, fun h => ?_, fun h => ?_, fun h => ?_, fun h => ?_, fun h => ?_, fun h => ?_⟩
  · rintro (rfl | rfl) <;> exact State.deposit_of_absent v h
  · rintro (rfl | rfl | rfl) <;> exact State.deposit_of_absent v (Bool.eq_false_iff.mp h)
  · rintro (rfl | rfl) <;> exact State.deposit_of_absent v (not_not_intro h)
  · rintro (rfl | rfl | rfl | rfl | rfl) <;> exact State.deposit_of_absent v (by simp [HasRegister, c, h])
  · rintro (rfl | rfl) <;> exact State.deposit_of_absent v (by simp [HasRegister, c, h])
  · rintro rfl
    exact State.deposit_of_absent v (by simp [HasRegister, c, h])
  · rintro (rfl | rfl | rfl | rfl | rfl | rfl | rfl | rfl | rfl | rfl | rfl) <;>
      exact State.deposit_of_absent v (Bool.eq_false_iff.mp h)

/-- Settles O18: which registers there are, what a write leaves in its own, and that no other name reads the field it writes. -/
theorem depositThenExamine : Obligations.DepositThenExamine := ⟨depositOfARegister, depositOfAnAbsentRegister⟩

end Sys2Proof.Machine
end
